-- ==== Sys2Proof/Word.lean ====
section
/-! DEFINITION. The word types of the port and the index types of the tables. -/

namespace Sys2Proof

/-- A byte of the office port or of a lane. -/
abbrev Byte := BitVec 8

/-- A denomination code, 0 to 11 (R5). -/
abbrev Code := Fin 12

/-- A till, its number less one: tills 1 to 96 (R25). -/
abbrev TillIx := Fin 96

/-- A count lane, 0 to 3 (R60). -/
abbrev LaneIx := Fin 4

/-- A bag, its number less one: bags 1 to 48 (R105). -/
abbrev BagIx := Fin 48

/-- A manifest slot, 0 or 1 (R122). -/
abbrev SlotIx := Fin 2

/-- A compartment of the rack, 0 to 3 (R114). -/
abbrev CompIx := Fin 4

/-- A float template, A to D as 0 to 3 (R22). -/
abbrev TemplateIx := Fin 4

/-- A set of denomination codes, one bit a code (the layout of the profile mask, R62). -/
abbrev CodeSet := BitVec 12

end Sys2Proof
end

