-- ==== Sys2Proof/Config.lean ====
section
/-! DEFINITION. The free values: what the spec leaves open. None has a body, so nothing can be proved of
the value it takes. -/

namespace Sys2Proof

/-- The rank by which the lines that changed while RESET# was asserted are acted on at its deassertion.
The spec gives no order (R165). The first argument is the free-value counter, the second the line (0
ROUND-IN, 1 COURIER-IN, 2 DOOR-SENSE, 3 SUPPLY-WARN). Log entry 8. -/
opaque Config.lineRank : Nat → Nat → Nat

/-- The byte a read transfer finds on the bus while the main supply is off (R164). Log entry 12. -/
opaque Config.busFloat : Nat → Byte

/-- The counted value that the reply of an AUDIT commit carries when the exact value, the argument, is
above 2,000,000,000: the spec gives none (R85, R100). Log entry 18. -/
opaque Config.auditHeadValue : Nat → Nat

end Sys2Proof
end

