-- ==== Sys2Proof/Syntax.lean ====
section
/-! DEFINITION. The commands of the block: one constructor of `Instr` for each row of the table of
operations and events, with the operands the row takes from outside. -/

namespace Sys2Proof

/-- A command row is either the whole command (the command write and its completion, with nothing
between them) or the command write alone: BUSY is then set and the completion is a COMMAND_COMPLETION
of its own, before which other events may fall (R173). DESIGN CHOICE, safe (log entry 2). -/
inductive Pace where
  | whole
  | begun
  deriving DecidableEq, Repr

/-- The operands of a command byte that are not its code: the NOTIFY bit (bit 7, R172) and the pace. -/
structure CmdWrite where
  notify : Bool
  pace : Pace
  deriving DecidableEq, Repr

/-- A character as a lane receiver sees it (R60, R61): 8 data bits and whether its stop bit came. -/
structure RxChar where
  data : Byte
  stop : Bool
  deriving DecidableEq, Repr

/-- The commands of the command table (section 11.3). -/
inductive Cmd where
  | nop
  | statusRead
  | attnRead
  | attnEnable
  | attnClear
  | clockSet
  | clockRead
  | retain
  | release
  | recordsClear
  | overrideSet
  | doorOpen
  | doorLock
  | doorRead
  | denomSet
  | denomRead
  | stockRead
  | officeRead
  | limitsSet
  | limitsRead
  | templateSet
  | templateRead
  | tillSetup
  | floatIssue
  | floatCancel
  | tillOpen
  | topupIssue
  | posCash
  | tillClose
  | tillRead
  | varianceAccept
  | recount
  | callPost
  | callTake
  | callCancel
  | callRead
  | roundSet
  | roundTimer
  | roundNow
  | roundRead
  | laneProfile
  | laneReset
  | laneClear
  | laneRead
  | countOpen
  | countHold
  | countResume
  | countVoid
  | countRolls
  | countCommit
  | countAbort
  | auditRead
  | auditAccept
  | auditDiscard
  | bagOpen
  | bagAdd
  | bagReturn
  | bagShut
  | bagBreak
  | bagRead
  | rackSet
  | rackRead
  | manCreate
  | manAdd
  | manRemove
  | manClose
  | manCancel
  | courierArrive
  | bagScan
  | manResume
  | courierSign
  | manReopen
  | manRead
  deriving DecidableEq, Repr

/-- One constructor for each row of spec/opcode_table.json. A command of the port takes its arguments
from the argument buffer (R172), so its only operand is the `CmdWrite`. A line row carries the new level
of its line, a lane row the lane and the fields of the frame. -/
inductive Instr where
  /-- ARGUMENT_WRITE (R171) -/
  | argumentWrite (b : Byte)
  /-- REPLY_READ (R174) -/
  | replyRead
  /-- STATUS_BYTE_READ (R175) -/
  | statusByteRead
  /-- DONE_ACKNOWLEDGE (R177) -/
  | doneAcknowledge
  /-- UNKNOWN_COMMAND (R172) -/
  | unknownCommand (code : BitVec 7) (w : CmdWrite)
  /-- NOP (R181) -/
  | nop (w : CmdWrite)
  /-- STATUS_READ (R167) -/
  | statusRead (w : CmdWrite)
  /-- ATTN_READ (R179) -/
  | attnRead (w : CmdWrite)
  /-- ATTN_ENABLE (R179) -/
  | attnEnable (w : CmdWrite)
  /-- ATTN_CLEAR (R180) -/
  | attnClear (w : CmdWrite)
  /-- CLOCK_SET (R157) -/
  | clockSet (w : CmdWrite)
  /-- CLOCK_READ (R158) -/
  | clockRead (w : CmdWrite)
  /-- RETAIN (R160) -/
  | retain (w : CmdWrite)
  /-- RELEASE (R163) -/
  | release (w : CmdWrite)
  /-- RECORDS_CLEAR (R168) -/
  | recordsClear (w : CmdWrite)
  /-- OVERRIDE_SET (R147) -/
  | overrideSet (w : CmdWrite)
  /-- DOOR_OPEN (R149) -/
  | doorOpen (w : CmdWrite)
  /-- DOOR_LOCK (R150) -/
  | doorLock (w : CmdWrite)
  /-- DOOR_READ (R153) -/
  | doorRead (w : CmdWrite)
  /-- DENOM_SET (R7) -/
  | denomSet (w : CmdWrite)
  /-- DENOM_READ (R8) -/
  | denomRead (w : CmdWrite)
  /-- STOCK_READ (R14) -/
  | stockRead (w : CmdWrite)
  /-- OFFICE_READ (R17) -/
  | officeRead (w : CmdWrite)
  /-- LIMITS_SET (R19) -/
  | limitsSet (w : CmdWrite)
  /-- LIMITS_READ (R20) -/
  | limitsRead (w : CmdWrite)
  /-- TEMPLATE_SET (R23) -/
  | templateSet (w : CmdWrite)
  /-- TEMPLATE_READ (R24) -/
  | templateRead (w : CmdWrite)
  /-- TILL_SETUP (R26) -/
  | tillSetup (w : CmdWrite)
  /-- FLOAT_ISSUE (R31) -/
  | floatIssue (w : CmdWrite)
  /-- FLOAT_CANCEL (R32) -/
  | floatCancel (w : CmdWrite)
  /-- TILL_OPEN (R33) -/
  | tillOpen (w : CmdWrite)
  /-- TOPUP_ISSUE (R34) -/
  | topupIssue (w : CmdWrite)
  /-- POS_CASH (R35) -/
  | posCash (w : CmdWrite)
  /-- TILL_CLOSE (R37) -/
  | tillClose (w : CmdWrite)
  /-- TILL_READ (R39) -/
  | tillRead (w : CmdWrite)
  /-- VARIANCE_ACCEPT (R96) -/
  | varianceAccept (w : CmdWrite)
  /-- RECOUNT (R98) -/
  | recount (w : CmdWrite)
  /-- CALL_POST (R47) -/
  | callPost (w : CmdWrite)
  /-- CALL_TAKE (R48) -/
  | callTake (w : CmdWrite)
  /-- CALL_CANCEL (R49) -/
  | callCancel (w : CmdWrite)
  /-- CALL_READ (R50) -/
  | callRead (w : CmdWrite)
  /-- ROUND_SET (R51) -/
  | roundSet (w : CmdWrite)
  /-- ROUND_TIMER (R52) -/
  | roundTimer (w : CmdWrite)
  /-- ROUND_NOW (R54) -/
  | roundNow (w : CmdWrite)
  /-- ROUND_READ (R58) -/
  | roundRead (w : CmdWrite)
  /-- LANE_PROFILE (R66) -/
  | laneProfile (w : CmdWrite)
  /-- LANE_RESET (R69) -/
  | laneReset (w : CmdWrite)
  /-- LANE_CLEAR (R68) -/
  | laneClear (w : CmdWrite)
  /-- LANE_READ (R70) -/
  | laneRead (w : CmdWrite)
  /-- COUNT_OPEN (R72) -/
  | countOpen (w : CmdWrite)
  /-- COUNT_HOLD (R79) -/
  | countHold (w : CmdWrite)
  /-- COUNT_RESUME (R83) -/
  | countResume (w : CmdWrite)
  /-- COUNT_VOID (R77) -/
  | countVoid (w : CmdWrite)
  /-- COUNT_ROLLS (R78) -/
  | countRolls (w : CmdWrite)
  /-- COUNT_COMMIT (R85) -/
  | countCommit (w : CmdWrite)
  /-- COUNT_ABORT (R84) -/
  | countAbort (w : CmdWrite)
  /-- AUDIT_READ (R103) -/
  | auditRead (w : CmdWrite)
  /-- AUDIT_ACCEPT (R101) -/
  | auditAccept (w : CmdWrite)
  /-- AUDIT_DISCARD (R102) -/
  | auditDiscard (w : CmdWrite)
  /-- BAG_OPEN (R108) -/
  | bagOpen (w : CmdWrite)
  /-- BAG_ADD (R109) -/
  | bagAdd (w : CmdWrite)
  /-- BAG_RETURN (R110) -/
  | bagReturn (w : CmdWrite)
  /-- BAG_SHUT (R111) -/
  | bagShut (w : CmdWrite)
  /-- BAG_BREAK (R112) -/
  | bagBreak (w : CmdWrite)
  /-- BAG_READ (R113) -/
  | bagRead (w : CmdWrite)
  /-- RACK_SET (R119) -/
  | rackSet (w : CmdWrite)
  /-- RACK_READ (R120) -/
  | rackRead (w : CmdWrite)
  /-- MAN_CREATE (R126) -/
  | manCreate (w : CmdWrite)
  /-- MAN_ADD (R127) -/
  | manAdd (w : CmdWrite)
  /-- MAN_REMOVE (R128) -/
  | manRemove (w : CmdWrite)
  /-- MAN_CLOSE (R129) -/
  | manClose (w : CmdWrite)
  /-- MAN_CANCEL (R130) -/
  | manCancel (w : CmdWrite)
  /-- COURIER_ARRIVE (R131) -/
  | courierArrive (w : CmdWrite)
  /-- BAG_SCAN (R133) -/
  | bagScan (w : CmdWrite)
  /-- MAN_RESUME (R135) -/
  | manResume (w : CmdWrite)
  /-- COURIER_SIGN (R136) -/
  | courierSign (w : CmdWrite)
  /-- MAN_REOPEN (R138) -/
  | manReopen (w : CmdWrite)
  /-- MAN_READ (R143) -/
  | manRead (w : CmdWrite)
  /-- PIN_RESET (R165) -/
  | pinReset
  /-- RESET_DEASSERT (R165) -/
  | resetDeassert
  /-- COLD_POWER_UP (R166) -/
  | coldPowerUp (storeHeld : Bool)
  /-- SUPPLY_WARNING (R164) -/
  | supplyWarning (high : Bool)
  /-- COURIER_CALL (R142) -/
  | courierCall (high : Bool)
  /-- ROUND_IN_PULSE (R53) -/
  | roundInPulse (high : Bool)
  /-- DOOR_SENSE_CHANGE (R152) -/
  | doorSenseChange (open_ : Bool)
  /-- SECOND_TICK (R155) -/
  | secondTick
  /-- MINUTE_TICK (R155) -/
  | minuteTick
  /-- HOLD_TIMEOUT (R79) -/
  | holdTimeout (lane : LaneIx)
  /-- INTERVAL_END (R149) -/
  | intervalEnd
  /-- LOCKOUT_END (R146) -/
  | lockoutEnd
  /-- TIMER_EXPIRY (R53) -/
  | timerExpiry
  /-- WINDOW_EXPIRY (R137) -/
  | windowExpiry (slot : SlotIx)
  /-- ROUND_EVALUATION (R56) -/
  | roundEvaluation
  /-- FRAME_SENT (R60) -/
  | frameSent (lane : LaneIx)
  /-- HELLO (R67) -/
  | hello (lane : LaneIx) (model : Byte) (serial : BitVec 32)
  /-- BATCH (R74) -/
  | batch (lane : LaneIx) (seq : Byte) (code : Byte) (fit : BitVec 16) (unfit : BitVec 16) (suspect : BitVec 16)
  /-- END_FEED (R81) -/
  | endFeed (lane : LaneIx) (seq : Byte)
  /-- HOLD_ACK (R80) -/
  | holdAck (lane : LaneIx)
  /-- JAM (R82) -/
  | jam (lane : LaneIx) (jamCode : Byte)
  /-- PROTOCOL_FRAME (R62) -/
  | protocolFrame (lane : LaneIx) (kind : Byte) (body : List Byte)
  /-- FRAMING_ERROR (R61) -/
  | framingError (lane : LaneIx) (chars : List RxChar)
  /-- CHECK_ERROR (R61) -/
  | checkError (lane : LaneIx) (kind : Byte) (body : List Byte) (check : Byte)
  /-- COMMAND_COMPLETION (R173) -/
  | commandCompletion
  /-- SUPPLY_LOST (R164) -/
  | supplyLost
  deriving DecidableEq, Repr

end Sys2Proof
end

