-- ==== Sys2Proof/Machine/State.lean ====
section
/-! DEFINITION. The records of the part and the whole state, as plain data, with the state after reset.
`State.reset` is the part right after a cold power-up with the store lost (R166; log entry 1). -/

namespace Sys2Proof.Machine

/-- The reasons a step can stop with a fault: none. The part answers every command and every event with a
next state (section 10.5.1 gives refusal codes, which are values of the status byte). -/
inductive Fault where
  deriving DecidableEq, Repr

/-- The reasons a step can refuse. -/
inductive Refusal where
  /-- A command with no meaning in this model, by its mnemonic. Raised by no arm of `exec`. Safe. -/
  | notModelled (mnemonic : String)
  deriving DecidableEq, Repr

/-- A day and a minute of the clock, as a record holds them (R156). -/
structure Stamp where
  day : Nat
  minute : Nat
  deriving DecidableEq, Repr

/-- The refusal codes of section 10.5.1. -/
inductive PortCode where
  | ok | argument | state | unknown | full | stock | limit | code
  | lockout | window | profile | lane | clock | inUse | engaged | command
  deriving DecidableEq, Repr

/-- The six attention sources (R178). -/
inductive Source where
  | notify | call | round | lane | courier | safe
  deriving DecidableEq, Repr

/-- A transfer held while BUSY is set (R173). -/
inductive Held where
  | argument (b : Byte)
  | reply
  | command (b : Byte)
  deriving DecidableEq, Repr

/-- The office port (R170 to R178). ERR of the status byte is set exactly when `code` is not OK (R175). -/
structure Port where
  args : List Byte
  overflow : Bool
  reply : List Byte
  readPos : Nat
  code : PortCode
  inProgress : Option Byte
  held : List Held
  done : Bool
  attnPending : BitVec 6
  attnEnable : BitVec 6
  dataOut : Byte
  deriving DecidableEq, Repr

inductive DenomKind where
  | unused | note | roll
  deriving DecidableEq, Repr

/-- One entry of the denomination table (R5). -/
structure Denom where
  kind : DenomKind
  face : Nat
  eligible : Bool
  deriving DecidableEq, Repr

/-- The classes of cash (R9). -/
inductive CashClass where
  | fit | unfit | suspect
  deriving DecidableEq, Repr

/-- A count in each class. -/
structure Counts where
  fit : Nat
  unfit : Nat
  suspect : Nat
  deriving DecidableEq, Repr

/-- A count in each class for each code. -/
abbrev Comp := Vector Counts 12

/-- One entry of the stock table (R9). -/
structure StockEntry where
  counts : Counts
  frozen : Bool
  deriving DecidableEq, Repr

/-- The limits set (R18). -/
structure Limits where
  basisPoints : Nat
  floor : Nat
  cap : Nat
  skimUnit : Nat
  ceiling : Nat
  bagLimit : Nat
  deriving DecidableEq, Repr

/-- A float template (R22). -/
structure Template where
  targets : Vector Nat 12
  slack : Nat
  deriving DecidableEq, Repr

inductive TillState where
  | closed | issued | trading | closing | inCount | counted
  deriving DecidableEq, Repr

/-- The class of a reconciliation (R89). -/
inductive ReconClass where
  | balanced | over | short
  deriving DecidableEq, Repr

/-- The last result of a till (R27). -/
structure LastResult where
  c : Nat
  e : Int
  v : Int
  tol : Nat
  cls : ReconClass
  negExpect : Bool
  sv : Nat
  comp : Comp
  time : Option Stamp
  deriving DecidableEq, Repr

/-- A till record: its configuration (R26), its trading fields and its last result (R27). -/
structure Till where
  inService : Bool
  template : TemplateIx
  threshold : Nat
  state : TillState
  issue : Vector Nat 12
  f : Nat
  s : Nat
  r : Nat
  p : Nat
  pickups : Nat
  lane : Option LaneIx
  result : Option LastResult
  deriving DecidableEq, Repr

inductive CallKind where
  | skim | topup | collect
  deriving DecidableEq, Repr

/-- An entry of the call queue (R42). -/
structure CallEntry where
  till : TillIx
  kind : CallKind
  amount : Option Nat
  time : Option Stamp
  deriving DecidableEq, Repr

/-- How a round ended (R57). -/
inductive RoundEnd where
  | complete | queueFull | aborted
  deriving DecidableEq, Repr

/-- A round in flight (R53, R55). -/
structure RoundRun where
  start : Nat
  current : Nat
  raised : Nat
  merged : Nat
  deriving DecidableEq, Repr

/-- The last round summary (R57). -/
structure RoundSummary where
  kind : RoundEnd
  start : Nat
  raised : Nat
  merged : Nat
  resume : Nat
  time : Option Stamp
  deriving DecidableEq, Repr

/-- The round engine (R51, R52, R55, R57). -/
structure RoundEngine where
  list : List TillIx
  resume : Nat
  timerOn : Bool
  interval : Nat
  trigOn : Bool
  countdown : Option Nat
  run : Option RoundRun
  summary : Option RoundSummary
  deriving DecidableEq, Repr

inductive LaneState where
  | unprofiled | idle | opened | holding | held | ended | fault
  deriving DecidableEq, Repr

/-- The sequence expectation of a lane (R75). -/
inductive Expect where
  | absent
  | number (n : Byte)
  | any
  deriving DecidableEq, Repr

/-- The identity a counter announced (R63, R67). -/
structure Identity where
  model : Byte
  serial : BitVec 32
  deriving DecidableEq, Repr

/-- The eight lane errors (R65). -/
inductive LaneError where
  | framing | check | sequence | protocol | timeout | jam | restart | limit
  deriving DecidableEq, Repr

/-- The last discarded batch of a lane, as the frame gave it, and why it was discarded (R63, R74). -/
structure Discarded where
  seq : Byte
  code : Byte
  counts : Counts
  reason : LaneError
  deriving DecidableEq, Repr

/-- A batch record (R71). -/
structure Batch where
  seq : Byte
  code : Code
  counts : Counts
  deriving DecidableEq, Repr

/-- The purpose of a session with its target (R71). -/
inductive Purpose where
  | tillClose (till : TillIx)
  | pickup (till : TillIx)
  | delivery (number : Nat)
  | audit (codes : CodeSet)
  deriving DecidableEq, Repr

/-- A count session (R71). The stack is listed top first. -/
structure Session where
  purpose : Purpose
  accepted : CodeSet
  folded : Comp
  stack : List Batch
  rolls : Vector Nat 12
  deriving DecidableEq, Repr

/-- A lane receiver: hunting with its skip mark, or collecting the characters after a SYNC (R61). -/
inductive Receiver where
  | hunting (skip : Bool)
  | collecting (got : List Byte)
  deriving DecidableEq, Repr

/-- A frame the part sends (R62). -/
inductive TxFrame where
  | profile (mask : CodeSet) (speed : Fin 4)
  | start
  | hold
  deriving DecidableEq, Repr

/-- A frame being sent, with the speed at which it began (R60). -/
structure Sending where
  frame : TxFrame
  speed : Fin 4
  deriving DecidableEq, Repr

/-- A lane transmitter (R60). `draining` is set by a LANE-RESET whose frames are still going out: the
transmitter takes 9,600 bit/s once the last HOLD is sent. DEDUCED (log entry 22). -/
structure Transmitter where
  sending : Option Sending
  waiting : List TxFrame
  speed : Fin 4
  draining : Bool
  deriving DecidableEq, Repr

/-- A count lane (R63), with its receiver (R61) and transmitter (R60). -/
structure Lane where
  state : LaneState
  speed : Fin 4
  mask : CodeSet
  identity : Option Identity
  expect : Expect
  errors : Byte
  jam : Option Byte
  discarded : Option Discarded
  hold : Option Nat
  session : Option Session
  rx : Receiver
  rxSpeed : Fin 4
  tx : Transmitter
  deriving DecidableEq, Repr

/-- The audit result (R99). Codes outside the set hold zeros. -/
structure AuditResult where
  codes : CodeSet
  stock : Comp
  counted : Comp
  diff : Vector Int 12
  total : Int
  deriving DecidableEq, Repr

inductive BagKind where
  | takings | unfit | suspect
  deriving DecidableEq, Repr

inductive BagState where
  | filling | shut | placed | manifested | heldBack
  deriving DecidableEq, Repr

/-- A line of a bag's contents (R105). -/
structure BagLine where
  code : Code
  cls : CashClass
  count : Nat
  deriving DecidableEq, Repr

/-- A bag record (R105). -/
structure Bag where
  tag : Nat
  kind : BagKind
  state : BagState
  lines : List BagLine
  units : Nat
  value : Nat
  suspectSum : Nat
  comp : Option CompIx
  time : Option Stamp
  deriving DecidableEq, Repr

/-- The compartment rack (R114). -/
structure Rack where
  comps : Vector (List BagIx) 4
  k : Nat
  ptr : CompIx
  halt : Bool
  queue : List BagIx
  deriving DecidableEq, Repr

inductive ManState where
  | draft | ready | bags | suspended | receiving | counted | locked | expired
  deriving DecidableEq, Repr

/-- The mismatch policy of a collection (R123). -/
inductive Policy where
  | halt | setAside | rescan
  deriving DecidableEq, Repr

inductive EntryStatus where
  | pending | accepted | setAside
  deriving DecidableEq, Repr

/-- A bag entry of a collection manifest (R123). -/
structure Entry where
  bag : BagIx
  tag : Nat
  status : EntryStatus
  rescans : Nat
  deriving DecidableEq, Repr

/-- The fields of a COLLECTION manifest (R123). -/
structure Collection where
  policy : Policy
  rescanLimit : Nat
  entries : List Entry
  halted : Option Nat
  deriving DecidableEq, Repr

/-- A declared line of a delivery (R124). -/
structure DeclLine where
  code : Code
  count : Nat
  deriving DecidableEq, Repr

/-- A line of the delivery variance (R141). -/
structure VarLine where
  code : Code
  declared : Nat
  counted : Nat
  unitVar : Int
  valueVar : Int
  deriving DecidableEq, Repr

/-- What the count of a delivery found (R124, R140, R141). -/
structure DeliveryCount where
  figures : Comp
  value : Nat
  variance : List VarLine
  total : Int
  deriving DecidableEq, Repr

/-- The fields of a DELIVERY manifest (R124). -/
structure Delivery where
  lines : List DeclLine
  declared : Nat
  lane : Option LaneIx
  count : Option DeliveryCount
  deriving DecidableEq, Repr

inductive ManBody where
  | collection (c : Collection)
  | delivery (d : Delivery)
  deriving DecidableEq, Repr

/-- A manifest (R122). -/
structure Manifest where
  number : Nat
  state : ManState
  courier : Nat
  opens : Stamp
  closes : Stamp
  wrong : Nat
  body : ManBody
  deriving DecidableEq, Repr

/-- The cause of a LEFT-OPEN event (R151). -/
inductive LockCause where
  | interval | handover | retain | reset
  deriving DecidableEq, Repr

inductive DoorEventKind where
  | leftOpen (cause : LockCause)
  | forced
  deriving DecidableEq, Repr

/-- The last door event (R151, R152). -/
structure DoorEvent where
  kind : DoorEventKind
  time : Option Stamp
  deriving DecidableEq, Repr

/-- The door controller (R148 to R152). The door-sense state is `State.taken.doorOpen`. -/
structure Door where
  unlocked : Bool
  interval : Option Nat
  leftOpen : Bool
  event : Option DoorEvent
  deriving DecidableEq, Repr

/-- The authority unit (R145, R146). -/
structure Authority where
  code : Nat
  failures : Nat
  lockout : Nat
  deriving DecidableEq, Repr

/-- The clock and the sub-minute count (R155, R156). -/
structure Clock where
  isSet : Bool
  day : Nat
  minute : Nat
  sub : Nat
  deriving DecidableEq, Repr

inductive RetKind where
  | none | watch | deep
  deriving DecidableEq, Repr

inductive EntryPath where
  | retain | supply
  deriving DecidableEq, Repr

inductive ResetCause where
  | power | storeLost | pin | retention | supply
  deriving DecidableEq, Repr

/-- The retention controller (section 9.2). -/
structure Retention where
  kind : RetKind
  latch : Bool
  path : Option EntryPath
  cause : ResetCause
  storeValid : Bool
  deriving DecidableEq, Repr

/-- The levels of the line inputs (R183, section 10.10): high is asserted, and DOOR-SENSE high is OPEN. -/
structure Lines where
  roundIn : Bool
  courierIn : Bool
  doorOpen : Bool
  supplyWarn : Bool
  deriving DecidableEq, Repr

/-- An event that a tick has brought about and that takes place at that tick (R52, R79, R125, R146, R149,
R155). Log entry 4. -/
inductive TickEvent where
  | holdTimeout (lane : LaneIx)
  | intervalEnd
  | minuteTick
  | timerExpiry
  | lockoutEnd
  | windowExpiry (slot : SlotIx)
  deriving DecidableEq, Repr

/-- The whole state. `lines` are the levels at the pins and `taken` the levels the part last took (R165,
R183). `due`, `freeCount` and `pending` are the model's own. -/
structure State where
  port : Port
  denoms : Vector Denom 12
  stock : Vector StockEntry 12
  balance : Nat
  limits : Limits
  templates : Vector Template 4
  tills : Vector Till 96
  calls : List CallEntry
  callOverflow : Bool
  round : RoundEngine
  lanes : Vector Lane 4
  audit : Option AuditResult
  bags : Vector (Option Bag) 48
  rack : Rack
  mans : Vector (Option Manifest) 2
  door : Door
  auth : Authority
  clock : Clock
  ret : Retention
  lines : Lines
  taken : Lines
  resetLow : Bool
  powered : Bool
  due : List TickEvent
  freeCount : Nat
  pending : List Instr
  deriving DecidableEq, Repr

/-- The port after a cold power-up (R166, R182), but for the byte last read. -/
def Port.cleared (dataOut : Byte) : Port :=
  { args := [], overflow := false, reply := [], readPos := 0, code := .ok, inProgress := none,
    held := [], done := false, attnPending := 0, attnEnable := 0, dataOut := dataOut }

/-- An UNUSED entry (R5, R21). -/
def Denom.unusedEntry : Denom := { kind := .unused, face := 0, eligible := false }

def Counts.zero : Counts := { fit := 0, unfit := 0, suspect := 0 }

def StockEntry.empty : StockEntry := { counts := Counts.zero, frozen := false }

/-- No counts at all. -/
def Comp.zero : Comp := Vector.replicate 12 Counts.zero

/-- The default limits (R18). -/
def Limits.default : Limits :=
  { basisPoints := 10, floor := 1000, cap := 20000, skimUnit := 10000, ceiling := 10000000,
    bagLimit := 250000000 }

/-- The cold value of a template (R40). -/
def Template.cold : Template := { targets := Vector.replicate 12 0, slack := 0 }

/-- The cold value of a till record (R40). -/
def Till.cold : Till :=
  { inService := false, template := 0, threshold := 0, state := .closed,
    issue := Vector.replicate 12 0, f := 0, s := 0, r := 0, p := 0, pickups := 0, lane := none,
    result := none }

/-- The cold value of the round engine (R59). -/
def RoundEngine.cold : RoundEngine :=
  { list := [], resume := 0, timerOn := false, interval := 30, trigOn := false, countdown := none,
    run := none, summary := none }

/-- An idle transmitter at 9,600 bit/s (R60). -/
def Transmitter.idle : Transmitter := { sending := none, waiting := [], speed := 0, draining := false }

/-- An UNPROFILED lane at 9,600 bit/s (R86). -/
def Lane.unprofiled : Lane :=
  { state := .unprofiled, speed := 0, mask := 0, identity := none, expect := .absent, errors := 0,
    jam := none, discarded := none, hold := none, session := none, rx := .hunting false, rxSpeed := 0,
    tx := Transmitter.idle }

/-- The cold value of the rack (R121). -/
def Rack.cold : Rack :=
  { comps := Vector.replicate 4 [], k := 6, ptr := 0, halt := false, queue := [] }

/-- The cold value of the door controller (R154). -/
def Door.cold : Door := { unlocked := false, interval := none, leftOpen := false, event := none }

/-- The cold value of the authority unit (R147, R154). -/
def Authority.cold : Authority := { code := 0, failures := 0, lockout := 0 }

/-- The clock unset, with the sub-minute count at 0 (R155, R166). -/
def Clock.unset : Clock := { isSet := false, day := 0, minute := 0, sub := 0 }

/-- The retention controller after a cold power-up with the store lost (R166, R169). -/
def Retention.cold : Retention :=
  { kind := .none, latch := false, path := none, cause := .storeLost, storeValid := true }

def Lines.low : Lines := { roundIn := false, courierIn := false, doorOpen := false, supplyWarn := false }

/-- The part right after a cold power-up with the store lost (R166), every line input low, RESET#
deasserted. DESIGN CHOICE (log entry 1). -/
def State.reset : State :=
  { port := Port.cleared 0
    denoms := Vector.replicate 12 Denom.unusedEntry
    stock := Vector.replicate 12 StockEntry.empty
    balance := 0
    limits := Limits.default
    templates := Vector.replicate 4 Template.cold
    tills := Vector.replicate 96 Till.cold
    calls := []
    callOverflow := false
    round := RoundEngine.cold
    lanes := Vector.replicate 4 Lane.unprofiled
    audit := none
    bags := Vector.replicate 48 none
    rack := Rack.cold
    mans := Vector.replicate 2 none
    door := Door.cold
    auth := Authority.cold
    clock := Clock.unset
    ret := Retention.cold
    lines := Lines.low
    taken := Lines.low
    resetLow := false
    powered := true
    due := []
    freeCount := 0
    pending := [] }

end Sys2Proof.Machine
end

