-- ==== Sys2Proof/Machine/Flags.lean ====
section
/-! DEFINITION. Every mark, mask, code and flag byte of the port: the attention sets, the status byte, the
refusal codes, the lane errors, and the enumerations of section 11.1 as bytes. -/

namespace Sys2Proof.Machine

/-- A mark of weight `w` (section 11.3). -/
def mark (w : Nat) (b : Bool) : Nat := if b then w else 0

/-- The weight of a source in the attention masks (R178). -/
def Source.weight : Source → BitVec 6
  | .notify => 1
  | .call => 2
  | .round => 4
  | .lane => 8
  | .courier => 16
  | .safe => 32

/-- The value of a refusal code (section 10.5.1). -/
def PortCode.value : PortCode → Nat
  | .ok => 0
  | .argument => 1
  | .state => 2
  | .unknown => 3
  | .full => 4
  | .stock => 5
  | .limit => 6
  | .code => 7
  | .lockout => 8
  | .window => 9
  | .profile => 10
  | .lane => 11
  | .clock => 12
  | .inUse => 13
  | .engaged => 14
  | .command => 15

/-- The level of ATTN: some source is both pending and enabled (R178). -/
def Port.attn (p : Port) : Bool := (p.attnPending &&& p.attnEnable) != 0

/-- BUSY: a command is in progress (R173). -/
def Port.busy (p : Port) : Bool := p.inProgress.isSome

/-- READY: low while a transfer is held (R173). -/
def Port.ready (p : Port) : Bool := p.held.isEmpty

/-- The status byte (R175): BUSY, ERR, ATTN, RETAINED and the refusal code. In DEEP retention nothing of
it changes, so it reads as at entry with BUSY clear and RETAINED set (R182). -/
def State.statusByte (s : State) : Byte :=
  BitVec.ofNat 8
    (mark 128 s.port.busy + mark 64 (s.port.code != .ok) + mark 32 s.port.attn +
      mark 16 s.ret.latch + s.port.code.value)

/-- Sets the pending bit of a source, whatever its enable bit holds (R178). -/
def State.raise (src : Source) (s : State) : State :=
  { s with port := { s.port with attnPending := s.port.attnPending ||| src.weight } }

/-- The weight of a lane error (section 11.1). -/
def LaneError.weight : LaneError → Byte
  | .framing => 1
  | .check => 2
  | .sequence => 4
  | .protocol => 8
  | .timeout => 16
  | .jam => 32
  | .restart => 64
  | .limit => 128

def DenomKind.value : DenomKind → Nat
  | .unused => 0
  | .note => 1
  | .roll => 2

def CashClass.value : CashClass → Nat
  | .fit => 0
  | .unfit => 1
  | .suspect => 2

def TillState.value : TillState → Nat
  | .closed => 0
  | .issued => 1
  | .trading => 2
  | .closing => 3
  | .inCount => 4
  | .counted => 5

def ReconClass.value : ReconClass → Nat
  | .balanced => 0
  | .over => 1
  | .short => 2

/-- The flags of a result: NEG-EXPECT 1, SIGN 2 when V is below 0, ZERO 4 when V is 0 (R88). -/
def resultFlags (negExpect : Bool) (v : Int) : Nat :=
  mark 1 negExpect + mark 2 (decide (v < 0)) + mark 4 (decide (v = 0))

def CallKind.value : CallKind → Nat
  | .skim => 1
  | .topup => 2
  | .collect => 3

def RoundEnd.value : RoundEnd → Nat
  | .complete => 1
  | .queueFull => 2
  | .aborted => 3

def LaneState.value : LaneState → Nat
  | .unprofiled => 0
  | .idle => 1
  | .opened => 2
  | .holding => 3
  | .held => 4
  | .ended => 5
  | .fault => 6

def Purpose.value : Purpose → Nat
  | .tillClose _ => 1
  | .pickup _ => 2
  | .delivery _ => 3
  | .audit _ => 4

/-- The target of a session as the two bytes of a reply carry it (section 11.3). -/
def Purpose.target : Purpose → Nat
  | .tillClose t => t.val + 1
  | .pickup t => t.val + 1
  | .delivery n => n
  | .audit m => m.toNat

def BagKind.value : BagKind → Nat
  | .takings => 1
  | .unfit => 2
  | .suspect => 3

def BagState.value : BagState → Nat
  | .filling => 0
  | .shut => 1
  | .placed => 2
  | .manifested => 3
  | .heldBack => 4

def ManState.value : ManState → Nat
  | .draft => 0
  | .ready => 1
  | .bags => 2
  | .suspended => 3
  | .receiving => 4
  | .counted => 5
  | .locked => 6
  | .expired => 7

def ManBody.value : ManBody → Nat
  | .collection _ => 1
  | .delivery _ => 2

def Policy.value : Policy → Nat
  | .halt => 1
  | .setAside => 2
  | .rescan => 3

def EntryStatus.value : EntryStatus → Nat
  | .pending => 0
  | .accepted => 1
  | .setAside => 2

def LockCause.value : LockCause → Nat
  | .interval => 1
  | .handover => 2
  | .retain => 3
  | .reset => 4

def DoorEventKind.value : DoorEventKind → Nat
  | .leftOpen _ => 1
  | .forced => 2

/-- The cause byte of a door event: 0 for FORCED, which has none (R153). -/
def DoorEventKind.cause : DoorEventKind → Nat
  | .leftOpen c => c.value
  | .forced => 0

def RetKind.value : RetKind → Nat
  | .none => 0
  | .watch => 1
  | .deep => 2

def ResetCause.value : ResetCause → Nat
  | .power => 1
  | .storeLost => 2
  | .pin => 3
  | .retention => 4
  | .supply => 5

/-- The entry path, 0 when absent (section 11.1). -/
def pathValue : Option EntryPath → Nat
  | none => 0
  | some .retain => 1
  | some .supply => 2

end Sys2Proof.Machine
end

