-- ==== Sys2Proof/Machine/Ops.lean ====
section
/-! DEFINITION. The shared operations: byte layouts, bounds, tables, money, stock movements, the office
balance, the door output, the authority check, the call queue, the round engine's start and end, lane
frames and errors, session release, placement and the lift of a halt. -/

namespace Sys2Proof.Machine

/-! ### Bytes -/

/-- A byte of a reply. -/
def byte (n : Nat) : Byte := BitVec.ofNat 8 n

/-- A number in `w` bytes, low byte first (chapter 11). -/
def le : Nat → Nat → List Byte
  | 0, _ => []
  | w + 1, n => byte n :: le w (n / 256)

/-- A signed number in `w` bytes, two's complement, low byte first (chapter 11). -/
def leInt (w : Nat) (n : Int) : List Byte := le w (n % (256 ^ w : Nat)).toNat

/-- The number that bytes carry, low byte first. -/
def leNat : List Byte → Nat
  | [] => 0
  | b :: r => b.toNat + 256 * leNat r

/-- A yes-or-no byte. -/
def boolByte (b : Bool) : Byte := if b then 1 else 0

/-- An absent one-byte index: bound lane, compartment, slot or halted entry (chapter 11). -/
def indexByte : Option Nat → Byte
  | none => 0xFF
  | some n => byte n

/-- A day and a minute, each in 2 bytes, zeros when absent (chapter 11). -/
def stampBytes : Option Stamp → List Byte
  | none => le 2 0 ++ le 2 0
  | some t => le 2 t.day ++ le 2 t.minute

/-! ### Bounds -/

/-- The top of a held amount (R1). -/
def maxAmount : Nat := 2000000000

/-- The top of a stock count (R3). -/
def maxStock : Nat := 999999

/-- The top of a count in a record (R3). -/
def maxCount : Nat := 65535

/-- A signed result saturates at both ends (R2). -/
def saturate (n : Int) : Int := max (-2000000000) (min 2000000000 n)

/-- An informational sum stops at the top of a held amount (R2). -/
def stopAt (n : Nat) : Nat := min maxAmount n

/-- A value clamped to a range (R185). -/
def clamp (lo hi n : Nat) : Nat := max lo (min hi n)

/-! ### Tables -/

/-- The 12 codes in order. -/
def codes : List Code := [0, 1, 2, 3, 4, 5, 6, 7, 8, 9, 10, 11]

/-- The 4 lanes (also compartments) in order. -/
def lanesAll : List LaneIx := [0, 1, 2, 3]

/-- A table of 12 from a function of the code. -/
def tab {α : Type} (f : Code → α) : Vector α 12 :=
  ⟨#[f 0, f 1, f 2, f 3, f 4, f 5, f 6, f 7, f 8, f 9, f 10, f 11], rfl⟩

/-- The entries of a table, each changed by a function. -/
def mapT {α β : Type} {n : Nat} (f : α → β) (v : Vector α n) : Vector β n :=
  ⟨(v.toList.map f).toArray, by simp⟩

/-- A sum over the codes. -/
def sumCodes (f : Code → Nat) : Nat := (codes.map f).sum

/-- Whether a code set holds a code (R62). -/
def has (m : CodeSet) (c : Code) : Bool := m.getLsbD c.val

def State.till (s : State) (t : TillIx) : Till := s.tills[t]

def State.setTill (t : TillIx) (x : Till) (s : State) : State := { s with tills := s.tills.set t x }

def State.lane (s : State) (i : LaneIx) : Lane := s.lanes[i]

def State.setLane (i : LaneIx) (x : Lane) (s : State) : State := { s with lanes := s.lanes.set i x }

def State.bag (s : State) (b : BagIx) : Option Bag := s.bags[b]

def State.setBag (b : BagIx) (x : Option Bag) (s : State) : State := { s with bags := s.bags.set b x }

def State.man (s : State) (i : SlotIx) : Option Manifest := s.mans[i]

def State.setMan (i : SlotIx) (x : Option Manifest) (s : State) : State :=
  { s with mans := s.mans.set i x }

/-- The day and minute of the clock, absent while it is unset (R156). -/
def State.stamp (s : State) : Option Stamp :=
  if s.clock.isSet then some ⟨s.clock.day, s.clock.minute⟩ else none

/-- The position of a clock reading (R125, R156). -/
def position (day minute : Nat) : Nat := day * 1440 + minute

def Stamp.position (t : Stamp) : Nat := Sys2Proof.Machine.position t.day t.minute

def Clock.position (c : Clock) : Nat := Sys2Proof.Machine.position c.day c.minute

/-! ### Counts and values -/

def Counts.add (a b : Counts) : Counts := ⟨a.fit + b.fit, a.unfit + b.unfit, a.suspect + b.suspect⟩

def Counts.sub (a b : Counts) : Counts := ⟨a.fit - b.fit, a.unfit - b.unfit, a.suspect - b.suspect⟩

def Counts.get (a : Counts) : CashClass → Nat
  | .fit => a.fit
  | .unfit => a.unfit
  | .suspect => a.suspect

/-- A count of one class. -/
def Counts.only (k : CashClass) (n : Nat) : Counts :=
  match k with
  | .fit => ⟨n, 0, 0⟩
  | .unfit => ⟨0, n, 0⟩
  | .suspect => ⟨0, 0, n⟩

/-- The counts of one code and class and nothing else. -/
def Comp.only (c : Code) (k : CashClass) (n : Nat) : Comp :=
  tab fun d => if d = c then Counts.only k n else Counts.zero

/-- Fit counts per code. -/
def Comp.ofFit (v : Vector Nat 12) : Comp := tab fun c => ⟨v[c], 0, 0⟩

/-- The value of a set of counts: fit and unfit at face, suspect never (R4). -/
def valueOf (d : Vector Denom 12) (k : Comp) : Nat :=
  sumCodes fun c => (k[c].fit + k[c].unfit) * d[c].face

/-- The face sum of the suspect counts, exact (R2, R4). -/
def suspectOf (d : Vector Denom 12) (k : Comp) : Nat :=
  sumCodes fun c => k[c].suspect * d[c].face

/-- The units of a set of counts, suspect included (R85). -/
def unitsOf (k : Comp) : Nat :=
  sumCodes fun c => k[c].fit + k[c].unfit + k[c].suspect

/-- The value of fit counts per code (R4). -/
def fitValue (d : Vector Denom 12) (v : Vector Nat 12) : Nat :=
  sumCodes fun c => v[c] * d[c].face

/-! ### The stock table -/

/-- R10 step 1: a line with a nonzero count names a frozen denomination. -/
def touchesFrozen (s : State) (k : Comp) : Bool :=
  codes.any fun c => (k[c] != Counts.zero) && s.stock[c].frozen

/-- R10 step 2: an outgoing line exceeds the stock count it draws on. -/
def stockLacks (s : State) (k : Comp) : Bool :=
  codes.any fun c =>
    decide (s.stock[c].counts.fit < k[c].fit) || decide (s.stock[c].counts.unfit < k[c].unfit) ||
      decide (s.stock[c].counts.suspect < k[c].suspect)

/-- R10 step 3: an incoming line would take a stock count above 999,999. -/
def stockPasses (s : State) (k : Comp) : Bool :=
  codes.any fun c =>
    (k[c] != Counts.zero) &&
      (decide (maxStock < s.stock[c].counts.fit + k[c].fit) ||
        decide (maxStock < s.stock[c].counts.unfit + k[c].unfit) ||
        decide (maxStock < s.stock[c].counts.suspect + k[c].suspect))

/-- The refusal of a movement out of the stock, if any (R10). -/
def outRefusal (s : State) (k : Comp) : Option PortCode :=
  if touchesFrozen s k then some .inUse else if stockLacks s k then some .stock else none

/-- The refusal of a movement into the stock, if any (R10). -/
def inRefusal (s : State) (k : Comp) : Option PortCode :=
  if touchesFrozen s k then some .inUse else if stockPasses s k then some .limit else none

/-- A movement out of the stock, applied whole (R10). -/
def State.moveOut (k : Comp) (s : State) : State :=
  { s with stock := tab fun c => { s.stock[c] with counts := s.stock[c].counts.sub k[c] } }

/-- A movement into the stock, applied whole (R10). -/
def State.moveIn (k : Comp) (s : State) : State :=
  { s with stock := tab fun c => { s.stock[c] with counts := s.stock[c].counts.add k[c] } }

/-- Sets or lifts the frozen marks of a set of codes (R11). -/
def State.freeze (m : CodeSet) (b : Bool) (s : State) : State :=
  { s with stock := tab fun c => if has m c then { s.stock[c] with frozen := b } else s.stock[c] }

/-! ### The office balance -/

/-- A posting that would take B below 0 or above 2,000,000,000 (R15). -/
def postRefused (s : State) (delta : Int) : Bool :=
  decide ((s.balance : Int) + delta > 2000000000) || decide ((s.balance : Int) + delta < 0)

/-- A posting to B (R15). -/
def State.post (delta : Int) (s : State) : State :=
  { s with balance := ((s.balance : Int) + delta).toNat }

/-- The first part of the law: the valued stock (R16). -/
def State.stockValue (s : State) : Nat :=
  sumCodes fun c => (s.stock[c].counts.fit + s.stock[c].counts.unfit) * s.denoms[c].face

/-- A till whose F is in the float part of the law (R16). -/
def TillState.floatOut : TillState → Bool
  | .issued | .trading | .closing | .inCount => true
  | .closed | .counted => false

/-- The second part of the law: the floats out (R16). -/
def State.floatsOut (s : State) : Nat :=
  (s.tills.toList.map fun t => if t.state.floatOut then t.f else 0).sum

/-- The third part of the law: the values of the unretired bags (R16). -/
def State.bagValue (s : State) : Nat :=
  (s.bags.toList.map fun b => match b with | none => 0 | some x => x.value).sum

/-! ### Tills -/

/-- F + S − R − P, exact (R38, R88). -/
def Till.exactDrawer (t : Till) : Int := (t.f : Int) + t.s - t.r - t.p

/-- The drawer estimate D (R38). -/
def Till.drawer (t : Till) : Int := saturate t.exactDrawer

/-- A till entering CLOSED retires: configuration and last result stay (R29). -/
def Till.retire (t : Till) : Till :=
  { t with state := .closed, issue := Vector.replicate 12 0, f := 0, s := 0, r := 0, p := 0,
           pickups := 0, lane := none }

/-! ### The door output (R148, R151) -/

/-- A collection manifest in BAGS (R148). -/
def inBags (s : State) (i : SlotIx) : Bool :=
  match s.man i with
  | some m => m.state == .bags
  | none => false

/-- Some collection is at the door (R148). -/
def State.anyBags (s : State) : Bool := inBags s 0 || inBags s 1

/-- The conditions of the lock output (R148). -/
def State.shouldUnlock (s : State) : Bool :=
  !s.ret.latch && (s.anyBags || s.door.interval.isSome)

/-- The output is recomputed; a lock with the door sensed open is recorded as LEFT-OPEN with its cause, and
SAFE is set (R148, R151). -/
def State.recomputeDoor (cause : LockCause) (s : State) : State :=
  if s.door.unlocked && !s.shouldUnlock && s.taken.doorOpen then
    State.raise .safe
      { s with door := { s.door with unlocked := false, leftOpen := true,
                                     event := some ⟨.leftOpen cause, s.stamp⟩ } }
  else { s with door := { s.door with unlocked := s.shouldUnlock } }

/-! ### The answer of a command -/

/-- What a command's own checks and effects give: taken with its reply, or refused with a code. The state
of a refusal carries the changes the command's rule names as the effect of that refusal (R176). -/
inductive Answer where
  | taken (reply : List Byte) (s : State)
  | refused (reason : PortCode) (s : State)
  deriving DecidableEq, Repr

/-! ### The authority check (R145, R146) -/

/-- A command refused with CODE adds 1 to the failure count; the third starts the lockout and sets SAFE
(R146). -/
def State.wrongOverride (s : State) : State :=
  if s.auth.failures + 1 ≥ 3 then
    State.raise .safe { s with auth := { s.auth with failures := 0, lockout := 15 } }
  else { s with auth := { s.auth with failures := s.auth.failures + 1 } }

/-- The authority check, then what follows a matching code. The failure count is 0 from then on (R145). -/
def withAuthority (code : Nat) (s : State) (next : State → Answer) : Answer :=
  if s.auth.lockout > 0 then .refused .lockout s
  else if code > 999999 then .refused .argument s
  else if code ≠ s.auth.code then .refused .code s.wrongOverride
  else next { s with auth := { s.auth with failures := 0 } }

/-! ### The call queue (R42 to R46) -/

/-- An entry of a till and kind. -/
def CallEntry.isFor (t : TillIx) (k : CallKind) (e : CallEntry) : Bool :=
  decide (e.till = t) && decide (e.kind = k)

/-- The position of the entry for a till and kind, if the queue holds one (R42). -/
def State.callPos (s : State) (t : TillIx) (k : CallKind) : Option Nat :=
  s.calls.findIdx? (CallEntry.isFor t k)

def State.hasCall (s : State) (t : TillIx) (k : CallKind) : Bool :=
  s.calls.any (CallEntry.isFor t k)

/-- Removes the entry of a till and kind; those behind it close up (R42, R45). -/
def State.removeCall (t : TillIx) (k : CallKind) (s : State) : State :=
  { s with calls := s.calls.filter fun e => !e.isFor t k }

/-- The new suggested amount of a SKIM entry; position, day and minute stay (R43, R46). -/
def State.mergeCall (t : TillIx) (k : CallKind) (amount : Option Nat) (s : State) : State :=
  { s with calls := s.calls.map fun e =>
      if e.isFor t k && decide (k = .skim) then { e with amount := amount } else e }

inductive Raised where
  | merged | added | noRoom
  deriving DecidableEq, Repr

/-- How a raise is handled by the queue (R43). -/
def State.raiseOutcome (s : State) (t : TillIx) (k : CallKind) : Raised :=
  if s.hasCall t k then .merged else if s.calls.length < 32 then .added else .noRoom

/-- A raise of one pair of till and kind (R43): it merges, or adds at the tail and sets CALL, or finds no
room and changes nothing. -/
def State.raiseCall (t : TillIx) (k : CallKind) (amount : Option Nat) (s : State) : State :=
  match s.raiseOutcome t k with
  | .merged => s.mergeCall t k amount
  | .added => State.raise .call { s with calls := s.calls ++ [⟨t, k, amount, s.stamp⟩] }
  | .noRoom => s

/-- A call lost for want of room: the overflow flag and CALL are set (R44). -/
def State.loseCall (s : State) : State := State.raise .call { s with callOverflow := true }

/-- The suggested amount of a skim: whole skim units of D − F (R56 step 3). -/
def suggested (t : Till) (unit : Nat) : Nat := ((t.drawer - t.f).toNat / unit) * unit

/-- The threshold test and the amount of R56 step 3, as R46 uses them too: 0 when nothing is due. -/
def skimDue (t : Till) (unit : Nat) : Nat :=
  if t.threshold = 0 then 0 else if t.drawer < t.threshold then 0 else suggested t unit

/-! ### The round engine (R53, R57) -/

/-- The end of a round: IDLE, the resume position, the summary, and ROUND where the end sets it (R57). -/
def State.endRound (k : RoundEnd) (resume : Nat) (attn : Bool) (r : RoundRun) (s : State) : State :=
  let s' := { s with round := { s.round with
      run := none, resume := resume,
      summary := some ⟨k, r.start, r.raised, r.merged, resume, s.stamp⟩ } }
  if attn then State.raise .round s' else s'

/-- A taken trigger starts a round at the resume position with its counts at 0 (R53). A start at the end of
an empty list ends COMPLETE at once (R57). -/
def State.startRound (s : State) : State :=
  let r : RoundRun := ⟨s.round.resume, s.round.resume, 0, 0⟩
  if s.round.resume < s.round.list.length then
    { s with round := { s.round with run := some r } }
  else s.endRound .complete 0 true r

/-- A running round is cut short (R57): the resume position is the current position. -/
def State.abortRound (attn : Bool) (s : State) : State :=
  match s.round.run with
  | none => s
  | some r => s.endRound .aborted r.current attn r

/-! ### Lane frames (R60) -/

/-- PROFILE is one sort of waiting frame, START and HOLD the other (R60). -/
def TxFrame.isProfile : TxFrame → Bool
  | .profile _ _ => true
  | .start | .hold => false

/-- A frame is issued: sent at once by an idle transmitter, else it waits, in the place of a waiting frame
of its own sort and behind any other (R60). -/
def Transmitter.issue (f : TxFrame) (t : Transmitter) : Transmitter :=
  match t.sending with
  | none => { t with sending := some ⟨f, t.speed⟩ }
  | some _ => { t with waiting := t.waiting.filter (fun g => g.isProfile != f.isProfile) ++ [f] }

/-- LANE-RESET at the transmitter: a waiting PROFILE or START is dropped, a frame being sent and a waiting
HOLD go out, then it takes 9,600 bit/s (R60). -/
def Transmitter.reset (t : Transmitter) : Transmitter :=
  match t.sending with
  | none => Transmitter.idle
  | some _ => { t with waiting := t.waiting.filter (fun g => g == .hold), draining := true }

/-! ### Lane errors (R64, R65) -/

/-- A lane error is latched: in IDLE and FAULT it joins the latched set and LANE is set; in another session
state the lane also goes to FAULT, drops its hold countdown and issues HOLD (R64, R65). -/
def State.laneError (e : LaneError) (i : LaneIx) (s : State) : State :=
  let l := s.lane i
  match l.state with
  | .unprofiled => s
  | .idle | .fault =>
    State.raise .lane (s.setLane i { l with errors := l.errors ||| e.weight })
  | .opened | .holding | .held | .ended =>
    State.raise .lane (s.setLane i
      { l with errors := l.errors ||| e.weight, state := .fault, hold := none,
               tx := l.tx.issue .hold })

/-! ### Manifests by number (R122) -/

/-- The slot whose unretired manifest bears a number (R122). -/
def State.findMan (s : State) (number : Nat) : Option SlotIx :=
  if (s.man 0).any (fun m => m.number == number) then some 0
  else if (s.man 1).any (fun m => m.number == number) then some 1
  else none

/-- The session lane of a delivery is set or cleared (R139). -/
def Manifest.withLane (lane : Option LaneIx) (m : Manifest) : Manifest :=
  match m.body with
  | .collection _ => m
  | .delivery d => { m with body := .delivery { d with lane := lane } }

/-! ### Sessions (R71, R84) -/

/-- The session total of a code: folded total plus the stacked batches of the code (R71). -/
def Session.total (x : Session) (c : Code) : Counts :=
  x.stack.foldr (fun b a => if b.code = c then a.add b.counts else a) x.folded[c]

/-- The counted composition: session totals, and declared rolls as fit (R71, R87). -/
def Session.comp (x : Session) : Comp :=
  tab fun c => let t := x.total c; { t with fit := t.fit + x.rolls[c] }

/-- The bound record of a session that ends without a commit is released (R84). -/
def State.release (p : Purpose) (s : State) : State :=
  match p with
  | .tillClose t => s.setTill t { s.till t with lane := none, state := .closing }
  | .pickup t => s.setTill t { s.till t with lane := none }
  | .delivery n =>
    match s.findMan n with
    | none => s
    | some i => s.setMan i ((s.man i).map (Manifest.withLane none))
  | .audit m => s.freeze m false

/-- The session of a lane, if any, ends with the effects of COUNT-ABORT on its bound record (R84). -/
def State.releaseLane (s : State) (i : LaneIx) : State :=
  match (s.lane i).session with
  | none => s
  | some x => s.release x.purpose

/-- Every session ends and every lane goes to UNPROFILED at 9,600 bit/s with its frames dropped (R60,
R86). -/
def State.lanesDown (s : State) : State :=
  { lanesAll.foldl State.releaseLane s with lanes := Vector.replicate 4 Lane.unprofiled }

/-- Some lane holds a session (R159, R168). -/
def State.anySession (s : State) : Bool := lanesAll.any fun i => (s.lane i).session.isSome

/-- A manifest is in BAGS or RECEIVING (R157, R159, R168). -/
def Manifest.atDoor (m : Manifest) : Bool := m.state == .bags || m.state == .receiving

def State.anyAtDoor (s : State) : Bool :=
  (s.man 0).any Manifest.atDoor || (s.man 1).any Manifest.atDoor

/-! ### Bags and the rack (R105, R115 to R117) -/

/-- The counts of a bag's lines, per code and class (R105). -/
def linesComp (l : List BagLine) : Comp :=
  tab fun c => l.foldr (fun x a => if x.code = c then a.add (Counts.only x.cls x.count) else a) Counts.zero

/-- Takes a bag out of every list of the rack; those behind it close up (R112, R114). -/
def State.unplace (b : BagIx) (s : State) : State :=
  { s with rack := { s.rack with
      comps := mapT (fun l => l.filter (fun x => x != b)) s.rack.comps
      queue := s.rack.queue.filter (fun x => x != b) } }

/-- One placement into the pointer's compartment, with the rotation it may bring (R115, R116). -/
def State.placeOne (b : BagIx) (s : State) : State :=
  let c := s.rack.ptr
  let list := s.rack.comps[c] ++ [b]
  let s1 := { s with
    bags := s.bags.set b ((s.bag b).map fun x => { x with state := .placed, comp := some c })
    rack := { s.rack with comps := s.rack.comps.set c list } }
  if list.length < s.rack.k then s1
  else
    let p : CompIx := c + 1
    if s1.rack.comps[p].isEmpty then { s1 with rack := { s1.rack with ptr := p } }
    else State.raise .safe { s1 with rack := { s1.rack with ptr := p, halt := true } }

/-- Placement of a queue from its head while the halt mark is clear (R115). -/
def State.placeFrom : List BagIx → State → State
  | [], s => { s with rack := { s.rack with queue := [] } }
  | b :: r, s =>
    if s.rack.halt then { s with rack := { s.rack with queue := b :: r } }
    else State.placeFrom r (s.placeOne b)

/-- Placement (R115). -/
def State.place (s : State) : State := State.placeFrom s.rack.queue s

/-- The lift of a halt whose compartment is empty, with its placements (R117). -/
def State.liftHalt (s : State) : State :=
  if s.rack.halt && s.rack.comps[s.rack.ptr].isEmpty then
    { s with rack := { s.rack with halt := false } }.place
  else s

/-- A bag retires: its record leaves the table and the rack (R105). -/
def State.retireBag (b : BagIx) (s : State) : State := (s.setBag b none).unplace b

/-- The bag of an entry is present: an unretired bag holds its number and bears its tag (R123). -/
def State.entryPresent (s : State) (e : Entry) : Bool := (s.bag e.bag).any fun x => x.tag == e.tag

/-- The value of an entry's bag, 0 when it is not present (R143). -/
def State.entryValue (s : State) (e : Entry) : Nat :=
  if s.entryPresent e then (match s.bag e.bag with | none => 0 | some x => x.value) else 0

/-- The sum of the values of the bags of the entries that pass a test. -/
def State.entriesValue (s : State) (p : Entry → Bool) (l : List Entry) : Nat :=
  ((l.filter p).map s.entryValue).sum

/-- Entries of one status. -/
def countStatus (st : EntryStatus) (l : List Entry) : Nat :=
  (l.filter fun e => e.status == st).length

/-! ### Collections returned to READY (R137, R144) -/

/-- ACCEPTED entries revert to PENDING; SET-ASIDE entries stay (R137, R144). -/
def Collection.revert (c : Collection) : Collection :=
  { c with entries := c.entries.map fun e =>
      if e.status = .accepted then { e with status := .pending } else e }

/-- A manifest in BAGS goes to READY with its ACCEPTED entries reverted (R144). -/
def Manifest.leaveBags (m : Manifest) : Manifest :=
  if m.state = .bags then
    { m with state := .ready
             body := match m.body with
                     | .collection c => .collection c.revert
                     | .delivery d => .delivery d }
  else m

/-- Every manifest in BAGS goes to READY (R144). -/
def State.bagsToReady (s : State) : State :=
  { s with mans := mapT (fun o => o.map Manifest.leaveBags) s.mans }

/-! ### Reset and wake (R162, R165) -/

/-- The countdown of the round timer at a fresh start (R59). -/
def RoundEngine.fresh (r : RoundEngine) : RoundEngine :=
  { r with countdown := if r.timerOn then some r.interval else none }

/-- Work in flight ends as a pin reset ends it: sessions, lanes, a running round, a handover at the door,
the door interval, the round countdown and the call overflow flag (R59, R86, R144, R165). -/
def State.endWork (s : State) : State :=
  let s1 := (s.lanesDown.abortRound false).bagsToReady
  { s1 with round := s1.round.fresh, callOverflow := false, door := { s1.door with interval := none } }

/-- The reset cause of a wake from DEEP, by the entry path (R162). -/
def wakeCause : Option EntryPath → ResetCause
  | some .supply => .supply
  | some .retain | none => .retention

/-- The port after a pin reset: a held read is released with 00H (R165, R173, R182). -/
def Port.pinReset (p : Port) : Port :=
  Port.cleared (if p.held.contains .reply then 0 else p.dataOut)

/-- The effects of a pin reset, by the retention kind in which it arrives; a wake sets SAFE last (R162,
R165). -/
def State.pinReset (s : State) : State :=
  let kind := s.ret.kind
  let s1 := s.endWork.recomputeDoor .reset
  let s2 := { s1 with
    port := s1.port.pinReset
    ret := { s1.ret with
      kind := .none
      latch := s1.ret.latch || (kind != .none)
      cause := if kind = .deep then wakeCause s1.ret.path else .pin }
    clock := if kind = .deep then Clock.unset else s1.clock }
  if kind = .none then s2 else State.raise .safe s2

/-- A wake from WATCH: the part resumes without a reset, the latch stays set, SAFE is set (R162). -/
def State.wakeWatch (s : State) : State :=
  State.raise .safe { s with ret := { s.ret with kind := .none } }

end Sys2Proof.Machine
end

