-- ==== Sys2Proof/Machine/Operands.lean ====
section
/-! DEFINITION. How a command reads its argument bytes: fields at their offsets, the names of records, the
denomination checks of R6, and the line lists. A field outside its range reads as none. -/

namespace Sys2Proof.Machine

/-- The field of `w` bytes at offset `o` of the argument buffer, low byte first (chapter 11). -/
def arg (a : List Byte) (o w : Nat) : Nat := leNat ((a.drop o).take w)

/-- A number as an index below a bound. -/
def asFin (n k : Nat) : Option (Fin n) := if h : k < n then some ⟨k, h⟩ else none

/-- A till number from 1 to 96 (R25). -/
def tillOf (n : Nat) : Option TillIx := if n = 0 then none else asFin 96 (n - 1)

/-- A bag number from 1 to 48 (R105). -/
def bagOf (n : Nat) : Option BagIx := if n = 0 then none else asFin 48 (n - 1)

/-- A lane number from 0 to 3 (R64). -/
def laneOf (n : Nat) : Option LaneIx := asFin 4 n

/-- A denomination code from 0 to 11 (R5). -/
def codeOf (n : Nat) : Option Code := asFin 12 n

/-- A yes-or-no field: 00H or 01H (R185). -/
def boolOf : Nat → Option Bool
  | 0 => some false
  | 1 => some true
  | _ => none

def denomKindOf : Nat → Option DenomKind
  | 0 => some .unused
  | 1 => some .note
  | 2 => some .roll
  | _ => none

def classOf : Nat → Option CashClass
  | 0 => some .fit
  | 1 => some .unfit
  | 2 => some .suspect
  | _ => none

def callKindOf : Nat → Option CallKind
  | 1 => some .skim
  | 2 => some .topup
  | 3 => some .collect
  | _ => none

def bagKindOf : Nat → Option BagKind
  | 1 => some .takings
  | 2 => some .unfit
  | 3 => some .suspect
  | _ => none

def policyOf : Nat → Option Policy
  | 1 => some .halt
  | 2 => some .setAside
  | 3 => some .rescan
  | _ => none

/-- A code mask with no bit above code 11 (R66, R72, R185). -/
def maskOf (n : Nat) : Option CodeSet := if n < 4096 then some (BitVec.ofNat 12 n) else none

/-- A code that names a used entry (R6). -/
def usedCode (d : Vector Denom 12) (n : Nat) : Option Code :=
  match codeOf n with
  | none => none
  | some c => if d[c].kind = .unused then none else some c

/-- A code and class that pass R6: unfit and suspect name no ROLL. -/
def usedPair (d : Vector Denom 12) (n k : Nat) : Option (Code × CashClass) :=
  match usedCode d n, classOf k with
  | some c, some x => if d[c].kind = .roll && x != .fit then none else some (c, x)
  | _, _ => none

/-- The lines of a list argument, each a code and a count of 2 bytes. -/
def linePairs : List Byte → List (Nat × Nat)
  | c :: l :: h :: r => (c.toNat, leNat [l, h]) :: linePairs r
  | _ => []

/-- A list of code and count lines that passes R6: each code used, none repeated. -/
def readLines (d : Vector Denom 12) : List (Nat × Nat) → Option (List DeclLine)
  | [] => some []
  | (n, k) :: r =>
    match usedCode d n, readLines d r with
    | some c, some l => if l.any (fun x => x.code == c) then none else some (⟨c, k⟩ :: l)
    | _, _ => none

/-- The count of a code in a list of lines. -/
def lineCount (l : List DeclLine) (c : Code) : Nat :=
  l.foldr (fun x a => if x.code = c then x.count + a else a) 0

/-- The counts of a list of lines, per code. -/
def lineCounts (l : List DeclLine) : Vector Nat 12 := tab (lineCount l)

/-- Till numbers, each from 1 to 96 (R51). -/
def readTills : List Byte → Option (List TillIx)
  | [] => some []
  | b :: r =>
    match tillOf b.toNat, readTills r with
    | some t, some l => if l.contains t then none else some (t :: l)
    | _, _ => none

/-- A tag number from 1 to 9,999,999,999 (R105). -/
def tagOk (n : Nat) : Bool := decide (1 ≤ n) && decide (n ≤ 9999999999)

/-- The checks every till command makes first: its length, then its till number (R25). -/
def withTill (len : Nat) (a : List Byte) (s : State) (next : TillIx → Answer) : Answer :=
  if a.length ≠ len then .refused .argument s
  else match tillOf (arg a 0 1) with
    | none => .refused .unknown s
    | some t => next t

/-- The checks every lane command makes first: its length, then its lane number (R64). -/
def withLane (len : Nat) (a : List Byte) (s : State) (next : LaneIx → Answer) : Answer :=
  if a.length ≠ len then .refused .argument s
  else match laneOf (arg a 0 1) with
    | none => .refused .argument s
    | some i => next i

/-- A lane command other than LANE-PROFILE, LANE-RESET, LANE-READ and COUNT-OPEN is refused with PROFILE on
an UNPROFILED lane (R64). -/
def withProfiled (len : Nat) (a : List Byte) (s : State) (next : LaneIx → Answer) : Answer :=
  withLane len a s fun i =>
    if (s.lane i).state = .unprofiled then .refused .profile s else next i

/-- The checks every command that names a bag makes first (R107). -/
def withBag (len : Nat) (a : List Byte) (s : State) (next : BagIx → Bag → Answer) : Answer :=
  if a.length ≠ len then .refused .argument s
  else match bagOf (arg a 0 1) with
    | none => .refused .unknown s
    | some b =>
      match s.bag b with
      | none => .refused .unknown s
      | some x => next b x

/-- The checks every command that names a manifest makes first (R122). -/
def withMan (len : Nat) (a : List Byte) (s : State) (next : SlotIx → Manifest → Answer) : Answer :=
  if a.length ≠ len then .refused .argument s
  else match s.findMan (arg a 0 2) with
    | none => .refused .unknown s
    | some i =>
      match s.man i with
      | none => .refused .unknown s
      | some m => next i m

/-- A command with no arguments refuses any byte (R184). -/
def noArgs (a : List Byte) (s : State) (next : Answer) : Answer :=
  if a.length ≠ 0 then .refused .argument s else next

end Sys2Proof.Machine
end

