-- ==== Sys2Proof/Machine/Calls.lean ====
section
/-! DEFINITION. Till calls and pickup rounds (chapter 3): the call commands, the round commands, the
evaluation of a running round. -/

namespace Sys2Proof.Machine

/-- A call entry as the 11 bytes of a reply, with its position (section 11.3). -/
def CallEntry.bytes (e : CallEntry) (pos : Nat) : List Byte :=
  [byte (e.till.val + 1),
   byte (e.kind.value + mark 64 e.amount.isSome + mark 128 e.time.isSome)] ++
    le 4 (e.amount.getD 0) ++ stampBytes e.time ++ [byte pos]

/-- The till state a call of a kind requires (R42, R47). -/
def CallKind.needs : CallKind → TillState
  | .skim | .topup => .trading
  | .collect => .closing

/-- CALL-POST (R47). -/
def callPostEffect (a : List Byte) (s : State) : Answer :=
  withTill 2 a s fun t =>
    match callKindOf (arg a 1 1) with
    | none | some .skim => .refused .argument s
    | some k =>
      if (s.till t).state ≠ k.needs then .refused .state s
      else match s.raiseOutcome t k with
        | .noRoom => .refused .full s.loseCall
        | out =>
          let s1 := s.raiseCall t k none
          .taken
            [byte (t.val + 1), byte k.value, boolByte (out == .merged), byte ((s1.callPos t k).getD 0),
             byte s1.calls.length] s1

/-- Whether a selector matches an entry: 0 any kind, 1 to 3 that kind (R48). -/
def selects (n : Nat) (e : CallEntry) : Bool := (n == 0) || (e.kind.value == n)

/-- CALL-TAKE (R48). -/
def callTakeEffect (a : List Byte) (s : State) : Answer :=
  if a.length ≠ 1 then .refused .argument s
  else if 3 < arg a 0 1 then .refused .argument s
  else match s.calls.findIdx? (selects (arg a 0 1)) with
    | none => .taken [0] s
    | some i =>
      match s.calls[i]? with
      | none => .taken [0] s
      | some e => .taken (1 :: e.bytes i) { s with calls := s.calls.eraseIdx i }

/-- CALL-CANCEL (R49). -/
def callCancelEffect (a : List Byte) (s : State) : Answer :=
  withTill 2 a s fun t =>
    match callKindOf (arg a 1 1) with
    | none => .refused .argument s
    | some k =>
      match s.callPos t k with
      | none => .refused .unknown s
      | some i =>
        let s1 := { s with calls := s.calls.eraseIdx i }
        .taken [byte (t.val + 1), byte k.value, byte i, byte s1.calls.length] s1

/-- Entries with their positions, from a position on. -/
def entriesFrom : Nat → List CallEntry → List Byte
  | _, [] => []
  | i, e :: r => e.bytes i ++ entriesFrom (i + 1) r

/-- CALL-READ (R50): it clears the overflow flag it reports. -/
def callReadEffect (a : List Byte) (s : State) : Answer :=
  if a.length ≠ 1 then .refused .argument s
  else if 31 < arg a 0 1 then .refused .argument s
  else
    let l := (s.calls.drop (arg a 0 1)).take 16
    .taken
      ([byte s.calls.length, boolByte s.callOverflow, byte (arg a 0 1), byte l.length] ++
        entriesFrom (arg a 0 1) l)
      { s with callOverflow := false }

/-- ROUND-SET (R51). -/
def roundSetEffect (a : List Byte) (s : State) : Answer :=
  if a.length = 0 ∨ 96 < arg a 0 1 ∨ a.length ≠ 1 + arg a 0 1 then .refused .argument s
  else match readTills (a.drop 1) with
    | none => .refused .argument s
    | some l =>
      if s.round.run.isSome then .refused .engaged s
      else .taken [byte l.length] { s with round := { s.round with list := l, resume := 0 } }

/-- ROUND-TIMER (R52): the settings are replaced and an enabled timer starts a fresh interval. -/
def roundTimerEffect (a : List Byte) (s : State) : Answer :=
  if a.length ≠ 3 then .refused .argument s
  else match boolOf (arg a 0 1), boolOf (arg a 2 1) with
    | some on, some trig =>
      let n := clamp 5 240 (arg a 1 1)
      .taken [boolByte on, byte n, boolByte trig, boolByte (n != arg a 1 1)]
        { s with round := { s.round with timerOn := on, interval := n, trigOn := trig }.fresh }
    | _, _ => .refused .argument s

/-- ROUND-NOW (R54). -/
def roundNowEffect (a : List Byte) (s : State) : Answer :=
  noArgs a s <|
    if s.round.run.isSome then .refused .engaged s
    else .taken [byte s.round.resume, byte s.round.list.length] s.startRound

/-- The run state of ROUND-READ: the four figures are those of a running round, zeros in IDLE (R58). -/
def runBytes : Option RoundRun → List Byte
  | none => [0, 0, 0, 0, 0]
  | some r => [1, byte r.start, byte r.current, byte r.raised, byte r.merged]

/-- The last round summary of ROUND-READ: zeros when absent (R58). -/
def summaryBytes : Option RoundSummary → List Byte
  | none => List.replicate 10 0
  | some r =>
    [byte (1 + mark 2 r.time.isSome), byte r.kind.value, byte r.start, byte r.raised, byte r.merged,
     byte r.resume] ++ stampBytes r.time

/-- ROUND-READ (R58). -/
def roundReadEffect (a : List Byte) (s : State) : Answer :=
  noArgs a s <| .taken
    (byte s.round.list.length :: (s.round.list.map fun t => byte (t.val + 1)) ++ runBytes s.round.run ++
      [byte s.round.resume, boolByte s.round.timerOn, byte s.round.interval,
       byte (s.round.countdown.getD 0), boolByte s.ret.latch, boolByte s.round.trigOn] ++
      summaryBytes s.round.summary) s

/-- A till the round skips: out of service, not TRADING, or with a lane bound (R56 step 1). -/
def Till.skipped (t : Till) : Bool := !t.inService || (t.state != .trading) || t.lane.isSome

/-- The round moves on from its current position, and ends COMPLETE at the end of the list (R55, R57). -/
def State.roundAdvance (r : RoundRun) (s : State) : State :=
  let r' := { r with current := r.current + 1 }
  if s.round.list.length ≤ r'.current then s.endRound .complete 0 true r'
  else { s with round := { s.round with run := some r' } }

/-- The evaluation of the till at the current position of the running round (R56). -/
def evaluateTill (r : RoundRun) (t : TillIx) (s : State) : State :=
  let till := s.till t
  let amount := skimDue till s.limits.skimUnit
  if till.skipped || (amount == 0) then s.roundAdvance r
  else match s.raiseOutcome t .skim with
    | .merged => (s.raiseCall t .skim (some amount)).roundAdvance { r with merged := r.merged + 1 }
    | .added => (s.raiseCall t .skim (some amount)).roundAdvance { r with raised := r.raised + 1 }
    | .noRoom => s.endRound .queueFull r.current true r

/-- One evaluation of the round engine; nothing while no round runs (R55). -/
def roundEvaluate (s : State) : State :=
  match s.round.run with
  | none => s
  | some r =>
    match s.round.list[r.current]? with
    | none => s.endRound .complete 0 true r
    | some t => evaluateTill r t s

end Sys2Proof.Machine
end

