-- ==== Sys2Proof/Decode.lean ====
section
/-! DEFINITION. The codes of the command table, the lane frame characters, and `decodeTableWord`. -/

namespace Sys2Proof

/-- The code of each command, from the command table of section 11.3. -/
def Cmd.code : Cmd → Nat
  | .nop => 0x00
  | .statusRead => 0x01
  | .attnRead => 0x02
  | .attnEnable => 0x03
  | .attnClear => 0x04
  | .clockSet => 0x08
  | .clockRead => 0x09
  | .retain => 0x0A
  | .release => 0x0B
  | .recordsClear => 0x0C
  | .overrideSet => 0x10
  | .doorOpen => 0x11
  | .doorLock => 0x12
  | .doorRead => 0x13
  | .denomSet => 0x18
  | .denomRead => 0x19
  | .stockRead => 0x1A
  | .officeRead => 0x1B
  | .limitsSet => 0x1C
  | .limitsRead => 0x1D
  | .templateSet => 0x20
  | .templateRead => 0x21
  | .tillSetup => 0x22
  | .floatIssue => 0x23
  | .floatCancel => 0x24
  | .tillOpen => 0x25
  | .topupIssue => 0x26
  | .posCash => 0x27
  | .tillClose => 0x28
  | .tillRead => 0x29
  | .varianceAccept => 0x2A
  | .recount => 0x2B
  | .callPost => 0x30
  | .callTake => 0x31
  | .callCancel => 0x32
  | .callRead => 0x33
  | .roundSet => 0x34
  | .roundTimer => 0x35
  | .roundNow => 0x36
  | .roundRead => 0x37
  | .laneProfile => 0x40
  | .laneReset => 0x41
  | .laneClear => 0x42
  | .laneRead => 0x43
  | .countOpen => 0x44
  | .countHold => 0x45
  | .countResume => 0x46
  | .countVoid => 0x47
  | .countRolls => 0x48
  | .countCommit => 0x49
  | .countAbort => 0x4A
  | .auditRead => 0x4C
  | .auditAccept => 0x4D
  | .auditDiscard => 0x4E
  | .bagOpen => 0x50
  | .bagAdd => 0x51
  | .bagReturn => 0x52
  | .bagShut => 0x53
  | .bagBreak => 0x54
  | .bagRead => 0x55
  | .rackSet => 0x56
  | .rackRead => 0x57
  | .manCreate => 0x60
  | .manAdd => 0x61
  | .manRemove => 0x62
  | .manClose => 0x63
  | .manCancel => 0x64
  | .courierArrive => 0x65
  | .bagScan => 0x66
  | .manResume => 0x67
  | .courierSign => 0x68
  | .manReopen => 0x69
  | .manRead => 0x6A

/-- Every command of the command table, in its order. -/
def Cmd.all : List Cmd :=
  [.nop, .statusRead, .attnRead, .attnEnable, .attnClear, .clockSet, .clockRead, .retain,
   .release, .recordsClear, .overrideSet, .doorOpen, .doorLock, .doorRead, .denomSet, .denomRead,
   .stockRead, .officeRead, .limitsSet, .limitsRead, .templateSet, .templateRead, .tillSetup, .floatIssue,
   .floatCancel, .tillOpen, .topupIssue, .posCash, .tillClose, .tillRead, .varianceAccept, .recount,
   .callPost, .callTake, .callCancel, .callRead, .roundSet, .roundTimer, .roundNow, .roundRead,
   .laneProfile, .laneReset, .laneClear, .laneRead, .countOpen, .countHold, .countResume, .countVoid,
   .countRolls, .countCommit, .countAbort, .auditRead, .auditAccept, .auditDiscard, .bagOpen, .bagAdd,
   .bagReturn, .bagShut, .bagBreak, .bagRead, .rackSet, .rackRead, .manCreate, .manAdd,
   .manRemove, .manClose, .manCancel, .courierArrive, .bagScan, .manResume, .courierSign, .manReopen,
   .manRead]

/-- The command that a code of 7 bits names, if any (R172). -/
def Cmd.ofCode (n : Nat) : Option Cmd :=
  Cmd.all.find? (fun c => c.code == n)

/-- A command byte: the NOTIFY bit over the 7-bit code (R172). -/
def commandByte (notify : Bool) (code : BitVec 7) : Byte :=
  BitVec.ofBool notify ++ code

/-- The command byte of a command of the table. -/
def Cmd.byte (c : Cmd) (notify : Bool) : Byte :=
  commandByte notify (BitVec.ofNat 7 c.code)

/-- The sum of characters modulo 256, as CHECK is judged (R61). -/
def charSum (l : List Byte) : Byte :=
  l.foldl (fun a b => a + b) 0

/-- The characters of a frame with a given CHECK (R61). -/
def frameCharsWith (kind : Byte) (body : List Byte) (check : Byte) : List RxChar :=
  ([0xC3, kind, BitVec.ofNat 8 body.length] ++ body ++ [check]).map (fun b => ⟨b, true⟩)

/-- The characters of a frame whose CHECK brings KIND, LEN, the body and CHECK to 0 (R61). -/
def frameChars (kind : Byte) (body : List Byte) : List RxChar :=
  frameCharsWith kind body (0 - charSum ([kind, BitVec.ofNat 8 body.length] ++ body))

/-- The LEN of each frame kind a counter sends (R62). -/
def frameLen (kind : Byte) : Option Nat :=
  if kind = 0x01 then some 5
  else if kind = 0x02 then some 8
  else if kind = 0x03 then some 1
  else if kind = 0x04 then some 0
  else if kind = 0x05 then some 1
  else none

/-- No row of the table gives bits (spec/98_reader.md), so no word spells a command. -/
def decodeTableWord (_nbits _w : Nat) : Option Instr := none

end Sys2Proof
end

