-- ==== Sys2Proof/Machine/Bags.lean ====
section
/-! DEFINITION. Deposit bags and the compartment rack (chapter 6): the bag commands, RACK-SET and
RACK-READ. Placement, rotation and the lift of a halt are in Ops.lean. -/

namespace Sys2Proof.Machine

/-- The classes a kind of bag takes (R106). -/
def BagKind.takes : BagKind → CashClass → Bool
  | .takings, .fit | .takings, .unfit => true
  | .unfit, .unfit => true
  | .suspect, .suspect => true
  | _, _ => false

/-- A line of a pair of code and class (R105). -/
def BagLine.isFor (c : Code) (k : CashClass) (l : BagLine) : Bool :=
  decide (l.code = c) && decide (l.cls = k)

/-- The count a bag holds of a code and class, 0 without a line (R105). -/
def lineHeld (l : List BagLine) (c : Code) (k : CashClass) : Nat :=
  ((l.find? (BagLine.isFor c k)).map BagLine.count).getD 0

/-- The lines after an add: to the line of the pair, or a new line at the end (R105). -/
def addLine (c : Code) (k : CashClass) (n : Nat) (l : List BagLine) : List BagLine :=
  if l.any (BagLine.isFor c k) then
    l.map fun x => if x.isFor c k then { x with count := x.count + n } else x
  else l ++ [⟨c, k, n⟩]

/-- The lines after a return: a line brought to 0 is removed (R105). -/
def takeLine (c : Code) (k : CashClass) (n : Nat) (l : List BagLine) : List BagLine :=
  (l.map fun x => if x.isFor c k then { x with count := x.count - n } else x).filter
    fun x => x.count != 0

/-- The units of a bag's lines (R105). -/
def linesUnits (l : List BagLine) : Nat := (l.map BagLine.count).sum

/-- A bag with new lines: units, value and suspect face sum are recomputed from them (R105; log entry
19). -/
def Bag.withLines (d : Vector Denom 12) (l : List BagLine) (b : Bag) : Bag :=
  { b with lines := l, units := linesUnits l, value := valueOf d (linesComp l)
           suspectSum := stopAt (suspectOf d (linesComp l)) }

/-- The lowest free bag number, if any (R108). -/
def State.freeBag (s : State) : Option BagIx :=
  (List.finRange 48).find? fun b => (s.bag b).isNone

/-- The bag that bears a tag number, if any (R105). -/
def State.tagBag (s : State) (tag : Nat) : Option BagIx :=
  (List.finRange 48).find? fun b => (s.bag b).any fun x => x.tag == tag

/-- BAG-OPEN (R108). -/
def bagOpenEffect (a : List Byte) (s : State) : Answer :=
  if a.length ≠ 6 then .refused .argument s
  else
    let tag := arg a 0 5
    match bagKindOf (arg a 5 1) with
    | none => .refused .argument s
    | some k =>
      if tagOk tag = false then .refused .argument s
      else if (s.tagBag tag).isSome then .refused .inUse s
      else match s.freeBag with
        | none => .refused .full s
        | some b =>
          .taken (byte (b.val + 1) :: (le 5 tag ++ [byte k.value]))
            (s.setBag b (some
              { tag := tag, kind := k, state := .filling, lines := [], units := 0, value := 0,
                suspectSum := 0, comp := none, time := none }))

/-- The arguments of BAG-ADD and BAG-RETURN that pass step 1 of R109. -/
def bagLineArg (a : List Byte) (s : State) (x : Bag) : Option (Code × CashClass × Nat) :=
  match usedPair s.denoms (arg a 1 1) (arg a 2 1) with
  | none => none
  | some (c, k) =>
    if x.kind.takes k && decide (1 ≤ arg a 3 2) && decide (arg a 3 2 ≤ 3000)
    then some (c, k, arg a 3 2) else none

/-- The reply of BAG-ADD and BAG-RETURN (section 11.3). -/
def bagLineReply (b : BagIx) (c : Code) (k : CashClass) (x : Bag) : List Byte :=
  [byte (b.val + 1), byte c.val, byte k.value] ++ le 2 (lineHeld x.lines c k) ++ le 2 x.units ++
    le 4 x.value ++ le 4 x.suspectSum

/-- BAG-ADD (R109). -/
def bagAddEffect (a : List Byte) (s : State) : Answer :=
  withBag 5 a s fun b x =>
    match bagLineArg a s x with
    | none => .refused .argument s
    | some (c, k, n) =>
      if x.state ≠ .filling then .refused .state s
      else match outRefusal s (Comp.only c k n) with
        | some r => .refused r s
        | none =>
          let x' := x.withLines s.denoms (addLine c k n x.lines)
          if 3000 < x.units + n then .refused .limit s
          else if s.limits.bagLimit < x'.value then .refused .limit s
          else
            .taken (bagLineReply b c k x') ((s.moveOut (Comp.only c k n)).setBag b (some x'))

/-- BAG-RETURN (R110). -/
def bagReturnEffect (a : List Byte) (s : State) : Answer :=
  withBag 5 a s fun b x =>
    match bagLineArg a s x with
    | none => .refused .argument s
    | some (c, k, n) =>
      if x.state ≠ .filling then .refused .state s
      else if lineHeld x.lines c k < n then .refused .stock s
      else match inRefusal s (Comp.only c k n) with
        | some r => .refused r s
        | none =>
          let x' := x.withLines s.denoms (takeLine c k n x.lines)
          .taken (bagLineReply b c k x') ((s.moveIn (Comp.only c k n)).setBag b (some x'))

/-- The position of a bag in a list of the rack, from 0 at the head; 0 when it is not there (log entries 16
and 17). -/
def placeIn (b : BagIx) (l : List BagIx) : Nat := (l.findIdx? fun x => x == b).getD 0

/-- The state, compartment, queue position and halt mark after BAG-SHUT (R111). -/
def shutReply (b : BagIx) (s : State) : List Byte :=
  match s.bag b with
  | none => [0, 0xFF, 0, boolByte s.rack.halt]
  | some x =>
    [byte x.state.value, indexByte (x.comp.map Fin.val), byte (placeIn b s.rack.queue),
     boolByte s.rack.halt]

/-- A sealed bag joins the tail of the unplaced queue (R111). -/
def State.sealBag (b : BagIx) (x : Bag) (s : State) : State :=
  { s.setBag b (some { x with state := .shut, time := s.stamp }) with
    rack := { s.rack with queue := s.rack.queue ++ [b] } }

/-- BAG-SHUT (R111). -/
def bagShutEffect (a : List Byte) (s : State) : Answer :=
  withBag 1 a s fun b x =>
    if x.state ≠ .filling then .refused .state s
    else if x.lines = [] then .refused .state s
    else
      let s1 := (s.sealBag b x).place
      .taken
        (byte (b.val + 1) :: (le 5 x.tag ++ le 4 x.value ++ le 2 x.units ++ le 4 x.suspectSum ++
          shutReply b s1)) s1

/-- A bag line in 4 bytes (section 11.3). -/
def BagLine.bytes (l : BagLine) : List Byte := [byte l.code.val, byte l.cls.value] ++ le 2 l.count

/-- The lines of a bag, with their number. -/
def linesBytes (l : List BagLine) : List Byte := byte l.length :: l.flatMap BagLine.bytes

/-- BAG-BREAK (R112). -/
def bagBreakEffect (a : List Byte) (s : State) : Answer :=
  withBag 4 a s fun b x =>
    withAuthority (arg a 1 3) s fun s =>
      if x.state = .manifested then .refused .state s
      else match inRefusal s (linesComp x.lines) with
        | some r => .refused r s
        | none =>
          let s1 := (s.moveIn (linesComp x.lines)).retireBag b
          let s2 := s1.liftHalt
          .taken
            (byte (b.val + 1) :: (le 5 x.tag ++
              [byte x.state.value, indexByte (x.comp.map Fin.val), boolByte s2.rack.halt,
               byte (s1.rack.queue.length - s2.rack.queue.length)] ++
              le 4 x.value ++ le 4 x.suspectSum ++ linesBytes x.lines)) s2

/-! ### Reads -/

/-- A manifest lists a bag as PENDING or ACCEPTED (R123). -/
def Manifest.lists (m : Manifest) (b : BagIx) : Bool :=
  match m.body with
  | .collection c => c.entries.any fun e => decide (e.bag = b) && (e.status != .setAside)
  | .delivery _ => false

/-- The slot of the manifest that lists a MANIFESTED bag (R113). -/
def State.listingSlot (s : State) (b : BagIx) (x : Bag) : Option Nat :=
  if x.state ≠ .manifested then none
  else if (s.man 0).any (fun m => m.lists b) then some 0
  else if (s.man 1).any (fun m => m.lists b) then some 1
  else none

/-- The position of a bag in its compartment's list (R113). -/
def State.compPlace (s : State) (b : BagIx) (x : Bag) : Nat :=
  match x.comp with
  | none => 0
  | some c => placeIn b s.rack.comps[c]

/-- A bag's record (R113, section 11.3). -/
def bagRecord (s : State) (b : BagIx) (x : Bag) : List Byte :=
  byte (b.val + 1) :: (le 5 x.tag ++ [byte x.kind.value, byte x.state.value] ++ le 2 x.units ++
    le 4 x.value ++ le 4 x.suspectSum ++
    [indexByte (x.comp.map Fin.val), byte (s.compPlace b x), byte (placeIn b s.rack.queue),
     indexByte (s.listingSlot b x), boolByte x.time.isSome] ++ stampBytes x.time ++ linesBytes x.lines)

/-- The state of a bag number, FFH when it is free (section 11.3). -/
def bagStateByte (o : Option Bag) : Byte :=
  match o with
  | none => 0xFF
  | some x => byte x.state.value

/-- BAG-READ (R113). -/
def bagReadEffect (a : List Byte) (s : State) : Answer :=
  match a.length with
  | 0 => .taken (s.bags.toList.map bagStateByte) s
  | 1 => withBag 1 a s fun b x => .taken (bagRecord s b x) s
  | 5 =>
    if tagOk (arg a 0 5) = false then .refused .argument s
    else match s.tagBag (arg a 0 5) with
      | none => .refused .unknown s
      | some b =>
        match s.bag b with
        | none => .refused .unknown s
        | some x => .taken (bagRecord s b x) s
  | _ => .refused .argument s

/-- Some compartment or the unplaced queue holds a bag (R119). -/
def Rack.holds (r : Rack) : Bool :=
  lanesAll.any (fun c => !r.comps[c].isEmpty) || !r.queue.isEmpty

/-- RACK-SET (R119). -/
def rackSetEffect (a : List Byte) (s : State) : Answer :=
  if a.length ≠ 1 then .refused .argument s
  else if arg a 0 1 = 0 ∨ 12 < arg a 0 1 then .refused .argument s
  else if s.rack.holds then .refused .engaged s
  else
    .taken [byte (arg a 0 1), 0] { s with rack := { s.rack with k := arg a 0 1, ptr := 0 } }

/-- RACK-READ (R120). -/
def rackReadEffect (a : List Byte) (s : State) : Answer :=
  noArgs a s <| .taken
    ([byte s.rack.k, byte s.rack.ptr.val, boolByte s.rack.halt] ++
      (lanesAll.flatMap fun c =>
        byte s.rack.comps[c].length ::
          s.rack.comps[c].flatMap fun b => [byte (b.val + 1), bagStateByte (s.bag b)]) ++
      byte s.rack.queue.length :: s.rack.queue.map fun b => byte (b.val + 1)) s

end Sys2Proof.Machine
end

