-- ==== Sys2Proof/Machine/Money.lean ====
section
/-! DEFINITION. Money, denominations and the safe stock (chapter 1): DENOM-SET, DENOM-READ, STOCK-READ,
OFFICE-READ, LIMITS-SET, LIMITS-READ. -/

namespace Sys2Proof.Machine

/-- An open session holds a code: in its folded totals, batch stack, declared rolls or audit set (R7). -/
def Session.refers (x : Session) (c : Code) : Bool :=
  (x.folded[c] != Counts.zero) || x.stack.any (fun b => b.code == c) || (x.rolls[c] != 0) ||
    (match x.purpose with
     | .audit m => has m c
     | _ => false)

/-- A lane refers to a code by its profile or its session (R7). -/
def Lane.refers (l : Lane) (c : Code) : Bool :=
  ((l.state != .unprofiled) && has l.mask c) || l.session.any (fun x => x.refers c)

/-- A till refers to a code by its issue list, or in COUNTED by its composition (R7). -/
def Till.refers (t : Till) (c : Code) : Bool :=
  (t.issue[c] != 0) ||
    ((t.state == .counted) && t.result.any (fun r => r.comp[c] != Counts.zero))

/-- A delivery refers to a code by a declared line or a counted figure (R7, R124). -/
def Manifest.refers (m : Manifest) (c : Code) : Bool :=
  match m.body with
  | .collection _ => false
  | .delivery d =>
    d.lines.any (fun l => l.code == c) || d.count.any (fun k => k.figures[c] != Counts.zero)

/-- A code is referenced (R7). -/
def State.referenced (s : State) (c : Code) : Bool :=
  (s.stock[c].counts != Counts.zero) || s.stock[c].frozen ||
    s.templates.toList.any (fun t => t.targets[c] != 0) ||
    s.tills.toList.any (fun t => t.refers c) ||
    s.bags.toList.any (fun o => o.any fun b => b.lines.any fun l => l.code == c) ||
    s.lanes.toList.any (fun l => l.refers c) ||
    s.audit.any (fun r => has r.codes c) ||
    s.mans.toList.any (fun o => o.any fun m => m.refers c)

/-- An entry as a reply gives it: kind, face, float-eligible mark. -/
def Denom.bytes (d : Denom) : List Byte :=
  byte d.kind.value :: (le 4 d.face ++ [boolByte d.eligible])

/-- Another used entry already has the face (R7 step 3). -/
def faceTaken (s : State) (c : Code) (face : Nat) : Bool :=
  codes.any fun d => decide (d ≠ c) && (s.denoms[d].kind != .unused) && (s.denoms[d].face == face)

/-- DENOM-SET (R7). -/
def denomSetEffect (a : List Byte) (s : State) : Answer :=
  if a.length ≠ 7 then .refused .argument s
  else match codeOf (arg a 0 1), denomKindOf (arg a 1 1), boolOf (arg a 6 1) with
    | some c, some k, some e =>
      let face := arg a 2 4
      if k ≠ .unused ∧ (face < 1 ∨ 1000000 < face) then .refused .argument s
      else if k ≠ .unused ∧ faceTaken s c face = true then .refused .argument s
      else if s.referenced c then .refused .inUse s
      else
        let d : Denom := if k = .unused then Denom.unusedEntry else ⟨k, face, e⟩
        .taken (byte c.val :: d.bytes) { s with denoms := s.denoms.set c d }
    | _, _, _ => .refused .argument s

/-- DENOM-READ (R8). -/
def denomReadEffect (a : List Byte) (s : State) : Answer :=
  noArgs a s <| .taken
    (codes.flatMap fun c => byte c.val :: (s.denoms[c].bytes ++ [boolByte (s.referenced c)])) s

/-- STOCK-READ (R14). -/
def stockReadEffect (a : List Byte) (s : State) : Answer :=
  noArgs a s <| .taken
    (codes.flatMap fun c =>
      le 3 s.stock[c].counts.fit ++ le 3 s.stock[c].counts.unfit ++ le 3 s.stock[c].counts.suspect ++
        [boolByte s.stock[c].frozen]) s

/-- The number of tills in a state (R17). -/
def State.tillsIn (s : State) (k : TillState) : Nat :=
  (s.tills.toList.filter fun t => t.state == k).length

/-- The number of unretired bags (R17). -/
def State.bagCount (s : State) : Nat := (s.bags.toList.filter Option.isSome).length

/-- OFFICE-READ (R17). -/
def officeReadEffect (a : List Byte) (s : State) : Answer :=
  noArgs a s <| .taken
    (le 4 s.balance ++ le 4 s.stockValue ++ le 4 s.floatsOut ++ le 4 s.bagValue ++
      [byte (s.tillsIn .closed), byte (s.tillsIn .issued), byte (s.tillsIn .trading),
       byte (s.tillsIn .closing), byte (s.tillsIn .inCount), byte (s.tillsIn .counted),
       byte s.bagCount, byte s.rack.queue.length, byte s.rack.ptr.val, boolByte s.rack.halt,
       byte s.calls.length]) s

/-- The six limits as bytes, in argument order (R19). -/
def Limits.bytes (l : Limits) : List Byte :=
  le 2 l.basisPoints ++ le 4 l.floor ++ le 4 l.cap ++ le 4 l.skimUnit ++ le 4 l.ceiling ++
    le 4 l.bagLimit

/-- The limits as written, before clamping (R19). -/
def limitsArg (a : List Byte) : Limits :=
  { basisPoints := arg a 0 2, floor := arg a 2 4, cap := arg a 6 4, skimUnit := arg a 10 4,
    ceiling := arg a 14 4, bagLimit := arg a 18 4 }

/-- Each limit clamped to its range, the cap last, from the clamped floor (R19). -/
def Limits.clamped (l : Limits) : Limits :=
  let floor := clamp 0 1000000 l.floor
  { basisPoints := clamp 0 500 l.basisPoints, floor := floor, cap := clamp floor 2000000000 l.cap,
    skimUnit := clamp 1 1000000 l.skimUnit, ceiling := clamp 1 50000000 l.ceiling,
    bagLimit := clamp 1 2000000000 l.bagLimit }

/-- The clamp mask, weights 1 to 32 in argument order (R19). -/
def clampMask (w c : Limits) : Nat :=
  mark 1 (w.basisPoints != c.basisPoints) + mark 2 (w.floor != c.floor) + mark 4 (w.cap != c.cap) +
    mark 8 (w.skimUnit != c.skimUnit) + mark 16 (w.ceiling != c.ceiling) +
    mark 32 (w.bagLimit != c.bagLimit)

/-- LIMITS-SET (R19). -/
def limitsSetEffect (a : List Byte) (s : State) : Answer :=
  if a.length ≠ 22 then .refused .argument s
  else
    let w := limitsArg a
    .taken (w.clamped.bytes ++ [byte (clampMask w w.clamped)]) { s with limits := w.clamped }

/-- LIMITS-READ (R20). -/
def limitsReadEffect (a : List Byte) (s : State) : Answer :=
  noArgs a s <| .taken s.limits.bytes s

end Sys2Proof.Machine
end

