-- ==== Sys2Proof/Machine/Courier.lean ====
section
/-! DEFINITION. Courier handovers (chapter 7): the manifest commands, the handover at the door, window
expiry. The commit of a delivery is in Recon.lean. -/

namespace Sys2Proof.Machine

/-! ### Shared parts -/

/-- The other slot of the manifest table. -/
def otherSlot (i : SlotIx) : SlotIx := i + 1

/-- A bag of a manifest changes its state within its compartment (R118, R123). -/
def State.markBag (b : BagIx) (k : BagState) (s : State) : State :=
  s.setBag b ((s.bag b).map fun x => { x with state := k })

/-- The entry is PENDING or ACCEPTED: its bag is MANIFESTED by this manifest (R123). -/
def Entry.listed (e : Entry) : Bool := e.status != .setAside

/-- The value listed: of the bags of the PENDING and ACCEPTED entries (R143). -/
def State.valueListed (s : State) (c : Collection) : Nat := s.entriesValue Entry.listed c.entries

/-- The value ACCEPTED (R143). -/
def State.valueAccepted (s : State) (c : Collection) : Nat :=
  s.entriesValue (fun e => e.status == .accepted) c.entries

/-- A tag number in 5 bytes (chapter 11). -/
def tagBytes (n : Nat) : List Byte := le 5 n

/-! ### Preparing a manifest -/

/-- The window as MAN-CREATE carries it, from offset 6 (R126). -/
def windowArg (a : List Byte) : Stamp × Stamp :=
  (⟨arg a 6 2, arg a 8 2⟩, ⟨arg a 10 2, arg a 12 2⟩)

/-- The bodies MAN-CREATE can give, with the rescan limit's clamp mark: none is ARGUMENT (R126 step 1,
R184, R185). -/
def createBody (d : Vector Denom 12) (a : List Byte) : Option (ManBody × Bool) :=
  match arg a 0 1 with
  | 1 =>
    if a.length ≠ 16 then none
    else match policyOf (arg a 14 1) with
      | none => none
      | some p =>
        let lim := clamp 1 3 (arg a 15 1)
        some (.collection ⟨p, lim, [], none⟩, lim != arg a 15 1)
  | 2 =>
    let n := arg a 14 1
    if a.length < 15 ∨ n = 0 ∨ 12 < n ∨ a.length ≠ 15 + 3 * n then none
    else match readLines d (linePairs (a.drop 15)) with
      | none => none
      | some l =>
        if l.any (fun x => x.count == 0) then none
        else some (.delivery ⟨l, fitValue d (lineCounts l), none, none⟩, false)
  | _ => none

/-- The common fields of MAN-CREATE are within their ranges (R126 step 1). -/
def createFieldsOk (a : List Byte) : Bool :=
  let w := windowArg a
  decide (arg a 1 2 ≠ 0) && decide (arg a 3 3 ≤ 999999) && decide (w.1.minute ≤ 1439) &&
    decide (w.2.minute ≤ 1439) && decide (w.1.position < w.2.position)

/-- The state in which a manifest starts (R126). -/
def ManBody.startState : ManBody → ManState
  | .collection _ => .draft
  | .delivery _ => .ready

/-- The rescan limit in the reply of MAN-CREATE, 0 for a delivery (log entry 16). -/
def ManBody.rescanLimit : ManBody → Nat
  | .collection c => c.rescanLimit
  | .delivery _ => 0

/-- The declared value, 0 for a collection (section 11.3). -/
def ManBody.declared : ManBody → Nat
  | .collection _ => 0
  | .delivery d => d.declared

/-- The lowest free slot (R126). -/
def State.freeSlot (s : State) : Option SlotIx :=
  if (s.man 0).isNone then some 0 else if (s.man 1).isNone then some 1 else none

/-- MAN-CREATE (R126). -/
def manCreateEffect (a : List Byte) (s : State) : Answer :=
  match createBody s.denoms a with
  | none => .refused .argument s
  | some (body, clamped) =>
    let number := arg a 1 2
    let w := windowArg a
    if createFieldsOk a = false then .refused .argument s
    else if (s.findMan number).isSome then .refused .inUse s
    else match s.freeSlot with
      | none => .refused .full s
      | some i =>
        if maxAmount < body.declared then .refused .limit s
        else
          .taken
            (byte i.val :: (le 2 number ++ [byte body.value, byte body.startState.value,
              byte body.rescanLimit, boolByte clamped] ++ le 4 body.declared))
            (s.setMan i (some
              { number := number, state := body.startState, courier := arg a 3 3, opens := w.1,
                closes := w.2, wrong := 0, body := body }))

/-- The entry appended by MAN-ADD (R127). -/
def newEntry (b : BagIx) (x : Bag) : Entry := { bag := b, tag := x.tag, status := .pending, rescans := 0 }

/-- MAN-ADD (R127). -/
def manAddEffect (a : List Byte) (s : State) : Answer :=
  withMan 3 a s fun i m =>
    match m.body with
    | .delivery _ => .refused .state s
    | .collection c =>
      if m.state ≠ .draft then .refused .state s
      else match bagOf (arg a 2 1) with
        | none => .refused .unknown s
        | some b =>
          match s.bag b with
          | none => .refused .unknown s
          | some x =>
            if x.state ≠ .placed ∧ x.state ≠ .heldBack then .refused .state s
            else if 24 ≤ c.entries.length then .refused .full s
            else
              let c' := { c with entries := c.entries ++ [newEntry b x] }
              .taken
                (le 2 m.number ++ [byte c.entries.length, byte (b.val + 1)] ++ tagBytes x.tag ++
                  le 4 x.value ++ [indexByte (x.comp.map Fin.val), byte c'.entries.length])
                ((s.setMan i (some { m with body := .collection c' })).markBag b .manifested)

/-- MAN-REMOVE (R128). -/
def manRemoveEffect (a : List Byte) (s : State) : Answer :=
  withMan 3 a s fun i m =>
    match m.body with
    | .delivery _ => .refused .state s
    | .collection c =>
      if m.state ≠ .draft then .refused .state s
      else match bagOf (arg a 2 1) with
        | none => .refused .unknown s
        | some b =>
          if c.entries.any (fun e => e.bag == b) then
            let c' := { c with entries := c.entries.filter fun e => e.bag != b }
            .taken (le 2 m.number ++ [byte (b.val + 1), byte c'.entries.length])
              ((s.setMan i (some { m with body := .collection c' })).markBag b .placed)
          else .refused .unknown s

/-- MAN-CLOSE (R129). -/
def manCloseEffect (a : List Byte) (s : State) : Answer :=
  withMan 2 a s fun i m =>
    match m.body with
    | .delivery _ => .refused .state s
    | .collection c =>
      if m.state ≠ .draft then .refused .state s
      else if c.entries = [] then .refused .state s
      else
        .taken (le 2 m.number ++ byte c.entries.length :: le 4 (s.valueListed c))
          (s.setMan i (some { m with state := .ready }))

/-- The refusal of MAN-CANCEL, if any (R130). States that no manifest of the kind enters are refused with
STATE. -/
def Manifest.cancelRefusal (m : Manifest) : Option PortCode :=
  match m.body, m.state with
  | .collection _, .draft | .collection _, .ready | .collection _, .suspended
  | .collection _, .expired | .collection _, .locked => none
  | .collection _, .bags => some .engaged
  | .collection _, .receiving | .collection _, .counted => some .state
  | .delivery _, .ready | .delivery _, .expired | .delivery _, .locked => none
  | .delivery d, .receiving => if d.lane.isSome then some .engaged else none
  | .delivery _, .counted | .delivery _, .draft | .delivery _, .bags
  | .delivery _, .suspended => some .state

/-- The bags that a manifest lists as PENDING or ACCEPTED (R130). -/
def ManBody.listedBags : ManBody → List BagIx
  | .collection c => (c.entries.filter Entry.listed).map Entry.bag
  | .delivery _ => []

/-- MAN-CANCEL (R130). -/
def manCancelEffect (a : List Byte) (s : State) : Answer :=
  withMan 2 a s fun i m =>
    match m.cancelRefusal with
    | some r => .refused r s
    | none =>
      let l := m.body.listedBags
      .taken (le 2 m.number ++ [byte m.body.value, byte m.state.value, byte l.length])
        (l.foldl (fun s b => s.markBag b .placed) (s.setMan i none))

/-! ### The courier at the door -/

/-- The clock lies outside the window (R125). -/
def Manifest.outside (m : Manifest) (c : Clock) : Bool :=
  decide (c.position < m.opens.position) || decide (m.closes.position ≤ c.position)

/-- A wrong courier code (R132): the third locks the manifest and sets COURIER. -/
def State.wrongCourier (i : SlotIx) (m : Manifest) (s : State) : State :=
  if m.wrong + 1 ≥ 3 then
    State.raise .courier (s.setMan i (some { m with wrong := m.wrong + 1, state := .locked }))
  else s.setMan i (some { m with wrong := m.wrong + 1 })

/-- The state a manifest takes at a right code (R131). -/
def ManBody.arrivedState : ManBody → ManState
  | .collection _ => .bags
  | .delivery _ => .receiving

/-- The entry count and the value listed in the reply of COURIER-ARRIVE, 0 for a delivery (R131). -/
def State.listedBytes (s : State) : ManBody → List Byte
  | .collection c => byte c.entries.length :: le 4 (s.valueListed c)
  | .delivery _ => 0 :: le 4 0

/-- COURIER-ARRIVE (R131, R132). -/
def courierArriveEffect (a : List Byte) (s : State) : Answer :=
  withMan 5 a s fun i m =>
    if 999999 < arg a 2 3 then .refused .argument s
    else if m.state ≠ .ready then .refused .state s
    else if s.ret.latch then .refused .state s
    else if s.clock.isSet = false then .refused .clock s
    else if m.outside s.clock then .refused .window s
    else if inBags s (otherSlot i) then .refused .engaged s
    else if arg a 2 3 ≠ m.courier then .refused .code (s.wrongCourier i m)
    else
      .taken
        (le 2 m.number ++ [byte m.body.value, byte m.body.arrivedState.value] ++ s.listedBytes m.body)
        ((s.setMan i (some { m with wrong := 0, state := m.body.arrivedState })).recomputeDoor .handover)

/-- An entry under a damaged scan by the policy, but for HALT (R134). -/
def Entry.damaged (c : Collection) (e : Entry) : Entry :=
  match c.policy with
  | .halt => e
  | .setAside => { e with status := .setAside }
  | .rescan =>
    if e.rescans + 1 ≤ c.rescanLimit then { e with rescans := e.rescans + 1 }
    else { e with rescans := e.rescans + 1, status := .setAside }

/-- The reply of BAG-SCAN (R133). -/
def scanReply (m : Manifest) (c : Collection) (k : Nat) (e : Entry) : List Byte :=
  le 2 m.number ++ [byte k, byte (e.bag.val + 1), byte e.status.value, byte e.rescans,
    byte m.state.value, byte (countStatus .pending c.entries)]

/-- A scan of a PENDING entry at an index of its list (R133, R134). -/
def scanEntry (i : SlotIx) (m : Manifest) (c : Collection) (k : Nat) (e : Entry) (bad : Bool) (s : State) :
    Answer :=
  if bad && (c.policy == .halt) then
    let c' := { c with halted := some k }
    let m' := { m with state := .suspended, body := .collection c' }
    .taken (scanReply m' c' k e)
      (State.raise .courier ((s.setMan i (some m')).recomputeDoor .handover))
  else
    let e' := if bad then e.damaged c else { e with status := .accepted }
    let c' := { c with entries := c.entries.set k e' }
    let m' := { m with body := .collection c' }
    let s1 := s.setMan i (some m')
    .taken (scanReply m' c' k e') (if e'.status = .setAside then s1.markBag e.bag .heldBack else s1)

/-- BAG-SCAN (R133, R134). -/
def bagScanEffect (a : List Byte) (s : State) : Answer :=
  withMan 8 a s fun i m =>
    match boolOf (arg a 7 1) with
    | none => .refused .argument s
    | some bad =>
      if tagOk (arg a 2 5) = false then .refused .argument s
      else match m.body with
        | .delivery _ => .refused .state s
        | .collection c =>
          if m.state ≠ .bags then .refused .state s
          else match c.entries.findIdx? (fun e => e.tag == arg a 2 5) with
            | none => .refused .unknown s
            | some k =>
              match c.entries[k]? with
              | none => .refused .unknown s
              | some e =>
                if e.status ≠ .pending then .refused .unknown s else scanEntry i m c k e bad s

/-- The halted entry of a SUSPENDED collection, with its index (R123). -/
def Collection.haltedEntry (c : Collection) : Option (Nat × Entry) :=
  match c.halted with
  | none => none
  | some k => (c.entries[k]?).map fun e => (k, e)

/-- MAN-RESUME (R135). A SUSPENDED collection always has its halted entry (R134). -/
def manResumeEffect (a : List Byte) (s : State) : Answer :=
  withMan 5 a s fun i m =>
    withAuthority (arg a 2 3) s fun s =>
      match m.body with
      | .delivery _ => .refused .state s
      | .collection c =>
        if m.state ≠ .suspended then .refused .state s
        else if s.ret.latch then .refused .state s
        else if inBags s (otherSlot i) then .refused .engaged s
        else match c.haltedEntry with
          | none => .refused .state s
          | some (k, e) =>
            let c' := { c with entries := c.entries.set k { e with status := .setAside }, halted := none }
            .taken
              (le 2 m.number ++ byte (e.bag.val + 1) :: tagBytes e.tag ++
                [byte (countStatus .pending c'.entries)])
              (((s.setMan i (some { m with state := .bags, body := .collection c' })).markBag
                e.bag .heldBack).recomputeDoor .handover)

/-- The bag that an ACCEPTED entry names retires (R136 step 1). -/
def State.retireEntry (s : State) (e : Entry) : State :=
  if s.entryPresent e then s.retireBag e.bag else s

/-- COURIER-SIGN of a collection (R136). -/
def signCollection (i : SlotIx) (m : Manifest) (c : Collection) (s : State) : Answer :=
  let l := c.entries.filter fun e => e.status == .accepted
  let value := s.valueAccepted c
  if m.state ≠ .bags ∨ c.entries.any (fun e => e.status == .pending) = true ∨ l = [] then
    .refused .state s
  else if s.balance < value then .refused .limit s
  else
    let s1 := (((l.foldl State.retireEntry s).post (-(value : Int))).setMan i none).recomputeDoor .handover
    let s2 := s1.liftHalt
    .taken
      (le 2 m.number ++ [byte m.body.value, byte l.length] ++ (l.flatMap fun e => tagBytes e.tag) ++
        le 4 value ++ le 4 s2.balance ++
        [byte (countStatus .setAside c.entries), boolByte s2.rack.halt,
         byte (s1.rack.queue.length - s2.rack.queue.length)]) s2

/-- COURIER-SIGN of a delivery (R136). -/
def signDelivery (i : SlotIx) (m : Manifest) (d : Delivery) (s : State) : Answer :=
  match m.state, d.count with
  | .counted, some n =>
    .taken (le 2 m.number ++ byte m.body.value :: (le 4 n.value ++ leInt 4 n.total)) (s.setMan i none)
  | _, _ => .refused .state s

/-- COURIER-SIGN (R136). -/
def courierSignEffect (a : List Byte) (s : State) : Answer :=
  withMan 2 a s fun i m =>
    match m.body with
    | .collection c => signCollection i m c s
    | .delivery d => signDelivery i m d s

/-! ### Expiry and reopening -/

/-- A state that is subject to window expiry (section 7.1.1). -/
def ManState.expires : ManState → Bool
  | .ready | .bags | .suspended | .locked => true
  | .draft | .receiving | .counted | .expired => false

/-- A manifest whose window has closed by a clock position, in a state subject to expiry (R125). -/
def Manifest.expiring (m : Manifest) (c : Clock) : Bool :=
  m.state.expires && decide (m.closes.position ≤ c.position)

/-- The manifest after its expiry (R137). -/
def Manifest.expire (m : Manifest) : Manifest :=
  { m with
    state := .expired
    body := match m.body with
            | .collection c => .collection { c.revert with halted := none }
            | .delivery d => .delivery d }

/-- Window expiry of a slot: COURIER is set, and a manifest that leaves BAGS relocks the door (R137). -/
def State.expireSlot (i : SlotIx) (s : State) : State :=
  match s.man i with
  | none => s
  | some m =>
    if m.state.expires then
      State.raise .courier ((s.setMan i (some m.expire)).recomputeDoor .handover)
    else s

/-- The PENDING and SET-ASIDE counts in the reply of MAN-REOPEN, 0 for a delivery (R138). -/
def ManBody.reopenBytes : ManBody → List Byte
  | .collection c => [byte (countStatus .pending c.entries), byte (countStatus .setAside c.entries)]
  | .delivery _ => [0, 0]

/-- MAN-REOPEN (R138). -/
def manReopenEffect (a : List Byte) (s : State) : Answer :=
  withMan 9 a s fun i m =>
    withAuthority (arg a 2 3) s fun s =>
      let close : Stamp := ⟨arg a 5 2, arg a 7 2⟩
      if 1439 < close.minute ∨ close.position ≤ m.opens.position then .refused .argument s
      else if m.state ≠ .expired ∧ m.state ≠ .locked then .refused .state s
      else if s.clock.isSet = true ∧ close.position ≤ s.clock.position then .refused .window s
      else
        .taken
          (le 2 m.number ++ byte ManState.ready.value :: (le 2 close.day ++ le 2 close.minute ++
            m.body.reopenBytes))
          (s.setMan i (some { m with closes := close, wrong := 0, state := .ready }))

/-! ### MAN-READ -/

/-- Presence, number, kind and state of a slot (section 11.3). -/
def slotBytes : Option Manifest → List Byte
  | none => 0 :: (le 2 0 ++ [0, 0])
  | some m => 1 :: (le 2 m.number ++ [byte m.body.value, byte m.state.value])

/-- Counted presence, counted value and total variance (section 11.3). -/
def countedBytes : Option DeliveryCount → List Byte
  | none => 0 :: (le 4 0 ++ le 4 0)
  | some n => 1 :: (le 4 n.value ++ leInt 4 n.total)

/-- Page 0 of MAN-READ (R143). -/
def manPage0 (s : State) (i : SlotIx) (m : Manifest) : List Byte :=
  byte i.val :: (le 2 m.number ++ [byte m.body.value, byte m.state.value] ++ le 2 m.opens.day ++
    le 2 m.opens.minute ++ le 2 m.closes.day ++ le 2 m.closes.minute ++ [byte m.wrong] ++
    (match m.body with
     | .collection c =>
       [byte c.policy.value, byte c.rescanLimit, byte c.entries.length,
        byte (countStatus .pending c.entries), byte (countStatus .accepted c.entries),
        byte (countStatus .setAside c.entries)] ++ le 4 (s.valueListed c) ++
         le 4 (s.valueAccepted c) ++ [indexByte c.halted]
     | .delivery d =>
       le 4 d.declared ++ [indexByte (d.lane.map Fin.val)] ++ countedBytes d.count))

/-- An entry in 9 bytes: bag, tag, status, rescan count, present mark (section 11.3). -/
def entryBytes (s : State) (e : Entry) : List Byte :=
  byte (e.bag.val + 1) :: (tagBytes e.tag ++
    [byte e.status.value, byte e.rescans, boolByte (s.entryPresent e)])

/-- A list with its number of members. -/
def counted {α : Type} (f : α → List Byte) (l : List α) : List Byte := byte l.length :: l.flatMap f

/-- A variance line in 13 bytes (section 11.3). -/
def VarLine.bytes (l : VarLine) : List Byte :=
  byte l.code.val :: (le 2 l.declared ++ le 3 l.counted ++ leInt 3 l.unitVar ++ leInt 4 l.valueVar)

/-- A declared line: code, count (section 11.3). -/
def declBytes (l : DeclLine) : List Byte := byte l.code.val :: le 2 l.count

/-- Pages 1 and 2 of MAN-READ (R143). -/
def manPage (second : Bool) (s : State) (m : Manifest) : List Byte :=
  match m.body with
  | .collection c =>
    counted (entryBytes s) (if second then c.entries.drop 12 else c.entries.take 12)
  | .delivery d =>
    if second then counted VarLine.bytes ((d.count.map DeliveryCount.variance).getD [])
    else counted declBytes d.lines

/-- MAN-READ (R143). -/
def manReadEffect (a : List Byte) (s : State) : Answer :=
  if a.length = 0 then .taken (slotBytes (s.man 0) ++ slotBytes (s.man 1)) s
  else withMan 3 a s fun i m =>
    match arg a 2 1 with
    | 0 => .taken (manPage0 s i m) s
    | 1 => .taken (manPage false s m) s
    | 2 => .taken (manPage true s m) s
    | _ => .refused .argument s

end Sys2Proof.Machine
end

