-- ==== Sys2Proof/Machine/Lanes.lean ====
section
/-! DEFINITION. Count lanes (chapter 4): the receiver, the frames of a counter, the transmitter, and the
lane and session commands but COUNT-COMMIT. -/

namespace Sys2Proof.Machine

/-! ### The receiver (R61) -/

/-- What the receiver makes of a character: a frame that passes R61, or an error to latch. -/
inductive RxEvent where
  | frame (kind : Byte) (body : List Byte)
  | error (e : LaneError)
  deriving DecidableEq, Repr

/-- A collected frame, from KIND to CHECK, judged by its CHECK sum (R61). -/
def judgeFrame (got : List Byte) : RxEvent :=
  match got with
  | kind :: _ :: r => if charSum got = 0 then .frame kind r.dropLast else .error .check
  | _ => .error .check

/-- The characters a collecting receiver has, with the new one: more to come, too long a LEN, or complete
(R61). -/
def collect (got : List Byte) : Receiver × Option RxEvent :=
  match got with
  | _ :: len :: r =>
    if 12 < len.toNat then (.hunting false, some (.error .framing))
    else if r.length = len.toNat + 1 then (.hunting false, some (judgeFrame got))
    else (.collecting got, none)
  | _ => (.collecting got, none)

/-- One character at the receiver (R61). -/
def Receiver.take (c : RxChar) : Receiver → Receiver × Option RxEvent
  | .hunting skip =>
    if c.stop ∧ c.data = 0xC3 then (.collecting [], none)
    else if skip then (.hunting true, none)
    else (.hunting true, some (.error .framing))
  | .collecting got =>
    if c.stop then collect (got ++ [c.data]) else (.hunting false, some (.error .framing))

/-- A run of characters at the receiver, with the events in their order. -/
def Receiver.run : List RxChar → Receiver → Receiver × List RxEvent
  | [], r => (r, [])
  | c :: l, r =>
    let (r1, e) := r.take c
    let (r2, es) := Receiver.run l r1
    (r2, e.toList ++ es)

/-! ### Received frames (R62, R67, R74, R80 to R82) -/

/-- HELLO (R67). -/
def takeHello (i : LaneIx) (model : Byte) (serial : BitVec 32) (s : State) : State :=
  let l := s.lane i
  let s1 := s.setLane i { l with identity := some ⟨model, serial⟩, expect := .number 0 }
  match l.state with
  | .unprofiled => s
  | .idle => s1
  | .opened | .holding | .held | .ended | .fault => s1.laneError .restart i

/-- A taken batch is pushed; the oldest of a full stack is folded first (R76). -/
def Session.push (b : Batch) (x : Session) : Session :=
  if x.stack.length < 8 then { x with stack := b :: x.stack }
  else
    match x.stack.getLast? with
    | none => { x with stack := b :: x.stack }
    | some old =>
      { x with
        stack := b :: x.stack.dropLast
        folded := x.folded.set old.code (x.folded[old.code].add old.counts) }

/-- Why a batch is discarded in a session, if it is (R74): sequence, then code and counts, then totals. -/
def batchFault (l : Lane) (x : Session) (seq code : Byte) (k : Counts) : Option LaneError :=
  if (match l.expect with | .number n => n != seq | .absent | .any => false) then some .sequence
  else match codeOf code.toNat with
    | none => some .protocol
    | some c =>
      if !has x.accepted c || decide (999 < k.fit) || decide (999 < k.unfit) || decide (999 < k.suspect)
      then some .protocol
      else
        let t := (x.total c).add k
        if decide (maxCount < t.fit) || decide (maxCount < t.unfit) || decide (maxCount < t.suspect)
        then some .limit else none

/-- The expectation after a batch in IDLE: an absent one stays absent (R74, R75). -/
def Expect.afterIdle (seq : Byte) : Expect → Expect
  | .absent => .absent
  | .number _ | .any => .number (seq + 1)

/-- BATCH (R74, R75, R76). -/
def takeBatch (i : LaneIx) (seq code : Byte) (k : Counts) (s : State) : State :=
  let l := s.lane i
  match l.state with
  | .unprofiled => s
  | .idle =>
    (s.setLane i { l with discarded := some ⟨seq, code, k, .protocol⟩, expect := l.expect.afterIdle seq })
      |>.laneError .protocol i
  | .opened | .holding | .held | .ended | .fault =>
    match l.session with
    | none => s
    | some x =>
      match batchFault l x seq code k, codeOf code.toNat with
      | none, some c =>
        s.setLane i { l with session := some (x.push ⟨seq, c, k⟩), expect := .number (seq + 1) }
      | some e, _ =>
        (s.setLane i { l with
          discarded := some ⟨seq, code, k, e⟩
          expect := if e = .sequence then .any else .number (seq + 1) }).laneError e i
      | none, none => s

/-- The number of an END-FEED is accepted: one below the expectation, or the expectation is ANY (R75). -/
def Expect.accepts (seq : Byte) : Expect → Bool
  | .absent => false
  | .number n => seq + 1 == n
  | .any => true

/-- END-FEED (R81). -/
def takeEndFeed (i : LaneIx) (seq : Byte) (s : State) : State :=
  let l := s.lane i
  match l.state with
  | .unprofiled => s
  | .idle => s.laneError .protocol i
  | .opened =>
    if l.expect.accepts seq then State.raise .lane (s.setLane i { l with state := .ended })
    else s.laneError .sequence i
  | .holding =>
    if l.expect.accepts seq then State.raise .lane (s.setLane i { l with state := .held, hold := none })
    else s.laneError .sequence i
  | .held | .ended | .fault => if l.expect.accepts seq then s else s.laneError .sequence i

/-- HOLD-ACK (R80). -/
def takeHoldAck (i : LaneIx) (s : State) : State :=
  let l := s.lane i
  match l.state with
  | .holding => State.raise .lane (s.setLane i { l with state := .held, hold := none })
  | .opened | .ended => s.laneError .protocol i
  | .unprofiled | .idle | .held | .fault => s

/-- JAM (R82). -/
def takeJam (i : LaneIx) (code : Byte) (s : State) : State :=
  let l := s.lane i
  match l.state with
  | .unprofiled => s
  | .idle | .opened | .holding | .held | .ended | .fault =>
    (s.setLane i { l with jam := some code }).laneError .jam i

/-- A 16-bit count of a BATCH body, low byte first. -/
def count16 (lo hi : Byte) : Nat := leNat [lo, hi]

/-- A received frame acts by its KIND and LEN; any other is discarded and latches PROTOCOL (R62). -/
def takeFrame (i : LaneIx) (kind : Byte) (body : List Byte) (s : State) : State :=
  match body with
  | [m, s0, s1, s2, s3] =>
    if kind = 0x01 then takeHello i m (s3 ++ s2 ++ s1 ++ s0) s else s.laneError .protocol i
  | [q, c, f0, f1, u0, u1, x0, x1] =>
    if kind = 0x02 then takeBatch i q c ⟨count16 f0 f1, count16 u0 u1, count16 x0 x1⟩ s
    else s.laneError .protocol i
  | [b] =>
    if kind = 0x03 then takeEndFeed i b s
    else if kind = 0x05 then takeJam i b s
    else s.laneError .protocol i
  | [] => if kind = 0x04 then takeHoldAck i s else s.laneError .protocol i
  | _ => s.laneError .protocol i

/-- An event of the receiver acts on its lane (R61, R62). -/
def laneEvent (i : LaneIx) (s : State) : RxEvent → State
  | .frame kind body => takeFrame i kind body s
  | .error e => s.laneError e i

/-- Characters arrive at a lane. An UNPROFILED receiver, and a part with no supply, discard them (R60). -/
def receive (i : LaneIx) (chars : List RxChar) (s : State) : State :=
  if s.powered = false ∨ (s.lane i).state = .unprofiled then s
  else
    let out := (s.lane i).rx.run chars
    out.2.foldl (laneEvent i) (s.setLane i { s.lane i with rx := out.1 })

/-! ### The transmitter and the frames it sends (R60, R62) -/

/-- The KIND of a frame the part sends (R62). -/
def TxFrame.kind : TxFrame → Byte
  | .profile _ _ => 0x11
  | .start => 0x12
  | .hold => 0x13

/-- The body of a frame the part sends: a PROFILE carries its mask, low byte first, and its speed index (R62). -/
def TxFrame.body : TxFrame → List Byte
  | .profile mask speed => le 2 mask.toNat ++ [byte speed.val]
  | .start | .hold => []

/-- The characters of a frame the part sends: SYNC, KIND, LEN, the body and CHECK (R61, R62). -/
def TxFrame.chars (f : TxFrame) : List RxChar := frameChars f.kind f.body

/-- The bit rate of a speed index (R60). -/
def bitRate (speed : Fin 4) : Nat := [9600, 19200, 38400, 57600].getD speed.val 0

/-- What a lane is sending on TXn, if anything: the bit rate and the characters of its frame (R60, R62). -/
def Lane.sends (l : Lane) : Option (Nat × List RxChar) :=
  l.tx.sending.map fun x => (bitRate x.speed, x.frame.chars)


/-- The end of a frame at the transmitter: a PROFILE's speed is taken; after a LANE-RESET 9,600 bit/s is
taken once no HOLD waits; the next waiting frame begins (R60). -/
def Transmitter.frameEnd (t : Transmitter) : Transmitter :=
  match t.sending with
  | none => t
  | some x =>
    let t1 := match x.frame with
      | .profile _ sp => { t with speed := sp }
      | .start | .hold => t
    let t2 :=
      if t1.draining && (t1.waiting.head? != some .hold) then { t1 with speed := 0, draining := false }
      else t1
    match t2.waiting with
    | [] => { t2 with sending := none }
    | f :: r => { t2 with sending := some ⟨f, t2.speed⟩, waiting := r }

/-- The end of a frame at its lane: with a PROFILE the lane also receives at the speed it names and its
receiver returns to the hunt, unless the lane has been reset meanwhile (R60, R61). -/
def Lane.frameEnd (l : Lane) : Lane :=
  let l1 := { l with tx := l.tx.frameEnd }
  match l.tx.sending with
  | some ⟨.profile _ sp, _⟩ =>
    if l.tx.draining then l1 else { l1 with rxSpeed := sp, rx := .hunting false }
  | _ => l1

/-- A lane finishes sending a frame (R60). -/
def frameSent (i : LaneIx) (s : State) : State :=
  if s.powered = false then s else s.setLane i (s.lane i).frameEnd

/-! ### Replies -/

/-- The sequence expectation in 2 bytes: kind, then the number (section 11.1). -/
def Expect.bytes : Expect → List Byte
  | .absent => [0, 0]
  | .number n => [1, n]
  | .any => [2, 0]

/-- A batch record, laid out as the BATCH body (section 11.3). -/
def batchBytes (seq code : Byte) (k : Counts) : List Byte :=
  [seq, code] ++ le 2 k.fit ++ le 2 k.unfit ++ le 2 k.suspect

def Batch.bytes (b : Batch) : List Byte := batchBytes b.seq (byte b.code.val) b.counts

/-- The last discarded batch: presence, record, reason (R70). -/
def discardedBytes : Option Discarded → List Byte
  | none => List.replicate 10 0
  | some d => 1 :: (batchBytes d.seq d.code d.counts ++ [d.reason.weight])

/-- The session part of LANE-READ page 0: zeros without a session (R70). -/
def sessionBytes (d : Vector Denom 12) : Option Session → List Byte
  | none => List.replicate 13 0
  | some x =>
    [1, byte x.purpose.value] ++ le 2 x.purpose.target ++ [byte x.stack.length] ++
      le 4 (stopAt (valueOf d x.comp)) ++ le 4 (stopAt (suspectOf d x.comp))

/-- Page 0 of LANE-READ (R70). -/
def lanePage0 (d : Vector Denom 12) (l : Lane) : List Byte :=
  [byte l.state.value, byte l.speed.val] ++ le 2 l.mask.toNat ++
    (match l.identity with
     | none => List.replicate 6 0
     | some x => [1, x.model] ++ le 4 x.serial.toNat) ++
    l.expect.bytes ++ [l.errors] ++
    (match l.jam with
     | none => [0, 0]
     | some j => [1, j]) ++
    [byte (l.hold.getD 0)] ++ discardedBytes l.discarded ++ sessionBytes d l.session

/-- Page 1 of LANE-READ: session totals and declared rolls, zeros without a session (R70). -/
def lanePage1 : Option Session → List Byte
  | none => List.replicate 96 0
  | some x => compBytes12 (tab x.total) ++ codes.flatMap fun c => le 2 x.rolls[c]
where
  /-- Three counts a code, 2 bytes each. -/
  compBytes12 (k : Comp) : List Byte :=
    codes.flatMap fun c => le 2 k[c].fit ++ le 2 k[c].unfit ++ le 2 k[c].suspect

/-- Page 2 of LANE-READ: the stack, top first, then the folded totals (R70). -/
def lanePage2 : Option Session → List Byte
  | none => List.replicate 73 0
  | some x =>
    byte x.stack.length :: (x.stack.flatMap Batch.bytes ++ lanePage1.compBytes12 x.folded)

/-- LANE-READ (R70). -/
def laneReadEffect (a : List Byte) (s : State) : Answer :=
  withLane 2 a s fun i =>
    match arg a 1 1 with
    | 0 => .taken (lanePage0 s.denoms (s.lane i)) s
    | 1 => .taken (lanePage1 (s.lane i).session) s
    | 2 => .taken (lanePage2 (s.lane i).session) s
    | _ => .refused .argument s

/-! ### Link commands -/

/-- LANE-PROFILE (R66). -/
def laneProfileEffect (a : List Byte) (s : State) : Answer :=
  withLane 4 a s fun i =>
    match maskOf (arg a 1 2), asFin 4 (arg a 3 1) with
    | some m, some sp =>
      let l := s.lane i
      if codes.any (fun c => has m c && (s.denoms[c].kind != .note)) then .refused .argument s
      else if s.ret.latch then .refused .state s
      else if l.session.isSome then .refused .engaged s
      else
        .taken (byte i.val :: (le 2 m.toNat ++ [byte sp.val]))
          (s.setLane i
            { l with state := .idle, speed := sp, mask := m, identity := none, expect := .absent,
                     errors := 0, jam := none, discarded := none,
                     tx := l.tx.issue (.profile m sp) })
    | _, _ => .refused .argument s

/-- LANE-CLEAR (R68). -/
def laneClearEffect (a : List Byte) (s : State) : Answer :=
  withProfiled 1 a s fun i =>
    let l := s.lane i
    let st := if l.state = .fault then .held else l.state
    .taken [byte i.val, l.errors, byte st.value] (s.setLane i { l with errors := 0, state := st })

/-- A lane state whose counter feeds or may feed, so that LANE-RESET issues HOLD (R69). -/
def LaneState.resetHolds : LaneState → Bool
  | .opened | .holding | .fault => true
  | .unprofiled | .idle | .held | .ended => false

/-- LANE-RESET (R69). -/
def laneResetEffect (a : List Byte) (s : State) : Answer :=
  withLane 1 a s fun i =>
    let l := s.lane i
    let tx := if l.state.resetHolds then l.tx.issue .hold else l.tx
    .taken
      [byte i.val, byte l.state.value, byte ((l.session.map fun x => x.purpose.value).getD 0)]
      ((s.releaseLane i).setLane i { Lane.unprofiled with tx := tx.reset })

/-! ### Session commands -/

/-- The purpose and target of COUNT-OPEN with its length: none is ARGUMENT (R72 step 1, R184). A till or
manifest number is checked later (R73). -/
inductive OpenTarget where
  | tillClose (n : Nat)
  | pickup (n : Nat)
  | delivery (n : Nat)
  | audit (m : CodeSet)
  deriving DecidableEq, Repr

def openTarget (d : Vector Denom 12) (a : List Byte) : Option OpenTarget :=
  match arg a 1 1 with
  | 1 => if a.length = 3 then some (.tillClose (arg a 2 1)) else none
  | 2 => if a.length = 3 then some (.pickup (arg a 2 1)) else none
  | 3 => if a.length = 4 then some (.delivery (arg a 2 2)) else none
  | 4 =>
    if a.length = 4 then
      match maskOf (arg a 2 2) with
      | none => none
      | some m =>
        if m = 0 then none
        else if codes.any (fun c => has m c && (d[c].kind == .unused)) then none
        else some (.audit m)
    else none
  | _ => none

/-- The codes of a set that are NOTE codes. -/
def noteCodes (d : Vector Denom 12) (m : CodeSet) : CodeSet :=
  codes.foldl (fun a c => if has m c && (d[c].kind == .note) then a ||| (1#12 <<< c.val) else a) 0

/-- R72 step 3 for AUDIT: a NOTE code of the audit set is not enabled in the profile. -/
def auditNotEnabled (d : Vector Denom 12) (l : Lane) : OpenTarget → Bool
  | .audit m => codes.any fun c => has m c && (d[c].kind == .note) && !has l.mask c
  | .tillClose _ | .pickup _ | .delivery _ => false

/-- Some lane holds an AUDIT session (R73). -/
def State.auditOpen (s : State) : Bool :=
  lanesAll.any fun i => (s.lane i).session.any fun x =>
    match x.purpose with
    | .audit _ => true
    | _ => false

/-- The purpose checks of COUNT-OPEN (R73). -/
def bindCheck (s : State) : OpenTarget → Except PortCode Purpose
  | .tillClose n =>
    match tillOf n with
    | none => .error .unknown
    | some t =>
      if (s.till t).state ≠ .closing then .error .state
      else if (s.till t).lane.isSome then .error .engaged
      else .ok (.tillClose t)
  | .pickup n =>
    match tillOf n with
    | none => .error .unknown
    | some t =>
      if (s.till t).state ≠ .trading then .error .state
      else if (s.till t).lane.isSome then .error .engaged
      else .ok (.pickup t)
  | .delivery n =>
    match (s.findMan n).bind s.man with
    | none => .error .unknown
    | some m =>
      match m.body with
      | .collection _ => .error .state
      | .delivery d =>
        if m.state ≠ .receiving then .error .state
        else if d.lane.isSome then .error .engaged
        else .ok (.delivery n)
  | .audit m =>
    if s.auditOpen then .error .engaged
    else if s.audit.isSome then .error .state
    else .ok (.audit m)

/-- The binding each purpose makes (R73). -/
def State.bindSession (i : LaneIx) (p : Purpose) (s : State) : State :=
  match p with
  | .tillClose t =>
    (s.setTill t { s.till t with lane := some i, state := .inCount }).removeCall t .collect
  | .pickup t => s.setTill t { s.till t with lane := some i }
  | .delivery n =>
    match s.findMan n with
    | none => s
    | some j => s.setMan j ((s.man j).map (Manifest.withLane (some i)))
  | .audit m => s.freeze m true

/-- A new session (R71, R72). -/
def newSession (d : Vector Denom 12) (mask : CodeSet) (p : Purpose) : Session :=
  { purpose := p
    accepted := match p with
                | .audit m => noteCodes d m
                | .tillClose _ | .pickup _ | .delivery _ => mask
    folded := Comp.zero
    stack := []
    rolls := Vector.replicate 12 0 }

/-- COUNT-OPEN (R72, R73). -/
def countOpenEffect (a : List Byte) (s : State) : Answer :=
  if a.length < 2 then .refused .argument s
  else match openTarget s.denoms a, laneOf (arg a 0 1) with
    | some o, some i =>
      let l := s.lane i
      if s.ret.latch then .refused .state s
      else if l.state = .unprofiled ∨ l.identity = none then .refused .profile s
      else if auditNotEnabled s.denoms l o then .refused .profile s
      else if l.session.isSome then .refused .engaged s
      else if l.errors ≠ 0 then .refused .lane s
      else match bindCheck s o with
        | .error r => .refused r s
        | .ok p =>
          .taken ([byte i.val, byte p.value] ++ le 2 p.target ++ l.expect.bytes)
            ((s.setLane i
              { l with state := .opened, session := some (newSession s.denoms l.mask p),
                       tx := l.tx.issue .start }).bindSession i p)
    | _, _ => .refused .argument s

/-- The depth of a lane's batch stack. -/
def Lane.depth (l : Lane) : Nat := (l.session.map fun x => x.stack.length).getD 0

/-- COUNT-HOLD (R79). -/
def countHoldEffect (a : List Byte) (s : State) : Answer :=
  withProfiled 1 a s fun i =>
    let l := s.lane i
    match l.state with
    | .fault => .refused .lane s
    | .unprofiled | .idle | .holding | .held | .ended => .refused .state s
    | .opened =>
      .taken [byte i.val, byte l.depth]
        (s.setLane i { l with state := .holding, hold := some 5, tx := l.tx.issue .hold })

/-- COUNT-RESUME (R83). -/
def countResumeEffect (a : List Byte) (s : State) : Answer :=
  withProfiled 1 a s fun i =>
    let l := s.lane i
    match l.state with
    | .fault => .refused .lane s
    | .unprofiled | .idle | .opened | .holding => .refused .state s
    | .held | .ended =>
      .taken (byte i.val :: l.expect.bytes)
        (s.setLane i { l with state := .opened, tx := l.tx.issue .start })

/-- COUNT-VOID (R77). -/
def countVoidEffect (a : List Byte) (s : State) : Answer :=
  withProfiled 1 a s fun i =>
    let l := s.lane i
    match l.state, l.session with
    | .held, some x | .ended, some x | .fault, some x =>
      match x.stack with
      | [] => .refused .state s
      | b :: r =>
        .taken (byte i.val :: (b.bytes ++ [byte r.length]))
          (s.setLane i { l with session := some { x with stack := r } })
    | _, _ => .refused .state s

/-- R78 step 3: an AUDIT session declares rolls of its audit set only. -/
def Purpose.allowsRoll (p : Purpose) (c : Code) : Bool :=
  match p with
  | .audit m => has m c
  | .tillClose _ | .pickup _ | .delivery _ => true

/-- COUNT-ROLLS (R78). -/
def countRollsEffect (a : List Byte) (s : State) : Answer :=
  withProfiled 4 a s fun i =>
    let l := s.lane i
    match usedCode s.denoms (arg a 1 1) with
    | none => .refused .argument s
    | some c =>
      if s.denoms[c].kind ≠ .roll then .refused .argument s
      else match l.session with
        | none => .refused .state s
        | some x =>
          if x.purpose.allowsRoll c = false then .refused .argument s
          else
            .taken ([byte i.val, byte c.val] ++ le 2 x.rolls[c] ++ le 2 (arg a 2 2))
              (s.setLane i { l with session := some { x with rolls := x.rolls.set c (arg a 2 2) } })

/-- COUNT-ABORT (R84). -/
def countAbortEffect (a : List Byte) (s : State) : Answer :=
  withProfiled 1 a s fun i =>
    let l := s.lane i
    match l.session with
    | none => .refused .state s
    | some x =>
      .taken ([byte i.val, byte x.purpose.value] ++ le 2 x.purpose.target ++ [byte x.stack.length])
        ((s.releaseLane i).setLane i
          { l with state := .idle, session := none, hold := none,
                   tx := if l.state = .opened then l.tx.issue .hold else l.tx })

end Sys2Proof.Machine
end

