-- ==== Sys2Proof/Machine/Tills.lean ====
section
/-! DEFINITION. Floats and till records (chapter 2) and the supervisor's decisions on a counted till
(sections 5.1, 5.4, 5.5): the templates, the float build, the till commands, the reconciliation. -/

namespace Sys2Proof.Machine

/-! ### Templates (R22 to R24) -/

/-- The target value of a template, exact (R22). -/
def targetValue (d : Vector Denom 12) (t : Template) : Nat := fitValue d t.targets

/-- A table of 2-byte counts as bytes, in code order. -/
def countBytes (v : Vector Nat 12) : List Byte := codes.flatMap fun c => le 2 v[c]

/-- The fit, unfit and suspect counts of each code, 2 bytes each. -/
def compBytes (k : Comp) : List Byte :=
  codes.flatMap fun c => le 2 k[c].fit ++ le 2 k[c].unfit ++ le 2 k[c].suspect

/-- The reply of TEMPLATE-SET and TEMPLATE-READ (R23, R24). -/
def templateReply (s : State) (l : TemplateIx) (t : Template) : List Byte :=
  byte l.val :: (countBytes t.targets ++ le 2 t.slack ++ le 5 (targetValue s.denoms t))

/-- TEMPLATE-SET (R23). -/
def templateSetEffect (a : List Byte) (s : State) : Answer :=
  if a.length ≠ 27 then .refused .argument s
  else match asFin 4 (arg a 0 1) with
    | none => .refused .argument s
    | some l =>
      let t : Template := ⟨tab fun c => arg a (1 + 2 * c.val) 2, arg a 25 2⟩
      if codes.any (fun c => (t.targets[c] != 0) &&
          ((s.denoms[c].kind == .unused) || !s.denoms[c].eligible)) then .refused .argument s
      else if 50000 < t.slack then .refused .argument s
      else .taken (templateReply s l t) { s with templates := s.templates.set l t }

/-- TEMPLATE-READ (R24). -/
def templateReadEffect (a : List Byte) (s : State) : Answer :=
  if a.length ≠ 1 then .refused .argument s
  else match asFin 4 (arg a 0 1) with
    | none => .refused .argument s
    | some l => .taken (templateReply s l s.templates[l]) s

/-- TILL-SETUP (R26). -/
def tillSetupEffect (a : List Byte) (s : State) : Answer :=
  withTill 7 a s fun t =>
    match boolOf (arg a 1 1), asFin 4 (arg a 2 1) with
    | some on, some l =>
      let threshold := arg a 3 4
      if maxAmount < threshold then .refused .argument s
      else if (s.till t).state ≠ .closed then .refused .state s
      else
        .taken ([byte (t.val + 1), boolByte on, byte l.val] ++ le 4 threshold)
          (s.setTill t { s.till t with inService := on, template := l, threshold := threshold })
    | _, _ => .refused .argument s

/-! ### The float build (R30) -/

/-- Puts a code into a list in descending order of face. -/
def insertFace (d : Vector Denom 12) (c : Code) : List Code → List Code
  | [] => [c]
  | x :: r => if d[x].face < d[c].face then c :: x :: r else x :: insertFace d c r

/-- The codes with a nonzero target, in descending order of face (R30). -/
def walkOrder (d : Vector Denom 12) (t : Template) : List Code :=
  (codes.filter fun c => t.targets[c] != 0).foldr (insertFace d) []

/-- What the build has so far: the takes and the carry. -/
structure Build where
  takes : Vector Nat 12
  carry : Nat
  deriving DecidableEq, Repr

/-- The fit count a build may draw on: 0 while the code is frozen (R11, R30 step 3). -/
def buildAvailable (s : State) (c : Code) : Nat :=
  if s.stock[c].frozen then 0 else s.stock[c].counts.fit

/-- One code of the walk (R30 steps 1 to 4). -/
def buildStep (s : State) (t : Template) (b : Build) (c : Code) : Build :=
  let face := s.denoms[c].face
  let want := t.targets[c] * face + b.carry
  let take := min (min maxCount (want / face)) (buildAvailable s c)
  ⟨b.takes.set c take, want - take * face⟩

/-- The float build of a template from the stock (R30). -/
def floatBuild (s : State) (t : Template) : Build :=
  (walkOrder s.denoms t).foldl (buildStep s t) ⟨Vector.replicate 12 0, 0⟩

/-- FROZEN-READ: a walked code was read as 0 because it is frozen (R31). -/
def frozenRead (s : State) (t : Template) : Bool :=
  codes.any fun c => (t.targets[c] != 0) && s.stock[c].frozen

/-- FLOAT-ISSUE (R31). -/
def floatIssueEffect (a : List Byte) (s : State) : Answer :=
  withTill 1 a s fun t =>
    let till := s.till t
    let tpl := s.templates[till.template]
    let b := floatBuild s tpl
    let taken := fitValue s.denoms b.takes
    if till.inService = false ∨ till.state ≠ .closed then .refused .state s
    else if targetValue s.denoms tpl = 0 then .refused .argument s
    else if s.limits.ceiling < targetValue s.denoms tpl then .refused .limit s
    else if tpl.slack < b.carry ∨ taken = 0 then .refused .stock s
    else
      .taken
        ([byte (t.val + 1), byte (mark 1 (b.carry != 0) + mark 2 (frozenRead s tpl))] ++
          le 4 taken ++ le 4 b.carry ++ countBytes b.takes)
        ((s.moveOut (Comp.ofFit b.takes)).setTill t
          { till with issue := b.takes, f := taken, state := .issued })

/-! ### Before and while trading (R32 to R37) -/

/-- FLOAT-CANCEL (R32). -/
def floatCancelEffect (a : List Byte) (s : State) : Answer :=
  withTill 1 a s fun t =>
    let till := s.till t
    let k := Comp.ofFit till.issue
    if till.state ≠ .issued then .refused .state s
    else match inRefusal s k with
      | some r => .refused r s
      | none =>
        .taken (byte (t.val + 1) :: countBytes till.issue) ((s.moveIn k).setTill t till.retire)

/-- TILL-OPEN (R33). -/
def tillOpenEffect (a : List Byte) (s : State) : Answer :=
  withTill 1 a s fun t =>
    let till := s.till t
    if till.state ≠ .issued then .refused .state s
    else
      .taken ([byte (t.val + 1), byte TillState.trading.value] ++ le 4 till.f)
        (s.setTill t { till with state := .trading })

/-- The lines of a TOPUP-ISSUE whose line count is in range and agrees with the length (R34, R184). -/
def topupLength (a : List Byte) : Bool :=
  decide (2 ≤ a.length) && decide (1 ≤ arg a 1 1) && decide (arg a 1 1 ≤ 12) &&
    decide (a.length = 2 + 3 * arg a 1 1)

/-- TOPUP-ISSUE (R34). -/
def topupIssueEffect (a : List Byte) (s : State) : Answer :=
  if topupLength a = false then .refused .argument s
  else match tillOf (arg a 0 1) with
    | none => .refused .unknown s
    | some t =>
      match readLines s.denoms (linePairs (a.drop 2)) with
      | none => .refused .argument s
      | some l =>
        let till := s.till t
        let v := lineCounts l
        let value := fitValue s.denoms v
        if l.any (fun x => !s.denoms[x.code].eligible) then .refused .argument s
        else if l.all (fun x => x.count == 0) then .refused .argument s
        else if till.state ≠ .trading then .refused .state s
        else match outRefusal s (Comp.ofFit v) with
          | some r => .refused r s
          | none =>
            if codes.any (fun c => decide (maxCount < till.issue[c] + v[c])) then .refused .limit s
            else if s.limits.ceiling < till.f + value then .refused .limit s
            else
              let till' := { till with issue := tab fun c => till.issue[c] + v[c], f := till.f + value }
              .taken
                (byte (t.val + 1) :: (le 4 value ++ le 4 till'.f ++ leInt 4 till'.drawer ++
                  [boolByte (s.hasCall t .topup)]))
                (((s.moveOut (Comp.ofFit v)).setTill t till').removeCall t .topup)

/-! ### The reconciliation (R88, R89) -/

/-- The tolerance: basis points of the base, rounded half up, within the floor and the cap (R89). -/
def tolerance (l : Limits) (e : Int) : Nat :=
  min l.cap (max l.floor ((e.toNat * l.basisPoints + 5000) / 10000))

/-- The class of a variance under a tolerance (R89). -/
def classify (v : Int) (tol : Nat) : ReconClass :=
  if v > tol then .over else if v < -(tol : Int) then .short else .balanced

/-- E, V, Tol, class and NEG-EXPECT from a till's fields, a counted value and the limits (R88, R89). The
other fields of the result are kept as given. -/
def LastResult.judge (r : LastResult) (l : Limits) (t : Till) : LastResult :=
  let e := saturate t.exactDrawer
  let v := saturate ((r.c : Int) - e)
  let tol := tolerance l e
  { r with e := e, v := v, tol := tol, cls := classify v tol, negExpect := decide (t.exactDrawer < 0) }

/-- The bytes of a result from E to its flags. -/
def LastResult.judgeBytes (r : LastResult) : List Byte :=
  leInt 4 r.e ++ leInt 4 r.v ++ le 4 r.tol ++ [byte r.cls.value, byte (resultFlags r.negExpect r.v)]

/-- A till after a posting (R35, R36, R95): in COUNTED the result is judged again, and a till that balances
retires. -/
def Till.afterPosting (l : Limits) (t : Till) : Till :=
  match t.state, t.result with
  | .counted, some r =>
    let r' := r.judge l t
    if r'.cls = .balanced then { t with result := some r' }.retire else { t with result := some r' }
  | _, _ => t

/-- The recomputed mark and figures of the POS-CASH reply (R35). -/
def recomputedBytes (l : Limits) (t : Till) : List Byte :=
  match t.state, t.result with
  | .counted, some r => 1 :: (r.judge l t).judgeBytes
  | _, _ => 0 :: List.replicate 14 0

/-- POS-CASH (R35, R36, R95). -/
def posCashEffect (a : List Byte) (s : State) : Answer :=
  withTill 9 a s fun t =>
    let cashIn := arg a 1 4
    let cashOut := arg a 5 4
    let till := s.till t
    if maxAmount < cashIn ∨ maxAmount < cashOut then .refused .argument s
    else if till.state = .closed ∨ till.state = .issued then .refused .state s
    else if maxAmount < till.s + cashIn ∨ maxAmount < till.r + cashOut then .refused .limit s
    else
      let t1 := { till with s := till.s + cashIn, r := till.r + cashOut }
      let t2 := t1.afterPosting s.limits
      .taken
        ([byte (t.val + 1), byte t2.state.value] ++ le 4 t1.s ++ le 4 t1.r ++ leInt 4 t1.drawer ++
          recomputedBytes s.limits t1)
        (s.setTill t t2)

/-- TILL-CLOSE (R37). The queued mark of a COLLECT raise that merges is clear: DESIGN CHOICE (log entry 29). -/
def tillCloseEffect (a : List Byte) (s : State) : Answer :=
  withTill 1 a s fun t =>
    let till := s.till t
    if till.state ≠ .trading then .refused .state s
    else
      let s1 := (((s.setTill t { till with state := .closing }).removeCall t .skim).removeCall t .topup)
      let out := s1.raiseOutcome t .collect
      let s2 := s1.raiseCall t .collect none
      .taken
        (byte (t.val + 1) :: (leInt 4 till.drawer ++
          [byte (mark 1 (s.hasCall t .skim) + mark 2 (s.hasCall t .topup) + mark 4 (out == .added))]))
        (if out = .noRoom then s2.loseCall else s2)

/-- The bytes of a last result in TILL-READ: zeros when it is absent (R39). -/
def resultBytes : Option LastResult → List Byte
  | none => List.replicate 100 0
  | some r =>
    1 :: (le 4 r.c ++ r.judgeBytes ++ le 4 r.sv ++ compBytes r.comp ++ [boolByte r.time.isSome] ++
      stampBytes r.time)

/-- TILL-READ (R39). -/
def tillReadEffect (a : List Byte) (s : State) : Answer :=
  withTill 1 a s fun t =>
    let till := s.till t
    .taken
      ([boolByte till.inService, byte till.template.val] ++ le 4 till.threshold ++
        [byte till.state.value] ++ le 4 till.f ++ le 4 till.s ++ le 4 till.r ++ le 4 till.p ++
        le 2 till.pickups ++ leInt 4 till.drawer ++
        [indexByte (till.lane.map Fin.val),
         byte (mark 1 (s.hasCall t .skim) + mark 2 (s.hasCall t .topup) + mark 4 (s.hasCall t .collect))] ++
        countBytes till.issue ++ resultBytes till.result) s

/-! ### The supervisor's decisions (R96 to R98) -/

/-- VARIANCE-ACCEPT (R96). -/
def varianceAcceptEffect (a : List Byte) (s : State) : Answer :=
  withTill 4 a s fun t =>
    withAuthority (arg a 1 3) s fun s =>
      match (s.till t).state, (s.till t).result with
      | .counted, some r =>
        .taken ([byte (t.val + 1), byte r.cls.value] ++ leInt 4 r.v) (s.setTill t (s.till t).retire)
      | _, _ => .refused .state s

/-- RECOUNT (R97, R98). -/
def recountEffect (a : List Byte) (s : State) : Answer :=
  withTill 4 a s fun t =>
    withAuthority (arg a 1 3) s fun s =>
      let till := s.till t
      match till.state, till.result with
      | .counted, some r =>
        let delta : Int := (till.f : Int) - r.c
        match outRefusal s r.comp with
        | some c => .refused c s
        | none =>
          if postRefused s delta then .refused .limit s
          else
            .taken
              (byte (t.val + 1) :: (compBytes r.comp ++ le 4 r.c ++ le 4 till.f ++ leInt 4 delta))
              (((s.moveOut r.comp).post delta).setTill t { till with state := .closing, lane := none })
      | _, _ => .refused .state s

end Sys2Proof.Machine
end

