-- ==== Sys2Proof/Machine/Recon.lean ====
section
/-! DEFINITION. COUNT-COMMIT with its four purposes (R85, sections 5.2, 5.3, 5.6, 7.5), and the audit
commands (R101 to R103, R186). -/

namespace Sys2Proof.Machine

/-- The lane after a taken commit: IDLE with its profile, identity and expectation kept (R85). -/
def State.endSession (i : LaneIx) (s : State) : State :=
  s.setLane i { s.lane i with state := .idle, session := none }

/-- The head of the reply of COUNT-COMMIT, with the counted value it carries (R85, section 11.3). -/
def commitHead (s : State) (i : LaneIx) (x : Session) (value : Nat) : List Byte :=
  [byte i.val, byte x.purpose.value] ++ le 2 x.purpose.target ++ le 4 value ++
    le 4 (stopAt (suspectOf s.denoms x.comp)) ++ le 3 (unitsOf x.comp)

/-- The last result a close count writes (R87, R91). -/
def closeResult (s : State) (t : TillIx) (k : Comp) : LastResult :=
  LastResult.judge
    { c := valueOf s.denoms k, e := 0, v := 0, tol := 0, cls := .balanced, negExpect := false,
      sv := stopAt (suspectOf s.denoms k), comp := k, time := s.stamp }
    s.limits (s.till t)

/-- The till after its close count: retired when BALANCED, else COUNTED, with its lane cleared (R91). -/
def Till.afterClose (r : LastResult) (t : Till) : Till :=
  if r.cls = .balanced then { t with result := some r }.retire
  else { t with result := some r, state := .counted, lane := none }

/-- The commit of a TILL-CLOSE session (R90, R91). -/
def commitTillClose (i : LaneIx) (x : Session) (t : TillIx) (s : State) : Answer :=
  let k := x.comp
  let value := valueOf s.denoms k
  let delta : Int := (value : Int) - (s.till t).f
  match inRefusal s k with
  | some r => .refused r s
  | none =>
    if maxAmount < value then .refused .limit s
    else if postRefused s delta then .refused .limit s
    else
      let r := closeResult s t k
      let till := (s.till t).afterClose r
      .taken
        (commitHead s i x value ++ [byte (t.val + 1), byte till.state.value] ++ r.judgeBytes)
        ((((s.moveIn k).post delta).setTill t till).endSession i)

/-- What became of the SKIM entry of a till at a pickup commit (R46, R93). -/
inductive SkimOutcome where
  | absent
  | removed
  | updated (amount : Nat)
  deriving DecidableEq, Repr

/-- The outcome of the re-evaluation, for the till's figures after the commit (R46). -/
def State.skimOutcome (s : State) (t : TillIx) : SkimOutcome :=
  if s.hasCall t .skim then
    if skimDue (s.till t) s.limits.skimUnit = 0 then .removed
    else .updated (skimDue (s.till t) s.limits.skimUnit)
  else .absent

/-- The re-evaluation of a till's SKIM entry (R46). -/
def State.reevaluateSkim (t : TillIx) (s : State) : State :=
  match s.skimOutcome t with
  | .absent => s
  | .removed => s.removeCall t .skim
  | .updated n => s.mergeCall t .skim (some n)

/-- The outcome and the new amount in the reply, zero unless UPDATED (section 11.3). -/
def SkimOutcome.bytes : SkimOutcome → List Byte
  | .absent => 0 :: le 4 0
  | .removed => 1 :: le 4 0
  | .updated n => 2 :: le 4 n

/-- The commit of a PICKUP session (R93). -/
def commitPickup (i : LaneIx) (x : Session) (t : TillIx) (s : State) : Answer :=
  let k := x.comp
  let value := valueOf s.denoms k
  let till := s.till t
  match inRefusal s k with
  | some r => .refused r s
  | none =>
    if maxAmount < till.p + value then .refused .limit s
    else if maxCount ≤ till.pickups then .refused .limit s
    else if postRefused s value then .refused .limit s
    else
      let till' := { till with p := till.p + value, pickups := till.pickups + 1, lane := none }
      let s1 := (((s.moveIn k).post value).setTill t till').endSession i
      .taken
        (commitHead s i x value ++ [byte (t.val + 1), byte till'.state.value] ++ le 4 till'.p ++
          le 2 till'.pickups ++ leInt 4 till'.drawer ++ (s1.skimOutcome t).bytes)
        (s1.reevaluateSkim t)

/-- One line of the delivery variance (R141). -/
def varianceLine (d : Vector Denom 12) (k : Comp) (declared : Nat) (c : Code) : VarLine :=
  let units := k[c].fit + k[c].unfit + k[c].suspect
  { code := c, declared := declared, counted := units, unitVar := (units : Int) - declared
    valueVar := saturate
      ((((k[c].fit + k[c].unfit) * d[c].face : Nat) : Int) - (declared * d[c].face : Nat)) }

/-- The delivery variance: declared codes in their order, then the undeclared codes with a nonzero counted
figure, in code order (R141). -/
def varianceLines (d : Vector Denom 12) (decl : List DeclLine) (k : Comp) : List VarLine :=
  (decl.map fun l => varianceLine d k l.count l.code) ++
    (codes.filter fun c => (k[c] != Counts.zero) && !decl.any (fun l => l.code == c)).map
      (varianceLine d k 0)

/-- What the count of a delivery found (R140, R141). -/
def deliveryCount (s : State) (x : Delivery) (k : Comp) : DeliveryCount :=
  { figures := k, value := valueOf s.denoms k, variance := varianceLines s.denoms x.lines k
    total := saturate ((valueOf s.denoms k : Int) - x.declared) }

/-- The commit of a DELIVERY session on its bound manifest (R140). -/
def commitDeliveryTo (i : LaneIx) (x : Session) (j : SlotIx) (m : Manifest) (d : Delivery) (s : State) :
    Answer :=
  let k := x.comp
  let value := valueOf s.denoms k
  match inRefusal s k with
  | some r => .refused r s
  | none =>
    if maxAmount < value then .refused .limit s
    else if postRefused s value then .refused .limit s
    else
      let n := deliveryCount s d k
      let m' := { m with state := .counted, body := .delivery { d with lane := none, count := some n } }
      .taken
        (commitHead s i x value ++ le 2 m.number ++ [byte m'.state.value] ++ le 4 d.declared ++
          leInt 4 n.total ++ byte n.variance.length :: n.variance.flatMap VarLine.bytes)
        ((((s.moveIn k).post value).setMan j (some m')).endSession i)

/-- The commit of a DELIVERY session. The bound manifest is a delivery in RECEIVING at every such commit
(R140); a session without it, which no run reaches, is answered with UNKNOWN. -/
def commitDelivery (i : LaneIx) (x : Session) (n : Nat) (s : State) : Answer :=
  match s.findMan n with
  | none => .refused .unknown s
  | some j =>
    match s.man j with
    | some m =>
      match m.body, m.state with
      | .delivery d, .receiving => commitDeliveryTo i x j m d s
      | _, _ => .refused .unknown s
    | none => .refused .unknown s

/-- The exact value difference of a code between counted figures and stock (R99). -/
def exactDiff (d : Vector Denom 12) (counted stock : Comp) (c : Code) : Int :=
  (((counted[c].fit + counted[c].unfit) * d[c].face : Nat) : Int) -
    ((stock[c].fit + stock[c].unfit) * d[c].face : Nat)

/-- A sum of signed figures over a code set. -/
def sumOver (m : CodeSet) (f : Code → Int) : Int := ((codes.filter (has m)).map f).sum

/-- A table restricted to a code set. -/
def within (m : CodeSet) (k : Code → Counts) : Comp := tab fun c => if has m c then k c else Counts.zero

/-- The audit result that an AUDIT commit writes (R99, R100). -/
def auditOf (s : State) (m : CodeSet) (k : Comp) : AuditResult :=
  let stock := within m fun c => s.stock[c].counts
  let counted := within m fun c => k[c]
  { codes := m, stock := stock, counted := counted
    diff := tab fun c => saturate (exactDiff s.denoms counted stock c)
    total := saturate (sumOver m (exactDiff s.denoms counted stock)) }

/-- The counted value an AUDIT commit reports: the spec gives none above 2,000,000,000 (log entry 18). -/
def auditHead (value : Nat) : Nat := if value ≤ maxAmount then value else Config.auditHeadValue value

/-- The commit of an AUDIT session (R100). -/
def commitAudit (i : LaneIx) (x : Session) (m : CodeSet) (s : State) : Answer :=
  let r := auditOf s m x.comp
  let l := codes.filter (has m)
  .taken
    (commitHead s i x (auditHead (valueOf s.denoms x.comp)) ++ byte l.length :: leInt 4 r.total ++
      l.flatMap fun c => byte c.val :: leInt 4 r.diff[c])
    ({ s.freeze m false with audit := some r }.endSession i)

/-- The commit by its purpose (R85). -/
def commitSession (i : LaneIx) (x : Session) (s : State) : Answer :=
  match x.purpose with
  | .tillClose t => commitTillClose i x t s
  | .pickup t => commitPickup i x t s
  | .delivery n => commitDelivery i x n s
  | .audit m => commitAudit i x m s

/-- COUNT-COMMIT (R85). -/
def countCommitEffect (a : List Byte) (s : State) : Answer :=
  withProfiled 1 a s fun i =>
    match (s.lane i).state, (s.lane i).session with
    | .fault, _ => .refused .lane s
    | .held, some x | .ended, some x => commitSession i x s
    | _, _ => .refused .state s

/-! ### The audit result -/

/-- The current stock of a code differs from the stock at commit (R103). -/
def AuditResult.stale (s : State) (r : AuditResult) (c : Code) : Bool :=
  has r.codes c && (s.stock[c].counts != r.stock[c])

/-- The stale mask, in the weights of the audit mask (R186). -/
def AuditResult.staleMask (s : State) (r : AuditResult) : Nat :=
  sumCodes fun c => mark (2 ^ c.val) (r.stale s c)

/-- Three stock counts, 3 bytes each. -/
def stockBytes (k : Counts) : List Byte := le 3 k.fit ++ le 3 k.unfit ++ le 3 k.suspect

/-- A record of AUDIT-READ: 19 bytes, or 28 for a stale code (R186). -/
def AuditResult.record (s : State) (r : AuditResult) (c : Code) : List Byte :=
  stockBytes r.stock[c] ++ le 2 r.counted[c].fit ++ le 2 r.counted[c].unfit ++
    le 2 r.counted[c].suspect ++ leInt 4 r.diff[c] ++
    (if r.stale s c then stockBytes s.stock[c].counts else [])

/-- The records placed: each while the whole of it fits in the room left (R186). -/
def placeRecords : Nat → List (List Byte) → List (List Byte)
  | _, [] => []
  | room, x :: r => if x.length ≤ room then x :: placeRecords (room - x.length) r else []

/-- The length of the reply buffer (R174). -/
def replyRoom : Nat := 192

/-- The bytes of AUDIT-READ before its records (R186). -/
def auditPrefixLen : Nat := 10

/-- AUDIT-READ (R103, R186). -/
def auditReadEffect (a : List Byte) (s : State) : Answer :=
  noArgs a s <| match s.audit with
    | none => .taken [0] s
    | some r =>
      let l := placeRecords (replyRoom - auditPrefixLen) ((codes.filter (has r.codes)).map (r.record s))
      .taken
        (1 :: (le 2 r.codes.toNat ++ le 2 (r.staleMask s) ++ leInt 4 r.total ++
          byte l.length :: l.flatten)) s

/-- The stock after an acceptance: each audited code at its counted figures (R101). -/
def State.setAudited (r : AuditResult) (s : State) : State :=
  { s with stock := tab fun c =>
      if has r.codes c then { s.stock[c] with counts := r.counted[c] } else s.stock[c] }

/-- AUDIT-ACCEPT (R101). -/
def auditAcceptEffect (a : List Byte) (s : State) : Answer :=
  if a.length ≠ 3 then .refused .argument s
  else withAuthority (arg a 0 3) s fun s =>
    match s.audit with
    | none => .refused .state s
    | some r =>
      let delta := sumOver r.codes (exactDiff s.denoms r.counted r.stock)
      if codes.any (r.stale s) then .refused .state s
      else if postRefused s delta then .refused .limit s
      else
        .taken
          (leInt 4 delta ++ le 2 r.codes.toNat ++
            (codes.filter (has r.codes)).flatMap fun c =>
              stockBytes s.stock[c].counts ++ le 2 r.counted[c].fit ++ le 2 r.counted[c].unfit ++
                le 2 r.counted[c].suspect)
          { (s.setAudited r).post delta with audit := none }

/-- AUDIT-DISCARD (R102). -/
def auditDiscardEffect (a : List Byte) (s : State) : Answer :=
  noArgs a s <| match s.audit with
    | none => .refused .state s
    | some r => .taken (le 2 r.codes.toNat ++ leInt 4 r.total) { s with audit := none }

end Sys2Proof.Machine
end

