-- ==== Sys2Proof/Machine/Door.lean ====
section
/-! DEFINITION. Safe door and supervisor authority (chapter 8): OVERRIDE-SET, DOOR-OPEN, DOOR-LOCK,
DOOR-READ, and a change of the door sense. The authority check and the output are in Ops.lean. -/

namespace Sys2Proof.Machine

/-- OVERRIDE-SET (R147). R147 gives the reply a mark that the code was changed and does not say its value when the
new code equals the old one: the mark is 1 at every taken command. DESIGN CHOICE (log entry 31). -/
def overrideSetEffect (a : List Byte) (s : State) : Answer :=
  if a.length ≠ 6 then .refused .argument s
  else withAuthority (arg a 0 3) s fun s =>
    if 999999 < arg a 3 3 then .refused .argument s
    else
      .taken [1, byte s.auth.failures] { s with auth := { s.auth with code := arg a 3 3 } }

/-- Sets the door interval and recomputes the output (R149). -/
def State.startInterval (seconds : Nat) (s : State) : State :=
  { s with door := { s.door with interval := some seconds } }.recomputeDoor .interval

/-- Drops the door interval and recomputes the output, a lock having the cause given (R149, R150). -/
def State.dropInterval (cause : LockCause) (s : State) : State :=
  { s with door := { s.door with interval := none } }.recomputeDoor cause

/-- DOOR-OPEN (R149). -/
def doorOpenEffect (a : List Byte) (s : State) : Answer :=
  if a.length ≠ 4 then .refused .argument s
  else withAuthority (arg a 0 3) s fun s =>
    if s.ret.latch then .refused .state s
    else
      let m := clamp 1 30 (arg a 3 1)
      .taken
        ([byte m, boolByte (m != arg a 3 1)] ++ le 2 (m * 60) ++ [boolByte s.door.interval.isSome])
        (s.startInterval (m * 60))

/-- DOOR-LOCK (R150). -/
def doorLockEffect (a : List Byte) (s : State) : Answer :=
  noArgs a s <|
    let s1 := s.dropInterval .interval
    .taken
      (boolByte s.door.interval.isSome :: (le 2 (s.door.interval.getD 0) ++ [boolByte s1.door.unlocked]))
      s1

/-- The slot of a collection in BAGS (R153). -/
def State.bagsSlot (s : State) : Option Nat :=
  if inBags s 0 then some 0 else if inBags s 1 then some 1 else none

/-- The last door event: presence, kind, cause, time presence, day, minute (R153). -/
def doorEventBytes : Option DoorEvent → List Byte
  | none => List.replicate 8 0
  | some e => [1, byte e.kind.value, byte e.kind.cause, boolByte e.time.isSome] ++ stampBytes e.time

/-- DOOR-READ (R153). -/
def doorReadEffect (a : List Byte) (s : State) : Answer :=
  noArgs a s <| .taken
    ([boolByte s.door.unlocked,
      byte (mark 1 s.anyBags + mark 2 s.door.interval.isSome + mark 4 s.ret.latch),
      indexByte s.bagsSlot] ++ le 2 (s.door.interval.getD 0) ++
      [boolByte s.taken.doorOpen, boolByte s.door.leftOpen] ++ doorEventBytes s.door.event ++
      [byte s.auth.failures, byte s.auth.lockout]) s

/-- A taken change of DOOR-SENSE judged by the output: a forced opening, an ordinary opening, or a shut that
clears the left-open mark (R151, R152). -/
def State.judgeDoor (isOpen : Bool) (s : State) : State :=
  if isOpen then
    if s.door.unlocked then s
    else State.raise .safe { s with door := { s.door with event := some ⟨.forced, s.stamp⟩ } }
  else { s with door := { s.door with leftOpen := false } }

end Sys2Proof.Machine
end

