-- ==== Sys2Proof/Machine/Timebase.lean ====
section
/-! DEFINITION. Timebase, retention and start-up (chapter 9): the ticks and the events that fall at them,
and the clock, retention, status and clearing commands. Line events, resets and power are in Events.lean. -/

namespace Sys2Proof.Machine

/-! ### Events that fall at a tick (R52, R79, R125, R146, R149; log entries 4 and 6) -/

/-- The timebase runs (R155, R164). -/
def State.ticking (s : State) : Bool := s.powered && (s.ret.kind != .deep)

/-- The clock after a minute tick (R156). -/
def Clock.advance (c : Clock) : Clock :=
  if c.isSet then
    if c.minute < 1439 then { c with minute := c.minute + 1 }
    else if c.day < 65535 then { c with minute := 0, day := c.day + 1 }
    else { c with minute := 0, day := 0 }
  else c

/-- The round timer's countdown runs: enabled, not suspended, RESET# not asserted (R52, R163, R165). -/
def State.timerRuns (s : State) : Bool := s.round.timerOn && !s.ret.latch && !s.resetLow

/-- A slot whose manifest expires at a minute tick (R125). -/
def expiryDue (s : State) (i : SlotIx) : List TickEvent :=
  if s.clock.isSet && (s.man i).any (fun m => m.expiring s.clock) then [.windowExpiry i] else []

/-- A countdown lowered by a tick. -/
def lowered (o : Option Nat) : Option Nat := o.map fun n => n - 1

/-- The minute tick: sub-minute count, clock, round timer, lockout, and the events it brings about, in the
order of the table of R155 (log entry 6). -/
def State.minuteNow (s : State) : State :=
  let s1 := { s with
    clock := { s.clock with sub := 0 }.advance
    round := if s.timerRuns then { s.round with countdown := lowered s.round.countdown } else s.round
    auth := { s.auth with lockout := s.auth.lockout - 1 } }
  { s1 with due := s1.due ++
      (if s.timerRuns && (s1.round.countdown == some 0) then [.timerExpiry] else []) ++
      (if s.auth.lockout == 1 then [.lockoutEnd] else []) ++ expiryDue s1 0 ++ expiryDue s1 1 }

/-- The hold timeout (R79). -/
def holdTimeoutNow (i : LaneIx) (s : State) : State :=
  if (s.lane i).hold = some 0 then s.laneError .timeout i else s

/-- The end of the door interval (R149). -/
def intervalEndNow (s : State) : State :=
  if s.door.interval = some 0 then s.dropInterval .interval else s

/-- The expiry of the round timer: a fresh interval, and a round unless one is running (R52, R53). -/
def timerExpiryNow (s : State) : State :=
  if s.round.timerOn && !s.ret.latch && (s.round.countdown == some 0) then
    let s1 := { s with round := { s.round with countdown := some s.round.interval } }
    if s1.round.run.isSome then s1 else s1.startRound
  else s

/-- The end of the lockout: the countdown stands at 0 and nothing else changes (R146). -/
def lockoutEndNow (s : State) : State := s

/-- The expiry of a window, judged against the clock (R125, R137). -/
def windowExpiryNow (i : SlotIx) (s : State) : State :=
  if s.clock.isSet && (s.man i).any (fun m => m.expiring s.clock) then s.expireSlot i else s

/-- An event that a tick has brought about takes place. -/
def fire (e : TickEvent) (s : State) : State :=
  match e with
  | .holdTimeout i => holdTimeoutNow i s
  | .intervalEnd => intervalEndNow s
  | .minuteTick => s.minuteNow
  | .timerExpiry => timerExpiryNow s
  | .lockoutEnd => lockoutEndNow s
  | .windowExpiry i => windowExpiryNow i s

/-- The due events take place, in their order. -/
def State.settleOnce (s : State) : State := s.due.foldl (fun s e => fire e s) { s with due := [] }

/-- What a tick has brought about takes place before anything else does: once for the events of the second
tick, once more for those of a minute tick among them (log entry 4). -/
def State.settle (s : State) : State := if s.due.isEmpty then s else s.settleOnce.settleOnce

/-- A row that is an event of a tick: it takes place when it is due, and nothing but what was due otherwise
(log entry 4). -/
def State.take (e : TickEvent) (s : State) : State :=
  if s.due.contains e then fire e { s with due := s.due.erase e } else s.settle

/-- A MINUTE_TICK row: the one that is due, or a minute tick on its own (log entry 5). -/
def State.takeMinute (s : State) : State :=
  if s.due.contains .minuteTick then { s with due := s.due.erase .minuteTick }.minuteNow
  else if s.settle.ticking then s.settle.minuteNow else s.settle

/-- A lane at a second tick: its hold countdown is lowered (R79). -/
def Lane.second (l : Lane) : Lane := { l with hold := lowered l.hold }

/-- The lanes whose hold countdown a second tick has brought to 0. -/
def holdsDue (s : State) : List TickEvent :=
  (lanesAll.filter fun i => (s.lane i).hold == some 0).map TickEvent.holdTimeout

/-- The second tick (R155): the hold countdowns, the door interval, the sub-minute count, and at every
sixtieth a minute tick. -/
def State.secondNow (s : State) : State :=
  let s1 := { s with
    lanes := mapT Lane.second s.lanes
    door := { s.door with interval := lowered s.door.interval }
    clock := { s.clock with sub := if 59 ≤ s.clock.sub then 0 else s.clock.sub + 1 } }
  { s1 with due := s1.due ++ holdsDue s1 ++
      (if s1.door.interval == some 0 then [.intervalEnd] else []) ++
      (if 59 ≤ s.clock.sub then [.minuteTick] else []) }

/-- A SECOND_TICK row (R155). -/
def State.takeSecond (s : State) : State :=
  if s.settle.ticking then s.settle.secondNow else s.settle

/-! ### The clock commands -/

/-- CLOCK-SET (R157). -/
def clockSetEffect (a : List Byte) (s : State) : Answer :=
  if a.length ≠ 4 then .refused .argument s
  else if 1439 < arg a 2 2 then .refused .argument s
  else if s.anyAtDoor then .refused .engaged s
  else
    .taken
      (boolByte s.clock.isSet :: (le 2 s.clock.day ++ le 2 s.clock.minute ++ le 2 (arg a 0 2) ++
        le 2 (arg a 2 2)))
      { s with clock := { s.clock with isSet := true, day := arg a 0 2, minute := arg a 2 2 } }

/-- CLOCK-READ (R158). -/
def clockReadEffect (a : List Byte) (s : State) : Answer :=
  noArgs a s <| .taken
    (boolByte s.clock.isSet :: (le 2 s.clock.day ++ le 2 s.clock.minute ++ [byte s.clock.sub])) s

/-! ### Retention -/

def retKindOf : Nat → Option RetKind
  | 1 => some .watch
  | 2 => some .deep
  | _ => none

/-- The kind entered: DEEP is taken as WATCH while SUPPLY-WARN is asserted (R159). -/
def kindEntered (s : State) (k : RetKind) : RetKind := if s.taken.supplyWarn then .watch else k

/-- The effects of a taken RETAIN (R160). -/
def State.enterRetention (k : RetKind) (s : State) : State :=
  { s with
    ret := { s.ret with latch := true, kind := k, path := some .retain }
    lanes := Vector.replicate 4 Lane.unprofiled
    door := { s.door with interval := none } }.recomputeDoor .retain

/-- RETAIN (R159, R160). -/
def retainEffect (a : List Byte) (s : State) : Answer :=
  if a.length ≠ 1 then .refused .argument s
  else match retKindOf (arg a 0 1) with
    | none => .refused .argument s
    | some k =>
      if s.anySession ∨ s.anyAtDoor ∨ s.round.run.isSome then .refused .engaged s
      else .taken [byte (kindEntered s k).value] (s.enterRetention (kindEntered s k))

/-- The effects of a taken RELEASE (R163). -/
def State.leaveRetention (s : State) : State :=
  { s with ret := { s.ret with latch := false }, round := s.round.fresh }.recomputeDoor .retain

/-- RELEASE (R163). -/
def releaseEffect (a : List Byte) (s : State) : Answer :=
  noArgs a s <|
    if s.ret.latch = false then .refused .state s
    else
      .taken
        [byte s.ret.cause.value, byte (pathValue s.ret.path), boolByte s.clock.isSet,
         byte (s.round.fresh.countdown.getD 0)] s.leaveRetention

/-- STATUS-READ (R167). -/
def statusReadEffect (a : List Byte) (s : State) : Answer :=
  noArgs a s <| .taken
    [byte s.ret.cause.value,
     byte (mark 1 s.ret.latch + mark 2 s.clock.isSet + mark 4 s.taken.supplyWarn +
       mark 8 s.callOverflow + mark 16 s.rack.halt),
     byte (pathValue s.ret.path), byte s.auth.lockout, byte s.auth.failures] s

/-! ### RECORDS-CLEAR -/

/-- The number of entries of a table that pass a test. -/
def countT {α : Type} {n : Nat} (p : α → Bool) (v : Vector α n) : Nat := (v.toList.filter p).length

/-- The effects of a taken RECORDS-CLEAR (R168). -/
def State.clearRecords (s : State) : State :=
  { s with
    stock := tab fun c => { s.stock[c] with counts := Counts.zero }
    tills := mapT Till.retire s.tills
    calls := []
    callOverflow := false
    bags := Vector.replicate 48 none
    rack := { s.rack with comps := Vector.replicate 4 [], queue := [], ptr := 0, halt := false }
    mans := Vector.replicate 2 none
    audit := none
    balance := 0 }

/-- RECORDS-CLEAR (R168). -/
def recordsClearEffect (a : List Byte) (s : State) : Answer :=
  if a.length ≠ 3 then .refused .argument s
  else withAuthority (arg a 0 3) s fun s =>
    if s.anySession ∨ s.anyAtDoor then .refused .engaged s
    else
      .taken
        ([byte (countT (fun t => t.state != .closed) s.tills), byte (countT Option.isSome s.bags),
          byte (countT Option.isSome s.mans), byte s.calls.length] ++ le 4 s.balance) s.clearRecords

end Sys2Proof.Machine
end

