-- ==== Sys2Proof/Machine/Port.lean ====
section
/-! DEFINITION. The office port (chapter 10): the port's own commands, the start and the completion of a
command, and the transfers. -/

namespace Sys2Proof.Machine

/-! ### NOP and the attention commands -/

/-- NOP (R181). -/
def nopEffect (a : List Byte) (s : State) : Answer := noArgs a s <| .taken [] s

/-- A set of sources as a byte. -/
def sourcesByte (m : BitVec 6) : Byte := m.setWidth 8

/-- A mask of sources, weights 1 to 32 (R179, R180, R185). -/
def sourcesOf (n : Nat) : Option (BitVec 6) := if n < 64 then some (BitVec.ofNat 6 n) else none

/-- ATTN-READ (R179). -/
def attnReadEffect (a : List Byte) (s : State) : Answer :=
  noArgs a s <| .taken
    [sourcesByte s.port.attnPending, sourcesByte s.port.attnEnable, boolByte s.port.attn] s

/-- ATTN-ENABLE (R179). -/
def attnEnableEffect (a : List Byte) (s : State) : Answer :=
  if a.length ≠ 1 then .refused .argument s
  else match sourcesOf (arg a 0 1) with
    | none => .refused .argument s
    | some m =>
      .taken [sourcesByte m, sourcesByte s.port.attnPending] { s with port := { s.port with attnEnable := m } }

/-- ATTN-CLEAR (R180). -/
def attnClearEffect (a : List Byte) (s : State) : Answer :=
  if a.length ≠ 1 then .refused .argument s
  else match sourcesOf (arg a 0 1) with
    | none => .refused .argument s
    | some m =>
      let after := s.port.attnPending &&& ~~~m
      .taken [sourcesByte s.port.attnPending, sourcesByte after]
        { s with port := { s.port with attnPending := after } }

/-! ### A command and its completion (R172 to R178) -/

/-- The checks and effects of each command, on its argument bytes. -/
def effect : Cmd → List Byte → State → Answer
  | .nop => nopEffect
  | .statusRead => statusReadEffect
  | .attnRead => attnReadEffect
  | .attnEnable => attnEnableEffect
  | .attnClear => attnClearEffect
  | .clockSet => clockSetEffect
  | .clockRead => clockReadEffect
  | .retain => retainEffect
  | .release => releaseEffect
  | .recordsClear => recordsClearEffect
  | .overrideSet => overrideSetEffect
  | .doorOpen => doorOpenEffect
  | .doorLock => doorLockEffect
  | .doorRead => doorReadEffect
  | .denomSet => denomSetEffect
  | .denomRead => denomReadEffect
  | .stockRead => stockReadEffect
  | .officeRead => officeReadEffect
  | .limitsSet => limitsSetEffect
  | .limitsRead => limitsReadEffect
  | .templateSet => templateSetEffect
  | .templateRead => templateReadEffect
  | .tillSetup => tillSetupEffect
  | .floatIssue => floatIssueEffect
  | .floatCancel => floatCancelEffect
  | .tillOpen => tillOpenEffect
  | .topupIssue => topupIssueEffect
  | .posCash => posCashEffect
  | .tillClose => tillCloseEffect
  | .tillRead => tillReadEffect
  | .varianceAccept => varianceAcceptEffect
  | .recount => recountEffect
  | .callPost => callPostEffect
  | .callTake => callTakeEffect
  | .callCancel => callCancelEffect
  | .callRead => callReadEffect
  | .roundSet => roundSetEffect
  | .roundTimer => roundTimerEffect
  | .roundNow => roundNowEffect
  | .roundRead => roundReadEffect
  | .laneProfile => laneProfileEffect
  | .laneReset => laneResetEffect
  | .laneClear => laneClearEffect
  | .laneRead => laneReadEffect
  | .countOpen => countOpenEffect
  | .countHold => countHoldEffect
  | .countResume => countResumeEffect
  | .countVoid => countVoidEffect
  | .countRolls => countRollsEffect
  | .countCommit => countCommitEffect
  | .countAbort => countAbortEffect
  | .auditRead => auditReadEffect
  | .auditAccept => auditAcceptEffect
  | .auditDiscard => auditDiscardEffect
  | .bagOpen => bagOpenEffect
  | .bagAdd => bagAddEffect
  | .bagReturn => bagReturnEffect
  | .bagShut => bagShutEffect
  | .bagBreak => bagBreakEffect
  | .bagRead => bagReadEffect
  | .rackSet => rackSetEffect
  | .rackRead => rackReadEffect
  | .manCreate => manCreateEffect
  | .manAdd => manAddEffect
  | .manRemove => manRemoveEffect
  | .manClose => manCloseEffect
  | .manCancel => manCancelEffect
  | .courierArrive => courierArriveEffect
  | .bagScan => bagScanEffect
  | .manResume => manResumeEffect
  | .courierSign => courierSignEffect
  | .manReopen => manReopenEffect
  | .manRead => manReadEffect

/-- A command byte judged: COMMAND, then ARGUMENT on an overflow, then the command's own checks (R172). -/
def judge (b : Byte) (s : State) : Answer :=
  match Cmd.ofCode (b.toNat % 128) with
  | none => .refused .command s
  | some c => if s.port.overflow then .refused .argument s else effect c s.port.args s

/-- NOTIFY at a completion: set or cleared by bit 7 of the command byte (R178). -/
def notified (b : Byte) (pending : BitVec 6) : BitVec 6 :=
  if 128 ≤ b.toNat then pending ||| Source.notify.weight else pending &&& ~~~Source.notify.weight

/-- What every completion does at the port, NOTIFY last (R171, R174 to R178). The transfers held are no longer
held: they are taken next (R173). -/
def State.endCommand (b : Byte) (reply : List Byte) (result : PortCode) (s : State) : State :=
  { s with port := { s.port with
      args := [], overflow := false, reply := reply, readPos := 0, code := result, inProgress := none
      held := [], done := true, attnPending := notified b s.port.attnPending } }

/-- The completion of a taken or refused command: a refused one leaves no reply (R174, R176). -/
def finish (b : Byte) : Answer → State
  | .taken reply s => s.endCommand b reply .ok
  | .refused result s => s.endCommand b [] result

/-- An access clears DONE (R177). -/
def State.access (s : State) : State := { s with port := { s.port with done := false } }

/-- The capacity of the argument buffer (R171). -/
def argRoom : Nat := 128

/-- An argument byte at the buffer (R171). -/
def Port.append (b : Byte) (p : Port) : Port :=
  if p.args.length < argRoom then { p with args := p.args ++ [b] } else { p with overflow := true }

/-- A taken argument write: in DEEP the byte is discarded (R161, R171, R182). -/
def acceptArgument (b : Byte) (s : State) : State :=
  if s.ret.kind = .deep then s.access else { s.access with port := s.access.port.append b }

/-- A taken reply read (R174). -/
def readReply (s : State) : State :=
  let p := s.access.port
  { s with port := { p with
      dataOut := (p.reply[p.readPos]?).getD 0
      readPos := if p.readPos < p.reply.length then p.readPos + 1 else p.readPos } }

/-- A command write that is not held: BUSY is set. In WATCH it wakes the part first; in DEEP it is
discarded (R161, R172, R173, R182). -/
def startCommand (b : Byte) (s : State) : State :=
  match s.ret.kind with
  | .deep => s.access
  | .watch =>
    let s1 := s.access.wakeWatch
    { s1 with port := { s1.port with inProgress := some b } }
  | .none => { s with port := { s.access.port with inProgress := some b } }

/-- The transfers held are taken in their order, until one of them starts a command (R173). -/
def takeHeld : List Held → State → State
  | [], s => s
  | .argument b :: r, s => takeHeld r (acceptArgument b s)
  | .reply :: r, s => takeHeld r (readReply s)
  | .command b :: r, s =>
    if (startCommand b s).port.busy then
      { startCommand b s with port := { (startCommand b s).port with held := r } }
    else takeHeld r (startCommand b s)

/-- The completion of the command in progress, if any, and then the held transfers (R173). -/
def State.complete (s : State) : State :=
  match s.port.inProgress with
  | none => s
  | some b => takeHeld s.port.held (finish b (judge b s))

/-- Every command in progress or held completes, within a number of completions (R164; log entry 11). -/
def completeMany : Nat → State → State
  | 0, s => s
  | n + 1, s => if s.port.busy then completeMany n s.complete else s

def State.completeAll (s : State) : State := completeMany (s.port.held.length + 1) s

/-! ### Transfers (R170) -/

/-- A read transfer while the main supply is off finds a free value on the bus (log entry 12). -/
def State.floatRead (s : State) : State :=
  { s with port := { s.port with dataOut := Config.busFloat s.freeCount }, freeCount := s.freeCount + 1 }

/-- A transfer joins those held while BUSY is set (R173; log entry 10). -/
def State.hold (h : Held) (s : State) : State :=
  { s with port := { s.port with held := s.port.held ++ [h] } }

/-- The argument write (R170, R171, R173). -/
def argumentWrite (b : Byte) (s : State) : State :=
  if s.powered = false ∨ s.resetLow = true then s
  else if s.port.busy then s.hold (.argument b)
  else acceptArgument b s

/-- The reply read (R170, R173, R174). -/
def replyRead (s : State) : State :=
  if s.powered = false then s.floatRead
  else if s.resetLow then { s with port := { s.port with dataOut := 0 } }
  else if s.port.busy then s.hold .reply
  else readReply s

/-- The status read: never held (R170, R175). -/
def statusByteRead (s : State) : State :=
  if s.powered = false then s.floatRead
  else if s.resetLow then { s with port := { s.port with dataOut := 0 } }
  else { s with port := { s.access.port with dataOut := s.statusByte } }

/-- DACK# (R177). -/
def doneAcknowledge (s : State) : State := if s.powered = false then s else s.access

/-- The command write, and with the pace `whole` its completion (R172, R173; log entry 2). -/
def commandWrite (b : Byte) (pace : Pace) (s : State) : State :=
  if s.powered = false ∨ s.resetLow = true then s
  else if s.port.busy then s.hold (.command b)
  else match pace with
    | .whole => (startCommand b s).complete
    | .begun => startCommand b s

/-- A command byte of the command table. -/
def runCommand (c : Cmd) (w : CmdWrite) (s : State) : State :=
  commandWrite (c.byte w.notify) w.pace s.settle

end Sys2Proof.Machine
end

