-- ==== Sys2Proof/Machine/Commands.lean ====
section
/-! DEFINITION. The meaning of each command byte of the command table: the command write, with its completion
when the pace is `whole` (R172, R173). What each command checks and does is its `Effect` in the file of its
chapter. -/

namespace Sys2Proof.Machine

/-- The outcome of a step. -/
abbrev Result : Type := Host.Outcome State Fault Refusal

/-- NOP (R181) -/
def execNop (w : CmdWrite) (s : State) : Result := .next (runCommand .nop w s)

/-- STATUS-READ (R167) -/
def execStatusRead (w : CmdWrite) (s : State) : Result := .next (runCommand .statusRead w s)

/-- ATTN-READ (R179) -/
def execAttnRead (w : CmdWrite) (s : State) : Result := .next (runCommand .attnRead w s)

/-- ATTN-ENABLE (R179) -/
def execAttnEnable (w : CmdWrite) (s : State) : Result := .next (runCommand .attnEnable w s)

/-- ATTN-CLEAR (R180) -/
def execAttnClear (w : CmdWrite) (s : State) : Result := .next (runCommand .attnClear w s)

/-- CLOCK-SET (R157) -/
def execClockSet (w : CmdWrite) (s : State) : Result := .next (runCommand .clockSet w s)

/-- CLOCK-READ (R158) -/
def execClockRead (w : CmdWrite) (s : State) : Result := .next (runCommand .clockRead w s)

/-- RETAIN (R160) -/
def execRetain (w : CmdWrite) (s : State) : Result := .next (runCommand .retain w s)

/-- RELEASE (R163) -/
def execRelease (w : CmdWrite) (s : State) : Result := .next (runCommand .release w s)

/-- RECORDS-CLEAR (R168) -/
def execRecordsClear (w : CmdWrite) (s : State) : Result := .next (runCommand .recordsClear w s)

/-- OVERRIDE-SET (R147) -/
def execOverrideSet (w : CmdWrite) (s : State) : Result := .next (runCommand .overrideSet w s)

/-- DOOR-OPEN (R149) -/
def execDoorOpen (w : CmdWrite) (s : State) : Result := .next (runCommand .doorOpen w s)

/-- DOOR-LOCK (R150) -/
def execDoorLock (w : CmdWrite) (s : State) : Result := .next (runCommand .doorLock w s)

/-- DOOR-READ (R153) -/
def execDoorRead (w : CmdWrite) (s : State) : Result := .next (runCommand .doorRead w s)

/-- DENOM-SET (R7) -/
def execDenomSet (w : CmdWrite) (s : State) : Result := .next (runCommand .denomSet w s)

/-- DENOM-READ (R8) -/
def execDenomRead (w : CmdWrite) (s : State) : Result := .next (runCommand .denomRead w s)

/-- STOCK-READ (R14) -/
def execStockRead (w : CmdWrite) (s : State) : Result := .next (runCommand .stockRead w s)

/-- OFFICE-READ (R17) -/
def execOfficeRead (w : CmdWrite) (s : State) : Result := .next (runCommand .officeRead w s)

/-- LIMITS-SET (R19) -/
def execLimitsSet (w : CmdWrite) (s : State) : Result := .next (runCommand .limitsSet w s)

/-- LIMITS-READ (R20) -/
def execLimitsRead (w : CmdWrite) (s : State) : Result := .next (runCommand .limitsRead w s)

/-- TEMPLATE-SET (R23) -/
def execTemplateSet (w : CmdWrite) (s : State) : Result := .next (runCommand .templateSet w s)

/-- TEMPLATE-READ (R24) -/
def execTemplateRead (w : CmdWrite) (s : State) : Result := .next (runCommand .templateRead w s)

/-- TILL-SETUP (R26) -/
def execTillSetup (w : CmdWrite) (s : State) : Result := .next (runCommand .tillSetup w s)

/-- FLOAT-ISSUE (R31) -/
def execFloatIssue (w : CmdWrite) (s : State) : Result := .next (runCommand .floatIssue w s)

/-- FLOAT-CANCEL (R32) -/
def execFloatCancel (w : CmdWrite) (s : State) : Result := .next (runCommand .floatCancel w s)

/-- TILL-OPEN (R33) -/
def execTillOpen (w : CmdWrite) (s : State) : Result := .next (runCommand .tillOpen w s)

/-- TOPUP-ISSUE (R34) -/
def execTopupIssue (w : CmdWrite) (s : State) : Result := .next (runCommand .topupIssue w s)

/-- POS-CASH (R35) -/
def execPosCash (w : CmdWrite) (s : State) : Result := .next (runCommand .posCash w s)

/-- TILL-CLOSE (R37) -/
def execTillClose (w : CmdWrite) (s : State) : Result := .next (runCommand .tillClose w s)

/-- TILL-READ (R39) -/
def execTillRead (w : CmdWrite) (s : State) : Result := .next (runCommand .tillRead w s)

/-- VARIANCE-ACCEPT (R96) -/
def execVarianceAccept (w : CmdWrite) (s : State) : Result := .next (runCommand .varianceAccept w s)

/-- RECOUNT (R98) -/
def execRecount (w : CmdWrite) (s : State) : Result := .next (runCommand .recount w s)

/-- CALL-POST (R47) -/
def execCallPost (w : CmdWrite) (s : State) : Result := .next (runCommand .callPost w s)

/-- CALL-TAKE (R48) -/
def execCallTake (w : CmdWrite) (s : State) : Result := .next (runCommand .callTake w s)

/-- CALL-CANCEL (R49) -/
def execCallCancel (w : CmdWrite) (s : State) : Result := .next (runCommand .callCancel w s)

/-- CALL-READ (R50) -/
def execCallRead (w : CmdWrite) (s : State) : Result := .next (runCommand .callRead w s)

/-- ROUND-SET (R51) -/
def execRoundSet (w : CmdWrite) (s : State) : Result := .next (runCommand .roundSet w s)

/-- ROUND-TIMER (R52) -/
def execRoundTimer (w : CmdWrite) (s : State) : Result := .next (runCommand .roundTimer w s)

/-- ROUND-NOW (R54) -/
def execRoundNow (w : CmdWrite) (s : State) : Result := .next (runCommand .roundNow w s)

/-- ROUND-READ (R58) -/
def execRoundRead (w : CmdWrite) (s : State) : Result := .next (runCommand .roundRead w s)

/-- LANE-PROFILE (R66) -/
def execLaneProfile (w : CmdWrite) (s : State) : Result := .next (runCommand .laneProfile w s)

/-- LANE-RESET (R69) -/
def execLaneReset (w : CmdWrite) (s : State) : Result := .next (runCommand .laneReset w s)

/-- LANE-CLEAR (R68) -/
def execLaneClear (w : CmdWrite) (s : State) : Result := .next (runCommand .laneClear w s)

/-- LANE-READ (R70) -/
def execLaneRead (w : CmdWrite) (s : State) : Result := .next (runCommand .laneRead w s)

/-- COUNT-OPEN (R72) -/
def execCountOpen (w : CmdWrite) (s : State) : Result := .next (runCommand .countOpen w s)

/-- COUNT-HOLD (R79) -/
def execCountHold (w : CmdWrite) (s : State) : Result := .next (runCommand .countHold w s)

/-- COUNT-RESUME (R83) -/
def execCountResume (w : CmdWrite) (s : State) : Result := .next (runCommand .countResume w s)

/-- COUNT-VOID (R77) -/
def execCountVoid (w : CmdWrite) (s : State) : Result := .next (runCommand .countVoid w s)

/-- COUNT-ROLLS (R78) -/
def execCountRolls (w : CmdWrite) (s : State) : Result := .next (runCommand .countRolls w s)

/-- COUNT-COMMIT (R85) -/
def execCountCommit (w : CmdWrite) (s : State) : Result := .next (runCommand .countCommit w s)

/-- COUNT-ABORT (R84) -/
def execCountAbort (w : CmdWrite) (s : State) : Result := .next (runCommand .countAbort w s)

/-- AUDIT-READ (R103) -/
def execAuditRead (w : CmdWrite) (s : State) : Result := .next (runCommand .auditRead w s)

/-- AUDIT-ACCEPT (R101) -/
def execAuditAccept (w : CmdWrite) (s : State) : Result := .next (runCommand .auditAccept w s)

/-- AUDIT-DISCARD (R102) -/
def execAuditDiscard (w : CmdWrite) (s : State) : Result := .next (runCommand .auditDiscard w s)

/-- BAG-OPEN (R108) -/
def execBagOpen (w : CmdWrite) (s : State) : Result := .next (runCommand .bagOpen w s)

/-- BAG-ADD (R109) -/
def execBagAdd (w : CmdWrite) (s : State) : Result := .next (runCommand .bagAdd w s)

/-- BAG-RETURN (R110) -/
def execBagReturn (w : CmdWrite) (s : State) : Result := .next (runCommand .bagReturn w s)

/-- BAG-SHUT (R111) -/
def execBagShut (w : CmdWrite) (s : State) : Result := .next (runCommand .bagShut w s)

/-- BAG-BREAK (R112) -/
def execBagBreak (w : CmdWrite) (s : State) : Result := .next (runCommand .bagBreak w s)

/-- BAG-READ (R113) -/
def execBagRead (w : CmdWrite) (s : State) : Result := .next (runCommand .bagRead w s)

/-- RACK-SET (R119) -/
def execRackSet (w : CmdWrite) (s : State) : Result := .next (runCommand .rackSet w s)

/-- RACK-READ (R120) -/
def execRackRead (w : CmdWrite) (s : State) : Result := .next (runCommand .rackRead w s)

/-- MAN-CREATE (R126) -/
def execManCreate (w : CmdWrite) (s : State) : Result := .next (runCommand .manCreate w s)

/-- MAN-ADD (R127) -/
def execManAdd (w : CmdWrite) (s : State) : Result := .next (runCommand .manAdd w s)

/-- MAN-REMOVE (R128) -/
def execManRemove (w : CmdWrite) (s : State) : Result := .next (runCommand .manRemove w s)

/-- MAN-CLOSE (R129) -/
def execManClose (w : CmdWrite) (s : State) : Result := .next (runCommand .manClose w s)

/-- MAN-CANCEL (R130) -/
def execManCancel (w : CmdWrite) (s : State) : Result := .next (runCommand .manCancel w s)

/-- COURIER-ARRIVE (R131) -/
def execCourierArrive (w : CmdWrite) (s : State) : Result := .next (runCommand .courierArrive w s)

/-- BAG-SCAN (R133) -/
def execBagScan (w : CmdWrite) (s : State) : Result := .next (runCommand .bagScan w s)

/-- MAN-RESUME (R135) -/
def execManResume (w : CmdWrite) (s : State) : Result := .next (runCommand .manResume w s)

/-- COURIER-SIGN (R136) -/
def execCourierSign (w : CmdWrite) (s : State) : Result := .next (runCommand .courierSign w s)

/-- MAN-REOPEN (R138) -/
def execManReopen (w : CmdWrite) (s : State) : Result := .next (runCommand .manReopen w s)

/-- MAN-READ (R143) -/
def execManRead (w : CmdWrite) (s : State) : Result := .next (runCommand .manRead w s)

/-- A command byte whose code names no command (R172) -/
def execUnknownCommand (code : BitVec 7) (w : CmdWrite) (s : State) : Result :=
  .next (commandWrite (commandByte w.notify code) w.pace s.settle)

end Sys2Proof.Machine
end

