-- ==== Sys2Proof/Machine/Events.lean ====
section
/-! DEFINITION. The line inputs, RESET#, the supply warning, the loss of the supply and the cold power-up
(R142, R152, R164 to R166, R183; section 10.10). -/

namespace Sys2Proof.Machine

/-! ### Line inputs -/

/-- The four lines that RESET# holds off (R165). -/
inductive LineName where
  | roundIn | courierIn | doorSense | supplyWarn
  deriving DecidableEq, Repr

def LineName.index : LineName → Nat
  | .roundIn => 0
  | .courierIn => 1
  | .doorSense => 2
  | .supplyWarn => 3

def Lines.get (x : Lines) : LineName → Bool
  | .roundIn => x.roundIn
  | .courierIn => x.courierIn
  | .doorSense => x.doorOpen
  | .supplyWarn => x.supplyWarn

def Lines.set (n : LineName) (b : Bool) (x : Lines) : Lines :=
  match n with
  | .roundIn => { x with roundIn := b }
  | .courierIn => { x with courierIn := b }
  | .doorSense => { x with doorOpen := b }
  | .supplyWarn => { x with supplyWarn := b }

/-- A pulse on ROUND-IN (R53, R161). -/
def roundPulse (s : State) : State :=
  if s.round.trigOn && (s.ret.kind == .none) && s.round.run.isNone then s.startRound else s

/-- A courier call (R142, R161, R162). -/
def courierCall (s : State) : State :=
  match s.ret.kind with
  | .none => State.raise .courier s
  | .watch => (State.raise .courier s).wakeWatch
  | .deep => s

/-- A change of DOOR-SENSE, with the wake it brings (R152, R161, R162). -/
def doorChange (isOpen : Bool) (s : State) : State :=
  match s.ret.kind with
  | .none => s.judgeDoor isOpen
  | .watch => (s.judgeDoor isOpen).wakeWatch
  | .deep => s.pinReset.judgeDoor isOpen

/-- The effects of the supply warning on a running part, after the command in progress (R164). -/
def State.supplyEffects (s : State) : State :=
  let s1 := (s.lanesDown.bagsToReady).abortRound true
  { s1 with
    door := { s1.door with interval := none }
    ret := { s1.ret with latch := true, kind := .deep, path := some .supply } }.recomputeDoor .reset

/-- An assertion of SUPPLY-WARN (R164): the command in progress completes first (R173). -/
def supplyAsserted (s : State) : State :=
  let s1 := s.completeAll
  match s1.ret.kind with
  | .none => s1.supplyEffects
  | .watch => { s1 with ret := { s1.ret with kind := .deep, path := some .supply } }
  | .deep => s1

/-- A taken change of a line acts (R53, R142, R152, R164). The change to low of ROUND-IN, COURIER-IN and
SUPPLY-WARN has no effect. -/
def actLine (n : LineName) (high : Bool) (s : State) : State :=
  match n with
  | .roundIn => if high then roundPulse s else s
  | .courierIn => if high then courierCall s else s
  | .doorSense => doorChange high s
  | .supplyWarn => if high then supplyAsserted s else s

/-- The part takes the level at a pin, and acts when it differs from the level last taken (R165, R183). -/
def takeLevel (n : LineName) (s : State) : State :=
  if s.taken.get n = s.lines.get n then s
  else actLine n (s.lines.get n) { s with taken := s.taken.set n (s.lines.get n) }

/-- A line stands at a level. It is not acted on while RESET# is asserted, nor with no supply (R165, R164;
log entries 7 and 14). -/
def lineLevel (n : LineName) (b : Bool) (s : State) : State :=
  let s1 := { s with lines := s.lines.set n b }
  if s1.powered = false ∨ s1.resetLow = true then s1 else takeLevel n s1

/-! ### RESET# (R165) -/

/-- An assertion of RESET#: the pin reset takes place (R165; log entries 9 and 24). -/
def assertReset (s : State) : State :=
  if s.powered = false then { s with resetLow := true }
  else if s.resetLow then s
  else { s.pinReset with resetLow := true }

/-- The lines whose level differs from the level last taken (R165). -/
def changedLines (s : State) : List LineName :=
  [LineName.roundIn, .courierIn, .doorSense, .supplyWarn].filter fun n => s.taken.get n != s.lines.get n

/-- Puts a line into a list by its rank. -/
def insertLine (rank : LineName → Nat) (n : LineName) : List LineName → List LineName
  | [] => [n]
  | x :: r => if rank n ≤ rank x then n :: x :: r else x :: insertLine rank n r

/-- The changed lines in the order in which they are acted on: a free value orders two or more (log entry
8). -/
def lineOrder (s : State) : List LineName :=
  match changedLines s with
  | [] => []
  | [n] => [n]
  | l => l.foldr (insertLine fun n => Config.lineRank s.freeCount n.index) []

/-- The deassertion of RESET#: each changed line is acted on (R165). -/
def deassertReset (s : State) : State :=
  if s.powered = false then { s with resetLow := false }
  else if s.resetLow = false then s
  else
    let s1 := { s with resetLow := false }
    (lineOrder s1).foldl (fun s n => takeLevel n s)
      (if (changedLines s1).length ≤ 1 then s1 else { s1 with freeCount := s1.freeCount + 1 })

/-! ### Supply and power-up (R164, R166) -/

/-- The loss of the main supply (R164; log entries 13 and 14). -/
def supplyGone (s : State) : State := { s with powered := false }

/-- A cold power-up that finds the store-valid marker intact (R166; log entry 26). -/
def State.startIntact (s : State) : State :=
  let s1 := { s with clock := Clock.unset }.endWork
  { s1 with
    port := Port.cleared s1.port.dataOut
    ret := { s1.ret with kind := .none, cause := .power, storeValid := true }
    taken := s1.lines
    door := { s1.door with unlocked := false, leftOpen := s1.door.leftOpen && s1.lines.doorOpen }
    due := []
    powered := true }

/-- A cold power-up that finds the marker broken: every record takes its cold value (R166). The lines, RESET#
and the model's own fields stay. -/
def State.startBroken (s : State) : State :=
  { State.reset with
    port := Port.cleared s.port.dataOut
    lines := s.lines
    taken := s.lines
    resetLow := s.resetLow
    freeCount := s.freeCount
    pending := s.pending }

/-- A cold power-up: `storeHeld` says that the store has held its contents without a break since the marker
was written (R166; log entry 15). -/
def coldPowerUp (storeHeld : Bool) (s : State) : State :=
  if s.ret.storeValid && storeHeld then s.startIntact else s.startBroken

end Sys2Proof.Machine
end

