-- ==== Sys2Proof/Machine/Inputs.lean ====
section
/-! DEFINITION. The meaning of each transfer, line event, tick, lane frame and supply event of the table.
Whatever a tick has brought about takes place first (`State.settle`, log entry 4). -/

namespace Sys2Proof.Machine

/-- ARGUMENT_WRITE (R171) -/
def execArgumentWrite (b : Byte) (s : State) : Result := .next (argumentWrite b s.settle)

/-- REPLY_READ (R174) -/
def execReplyRead (s : State) : Result := .next (replyRead s.settle)

/-- STATUS_BYTE_READ (R175) -/
def execStatusByteRead (s : State) : Result := .next (statusByteRead s.settle)

/-- DONE_ACKNOWLEDGE (R177) -/
def execDoneAcknowledge (s : State) : Result := .next (doneAcknowledge s.settle)

/-- COMMAND_COMPLETION (R173) -/
def execCommandCompletion (s : State) : Result :=
  .next (if s.powered = false then s.settle else s.settle.complete)

/-- PIN_RESET (R165) -/
def execPinReset (s : State) : Result := .next (assertReset s.settle)

/-- RESET_DEASSERT (R165) -/
def execResetDeassert (s : State) : Result := .next (deassertReset s.settle)

/-- COLD_POWER_UP (R166) -/
def execColdPowerUp (storeHeld : Bool) (s : State) : Result := .next (coldPowerUp storeHeld s.settle)

/-- SUPPLY_LOST (R164) -/
def execSupplyLost (s : State) : Result := .next (supplyGone s.settle)

/-- SUPPLY_WARNING (R164) -/
def execSupplyWarning (high : Bool) (s : State) : Result := .next (lineLevel .supplyWarn high s.settle)

/-- COURIER_CALL (R142) -/
def execCourierCall (high : Bool) (s : State) : Result := .next (lineLevel .courierIn high s.settle)

/-- ROUND_IN_PULSE (R53) -/
def execRoundInPulse (high : Bool) (s : State) : Result := .next (lineLevel .roundIn high s.settle)

/-- DOOR_SENSE_CHANGE (R152) -/
def execDoorSenseChange (isOpen : Bool) (s : State) : Result := .next (lineLevel .doorSense isOpen s.settle)

/-- SECOND_TICK (R155) -/
def execSecondTick (s : State) : Result := .next s.takeSecond

/-- MINUTE_TICK (R155) -/
def execMinuteTick (s : State) : Result := .next s.takeMinute

/-- HOLD_TIMEOUT (R79) -/
def execHoldTimeout (lane : LaneIx) (s : State) : Result := .next (s.take (.holdTimeout lane))

/-- INTERVAL_END (R149) -/
def execIntervalEnd (s : State) : Result := .next (s.take .intervalEnd)

/-- LOCKOUT_END (R146) -/
def execLockoutEnd (s : State) : Result := .next (s.take .lockoutEnd)

/-- TIMER_EXPIRY (R53) -/
def execTimerExpiry (s : State) : Result := .next (s.take .timerExpiry)

/-- WINDOW_EXPIRY (R137) -/
def execWindowExpiry (slot : SlotIx) (s : State) : Result := .next (s.take (.windowExpiry slot))

/-- ROUND_EVALUATION (R56) -/
def execRoundEvaluation (s : State) : Result :=
  .next (if s.powered = false then s.settle else roundEvaluate s.settle)

/-- FRAME_SENT (R60) -/
def execFrameSent (lane : LaneIx) (s : State) : Result := .next (frameSent lane s.settle)

/-- The 4 serial bytes of a HELLO body, low byte first (section 11.4). -/
def serialBytes (n : BitVec 32) : List Byte := le 4 n.toNat

/-- A 16-bit count of a BATCH body, low byte first (section 11.4). -/
def wordBytes (n : BitVec 16) : List Byte := le 2 n.toNat

/-- HELLO (R67) -/
def execHello (lane : LaneIx) (model : Byte) (serial : BitVec 32) (s : State) : Result :=
  .next (receive lane (frameChars 0x01 (model :: serialBytes serial)) s.settle)

/-- BATCH (R74) -/
def execBatch (lane : LaneIx) (seq code : Byte) (fit unfit suspect : BitVec 16) (s : State) : Result :=
  .next (receive lane
    (frameChars 0x02 ([seq, code] ++ wordBytes fit ++ wordBytes unfit ++ wordBytes suspect)) s.settle)

/-- END_FEED (R81) -/
def execEndFeed (lane : LaneIx) (seq : Byte) (s : State) : Result :=
  .next (receive lane (frameChars 0x03 [seq]) s.settle)

/-- HOLD_ACK (R80) -/
def execHoldAck (lane : LaneIx) (s : State) : Result :=
  .next (receive lane (frameChars 0x04 []) s.settle)

/-- JAM (R82) -/
def execJam (lane : LaneIx) (jamCode : Byte) (s : State) : Result :=
  .next (receive lane (frameChars 0x05 [jamCode]) s.settle)

/-- PROTOCOL_FRAME (R62) -/
def execProtocolFrame (lane : LaneIx) (kind : Byte) (body : List Byte) (s : State) : Result :=
  .next (receive lane (frameChars kind body) s.settle)

/-- FRAMING_ERROR (R61) -/
def execFramingError (lane : LaneIx) (chars : List RxChar) (s : State) : Result :=
  .next (receive lane chars s.settle)

/-- CHECK_ERROR (R61) -/
def execCheckError (lane : LaneIx) (kind : Byte) (body : List Byte) (check : Byte) (s : State) : Result :=
  .next (receive lane (frameCharsWith kind body check) s.settle)

end Sys2Proof.Machine
end

