-- ==== Sys2Proof/Machine/Dispatch.lean ====
section
/-! DEFINITION. The meaning of every command, arm by arm. -/

namespace Sys2Proof.Machine

def exec (i : Instr) (s : State) : Host.Outcome State Fault Refusal :=
  match i with
  | .argumentWrite b => Sys2Proof.Machine.execArgumentWrite b s
  | .replyRead => Sys2Proof.Machine.execReplyRead s
  | .statusByteRead => Sys2Proof.Machine.execStatusByteRead s
  | .doneAcknowledge => Sys2Proof.Machine.execDoneAcknowledge s
  | .unknownCommand code w => Sys2Proof.Machine.execUnknownCommand code w s
  | .nop w => Sys2Proof.Machine.execNop w s
  | .statusRead w => Sys2Proof.Machine.execStatusRead w s
  | .attnRead w => Sys2Proof.Machine.execAttnRead w s
  | .attnEnable w => Sys2Proof.Machine.execAttnEnable w s
  | .attnClear w => Sys2Proof.Machine.execAttnClear w s
  | .clockSet w => Sys2Proof.Machine.execClockSet w s
  | .clockRead w => Sys2Proof.Machine.execClockRead w s
  | .retain w => Sys2Proof.Machine.execRetain w s
  | .release w => Sys2Proof.Machine.execRelease w s
  | .recordsClear w => Sys2Proof.Machine.execRecordsClear w s
  | .overrideSet w => Sys2Proof.Machine.execOverrideSet w s
  | .doorOpen w => Sys2Proof.Machine.execDoorOpen w s
  | .doorLock w => Sys2Proof.Machine.execDoorLock w s
  | .doorRead w => Sys2Proof.Machine.execDoorRead w s
  | .denomSet w => Sys2Proof.Machine.execDenomSet w s
  | .denomRead w => Sys2Proof.Machine.execDenomRead w s
  | .stockRead w => Sys2Proof.Machine.execStockRead w s
  | .officeRead w => Sys2Proof.Machine.execOfficeRead w s
  | .limitsSet w => Sys2Proof.Machine.execLimitsSet w s
  | .limitsRead w => Sys2Proof.Machine.execLimitsRead w s
  | .templateSet w => Sys2Proof.Machine.execTemplateSet w s
  | .templateRead w => Sys2Proof.Machine.execTemplateRead w s
  | .tillSetup w => Sys2Proof.Machine.execTillSetup w s
  | .floatIssue w => Sys2Proof.Machine.execFloatIssue w s
  | .floatCancel w => Sys2Proof.Machine.execFloatCancel w s
  | .tillOpen w => Sys2Proof.Machine.execTillOpen w s
  | .topupIssue w => Sys2Proof.Machine.execTopupIssue w s
  | .posCash w => Sys2Proof.Machine.execPosCash w s
  | .tillClose w => Sys2Proof.Machine.execTillClose w s
  | .tillRead w => Sys2Proof.Machine.execTillRead w s
  | .varianceAccept w => Sys2Proof.Machine.execVarianceAccept w s
  | .recount w => Sys2Proof.Machine.execRecount w s
  | .callPost w => Sys2Proof.Machine.execCallPost w s
  | .callTake w => Sys2Proof.Machine.execCallTake w s
  | .callCancel w => Sys2Proof.Machine.execCallCancel w s
  | .callRead w => Sys2Proof.Machine.execCallRead w s
  | .roundSet w => Sys2Proof.Machine.execRoundSet w s
  | .roundTimer w => Sys2Proof.Machine.execRoundTimer w s
  | .roundNow w => Sys2Proof.Machine.execRoundNow w s
  | .roundRead w => Sys2Proof.Machine.execRoundRead w s
  | .laneProfile w => Sys2Proof.Machine.execLaneProfile w s
  | .laneReset w => Sys2Proof.Machine.execLaneReset w s
  | .laneClear w => Sys2Proof.Machine.execLaneClear w s
  | .laneRead w => Sys2Proof.Machine.execLaneRead w s
  | .countOpen w => Sys2Proof.Machine.execCountOpen w s
  | .countHold w => Sys2Proof.Machine.execCountHold w s
  | .countResume w => Sys2Proof.Machine.execCountResume w s
  | .countVoid w => Sys2Proof.Machine.execCountVoid w s
  | .countRolls w => Sys2Proof.Machine.execCountRolls w s
  | .countCommit w => Sys2Proof.Machine.execCountCommit w s
  | .countAbort w => Sys2Proof.Machine.execCountAbort w s
  | .auditRead w => Sys2Proof.Machine.execAuditRead w s
  | .auditAccept w => Sys2Proof.Machine.execAuditAccept w s
  | .auditDiscard w => Sys2Proof.Machine.execAuditDiscard w s
  | .bagOpen w => Sys2Proof.Machine.execBagOpen w s
  | .bagAdd w => Sys2Proof.Machine.execBagAdd w s
  | .bagReturn w => Sys2Proof.Machine.execBagReturn w s
  | .bagShut w => Sys2Proof.Machine.execBagShut w s
  | .bagBreak w => Sys2Proof.Machine.execBagBreak w s
  | .bagRead w => Sys2Proof.Machine.execBagRead w s
  | .rackSet w => Sys2Proof.Machine.execRackSet w s
  | .rackRead w => Sys2Proof.Machine.execRackRead w s
  | .manCreate w => Sys2Proof.Machine.execManCreate w s
  | .manAdd w => Sys2Proof.Machine.execManAdd w s
  | .manRemove w => Sys2Proof.Machine.execManRemove w s
  | .manClose w => Sys2Proof.Machine.execManClose w s
  | .manCancel w => Sys2Proof.Machine.execManCancel w s
  | .courierArrive w => Sys2Proof.Machine.execCourierArrive w s
  | .bagScan w => Sys2Proof.Machine.execBagScan w s
  | .manResume w => Sys2Proof.Machine.execManResume w s
  | .courierSign w => Sys2Proof.Machine.execCourierSign w s
  | .manReopen w => Sys2Proof.Machine.execManReopen w s
  | .manRead w => Sys2Proof.Machine.execManRead w s
  | .pinReset => Sys2Proof.Machine.execPinReset s
  | .resetDeassert => Sys2Proof.Machine.execResetDeassert s
  | .coldPowerUp storeHeld => Sys2Proof.Machine.execColdPowerUp storeHeld s
  | .supplyWarning high => Sys2Proof.Machine.execSupplyWarning high s
  | .courierCall high => Sys2Proof.Machine.execCourierCall high s
  | .roundInPulse high => Sys2Proof.Machine.execRoundInPulse high s
  | .doorSenseChange isOpen => Sys2Proof.Machine.execDoorSenseChange isOpen s
  | .secondTick => Sys2Proof.Machine.execSecondTick s
  | .minuteTick => Sys2Proof.Machine.execMinuteTick s
  | .holdTimeout lane => Sys2Proof.Machine.execHoldTimeout lane s
  | .intervalEnd => Sys2Proof.Machine.execIntervalEnd s
  | .lockoutEnd => Sys2Proof.Machine.execLockoutEnd s
  | .timerExpiry => Sys2Proof.Machine.execTimerExpiry s
  | .windowExpiry slot => Sys2Proof.Machine.execWindowExpiry slot s
  | .roundEvaluation => Sys2Proof.Machine.execRoundEvaluation s
  | .frameSent lane => Sys2Proof.Machine.execFrameSent lane s
  | .hello lane model serial => Sys2Proof.Machine.execHello lane model serial s
  | .batch lane seq code fit unfit suspect => Sys2Proof.Machine.execBatch lane seq code fit unfit suspect s
  | .endFeed lane seq => Sys2Proof.Machine.execEndFeed lane seq s
  | .holdAck lane => Sys2Proof.Machine.execHoldAck lane s
  | .jam lane jamCode => Sys2Proof.Machine.execJam lane jamCode s
  | .protocolFrame lane kind body => Sys2Proof.Machine.execProtocolFrame lane kind body s
  | .framingError lane chars => Sys2Proof.Machine.execFramingError lane chars s
  | .checkError lane kind body check => Sys2Proof.Machine.execCheckError lane kind body check s
  | .commandCompletion => Sys2Proof.Machine.execCommandCompletion s
  | .supplyLost => Sys2Proof.Machine.execSupplyLost s

end Sys2Proof.Machine
end

