-- ==== Sys2Proof/Safety.lean ====
section
/-! DEFINITION. The terms that claims use: a part that can take a command at once, the outcome of a command,
and the laws of the records that the manual states. -/

namespace Sys2Proof.Machine

/-- The command row of a command of the table. -/
def cmdInstr (c : Cmd) (w : CmdWrite) : Instr :=
  match c with
  | .nop => .nop w
  | .statusRead => .statusRead w
  | .attnRead => .attnRead w
  | .attnEnable => .attnEnable w
  | .attnClear => .attnClear w
  | .clockSet => .clockSet w
  | .clockRead => .clockRead w
  | .retain => .retain w
  | .release => .release w
  | .recordsClear => .recordsClear w
  | .overrideSet => .overrideSet w
  | .doorOpen => .doorOpen w
  | .doorLock => .doorLock w
  | .doorRead => .doorRead w
  | .denomSet => .denomSet w
  | .denomRead => .denomRead w
  | .stockRead => .stockRead w
  | .officeRead => .officeRead w
  | .limitsSet => .limitsSet w
  | .limitsRead => .limitsRead w
  | .templateSet => .templateSet w
  | .templateRead => .templateRead w
  | .tillSetup => .tillSetup w
  | .floatIssue => .floatIssue w
  | .floatCancel => .floatCancel w
  | .tillOpen => .tillOpen w
  | .topupIssue => .topupIssue w
  | .posCash => .posCash w
  | .tillClose => .tillClose w
  | .tillRead => .tillRead w
  | .varianceAccept => .varianceAccept w
  | .recount => .recount w
  | .callPost => .callPost w
  | .callTake => .callTake w
  | .callCancel => .callCancel w
  | .callRead => .callRead w
  | .roundSet => .roundSet w
  | .roundTimer => .roundTimer w
  | .roundNow => .roundNow w
  | .roundRead => .roundRead w
  | .laneProfile => .laneProfile w
  | .laneReset => .laneReset w
  | .laneClear => .laneClear w
  | .laneRead => .laneRead w
  | .countOpen => .countOpen w
  | .countHold => .countHold w
  | .countResume => .countResume w
  | .countVoid => .countVoid w
  | .countRolls => .countRolls w
  | .countCommit => .countCommit w
  | .countAbort => .countAbort w
  | .auditRead => .auditRead w
  | .auditAccept => .auditAccept w
  | .auditDiscard => .auditDiscard w
  | .bagOpen => .bagOpen w
  | .bagAdd => .bagAdd w
  | .bagReturn => .bagReturn w
  | .bagShut => .bagShut w
  | .bagBreak => .bagBreak w
  | .bagRead => .bagRead w
  | .rackSet => .rackSet w
  | .rackRead => .rackRead w
  | .manCreate => .manCreate w
  | .manAdd => .manAdd w
  | .manRemove => .manRemove w
  | .manClose => .manClose w
  | .manCancel => .manCancel w
  | .courierArrive => .courierArrive w
  | .bagScan => .bagScan w
  | .manResume => .manResume w
  | .courierSign => .courierSign w
  | .manReopen => .manReopen w
  | .manRead => .manRead w

/-- A command byte that completes before anything else happens (log entry 2). -/
def whole (notify : Bool) : CmdWrite := ⟨notify, .whole⟩

/-- The command write alone. -/
def begun (notify : Bool) : CmdWrite := ⟨notify, .begun⟩

/-- The part is supplied, out of reset and not in retention, no command is in progress, no transfer is held,
no event of a tick is due. A command written now is judged on the state as it stands. -/
def State.idle (s : State) : Bool :=
  s.powered && !s.resetLow && (s.ret.kind == .none) && s.due.isEmpty && s.port.inProgress.isNone &&
    s.port.held.isEmpty

/-- As `State.idle`, with no argument overflow standing. -/
def State.ready (s : State) : Bool := s.idle && !s.port.overflow

/-- A command byte written now is judged: as `State.ready`, but the part may be in WATCH (R182). -/
def State.accepts (s : State) : Bool :=
  s.powered && !s.resetLow && (s.ret.kind != .deep) && s.due.isEmpty && s.port.inProgress.isNone &&
    s.port.held.isEmpty && !s.port.overflow

/-- The part as a command byte finds it: awake (R162). -/
def State.awake (s : State) : State := if s.ret.kind = .watch then s.wakeWatch else s

/-- The timebase and the lines act: supplied, out of reset, nothing due. -/
def State.live (s : State) : Bool := s.powered && !s.resetLow && s.due.isEmpty

/-- The state after a command `c` was taken with a reply, its effects having made `t` (R171 to R178). -/
def completed (c : Cmd) (notify : Bool) (reply : List Byte) (t : State) : State :=
  t.endCommand (c.byte notify) reply .ok

/-- The state after a command `c` was refused with a code, in a state `t` that holds what the refusal
changes (R176). -/
def turnedAway (c : Cmd) (notify : Bool) (r : PortCode) (t : State) : State :=
  t.endCommand (c.byte notify) [] r

/-- The arguments with which an override command reaches the authority check, with the place of its code: the
length is right and the till, bag or manifest it names is there. -/
def overrideCode (c : Cmd) (a : List Byte) (s : State) : Option Nat :=
  match c with
  | .varianceAccept | .recount =>
    if a.length = 4 ∧ (tillOf (arg a 0 1)).isSome then some (arg a 1 3) else none
  | .bagBreak =>
    if a.length = 4 ∧ ((bagOf (arg a 0 1)).bind s.bag).isSome then some (arg a 1 3) else none
  | .auditAccept | .recordsClear => if a.length = 3 then some (arg a 0 3) else none
  | .overrideSet => if a.length = 6 then some (arg a 0 3) else none
  | .doorOpen => if a.length = 4 then some (arg a 0 3) else none
  | .manResume =>
    if a.length = 5 ∧ ((s.findMan (arg a 0 2)).bind s.man).isSome then some (arg a 2 3) else none
  | .manReopen =>
    if a.length = 9 ∧ ((s.findMan (arg a 0 2)).bind s.man).isSome then some (arg a 2 3) else none
  | _ => none

/-- A state after a matching override code: the failure count is 0. -/
def State.matched (s : State) : State := { s with auth := { s.auth with failures := 0 } }

/-- A lane with an error latched (R65): in IDLE and FAULT it joins the latched set; in another session state the
lane also goes to FAULT, drops its hold countdown and issues HOLD. -/
def Lane.erring (e : LaneError) (l : Lane) : Lane :=
  if l.state = .idle ∨ l.state = .fault then { l with errors := l.errors ||| e.weight }
  else { l with errors := l.errors ||| e.weight, state := .fault, hold := none, tx := l.tx.issue .hold }

/-- A lane that its profile has taken out of UNPROFILED, with its receiver between two frames, at a part that
takes events (R60, R61). -/
def State.listens (s : State) (i : LaneIx) : Prop :=
  s.live = true ∧ (s.lane i).state ≠ .unprofiled ∧ ∃ skip, (s.lane i).rx = .hunting skip

/-- The lane after the last character of a frame: the receiver hunts, its skip mark clear (R61). -/
def Lane.heard (l : Lane) : Lane := { l with rx := .hunting false }

/-! ### Work in flight, undone -/

/-- Some lane holds a session of a purpose and target (R71). -/
def State.holds (s : State) (p : Purpose) : Prop := ∃ i x, (s.lane i).session = some x ∧ x.purpose = p

/-- `t` holds the tills, the stock, the manifests and the lanes of `s` after every session has ended with the
effects of COUNT-ABORT on its bound record, and every handover at the door has gone back to READY (R84, R86,
R144). -/
def State.undone (s t : State) : Prop :=
  (∀ i, t.lane i = Lane.unprofiled) ∧
  (∀ u : TillIx,
    (s.holds (.tillClose u) → t.till u = { s.till u with lane := none, state := .closing }) ∧
    (¬s.holds (.tillClose u) → s.holds (.pickup u) → t.till u = { s.till u with lane := none }) ∧
    (¬s.holds (.tillClose u) → ¬s.holds (.pickup u) → t.till u = s.till u)) ∧
  (∀ c : Code,
    ((∃ m, has m c = true ∧ s.holds (.audit m)) → t.stock[c] = { s.stock[c] with frozen := false }) ∧
    ((∀ m, has m c = true → ¬s.holds (.audit m)) → t.stock[c] = s.stock[c])) ∧
  (∀ j : SlotIx, (s.man j = none → t.man j = none) ∧ ∀ m, s.man j = some m →
    let back : ManState := if m.state = .bags then .ready else m.state
    (∀ c, m.body = .collection c →
      let reverted := { c with entries := c.entries.map fun e =>
        if e.status = .accepted then { e with status := .pending } else e }
      t.man j = some { m with
        state := back, body := .collection (if m.state = .bags then reverted else c) }) ∧
    (∀ d, m.body = .delivery d →
      ((∃ n, s.holds (.delivery n) ∧ s.findMan n = some j) →
        t.man j = some { m with state := back, body := .delivery { d with lane := none } }) ∧
      ((∀ n, s.holds (.delivery n) → s.findMan n ≠ some j) → t.man j = some { m with state := back })))

/-- A running round ended ABORTED, at the time given; with none running the engine as it stands (R57). -/
def RoundEngine.cutShort (time : Option Stamp) (e : RoundEngine) : RoundEngine :=
  match e.run with
  | none => e
  | some r =>
    { e with
      run := none, resume := r.current
      summary := some ⟨.aborted, r.start, r.raised, r.merged, r.current, time⟩ }

/-- The door is left open by a lock at this moment: the output is unlocked and the door sensed open (R151). -/
def State.leavesOpen (s : State) : Bool := s.door.unlocked && s.taken.doorOpen

/-- The door controller after a lock by a reset or by the supply warning, its interval dropped (R148, R151). -/
def State.lockedDown (s : State) : Door :=
  { unlocked := false, interval := none
    leftOpen := s.door.leftOpen || s.leavesOpen
    event := if s.leavesOpen then some ⟨.leftOpen .reset, s.stamp⟩ else s.door.event }

/-! ### The laws of the records -/

/-- The law of the office balance (R16). -/
def State.balanceLaw (s : State) : Prop := s.stockValue + s.floatsOut + s.bagValue = s.balance

/-- The law of the lock output (R148). -/
def State.doorLaw (s : State) : Prop := s.door.unlocked = s.shouldUnlock

/-- The law of the call queue, but for the till states (R42): at most 32 entries, at most one for a till and
kind. -/
def State.queueLaw (s : State) : Prop :=
  s.calls.length ≤ 32 ∧ s.calls.Pairwise fun a b => a.till = b.till → a.kind ≠ b.kind

/-- The bounds of the argument buffer and of the read position (R171, R174). -/
def Port.bounded (p : Port) : Prop := p.args.length ≤ 128 ∧ p.readPos ≤ p.reply.length

/-- The bound of the reply buffer (R174). -/
def Port.replyBounded (p : Port) : Prop := p.reply.length ≤ 192

/-- A wrong-code count runs from 0 to 3, and stands at 3 only in LOCKED and EXPIRED (R122, R132). -/
def Manifest.wrongOk (m : Manifest) : Prop :=
  m.wrong ≤ 3 ∧ (m.wrong = 3 → m.state = .locked ∨ m.state = .expired)

/-- The bounds of the authority unit and of the wrong-code counts (R132, R146). -/
def State.codeLaw (s : State) : Prop :=
  s.auth.failures ≤ 3 ∧ s.auth.lockout ≤ 15 ∧ ∀ i m, s.man i = some m → m.wrongOk

/-- A session's batch stack holds at most 8 batches (R76). -/
def State.stackLaw (s : State) : Prop := ∀ i x, (s.lane i).session = some x → x.stack.length ≤ 8

/-- A bag in these states is in a compartment (R105, R118). -/
def BagState.inCompartment (k : BagState) : Prop := k = .placed ∨ k = .manifested ∨ k = .heldBack

/-- Every unretired bag is in exactly one place: FILLING, in the queue (SHUT), or in the one compartment it names
(PLACED, MANIFESTED or HELD-BACK). No compartment holds more than K bags, the queue is empty while no halt is
set, the pointer's compartment then has room, and under a halt it holds a bag (R114, R116, R118). -/
def State.placesLaw (s : State) : Prop :=
  (∀ b, b ∈ s.rack.queue ↔ ∃ x, s.bag b = some x ∧ x.state = .shut) ∧
  (∀ b, ∀ c : CompIx, b ∈ s.rack.comps[c] ↔ ∃ x, s.bag b = some x ∧ x.comp = some c) ∧
  (∀ b x, s.bag b = some x → (x.comp ≠ none ↔ x.state.inCompartment)) ∧
  s.rack.queue.Nodup ∧ (∀ c : CompIx, s.rack.comps[c].Nodup) ∧
  1 ≤ s.rack.k ∧ s.rack.k ≤ 12 ∧ (∀ c : CompIx, s.rack.comps[c].length ≤ s.rack.k) ∧
  (s.rack.halt = false → s.rack.queue = [] ∧ s.rack.comps[s.rack.ptr].length < s.rack.k) ∧
  (s.rack.halt = true → s.rack.comps[s.rack.ptr] ≠ [])

/-- An entry that the manifest of a slot lists as PENDING or ACCEPTED (R123). -/
def State.lists (s : State) (i : SlotIx) (e : Entry) : Prop :=
  ∃ m c, s.man i = some m ∧ m.body = .collection c ∧ e ∈ c.entries ∧ e.status ≠ .setAside

/-- A bag that a manifest lists as PENDING or ACCEPTED is MANIFESTED and bears the entry's tag, and one entry
alone lists it. In DRAFT every entry is PENDING. A halted entry stands in a SUSPENDED manifest and is PENDING
(R123, R127, R134, R135). -/
def State.listedLaw (s : State) : Prop :=
  (∀ i e, s.lists i e → ∃ x, s.bag e.bag = some x ∧ x.tag = e.tag ∧ x.state = .manifested) ∧
  (∀ i j e f, s.lists i e → s.lists j f → e.bag = f.bag → i = j) ∧
  (∀ i m c, s.man i = some m → m.body = .collection c →
    (c.entries.Pairwise fun e f => e.status ≠ .setAside → f.status ≠ .setAside → e.bag ≠ f.bag) ∧
    (m.state = .draft → ∀ e ∈ c.entries, e.status = .pending) ∧
    (∀ k, c.halted = some k → m.state = .suspended ∧ ∀ e, c.entries[k]? = some e → e.status = .pending))

/-- The places of the bags, with the manifests that list them (R118, R123). -/
def State.rackLaw (s : State) : Prop := s.placesLaw ∧ s.listedLaw

/-- No two lines of a bag share a code and class (R105). -/
def Bag.linesApart (b : Bag) : Prop := b.lines.Pairwise fun x y => ¬(x.code = y.code ∧ x.cls = y.cls)

/-- The bounds of the lists that a reply may carry: the round list (R51), the entries of a collection (R123), the
lines and the variance of a delivery (R124, R141), the lines of a bag (R105), the batch stacks (R76). -/
def State.listsLaw (s : State) : Prop :=
  s.round.list.length ≤ 96 ∧
  (∀ i m c, s.man i = some m → m.body = .collection c → c.entries.length ≤ 24) ∧
  (∀ i m d, s.man i = some m → m.body = .delivery d →
    (d.lines.Pairwise fun x y => x.code ≠ y.code) ∧
    ∀ n, d.count = some n → n.variance.length ≤ 12) ∧
  (∀ b x, s.bag b = some x → x.linesApart) ∧ s.stackLaw

/-- The float of a till is the value of its issue list (R27). -/
def State.floatsLaw (s : State) : Prop :=
  ∀ t : TillIx, (s.till t).f = sumCodes fun c => (s.till t).issue[c] * s.denoms[c].face

/-- The counted value of a COUNTED till is the value of its composition (R87, R91). -/
def State.countedLaw (s : State) : Prop :=
  ∀ (t : TillIx) r, (s.till t).state = .counted → (s.till t).result = some r →
    r.c = sumCodes fun c => (r.comp[c].fit + r.comp[c].unfit) * s.denoms[c].face

/-- The value of a bag is the value of its lines (R105). -/
def State.figuresLaw (s : State) : Prop :=
  ∀ b x, s.bag b = some x → x.linesApart ∧
    x.value = sumCodes fun c => ((linesComp x.lines)[c].fit + (linesComp x.lines)[c].unfit) * s.denoms[c].face

/-- A till named by a session has that session's lane; its state is IN-COUNT in a close count, TRADING or CLOSING
in a pickup (R28, R73). -/
def State.boundLaw (s : State) : Prop :=
  ∀ i x, (s.lane i).session = some x →
    (∀ t, x.purpose = .tillClose t → (s.till t).state = .inCount ∧ (s.till t).lane = some i) ∧
    (∀ t, x.purpose = .pickup t →
      ((s.till t).state = .trading ∨ (s.till t).state = .closing) ∧ (s.till t).lane = some i)

/-- The law of the office balance, with the laws that it rests on. -/
def State.officeLaw (s : State) : Prop :=
  s.balanceLaw ∧ s.floatsLaw ∧ s.countedLaw ∧ s.figuresLaw ∧ s.boundLaw ∧ s.rackLaw

/-- The records, all but the port and the model's own fields, stand as they stood. -/
def sameRecords (s t : State) : Prop :=
  t = { s with port := t.port, due := t.due, freeCount := t.freeCount, pending := t.pending }

end Sys2Proof.Machine
end

