-- ==== Sys2Proof/Certificates/Slice0/Obligations.lean ====
section
/-! DEFINITION. The statements for the provers. -/

section

open Sys2Proof Sys2Proof.Machine

/-! ### The block -/

/-- A step is the command at the front of the queue, on the state with the queue's rest. With no command waiting
the block idles: its state stays. Every command, in every state, is answered with a next state: a refusal is a
code of the status byte. The queue and the idling are the model's own (log entry 3). -/
def Obligations.StepRunsFrontCommand : Prop :=
  (∀ (c : Instr) (r : List Instr) (s : State),
      step { s with pending := c :: r } = exec c { s with pending := r }) ∧
  (∀ s : State, s.pending = [] → step s = .next s) ∧
  (∀ (c : Instr) (s : State), ∃ t, exec c s = .next t)

/-- The records after a cold power-up with the store lost. The line levels, RESET# and the byte last read are
the model's choice (log entries 1, 7 and 12) and are not stated. -/
def Obligations.ResetState : Prop :=
  let s := State.reset
  (∀ c : Code, s.denoms[c] = ⟨.unused, 0, false⟩ ∧ s.stock[c] = ⟨⟨0, 0, 0⟩, false⟩) ∧
  s.balance = 0 ∧ s.limits = ⟨10, 1000, 20000, 10000, 10000000, 250000000⟩ ∧
  (∀ l : TemplateIx, s.templates[l].slack = 0 ∧ ∀ c : Code, s.templates[l].targets[c] = 0) ∧
  (∀ t : TillIx, (s.till t).inService = false ∧ (s.till t).template = 0 ∧ (s.till t).threshold = 0 ∧
    (s.till t).state = .closed ∧ (s.till t).f = 0 ∧ (s.till t).s = 0 ∧ (s.till t).r = 0 ∧
    (s.till t).p = 0 ∧ (s.till t).pickups = 0 ∧ (s.till t).lane = none ∧ (s.till t).result = none ∧
    ∀ c : Code, (s.till t).issue[c] = 0) ∧
  s.calls = [] ∧ s.callOverflow = false ∧ s.round = ⟨[], 0, false, 30, false, none, none, none⟩ ∧
  (∀ i : LaneIx, s.lane i = Lane.unprofiled) ∧ s.audit = none ∧ (∀ b : BagIx, s.bag b = none) ∧
  (∀ c : CompIx, s.rack.comps[c] = []) ∧ s.rack.k = 6 ∧ s.rack.ptr = 0 ∧ s.rack.halt = false ∧
  s.rack.queue = [] ∧ s.man 0 = none ∧ s.man 1 = none ∧ s.door = ⟨false, none, false, none⟩ ∧
  s.auth = ⟨0, 0, 0⟩ ∧ s.clock = ⟨false, 0, 0, 0⟩ ∧ s.ret = ⟨.none, false, none, .storeLost, true⟩ ∧
  s.port.args = [] ∧ s.port.overflow = false ∧ s.port.reply = [] ∧ s.port.readPos = 0 ∧
  s.port.code = .ok ∧ s.port.inProgress = none ∧ s.port.held = [] ∧ s.port.done = false ∧
  s.port.attnPending = 0 ∧ s.port.attnEnable = 0 ∧ s.pending = []

/-! ### Transfers -/

/-- An argument write appends its byte, or finds 128 bytes and sets the overflow mark; in DEEP it is discarded, and
clears DONE (section 10.1; log entry 13). A reply read returns the byte at the read position and moves it on; at
the end of the reply it returns 00H and the position stays. Nothing else changes but DONE. -/
def Obligations.TransfersAtTheBuffers : Prop :=
  (∀ (b : Byte) (s : State), s.live = true → s.port.inProgress = none →
      (s.ret.kind ≠ .deep → s.port.args.length < 128 →
        exec (.argumentWrite b) s =
          .next { s with port := { s.port with done := false, args := s.port.args ++ [b] } }) ∧
      (s.ret.kind ≠ .deep → 128 ≤ s.port.args.length →
        exec (.argumentWrite b) s =
          .next { s with port := { s.port with done := false, overflow := true } }) ∧
      (s.ret.kind = .deep →
        exec (.argumentWrite b) s = .next { s with port := { s.port with done := false } })) ∧
  (∀ s : State, s.live = true → s.port.inProgress = none →
      (∀ b, s.port.reply[s.port.readPos]? = some b →
        exec .replyRead s =
          .next { s with port := { s.port with done := false, dataOut := b, readPos := s.port.readPos + 1 } }) ∧
      (s.port.reply.length ≤ s.port.readPos →
        exec .replyRead s = .next { s with port := { s.port with done := false, dataOut := 0 } }))

/-- A status read returns BUSY, ERR, ATTN, RETAINED and the code, and is not held while BUSY is set. DACK# clears
DONE. Nothing else changes but DONE. -/
def Obligations.StatusReadAndAcknowledge : Prop :=
  (∀ s : State, s.live = true →
      ∃ v : Byte,
        exec .statusByteRead s = .next { s with port := { s.port with done := false, dataOut := v } } ∧
        v.getLsbD 7 = s.port.inProgress.isSome ∧ v.getLsbD 6 = decide (s.port.code ≠ .ok) ∧
        v.getLsbD 5 = decide (s.port.attnPending &&& s.port.attnEnable ≠ 0) ∧ v.getLsbD 4 = s.ret.latch ∧
        v.toNat % 16 = s.port.code.value) ∧
  (∀ s : State, s.powered = true → s.due = [] →
      exec .doneAcknowledge s = .next { s with port := { s.port with done := false } })

/-- A command byte whose code names no command is refused with COMMAND, whether or not the overflow mark is set.
While the overflow mark is set every command of the table is refused with ARGUMENT, the authority check not
made. In WATCH a command byte, of a command of the table or of none, wakes the part and is taken by the part it
woke, with the arguments collected before it; in DEEP it is discarded, and clears DONE (sections 10.1 and 10.6;
log entry 13). -/
def Obligations.CommandByteJudged : Prop :=
  (∀ (code : BitVec 7) (n : Bool) (s : State), s.idle = true → Cmd.ofCode code.toNat = none →
      exec (.unknownCommand code (whole n)) s =
        .next (s.endCommand (commandByte n code) [] .command)) ∧
  (∀ (c : Cmd) (n : Bool) (s : State), s.idle = true → s.port.overflow = true →
      exec (cmdInstr c (whole n)) s = .next (turnedAway c n .argument s)) ∧
  (∀ (c : Cmd) (n : Bool) (s : State), s.live = true → s.port.inProgress = none → s.port.held = [] →
      (s.ret.kind = .watch →
        exec (cmdInstr c (whole n)) s = exec (cmdInstr c (whole n)) s.wakeWatch) ∧
      (s.ret.kind = .deep →
        exec (cmdInstr c (whole n)) s = .next { s with port := { s.port with done := false } })) ∧
  (∀ (code : BitVec 7) (n : Bool) (s : State), s.live = true → s.port.inProgress = none → s.port.held = [] →
      (s.ret.kind = .watch →
        exec (.unknownCommand code (whole n)) s = exec (.unknownCommand code (whole n)) s.wakeWatch) ∧
      (s.ret.kind = .deep →
        exec (.unknownCommand code (whole n)) s = .next { s with port := { s.port with done := false } }))

/-- A command write alone sets BUSY and changes nothing else but DONE; the completion that follows does what
the whole command does (the two rows are the model's reading of R173, log entry 2). -/
def Obligations.WriteThenCompletion : Prop :=
  ∀ (c : Cmd) (n : Bool) (s : State), s.ready = true →
    exec (cmdInstr c (begun n)) s =
      .next { s with port := { s.port with done := false, inProgress := some (c.byte n) } } ∧
    exec .commandCompletion
        { s with port := { s.port with done := false, inProgress := some (c.byte n) } } =
      exec (cmdInstr c (whole n)) s

/-- While BUSY is set an argument write, a reply read and a command write are held, in their order (log entry 10),
and nothing else changes. A held transfer is taken against the state the completion left: an argument write
belongs to the next command, a reply read returns the first byte of the new reply, a command write sets BUSY. That
a held command write keeps nothing of its row's pace, and waits for a completion of its own, is the model's choice
(log entry 25). -/
def Obligations.TransfersHeldThroughBusy : Prop :=
  (∀ (s : State) (x : Byte), s.live = true → s.port.inProgress = some x →
      (∀ b, exec (.argumentWrite b) s =
        .next { s with port := { s.port with held := s.port.held ++ [.argument b] } }) ∧
      exec .replyRead s = .next { s with port := { s.port with held := s.port.held ++ [.reply] } } ∧
      (∀ c w, exec (cmdInstr c w) s =
        .next { s with port := { s.port with held := s.port.held ++ [.command (c.byte w.notify)] } })) ∧
  (∀ (c : Cmd) (n : Bool) (s : State), s.live = true → s.port.overflow = false →
      s.port.inProgress = some (c.byte n) →
      let t := finish (c.byte n) (effect c s.port.args s)
      t.port.args = [] ∧ t.port.readPos = 0 ∧
      (∀ b, s.port.held = [.argument b] → t.ret.kind ≠ .deep →
        exec .commandCompletion s = .next { t with port := { t.port with args := [b], done := false } }) ∧
      (s.port.held = [.reply] →
        exec .commandCompletion s =
          .next { t with port := { t.port with dataOut := t.port.reply.headD 0,
                                               readPos := min 1 t.port.reply.length, done := false } }) ∧
      (∀ (d : Cmd) (w : Bool), s.port.held = [.command (d.byte w)] → t.ret.kind = .none →
        exec .commandCompletion s =
          .next { t with port := { t.port with done := false, inProgress := some (d.byte w) } }))

/-- What every completion leaves at the port: the argument buffer empty, the overflow mark clear, the read
position 0, BUSY clear, DONE set, NOTIFY as bit 7 of the byte, and no reply after a refusal. -/
def Obligations.CompletionAtThePort : Prop :=
  ∀ (c : Cmd) (n : Bool) (s : State), s.ready = true →
    ∃ t, exec (cmdInstr c (whole n)) s = .next t ∧
      t.port.args = [] ∧ t.port.overflow = false ∧ t.port.readPos = 0 ∧ t.port.inProgress = none ∧
      t.port.done = true ∧ t.port.attnPending.getLsbD 0 = n ∧ (t.port.code ≠ .ok → t.port.reply = [])

/-- A refused command leaves every record as it stood, but for what a rule names as the effect of the refusal:
the authority unit of an override command, the manifest of a COURIER-ARRIVE, the overflow flag of a
CALL-POST. -/
def Obligations.RefusalKeepsRecords : Prop :=
  ∀ (c : Cmd) (n : Bool) (s t : State), s.ready = true →
    exec (cmdInstr c (whole n)) s = .next t → t.port.code ≠ .ok →
    t = { s with port := t.port, auth := t.auth, mans := t.mans, callOverflow := t.callOverflow } ∧
    (t.auth ≠ s.auth → c ∈ [Cmd.varianceAccept, .recount, .auditAccept, .bagBreak, .manResume, .manReopen,
      .doorOpen, .recordsClear, .overrideSet]) ∧
    (t.mans ≠ s.mans → c = .courierArrive ∧ t.port.code = .code) ∧
    (t.callOverflow ≠ s.callOverflow → c = .callPost ∧ t.port.code = .full)

/-- The length is judged before every other check: a wrong length is ARGUMENT, whatever else would refuse the
command, and nothing changes. The 67 commands with one layout, with their lengths. -/
def Obligations.LengthJudgedFirst : Prop :=
  ∀ (c : Cmd) (len : Nat) (n : Bool) (s : State),
    (c, len) ∈ [(Cmd.nop, 0), (.statusRead, 0), (.attnRead, 0), (.attnEnable, 1), (.attnClear, 1),
      (.clockSet, 4), (.clockRead, 0), (.retain, 1), (.release, 0), (.recordsClear, 3),
      (.overrideSet, 6), (.doorOpen, 4), (.doorLock, 0), (.doorRead, 0), (.denomSet, 7),
      (.denomRead, 0), (.stockRead, 0), (.officeRead, 0), (.limitsSet, 22), (.limitsRead, 0),
      (.templateSet, 27), (.templateRead, 1), (.tillSetup, 7), (.floatIssue, 1), (.floatCancel, 1),
      (.tillOpen, 1), (.posCash, 9), (.tillClose, 1), (.tillRead, 1), (.varianceAccept, 4),
      (.recount, 4), (.callPost, 2), (.callTake, 1), (.callCancel, 2), (.callRead, 1),
      (.roundTimer, 3), (.roundNow, 0), (.roundRead, 0), (.laneProfile, 4), (.laneReset, 1),
      (.laneClear, 1), (.laneRead, 2), (.countHold, 1), (.countResume, 1), (.countVoid, 1),
      (.countRolls, 4), (.countCommit, 1), (.countAbort, 1), (.auditRead, 0), (.auditAccept, 3),
      (.auditDiscard, 0), (.bagOpen, 6), (.bagAdd, 5), (.bagReturn, 5), (.bagShut, 1), (.bagBreak, 4),
      (.rackSet, 1), (.rackRead, 0), (.manAdd, 3), (.manRemove, 3), (.manClose, 2), (.manCancel, 2),
      (.courierArrive, 5), (.bagScan, 8), (.manResume, 5), (.courierSign, 2), (.manReopen, 9)] →
    s.ready = true → s.port.args.length ≠ len →
    exec (cmdInstr c (whole n)) s = .next (turnedAway c n .argument s)

/-- NOP: in every state in which a command byte is judged it is taken with an empty reply, or refused with
ARGUMENT when an argument byte or an overflow stands; it changes nothing else, and wakes a part in WATCH. -/
def Obligations.NopCompletes : Prop :=
  ∀ (n : Bool) (s : State), s.live = true → s.ret.kind ≠ .deep → s.port.inProgress = none →
    s.port.held = [] →
    (s.port.args = [] → s.port.overflow = false →
      exec (.nop (whole n)) s = .next (completed .nop n [] s.awake)) ∧
    (s.port.args ≠ [] ∨ s.port.overflow = true →
      exec (.nop (whole n)) s = .next (turnedAway .nop n .argument s.awake)) ∧
    (completed .nop n [] s).port.code = .ok ∧ (completed .nop n [] s).port.done = true ∧
    (completed .nop n [] s).port.args = [] ∧ (completed .nop n [] s).port.overflow = false ∧
    (completed .nop n [] s).port.reply = [] ∧
    (completed .nop n [] s).port.attnPending.getLsbD 0 = n

/-- ATTN-ENABLE replaces the enable set, ATTN-CLEAR clears the sources of its mask, and a mask above weight 32
is ARGUMENT. -/
def Obligations.AttentionCommands : Prop :=
  ∀ (n : Bool) (s : State) (b : Byte), s.ready = true → s.port.args = [b] →
    (b.toNat < 64 →
      exec (.attnEnable (whole n)) s =
        .next (completed .attnEnable n [b, s.port.attnPending.setWidth 8]
          { s with port := { s.port with attnEnable := b.setWidth 6 } }) ∧
      exec (.attnClear (whole n)) s =
        .next (completed .attnClear n
          [s.port.attnPending.setWidth 8, (s.port.attnPending &&& ~~~(b.setWidth 6)).setWidth 8]
          { s with port := { s.port with attnPending := s.port.attnPending &&& ~~~(b.setWidth 6) } })) ∧
    (64 ≤ b.toNat →
      exec (.attnEnable (whole n)) s = .next (turnedAway .attnEnable n .argument s) ∧
      exec (.attnClear (whole n)) s = .next (turnedAway .attnClear n .argument s))

/-! ### Reads -/

/-- LIMITS-READ: in every state in which a command byte is judged it replies with the six limits in argument
order and changes nothing else; with an argument byte it is refused. -/
def Obligations.LimitsReadReply : Prop :=
  ∀ (n : Bool) (s : State), s.accepts = true →
    (s.port.args = [] →
      exec (.limitsRead (whole n)) s =
        .next (completed .limitsRead n
          (le 2 s.limits.basisPoints ++ le 4 s.limits.floor ++ le 4 s.limits.cap ++ le 4 s.limits.skimUnit ++
            le 4 s.limits.ceiling ++ le 4 s.limits.bagLimit) s.awake)) ∧
    (s.port.args ≠ [] →
      exec (.limitsRead (whole n)) s = .next (turnedAway .limitsRead n .argument s.awake))

/-- STOCK-READ: in every state in which a command byte is judged it replies, code by code, with the three
counts and the frozen mark as they stand, and changes nothing else; with an argument byte it is refused. -/
def Obligations.StockReadReply : Prop :=
  ∀ (n : Bool) (s : State), s.accepts = true →
    (s.port.args = [] →
      exec (.stockRead (whole n)) s =
        .next (completed .stockRead n
          (([0, 1, 2, 3, 4, 5, 6, 7, 8, 9, 10, 11] : List Code).flatMap fun c =>
            le 3 s.stock[c].counts.fit ++ le 3 s.stock[c].counts.unfit ++
              le 3 s.stock[c].counts.suspect ++ [boolByte s.stock[c].frozen]) s.awake)) ∧
    (s.port.args ≠ [] →
      exec (.stockRead (whole n)) s = .next (turnedAway .stockRead n .argument s.awake))

/-- The reads without arguments reply with the records as they stand and change nothing. An absent one-byte field reads as log entry 16 gives. -/
def Obligations.TableReads : Prop :=
  ∀ (n : Bool) (s : State), s.ready = true → s.port.args = [] →
    exec (.statusRead (whole n)) s =
      .next (completed .statusRead n
        [byte s.ret.cause.value,
         byte (mark 1 s.ret.latch + mark 2 s.clock.isSet + mark 4 s.taken.supplyWarn +
           mark 8 s.callOverflow + mark 16 s.rack.halt),
         byte (pathValue s.ret.path), byte s.auth.lockout, byte s.auth.failures] s) ∧
    exec (.attnRead (whole n)) s =
      .next (completed .attnRead n
        [s.port.attnPending.setWidth 8, s.port.attnEnable.setWidth 8,
         boolByte (s.port.attnPending &&& s.port.attnEnable != 0)] s) ∧
    exec (.clockRead (whole n)) s =
      .next (completed .clockRead n
        ([boolByte s.clock.isSet] ++ le 2 s.clock.day ++ le 2 s.clock.minute ++ [byte s.clock.sub]) s) ∧
    exec (.doorRead (whole n)) s =
      .next (completed .doorRead n
        ([boolByte s.door.unlocked,
          byte (mark 1 s.anyBags + mark 2 s.door.interval.isSome + mark 4 s.ret.latch),
          indexByte s.bagsSlot] ++ le 2 (s.door.interval.getD 0) ++
          [boolByte s.taken.doorOpen, boolByte s.door.leftOpen] ++ doorEventBytes s.door.event ++
          [byte s.auth.failures, byte s.auth.lockout]) s) ∧
    exec (.denomRead (whole n)) s =
      .next (completed .denomRead n
        (codes.flatMap fun c =>
          [byte c.val, byte s.denoms[c].kind.value] ++ le 4 s.denoms[c].face ++
            [boolByte s.denoms[c].eligible, boolByte (s.referenced c)]) s) ∧
    exec (.officeRead (whole n)) s =
      .next (completed .officeRead n
        (le 4 s.balance ++ le 4 s.stockValue ++ le 4 s.floatsOut ++ le 4 s.bagValue ++
          ([TillState.closed, .issued, .trading, .closing, .inCount, .counted].map fun k =>
            byte (s.tillsIn k)) ++
          [byte s.bagCount, byte s.rack.queue.length, byte s.rack.ptr.val, boolByte s.rack.halt,
           byte s.calls.length]) s) ∧
    exec (.roundRead (whole n)) s =
      .next (completed .roundRead n
        ([byte s.round.list.length] ++ (s.round.list.map fun t => byte (t.val + 1)) ++
          runBytes s.round.run ++
          [byte s.round.resume, boolByte s.round.timerOn, byte s.round.interval,
           byte (s.round.countdown.getD 0), boolByte s.ret.latch, boolByte s.round.trigOn] ++
          summaryBytes s.round.summary) s) ∧
    exec (.rackRead (whole n)) s =
      .next (completed .rackRead n
        ([byte s.rack.k, byte s.rack.ptr.val, boolByte s.rack.halt] ++
          (lanesAll.flatMap fun c =>
            [byte s.rack.comps[c].length] ++
              s.rack.comps[c].flatMap fun b => [byte (b.val + 1), bagStateByte (s.bag b)]) ++
          [byte s.rack.queue.length] ++ s.rack.queue.map fun b => byte (b.val + 1)) s) ∧
    (s.audit = none →
      exec (.auditRead (whole n)) s = .next (completed .auditRead n [0] s)) ∧
    (∀ r, s.audit = some r →
      exec (.auditRead (whole n)) s =
        .next (completed .auditRead n
          (let l := placeRecords 182 ((codes.filter (has r.codes)).map (r.record s))
           [1] ++ le 2 r.codes.toNat ++ le 2 (r.staleMask s) ++ leInt 4 r.total ++ [byte l.length] ++
             l.flatten) s))

/-- The reads of one record reply with the whole of it as it stands, and change nothing; BAG-READ names a bag by its
number or by its tag number. A bag that is not in the unplaced queue reads queue position 0, which is the model's
choice (log entry 16), and positions count from 0 (log entry 17). -/
def Obligations.RecordReads : Prop :=
  ∀ (n : Bool) (s : State) (a : List Byte), s.ready = true → s.port.args = a →
    (∀ t, a.length = 1 → tillOf (arg a 0 1) = some t →
      let x := s.till t
      exec (.tillRead (whole n)) s =
        .next (completed .tillRead n
          ([boolByte x.inService, byte x.template.val] ++ le 4 x.threshold ++ [byte x.state.value] ++
            le 4 x.f ++ le 4 x.s ++ le 4 x.r ++ le 4 x.p ++ le 2 x.pickups ++
            leInt 4 (saturate ((x.f : Int) + x.s - x.r - x.p)) ++
            [indexByte (x.lane.map Fin.val),
             byte (mark 1 (s.hasCall t .skim) + mark 2 (s.hasCall t .topup) +
               mark 4 (s.hasCall t .collect))] ++
            (codes.flatMap fun c => le 2 x.issue[c]) ++
            (match x.result with
             | none => List.replicate 100 0
             | some r =>
               [1] ++ le 4 r.c ++ leInt 4 r.e ++ leInt 4 r.v ++ le 4 r.tol ++
                 [byte r.cls.value, byte (resultFlags r.negExpect r.v)] ++ le 4 r.sv ++
                 (codes.flatMap fun c =>
                   le 2 r.comp[c].fit ++ le 2 r.comp[c].unfit ++ le 2 r.comp[c].suspect) ++
                 [boolByte r.time.isSome] ++ stampBytes r.time)) s)) ∧
    (∀ k : TemplateIx, a = [byte k.val] →
      exec (.templateRead (whole n)) s =
        .next (completed .templateRead n
          ([byte k.val] ++ (codes.flatMap fun c => le 2 s.templates[k].targets[c]) ++
            le 2 s.templates[k].slack ++
            le 5 (sumCodes fun c => s.templates[k].targets[c] * s.denoms[c].face)) s)) ∧
    (∀ i : LaneIx, ∀ p, a = [byte i.val, p] → p.toNat < 3 →
      exec (.laneRead (whole n)) s =
        .next (completed .laneRead n
          (if p = 0 then lanePage0 s.denoms (s.lane i)
           else if p = 1 then lanePage1 (s.lane i).session else lanePage2 (s.lane i).session) s)) ∧
    (∀ b x, a.length = 1 → bagOf (arg a 0 1) = some b → s.bag b = some x →
      exec (.bagRead (whole n)) s = .next (completed .bagRead n (bagRecord s b x) s)) ∧
    (a.length = 5 →
      let tag := arg a 0 5
      (∀ b x, 1 ≤ tag → tag ≤ 9999999999 → s.bag b = some x → x.tag = tag →
        (∀ c y, c < b → s.bag c = some y → y.tag ≠ tag) →
        exec (.bagRead (whole n)) s = .next (completed .bagRead n (bagRecord s b x) s)) ∧
      (1 ≤ tag → tag ≤ 9999999999 → (∀ c y, s.bag c = some y → y.tag ≠ tag) →
        exec (.bagRead (whole n)) s = .next (turnedAway .bagRead n .unknown s)) ∧
      (tag = 0 ∨ 9999999999 < tag →
        exec (.bagRead (whole n)) s = .next (turnedAway .bagRead n .argument s))) ∧
    (a = [] →
      exec (.bagRead (whole n)) s = .next (completed .bagRead n (s.bags.toList.map bagStateByte) s) ∧
      exec (.manRead (whole n)) s =
        .next (completed .manRead n (slotBytes (s.man 0) ++ slotBytes (s.man 1)) s)) ∧
    (∀ i m, a.length = 3 → s.findMan (arg a 0 2) = some i → s.man i = some m → arg a 2 1 < 3 →
      exec (.manRead (whole n)) s =
        .next (completed .manRead n
          (if arg a 2 1 = 0 then manPage0 s i m else manPage (arg a 2 1 == 2) s m) s))

/-! ### Authority and door -/

/-- The authority check of the nine override commands: LOCKOUT while the lockout runs, ARGUMENT for a code
above 999,999, CODE for a wrong code, which adds 1 to the failure count; the third sets the lockout to 15,
the count to 0 and SAFE. A matching code leaves the count at 0, taken or refused. -/
def Obligations.AuthorityCheck : Prop :=
  ∀ (c : Cmd) (n : Bool) (s : State) (code : Nat), s.ready = true →
    overrideCode c s.port.args s = some code →
    (0 < s.auth.lockout → exec (cmdInstr c (whole n)) s = .next (turnedAway c n .lockout s)) ∧
    (s.auth.lockout = 0 → 999999 < code →
      exec (cmdInstr c (whole n)) s = .next (turnedAway c n .argument s)) ∧
    (s.auth.lockout = 0 → code ≤ 999999 → code ≠ s.auth.code → s.auth.failures < 2 →
      exec (cmdInstr c (whole n)) s =
        .next (turnedAway c n .code
          { s with auth := { s.auth with failures := s.auth.failures + 1 } })) ∧
    (s.auth.lockout = 0 → code ≤ 999999 → code ≠ s.auth.code → 2 ≤ s.auth.failures →
      exec (cmdInstr c (whole n)) s =
        .next (turnedAway c n .code
          (State.raise .safe { s with auth := { s.auth with failures := 0, lockout := 15 } }))) ∧
    (s.auth.lockout = 0 → code ≤ 999999 → code = s.auth.code →
      ∃ t, exec (cmdInstr c (whole n)) s = .next t ∧ t.auth.failures = 0 ∧ t.auth.lockout = 0)

/-- OVERRIDE-SET replaces the code; DOOR-OPEN runs the interval at its clamped minutes and unlocks the output;
DOOR-LOCK ends it and recomputes the output. Nothing else changes. The changed mark of the OVERRIDE-SET reply is 1
also when the new code equals the old one, which is the model's choice (log entry 31). -/
def Obligations.DoorCommands : Prop :=
  ∀ (n : Bool) (s : State) (a : List Byte), s.ready = true → s.port.args = a →
    (a.length = 6 → s.auth.lockout = 0 → arg a 0 3 = s.auth.code → s.auth.code ≤ 999999 →
      arg a 3 3 ≤ 999999 →
      exec (.overrideSet (whole n)) s =
        .next (completed .overrideSet n [1, 0]
          { s with auth := { s.auth with failures := 0, code := arg a 3 3 } })) ∧
    (a.length = 4 → s.auth.lockout = 0 → arg a 0 3 = s.auth.code → s.auth.code ≤ 999999 →
      s.ret.latch = false →
      exec (.doorOpen (whole n)) s =
        .next (completed .doorOpen n
          (let m := max 1 (min 30 (arg a 3 1))
           [byte m, boolByte (m != arg a 3 1)] ++ le 2 (m * 60) ++ [boolByte s.door.interval.isSome])
          { s.matched with
            door := { s.door with unlocked := true, interval := some (max 1 (min 30 (arg a 3 1)) * 60) } })) ∧
    (a.length = 4 → s.auth.lockout = 0 → arg a 0 3 = s.auth.code → s.auth.code ≤ 999999 →
      s.ret.latch = true →
      exec (.doorOpen (whole n)) s =
        .next (turnedAway .doorOpen n .state s.matched)) ∧
    (a = [] →
      exec (.doorLock (whole n)) s =
        .next (completed .doorLock n
          ([boolByte s.door.interval.isSome] ++ le 2 (s.door.interval.getD 0) ++
            [boolByte (!s.ret.latch && s.anyBags)])
          ({ s with door := { s.door with interval := none } }.recomputeDoor .interval)))

/-- The output after its recomputation is unlocked exactly while the latch is clear and a collection is in
BAGS or an interval runs; a lock with the door sensed open is recorded as LEFT-OPEN and sets SAFE, and
nothing else changes. -/
def Obligations.OutputRecomputed : Prop :=
  ∀ (k : LockCause) (s : State),
    ((s.recomputeDoor k).door.unlocked = true ↔
      s.ret.latch = false ∧ ((∃ i m, s.man i = some m ∧ m.state = .bags) ∨ s.door.interval ≠ none)) ∧
    (s.door.unlocked = true → s.shouldUnlock = false → s.taken.doorOpen = true →
      s.recomputeDoor k =
        State.raise .safe { s with door :=
          { unlocked := false, interval := s.door.interval, leftOpen := true,
            event := some ⟨.leftOpen k, s.stamp⟩ } }) ∧
    (¬(s.door.unlocked = true ∧ s.shouldUnlock = false ∧ s.taken.doorOpen = true) →
      s.recomputeDoor k = { s with door := { s.door with unlocked := s.shouldUnlock } })

/-! ### Money, floats and tills -/

/-- DENOM-SET, LIMITS-SET, TEMPLATE-SET and TILL-SETUP write their entry and nothing else; a referenced code
is IN-USE; a till that is not CLOSED is STATE. -/
def Obligations.SetupCommands : Prop :=
  ∀ (n : Bool) (s : State) (a : List Byte), s.ready = true → s.port.args = a →
    (∀ (c : Code) (k : DenomKind) (e : Bool), a.length = 7 → codeOf (arg a 0 1) = some c →
      denomKindOf (arg a 1 1) = some k → boolOf (arg a 6 1) = some e → k ≠ .unused →
      1 ≤ arg a 2 4 → arg a 2 4 ≤ 1000000 → faceTaken s c (arg a 2 4) = false →
      (s.referenced c = false →
        exec (.denomSet (whole n)) s =
          .next (completed .denomSet n
            ([byte c.val, byte k.value] ++ le 4 (arg a 2 4) ++ [boolByte e])
            { s with denoms := s.denoms.set c ⟨k, arg a 2 4, e⟩ })) ∧
      (s.referenced c = true →
        exec (.denomSet (whole n)) s = .next (turnedAway .denomSet n .inUse s))) ∧
    (∀ c : Code, a.length = 7 → codeOf (arg a 0 1) = some c → arg a 1 1 = 0 → arg a 6 1 ≤ 1 →
      s.referenced c = false →
      exec (.denomSet (whole n)) s =
        .next (completed .denomSet n ([byte c.val, 0] ++ le 4 0 ++ [0])
          { s with denoms := s.denoms.set c ⟨.unused, 0, false⟩ })) ∧
    (a.length = 22 →
      let floor := min 1000000 (arg a 2 4)
      let l : Limits := ⟨min 500 (arg a 0 2), floor, max floor (min 2000000000 (arg a 6 4)),
        max 1 (min 1000000 (arg a 10 4)), max 1 (min 50000000 (arg a 14 4)),
        max 1 (min 2000000000 (arg a 18 4))⟩
      ∃ m : Byte, exec (.limitsSet (whole n)) s =
        .next (completed .limitsSet n
          (le 2 l.basisPoints ++ le 4 l.floor ++ le 4 l.cap ++ le 4 l.skimUnit ++ le 4 l.ceiling ++
            le 4 l.bagLimit ++ [m]) { s with limits := l }) ∧
        (m = 0 ↔ l = ⟨arg a 0 2, arg a 2 4, arg a 6 4, arg a 10 4, arg a 14 4, arg a 18 4⟩)) ∧
    (∀ l : TemplateIx, a.length = 27 → arg a 0 1 = l.val → arg a 25 2 ≤ 50000 →
      (∀ c : Code, arg a (1 + 2 * c.val) 2 ≠ 0 →
        s.denoms[c].kind ≠ .unused ∧ s.denoms[c].eligible = true) →
      let t : Template := ⟨tab fun c => arg a (1 + 2 * c.val) 2, arg a 25 2⟩
      exec (.templateSet (whole n)) s =
        .next (completed .templateSet n
          ([byte l.val] ++ (codes.flatMap fun c => le 2 t.targets[c]) ++ le 2 t.slack ++
            le 5 (sumCodes fun c => t.targets[c] * s.denoms[c].face))
          { s with templates := s.templates.set l t })) ∧
    (∀ (t : TillIx) (on : Bool) (l : TemplateIx), a.length = 7 → tillOf (arg a 0 1) = some t →
      boolOf (arg a 1 1) = some on → arg a 2 1 = l.val → arg a 3 4 ≤ 2000000000 →
      ((s.till t).state = .closed →
        exec (.tillSetup (whole n)) s =
          .next (completed .tillSetup n
            ([byte (t.val + 1), boolByte on, byte l.val] ++ le 4 (arg a 3 4))
            (s.setTill t { s.till t with inService := on, template := l, threshold := arg a 3 4 }))) ∧
      ((s.till t).state ≠ .closed →
        exec (.tillSetup (whole n)) s = .next (turnedAway .tillSetup n .state s)))

/-- FLOAT-ISSUE takes the build of the till's template out of the fit stock into its issue list; FLOAT-CANCEL
puts the issue list back and retires the till. Nothing else changes. Each with what refuses it, in its order, and
with the checks and effects of a movement out of and into the stock. -/
def Obligations.FloatCommands : Prop :=
  (∀ (s : State) (k : Comp),
    let frozen := ∃ c : Code, k[c] ≠ ⟨0, 0, 0⟩ ∧ s.stock[c].frozen = true
    let lacks := ∃ c : Code, s.stock[c].counts.fit < k[c].fit ∨ s.stock[c].counts.unfit < k[c].unfit ∨
      s.stock[c].counts.suspect < k[c].suspect
    let passes := ∃ c : Code, k[c] ≠ ⟨0, 0, 0⟩ ∧ (999999 < s.stock[c].counts.fit + k[c].fit ∨
      999999 < s.stock[c].counts.unfit + k[c].unfit ∨ 999999 < s.stock[c].counts.suspect + k[c].suspect)
    (frozen → outRefusal s k = some .inUse ∧ inRefusal s k = some .inUse) ∧
    (¬frozen → (lacks → outRefusal s k = some .stock) ∧ (¬lacks → outRefusal s k = none) ∧
      (passes → inRefusal s k = some .limit) ∧ (¬passes → inRefusal s k = none)) ∧
    (∀ c : Code, (s.moveOut k).stock[c] = ⟨⟨s.stock[c].counts.fit - k[c].fit,
        s.stock[c].counts.unfit - k[c].unfit, s.stock[c].counts.suspect - k[c].suspect⟩, s.stock[c].frozen⟩ ∧
      (s.moveIn k).stock[c] = ⟨⟨s.stock[c].counts.fit + k[c].fit, s.stock[c].counts.unfit + k[c].unfit,
        s.stock[c].counts.suspect + k[c].suspect⟩, s.stock[c].frozen⟩) ∧
    s.moveOut k = { s with stock := (s.moveOut k).stock } ∧
    s.moveIn k = { s with stock := (s.moveIn k).stock }) ∧
  (∀ (n : Bool) (s : State) (t : TillIx), s.ready = true → s.port.args.length = 1 →
    tillOf (arg s.port.args 0 1) = some t →
    (let tpl := s.templates[(s.till t).template]
     let b := floatBuild s tpl
     let target := sumCodes fun c => tpl.targets[c] * s.denoms[c].face
     let value := sumCodes fun c => b.takes[c] * s.denoms[c].face
     let free := (s.till t).inService = true ∧ (s.till t).state = .closed
     (free → target ≠ 0 → target ≤ s.limits.ceiling → b.carry ≤ tpl.slack → value ≠ 0 →
      exec (.floatIssue (whole n)) s =
        .next (completed .floatIssue n
          ([byte (t.val + 1), byte (mark 1 (b.carry != 0) + mark 2 (frozenRead s tpl))] ++ le 4 value ++
            le 4 b.carry ++ codes.flatMap fun c => le 2 b.takes[c])
          ((s.moveOut (Comp.ofFit b.takes)).setTill t
            { s.till t with issue := b.takes, f := value, state := .issued }))) ∧
     (¬free → exec (.floatIssue (whole n)) s = .next (turnedAway .floatIssue n .state s)) ∧
     (free → target = 0 → exec (.floatIssue (whole n)) s = .next (turnedAway .floatIssue n .argument s)) ∧
     (free → target ≠ 0 → s.limits.ceiling < target →
       exec (.floatIssue (whole n)) s = .next (turnedAway .floatIssue n .limit s)) ∧
     (free → target ≠ 0 → target ≤ s.limits.ceiling → tpl.slack < b.carry ∨ value = 0 →
       exec (.floatIssue (whole n)) s = .next (turnedAway .floatIssue n .stock s))) ∧
    ((s.till t).state ≠ .issued →
      exec (.floatCancel (whole n)) s = .next (turnedAway .floatCancel n .state s)) ∧
    (∀ r, (s.till t).state = .issued → inRefusal s (Comp.ofFit (s.till t).issue) = some r →
      exec (.floatCancel (whole n)) s = .next (turnedAway .floatCancel n r s)) ∧
    ((s.till t).state = .issued → inRefusal s (Comp.ofFit (s.till t).issue) = none →
      exec (.floatCancel (whole n)) s =
        .next (completed .floatCancel n
          ([byte (t.val + 1)] ++ codes.flatMap fun c => le 2 (s.till t).issue[c])
          ((s.moveIn (Comp.ofFit (s.till t).issue)).setTill t
            { s.till t with state := .closed, issue := Vector.replicate 12 0, f := 0, s := 0, r := 0,
                            p := 0, pickups := 0, lane := none }))))

/-- The float build walks the codes with a nonzero target in descending order of face, from no takes and no carry.
Its step over one code: the value wanted is the target and the carry, the take is the most whole units of it that
the unfrozen fit stock holds, and the rest is carried on. -/
def Obligations.FloatBuildStep : Prop :=
  (∀ (s : State) (t : Template), ∃ order : List Code,
    order.Nodup ∧ (∀ c : Code, c ∈ order ↔ t.targets[c] ≠ 0) ∧
    (order.Pairwise fun c d => s.denoms[d].face ≤ s.denoms[c].face) ∧
    floatBuild s t = order.foldl (buildStep s t) ⟨Vector.replicate 12 0, 0⟩) ∧
  (∀ (s : State) (t : Template) (b : Build) (c : Code),
    let face := s.denoms[c].face
    let want := t.targets[c] * face + b.carry
    let stock := if s.stock[c].frozen then 0 else s.stock[c].counts.fit
    let b' := buildStep s t b c
    (0 < face → b'.takes[c] * face + b'.carry = want) ∧ b'.takes[c] ≤ stock ∧ b'.takes[c] ≤ 65535 ∧
      (0 < face → b'.takes[c] = 65535 ∨ b'.takes[c] = stock ∨ b'.carry < face) ∧
      (∀ d : Code, d ≠ c → b'.takes[d] = b.takes[d]))

/-- TILL-OPEN, TOPUP-ISSUE and TILL-CLOSE, with the till states they are refused in; the refusals of TOPUP-ISSUE by
its argument bytes, its stock movement and its limits are not stated here. A TILL-CLOSE whose COLLECT finds the queue
full is taken all the same: the entry is lost, the overflow flag and CALL are set. That the queued mark of the
reply is clear when the COLLECT raise merges into an entry of the till is the model's choice: the spec does not say
whether a merged call counts as added (log entry 29). -/
def Obligations.TradingCommands : Prop :=
  ∀ (n : Bool) (s : State) (a : List Byte) (t : TillIx), s.ready = true → s.port.args = a →
    tillOf (arg a 0 1) = some t →
    (a.length = 1 → (s.till t).state = .issued →
      exec (.tillOpen (whole n)) s =
        .next (completed .tillOpen n ([byte (t.val + 1), 2] ++ le 4 (s.till t).f)
          (s.setTill t { s.till t with state := .trading }))) ∧
    (a.length = 1 → (s.till t).state ≠ .issued →
      exec (.tillOpen (whole n)) s = .next (turnedAway .tillOpen n .state s)) ∧
    (∀ l, 1 ≤ arg a 1 1 → arg a 1 1 ≤ 12 → a.length = 2 + 3 * arg a 1 1 →
      readLines s.denoms (linePairs (a.drop 2)) = some l →
      (∀ x ∈ l, s.denoms[x.code].eligible = true) → (∃ x ∈ l, x.count ≠ 0) →
      ((s.till t).state ≠ .trading →
        exec (.topupIssue (whole n)) s = .next (turnedAway .topupIssue n .state s)) ∧
      ((s.till t).state = .trading →
      let v := lineCounts l
      let value := sumCodes fun c => v[c] * s.denoms[c].face
      outRefusal s (Comp.ofFit v) = none →
      (∀ c : Code, (s.till t).issue[c] + v[c] ≤ 65535) → (s.till t).f + value ≤ s.limits.ceiling →
      exec (.topupIssue (whole n)) s =
        .next (completed .topupIssue n
          ([byte (t.val + 1)] ++ le 4 value ++ le 4 ((s.till t).f + value) ++
            leInt 4 (saturate (((s.till t).f + value : Nat) + (s.till t).s - (s.till t).r - (s.till t).p)) ++
            [boolByte (s.hasCall t .topup)])
          { (s.moveOut (Comp.ofFit v)).setTill t
              { s.till t with issue := tab fun c => (s.till t).issue[c] + v[c]
                              f := (s.till t).f + value } with
            calls := s.calls.filter fun e => !(decide (e.till = t) && decide (e.kind = .topup)) }))) ∧
    (a.length = 1 → (s.till t).state = .trading →
      let rest := s.calls.filter fun e =>
        !(decide (e.till = t) && (decide (e.kind = .skim) || decide (e.kind = .topup)))
      let closes (queued : Nat) (u : State) : Prop :=
        exec (.tillClose (whole n)) s =
          .next (completed .tillClose n
            ([byte (t.val + 1)] ++
              leInt 4 (saturate (((s.till t).f : Int) + (s.till t).s - (s.till t).r - (s.till t).p)) ++
              [byte (mark 1 (s.hasCall t .skim) + mark 2 (s.hasCall t .topup) + queued)]) u)
      let closing := { s.setTill t { s.till t with state := .closing } with calls := rest }
      (s.hasCall t .collect = false → rest.length < 32 →
        closes 4 (State.raise .call { closing with calls := rest ++ [⟨t, .collect, none, s.stamp⟩] })) ∧
      (s.hasCall t .collect = false → 32 ≤ rest.length →
        closes 0 (State.raise .call { closing with callOverflow := true })) ∧
      (s.hasCall t .collect = true → closes 0 closing)) ∧
    (a.length = 1 → (s.till t).state ≠ .trading →
      exec (.tillClose (whole n)) s = .next (turnedAway .tillClose n .state s))

/-- The reconciliation: E, V, Tol, the class and NEG-EXPECT from the till's fields, the counted value and the
limits; the other fields of the result stay. -/
def Obligations.ReconciliationArithmetic : Prop :=
  ∀ (r : LastResult) (l : Limits) (t : Till),
    let exact : Int := (t.f : Int) + t.s - t.r - t.p
    let e : Int := max (-2000000000) (min 2000000000 exact)
    let v : Int := max (-2000000000) (min 2000000000 ((r.c : Int) - e))
    let base : Nat := if 0 ≤ e then e.toNat else 0
    let raw := (base * l.basisPoints + 5000) / 10000
    let tol := min l.cap (max l.floor raw)
    let q := r.judge l t
    q.e = e ∧ q.v = v ∧ q.tol = tol ∧ (q.negExpect = true ↔ exact < 0) ∧
      (q.cls = .balanced ↔ -(tol : Int) ≤ v ∧ v ≤ tol) ∧ (q.cls = .over ↔ (tol : Int) < v) ∧
      (q.cls = .short ↔ v < -(tol : Int)) ∧
      q = { r with e := q.e, v := q.v, tol := q.tol, cls := q.cls, negExpect := q.negExpect } ∧
      (l.floor ≤ l.cap → l.floor ≤ q.tol ∧ q.tol ≤ l.cap)

/-- POS-CASH adds to S and R. On a COUNTED till the reconciliation is computed again, and a till that balances
retires; in every other state that takes it only S and R change. -/
def Obligations.PosCashPosts : Prop :=
  ∀ (n : Bool) (s : State) (a : List Byte) (t : TillIx), s.ready = true → s.port.args = a →
    a.length = 9 → tillOf (arg a 0 1) = some t → arg a 1 4 ≤ 2000000000 → arg a 5 4 ≤ 2000000000 →
    ((s.till t).state = .closed ∨ (s.till t).state = .issued →
      exec (.posCash (whole n)) s = .next (turnedAway .posCash n .state s)) ∧
    ((s.till t).state ≠ .closed → (s.till t).state ≠ .issued →
      2000000000 < (s.till t).s + arg a 1 4 ∨ 2000000000 < (s.till t).r + arg a 5 4 →
      exec (.posCash (whole n)) s = .next (turnedAway .posCash n .limit s)) ∧
    ((s.till t).s + arg a 1 4 ≤ 2000000000 → (s.till t).r + arg a 5 4 ≤ 2000000000 →
      let t1 := { s.till t with s := (s.till t).s + arg a 1 4, r := (s.till t).r + arg a 5 4 }
      ((s.till t).state = .trading ∨ (s.till t).state = .closing ∨ (s.till t).state = .inCount →
        exec (.posCash (whole n)) s =
          .next (completed .posCash n
            ([byte (t.val + 1), byte t1.state.value] ++ le 4 t1.s ++ le 4 t1.r ++ leInt 4 t1.drawer ++ [0] ++
              List.replicate 14 0) (s.setTill t t1))) ∧
      (∀ r, (s.till t).state = .counted → (s.till t).result = some r →
        let q := r.judge s.limits t1
        let t2 := if q.cls = .balanced then { t1 with result := some q }.retire
          else { t1 with result := some q }
        exec (.posCash (whole n)) s =
          .next (completed .posCash n
            ([byte (t.val + 1), byte t2.state.value] ++ le 4 t1.s ++ le 4 t1.r ++ leInt 4 t1.drawer ++ [1] ++
              leInt 4 q.e ++ leInt 4 q.v ++ le 4 q.tol ++
              [byte q.cls.value, byte (resultFlags q.negExpect q.v)]) (s.setTill t t2))))

/-- VARIANCE-ACCEPT retires a COUNTED till with its result kept; RECOUNT takes the counted composition out of
the stock, posts F − C to B and returns the till to CLOSING. -/
def Obligations.VarianceDecisions : Prop :=
  ∀ (n : Bool) (s : State) (a : List Byte) (t : TillIx) (r : LastResult), s.ready = true →
    s.port.args = a → a.length = 4 → tillOf (arg a 0 1) = some t → s.auth.lockout = 0 →
    arg a 1 3 = s.auth.code → s.auth.code ≤ 999999 →
    ((s.till t).state ≠ .counted →
      exec (.varianceAccept (whole n)) s =
          .next (turnedAway .varianceAccept n .state s.matched) ∧
        exec (.recount (whole n)) s = .next (turnedAway .recount n .state s.matched)) ∧
    ((s.till t).state = .counted → (s.till t).result = some r →
      exec (.varianceAccept (whole n)) s =
        .next (completed .varianceAccept n ([byte (t.val + 1), byte r.cls.value] ++ leInt 4 r.v)
          (s.matched.setTill t
            { s.till t with state := .closed, issue := Vector.replicate 12 0, f := 0, s := 0, r := 0,
                            p := 0, pickups := 0, lane := none })) ∧
      (outRefusal s r.comp = none → (s.balance : Int) + (s.till t).f - r.c ≤ 2000000000 →
        0 ≤ (s.balance : Int) + (s.till t).f - r.c →
        exec (.recount (whole n)) s =
          .next (completed .recount n
            ([byte (t.val + 1)] ++
              (codes.flatMap fun c => le 2 r.comp[c].fit ++ le 2 r.comp[c].unfit ++ le 2 r.comp[c].suspect) ++
              le 4 r.c ++ le 4 (s.till t).f ++ leInt 4 ((s.till t).f - r.c))
            { ((s.matched.moveOut r.comp).setTill t
                { s.till t with state := .closing, lane := none }) with
              balance := ((s.balance : Int) + (s.till t).f - r.c).toNat })))

/-- FLOAT-ISSUE and FLOAT-CANCEL keep the law of the office balance. Every step keeps it together with the laws of
the records that it rests on: the figures of tills, results and bags, the tills bound to sessions, and the places
of the bags with the manifests that list them. -/
def Obligations.FloatsKeepBalanceLaw : Prop :=
  (∀ (c : Cmd) (n : Bool) (s t : State), c = .floatIssue ∨ c = .floatCancel → s.ready = true →
    s.balanceLaw →
    (∀ u : TillIx, (s.till u).state = .issued →
      (s.till u).f = sumCodes fun d => (s.till u).issue[d] * s.denoms[d].face) →
    exec (cmdInstr c (whole n)) s = .next t → t.balanceLaw) ∧
  (∀ s t : State, s.officeLaw → step s = .next t → t.officeLaw)

/-! ### Calls and rounds -/

/-- CALL-POST merges, adds at the tail with CALL set, or is refused with FULL, which sets the overflow flag and
CALL. CALL-TAKE removes the first entry of its kind, CALL-CANCEL the entry of its till and kind; CALL-READ lists
the queue and clears the overflow flag. Positions count from 0
(log entry 17). -/
def Obligations.CallCommands : Prop :=
  (∀ (n : Bool) (s : State) (a : List Byte) (t : TillIx) (k : CallKind), s.ready = true →
      s.port.args = a → a.length = 2 → tillOf (arg a 0 1) = some t →
      (k = .topup ∧ arg a 1 1 = 2 ∧ (s.till t).state = .trading ∨
        k = .collect ∧ arg a 1 1 = 3 ∧ (s.till t).state = .closing) →
      (∀ i, s.callPos t k = some i →
        exec (.callPost (whole n)) s =
          .next (completed .callPost n [byte (t.val + 1), byte k.value, 1, byte i, byte s.calls.length] s)) ∧
      (s.callPos t k = none → s.calls.length < 32 →
        exec (.callPost (whole n)) s =
          .next (completed .callPost n
            [byte (t.val + 1), byte k.value, 0, byte s.calls.length, byte (s.calls.length + 1)]
            (State.raise .call { s with calls := s.calls ++ [⟨t, k, none, s.stamp⟩] }))) ∧
      (s.callPos t k = none → 32 ≤ s.calls.length →
        exec (.callPost (whole n)) s =
          .next (turnedAway .callPost n .full (State.raise .call { s with callOverflow := true })))) ∧
  (∀ (n : Bool) (s : State) (a : List Byte), s.ready = true → s.port.args = a →
      (a.length = 1 → arg a 0 1 ≤ 3 →
        (∀ i e, s.calls.findIdx? (fun e => arg a 0 1 == 0 || e.kind.value == arg a 0 1) = some i →
          s.calls[i]? = some e →
          exec (.callTake (whole n)) s =
            .next (completed .callTake n ([1] ++ e.bytes i) { s with calls := s.calls.eraseIdx i })) ∧
        (s.calls.findIdx? (fun e => arg a 0 1 == 0 || e.kind.value == arg a 0 1) = none →
          exec (.callTake (whole n)) s = .next (completed .callTake n [0] s))) ∧
      (∀ t k, a.length = 2 → tillOf (arg a 0 1) = some t → callKindOf (arg a 1 1) = some k →
        (∀ i, s.callPos t k = some i →
          exec (.callCancel (whole n)) s =
            .next (completed .callCancel n
              [byte (t.val + 1), byte k.value, byte i, byte (s.calls.length - 1)]
              { s with calls := s.calls.eraseIdx i })) ∧
        (s.callPos t k = none →
          exec (.callCancel (whole n)) s = .next (turnedAway .callCancel n .unknown s))) ∧
      (a.length = 1 → arg a 0 1 ≤ 31 →
        exec (.callRead (whole n)) s =
          .next (completed .callRead n
            (let l := (s.calls.drop (arg a 0 1)).take 16
             [byte s.calls.length, boolByte s.callOverflow, byte (arg a 0 1), byte l.length] ++
               entriesFrom (arg a 0 1) l) { s with callOverflow := false })))

/-- ROUND-SET, ROUND-TIMER and ROUND-NOW. A ROUND-TIMER taken while the RETAINED latch is set stores the countdown (log entry 21). -/
def Obligations.RoundCommands : Prop :=
  ∀ (n : Bool) (s : State) (a : List Byte), s.ready = true → s.port.args = a →
    (∀ l, 1 ≤ a.length → arg a 0 1 ≤ 96 → a.length = 1 + arg a 0 1 → readTills (a.drop 1) = some l →
      (s.round.run = none →
        exec (.roundSet (whole n)) s =
          .next (completed .roundSet n [byte l.length]
            { s with round := { s.round with list := l, resume := 0 } })) ∧
      (s.round.run ≠ none →
        exec (.roundSet (whole n)) s = .next (turnedAway .roundSet n .engaged s))) ∧
    (∀ on trig, a.length = 3 → boolOf (arg a 0 1) = some on → boolOf (arg a 2 1) = some trig →
      let m := max 5 (min 240 (arg a 1 1))
      exec (.roundTimer (whole n)) s =
        .next (completed .roundTimer n [boolByte on, byte m, boolByte trig, boolByte (m != arg a 1 1)]
          { s with round := { s.round with timerOn := on, interval := m, trigOn := trig,
                                           countdown := if on then some m else none } })) ∧
    (a = [] →
      (s.round.run ≠ none →
        exec (.roundNow (whole n)) s = .next (turnedAway .roundNow n .engaged s)) ∧
      (s.round.run = none → s.round.resume < s.round.list.length →
        exec (.roundNow (whole n)) s =
          .next (completed .roundNow n [byte s.round.resume, byte s.round.list.length]
            { s with round := { s.round with run := some ⟨s.round.resume, s.round.resume, 0, 0⟩ } })) ∧
      (s.round.run = none → s.round.list.length ≤ s.round.resume →
        exec (.roundNow (whole n)) s =
          .next (completed .roundNow n [byte s.round.resume, byte s.round.list.length]
            (State.raise .round { s with round := { s.round with
              resume := 0
              summary := some ⟨.complete, s.round.resume, 0, 0, 0, s.stamp⟩ } }))))

/-- The evaluation of a till by a running round: skipped, below its threshold or with nothing due it raises
nothing; else it merges, adds, or ends the round with QUEUE-FULL. The evaluation of the last entry ends the
round COMPLETE. -/
def Obligations.RoundEvaluates : Prop :=
  ∀ (s : State) (r : RoundRun) (t : TillIx), s.live = true → s.round.run = some r →
    s.round.list[r.current]? = some t →
    let till := s.till t
    let d := till.drawer
    let amount := ((d - till.f).toNat / s.limits.skimUnit) * s.limits.skimUnit
    let raises := till.inService = true ∧ till.state = .trading ∧ till.lane = none ∧ till.threshold ≠ 0 ∧
      (till.threshold : Int) ≤ d ∧ amount ≠ 0
    let moved (r' : RoundRun) (u : State) : State :=
      if r.current + 1 < s.round.list.length then
        { u with round := { s.round with run := some { r' with current := r.current + 1 } } }
      else State.raise .round { u with round := { s.round with
        run := none, resume := 0,
        summary := some ⟨.complete, r.start, r'.raised, r'.merged, 0, s.stamp⟩ } }
    (¬raises → exec .roundEvaluation s = .next (moved r s)) ∧
    (raises → s.hasCall t .skim = true →
      exec .roundEvaluation s =
        .next (moved { r with merged := r.merged + 1 }
          { s with calls := s.calls.map fun e =>
              if e.till = t ∧ e.kind = .skim then { e with amount := some amount } else e })) ∧
    (raises → s.hasCall t .skim = false → s.calls.length < 32 →
      exec .roundEvaluation s =
        .next (moved { r with raised := r.raised + 1 }
          (State.raise .call { s with calls := s.calls ++ [⟨t, .skim, some amount, s.stamp⟩] }))) ∧
    (raises → s.hasCall t .skim = false → 32 ≤ s.calls.length →
      exec .roundEvaluation s =
        .next (State.raise .round { s with round := { s.round with
          run := none, resume := r.current,
          summary := some ⟨.queueFull, r.start, r.raised, r.merged, r.current, s.stamp⟩ } }))


/-! ### Lanes and sessions -/

/-- LANE-PROFILE, LANE-CLEAR and LANE-RESET. LANE-PROFILE is ENGAGED on a lane with a session. LANE-RESET of a
lane without a session; with one, its bound record is released as COUNT-ABORT does. The transmitter after a LANE-RESET
is as log entry 22 reads it. -/
def Obligations.LaneLinkCommands : Prop :=
  ∀ (n : Bool) (s : State) (a : List Byte) (i : LaneIx), s.ready = true → s.port.args = a →
    laneOf (arg a 0 1) = some i →
    let l := s.lane i
    (∀ m sp, a.length = 4 → maskOf (arg a 1 2) = some m → asFin 4 (arg a 3 1) = some sp →
      (∀ c : Code, has m c = true → s.denoms[c].kind = .note) → s.ret.latch = false →
      (l.session = none →
        exec (.laneProfile (whole n)) s =
          .next (completed .laneProfile n ([byte i.val] ++ le 2 m.toNat ++ [byte sp.val])
            (s.setLane i { l with
              state := .idle, speed := sp, mask := m, identity := none, expect := .absent, errors := 0,
              jam := none, discarded := none, tx := l.tx.issue (.profile m sp) }))) ∧
      (l.session ≠ none →
        exec (.laneProfile (whole n)) s = .next (turnedAway .laneProfile n .engaged s))) ∧
    (a.length = 1 →
      (l.state ≠ .unprofiled → l.state ≠ .fault →
        exec (.laneClear (whole n)) s =
          .next (completed .laneClear n [byte i.val, l.errors, byte l.state.value]
            (s.setLane i { l with errors := 0 }))) ∧
      (l.state = .fault →
        exec (.laneClear (whole n)) s =
          .next (completed .laneClear n [byte i.val, l.errors, byte LaneState.held.value]
            (s.setLane i { l with errors := 0, state := .held }))) ∧
      (l.state = .unprofiled →
        exec (.laneClear (whole n)) s = .next (turnedAway .laneClear n .profile s)) ∧
      (let feeds := l.state = .opened ∨ l.state = .holding ∨ l.state = .fault
       let u := { Lane.unprofiled with tx := (if feeds then l.tx.issue .hold else l.tx).reset }
       (l.session = none →
         exec (.laneReset (whole n)) s =
           .next (completed .laneReset n [byte i.val, byte l.state.value, 0] (s.setLane i u))) ∧
       (∀ x, l.session = some x →
         exec (.laneReset (whole n)) s =
           .next (completed .laneReset n [byte i.val, byte l.state.value, byte x.purpose.value]
             ((s.release x.purpose).setLane i u)))))

/-- COUNT-OPEN binds the session of each purpose: a close count takes the till to IN-COUNT and its COLLECT entry
off the queue, a pickup takes the till's lane, a delivery the manifest's lane, an audit freezes its codes. With
what refuses it, in the order of R72 and, for each purpose, of R73. -/
def Obligations.CountOpenBinds : Prop :=
  (∀ (n : Bool) (s : State) (a : List Byte), s.ready = true → s.port.args = a →
    let refused (r : PortCode) : Prop := exec (.countOpen (whole n)) s = .next (turnedAway .countOpen n r s)
    let names (c : Code) : Bool := (arg a 2 2).testBit c.val
    let sound := (arg a 1 1 = 1 ∨ arg a 1 1 = 2) ∧ a.length = 3 ∨ arg a 1 1 = 3 ∧ a.length = 4 ∨
      arg a 1 1 = 4 ∧ a.length = 4 ∧ 0 < arg a 2 2 ∧ arg a 2 2 < 4096 ∧
        ∀ c : Code, names c = true → s.denoms[c].kind ≠ .unused
    (¬sound ∨ laneOf (arg a 0 1) = none → refused .argument) ∧
    (∀ i, sound → laneOf (arg a 0 1) = some i →
      let l := s.lane i
      let enabled := arg a 1 1 = 4 → ∀ c : Code, names c = true → s.denoms[c].kind = .note → has l.mask c = true
      (s.ret.latch = true → refused .state) ∧
      (s.ret.latch = false →
        (l.state = .unprofiled ∨ l.identity = none ∨ ¬enabled → refused .profile) ∧
        (l.state ≠ .unprofiled → l.identity ≠ none → enabled →
          (l.session ≠ none → refused .engaged) ∧
          (l.session = none → l.errors ≠ 0 → refused .lane) ∧
          (l.session = none → l.errors = 0 →
            (arg a 1 1 = 1 ∨ arg a 1 1 = 2 →
              (tillOf (arg a 2 1) = none → refused .unknown) ∧
              (∀ t, tillOf (arg a 2 1) = some t →
                let wanted : TillState := if arg a 1 1 = 1 then .closing else .trading
                ((s.till t).state ≠ wanted → refused .state) ∧
                ((s.till t).state = wanted → (s.till t).lane ≠ none → refused .engaged))) ∧
            (arg a 1 1 = 3 →
              (s.findMan (arg a 2 2) = none → refused .unknown) ∧
              (∀ j m, s.findMan (arg a 2 2) = some j → s.man j = some m →
                ((∃ c, m.body = .collection c) ∨ m.state ≠ .receiving → refused .state) ∧
                (∀ d, m.body = .delivery d → m.state = .receiving → d.lane ≠ none → refused .engaged))) ∧
            (arg a 1 1 = 4 →
              ((∃ q, s.holds (.audit q)) → refused .engaged) ∧
              ((∀ q, ¬s.holds (.audit q)) → s.audit ≠ none → refused .state))))))) ∧
  (∀ (n : Bool) (s : State) (a : List Byte) (i : LaneIx), s.ready = true → s.port.args = a →
    laneOf (arg a 0 1) = some i → s.ret.latch = false →
    let l := s.lane i
    l.state ≠ .unprofiled → l.identity ≠ none → l.session = none → l.errors = 0 →
    let opened (p : Purpose) (acc : CodeSet) (u : State) : State :=
      u.setLane i { l with
        state := .opened, tx := l.tx.issue .start
        session := some ⟨p, acc, Comp.zero, [], Vector.replicate 12 0⟩ }
    (∀ t, a.length = 3 → tillOf (arg a 2 1) = some t → (s.till t).lane = none →
      (arg a 1 1 = 1 → (s.till t).state = .closing →
        exec (.countOpen (whole n)) s =
          .next (completed .countOpen n ([byte i.val, 1] ++ le 2 (t.val + 1) ++ l.expect.bytes)
            (opened (.tillClose t) l.mask
              { s.setTill t { s.till t with lane := some i, state := .inCount } with
                calls := s.calls.filter fun e => !(decide (e.till = t) && decide (e.kind = .collect)) }))) ∧
      (arg a 1 1 = 2 → (s.till t).state = .trading →
        exec (.countOpen (whole n)) s =
          .next (completed .countOpen n ([byte i.val, 2] ++ le 2 (t.val + 1) ++ l.expect.bytes)
            (opened (.pickup t) l.mask (s.setTill t { s.till t with lane := some i }))))) ∧
    (∀ j m d, a.length = 4 → arg a 1 1 = 3 → s.findMan (arg a 2 2) = some j → s.man j = some m →
      m.body = .delivery d → m.state = .receiving → d.lane = none →
      exec (.countOpen (whole n)) s =
        .next (completed .countOpen n ([byte i.val, 3] ++ le 2 (arg a 2 2) ++ l.expect.bytes)
          (opened (.delivery (arg a 2 2)) l.mask
            (s.setMan j (some { m with body := .delivery { d with lane := some i } }))))) ∧
    (∀ m, a.length = 4 → arg a 1 1 = 4 → maskOf (arg a 2 2) = some m → m ≠ 0 →
      (∀ c : Code, has m c = true → s.denoms[c].kind ≠ .unused) →
      (∀ c : Code, has m c = true → s.denoms[c].kind = .note → has l.mask c = true) →
      (∀ j x q, (s.lane j).session = some x → x.purpose ≠ .audit q) → s.audit = none →
      ∃ acc : CodeSet, (∀ c : Code, has acc c = (has m c && (s.denoms[c].kind == .note))) ∧
        exec (.countOpen (whole n)) s =
          .next (completed .countOpen n ([byte i.val, 4] ++ le 2 m.toNat ++ l.expect.bytes)
            (opened (.audit m) acc
              { s with stock := tab fun c =>
                  if has m c then { s.stock[c] with frozen := true } else s.stock[c] }))))

/-- COUNT-HOLD, COUNT-RESUME, COUNT-VOID and COUNT-ROLLS, with the lane states they are refused in. COUNT-ABORT: the
session ends, HOLD is issued from OPEN, and the bound record is released: a till in its close count returns to
CLOSING, a pickup's till and a delivery's manifest lose their lane, audited codes lose their frozen marks. All five
are refused with STATE in IDLE and with PROFILE in UNPROFILED. -/
def Obligations.SessionCommands : Prop :=
  (∀ (n : Bool) (s : State) (a : List Byte) (i : LaneIx) (x : Session), s.ready = true →
      s.port.args = a → laneOf (arg a 0 1) = some i → (s.lane i).session = some x →
      let l := s.lane i
      (a.length = 1 →
        (l.state = .opened →
          exec (.countHold (whole n)) s =
            .next (completed .countHold n [byte i.val, byte x.stack.length]
              (s.setLane i { l with state := .holding, hold := some 5, tx := l.tx.issue .hold }))) ∧
        (l.state = .holding ∨ l.state = .held ∨ l.state = .ended →
          exec (.countHold (whole n)) s = .next (turnedAway .countHold n .state s)) ∧
        (l.state = .fault →
          exec (.countHold (whole n)) s = .next (turnedAway .countHold n .lane s) ∧
            exec (.countResume (whole n)) s = .next (turnedAway .countResume n .lane s)) ∧
        (l.state = .held ∨ l.state = .ended →
          exec (.countResume (whole n)) s =
            .next (completed .countResume n ([byte i.val] ++ l.expect.bytes)
              (s.setLane i { l with state := .opened, tx := l.tx.issue .start }))) ∧
        (∀ b r, l.state = .held ∨ l.state = .ended ∨ l.state = .fault → x.stack = b :: r →
          exec (.countVoid (whole n)) s =
            .next (completed .countVoid n
              ([byte i.val, b.seq, byte b.code.val] ++ le 2 b.counts.fit ++ le 2 b.counts.unfit ++
                le 2 b.counts.suspect ++ [byte r.length])
              (s.setLane i { l with session := some { x with stack := r } }))) ∧
        (l.state = .opened ∨ l.state = .holding →
          exec (.countResume (whole n)) s = .next (turnedAway .countResume n .state s)) ∧
        (l.state = .opened ∨ l.state = .holding ∨
            (l.state = .held ∨ l.state = .ended ∨ l.state = .fault) ∧ x.stack = [] →
          exec (.countVoid (whole n)) s = .next (turnedAway .countVoid n .state s))) ∧
      (∀ c : Code, a.length = 4 → l.state ≠ .unprofiled → arg a 1 1 = c.val → s.denoms[c].kind = .roll →
        (∀ m, x.purpose = .audit m → has m c = true) →
        exec (.countRolls (whole n)) s =
          .next (completed .countRolls n ([byte i.val, byte c.val] ++ le 2 x.rolls[c] ++ le 2 (arg a 2 2))
            (s.setLane i { l with session := some { x with rolls := x.rolls.set c (arg a 2 2) } })))) ∧
  (∀ (n : Bool) (s : State) (a : List Byte) (i : LaneIx) (x : Session), s.ready = true →
      s.port.args = a → a.length = 1 → laneOf (arg a 0 1) = some i → (s.lane i).session = some x →
      (s.lane i).state ≠ .unprofiled →
      let l := s.lane i
      let aborts (u : State) : Prop :=
        exec (.countAbort (whole n)) s =
          .next (completed .countAbort n
            ([byte i.val, byte x.purpose.value] ++ le 2 x.purpose.target ++ [byte x.stack.length])
            (u.setLane i { l with
              state := .idle, session := none, hold := none
              tx := if l.state = .opened then l.tx.issue .hold else l.tx }))
      (∀ t, x.purpose = .tillClose t →
        aborts (s.setTill t { s.till t with lane := none, state := .closing })) ∧
      (∀ t, x.purpose = .pickup t → aborts (s.setTill t { s.till t with lane := none })) ∧
      (∀ k j m d, x.purpose = .delivery k → s.findMan k = some j → s.man j = some m → m.body = .delivery d →
        aborts (s.setMan j (some { m with body := .delivery { d with lane := none } }))) ∧
      (∀ m, x.purpose = .audit m →
        aborts { s with
          stock := tab fun c => if has m c then { s.stock[c] with frozen := false } else s.stock[c] })) ∧
  (∀ (n : Bool) (s : State) (a : List Byte) (i : LaneIx), s.ready = true → s.port.args = a →
      laneOf (arg a 0 1) = some i →
      let refused (c : Cmd) (r : PortCode) : Prop := exec (cmdInstr c (whole n)) s = .next (turnedAway c n r s)
      ((s.lane i).state = .idle → (s.lane i).session = none →
        (a.length = 1 → refused .countHold .state ∧ refused .countResume .state ∧ refused .countVoid .state ∧
          refused .countAbort .state) ∧
        (∀ c : Code, a.length = 4 → arg a 1 1 = c.val → s.denoms[c].kind = .roll →
          refused .countRolls .state)) ∧
      ((s.lane i).state = .unprofiled →
        (a.length = 1 → refused .countHold .profile ∧ refused .countResume .profile ∧
          refused .countVoid .profile ∧ refused .countAbort .profile) ∧
        (a.length = 4 → refused .countRolls .profile)))

/-- COUNT-COMMIT of a close count and of a pickup: the stock takes the counted composition, B the posting; the
till is judged, retired or COUNTED, or adds the pickup; the lane returns to IDLE. With the lane states in which
COUNT-COMMIT is refused, and what refuses these two commits. -/
def Obligations.CommitOfTills : Prop :=
  (∀ (n : Bool) (s : State) (a : List Byte) (i : LaneIx), s.ready = true → s.port.args = a → a.length = 1 →
    laneOf (arg a 0 1) = some i →
    let refused (r : PortCode) : Prop :=
      exec (.countCommit (whole n)) s = .next (turnedAway .countCommit n r s)
    ((s.lane i).state = .unprofiled → refused .profile) ∧ ((s.lane i).state = .fault → refused .lane) ∧
    ((s.lane i).state ∈ [LaneState.idle, .opened, .holding] → refused .state) ∧
    (∀ x t, (s.lane i).state = .held ∨ (s.lane i).state = .ended → (s.lane i).session = some x →
      x.purpose = .tillClose t ∨ x.purpose = .pickup t →
      let k := x.comp
      let value := sumCodes fun c => (k[c].fit + k[c].unfit) * s.denoms[c].face
      (∀ r, inRefusal s k = some r → refused r) ∧
      (inRefusal s k = none →
        (x.purpose = .tillClose t →
          2000000000 < value ∨ (s.balance : Int) + value - (s.till t).f < 0 ∨
            2000000000 < (s.balance : Int) + value - (s.till t).f → refused .limit) ∧
        (x.purpose = .pickup t →
          2000000000 < (s.till t).p + value ∨ 65535 ≤ (s.till t).pickups ∨ 2000000000 < s.balance + value →
            refused .limit)))) ∧
  (∀ (n : Bool) (s : State) (a : List Byte) (i : LaneIx) (x : Session) (t : TillIx), s.ready = true →
    s.port.args = a → a.length = 1 → laneOf (arg a 0 1) = some i → (s.lane i).session = some x →
    (s.lane i).state = .held ∨ (s.lane i).state = .ended →
    let k := x.comp
    let value := sumCodes fun c => (k[c].fit + k[c].unfit) * s.denoms[c].face
    let suspect := min 2000000000 (sumCodes fun c => k[c].suspect * s.denoms[c].face)
    let units := sumCodes fun c => k[c].fit + k[c].unfit + k[c].suspect
    let head (p : Byte) := [byte i.val, p] ++ le 2 (t.val + 1) ++ le 4 value ++ le 4 suspect ++ le 3 units
    let idle (u : State) : State := u.setLane i { s.lane i with state := .idle, session := none }
    inRefusal s k = none → value ≤ 2000000000 →
    (x.purpose = .tillClose t →
      let b : Int := (s.balance : Int) + value - (s.till t).f
      let q := LastResult.judge ⟨value, 0, 0, 0, .balanced, false, suspect, k, s.stamp⟩ s.limits (s.till t)
      let till := if q.cls = .balanced then { s.till t with result := some q }.retire
        else { s.till t with result := some q, state := .counted, lane := none }
      0 ≤ b → b ≤ 2000000000 →
      exec (.countCommit (whole n)) s =
        .next (completed .countCommit n
          (head 1 ++ [byte (t.val + 1), byte till.state.value] ++ leInt 4 q.e ++ leInt 4 q.v ++ le 4 q.tol ++
            [byte q.cls.value, byte (resultFlags q.negExpect q.v)])
          (idle { (s.moveIn k).setTill t till with balance := b.toNat }))) ∧
    (x.purpose = .pickup t → s.balance + value ≤ 2000000000 → (s.till t).p + value ≤ 2000000000 →
      (s.till t).pickups < 65535 →
      let till := { s.till t with
        p := (s.till t).p + value, pickups := (s.till t).pickups + 1, lane := none }
      let amount := ((till.drawer - till.f).toNat / s.limits.skimUnit) * s.limits.skimUnit
      let due := till.threshold ≠ 0 ∧ (till.threshold : Int) ≤ till.drawer ∧ amount ≠ 0
      let skim (e : CallEntry) : Bool := decide (e.till = t) && decide (e.kind = .skim)
      let reply (o : Byte) (am : Nat) := head 2 ++ [byte (t.val + 1), byte till.state.value] ++
        le 4 till.p ++ le 2 till.pickups ++ leInt 4 till.drawer ++ o :: le 4 am
      let done (calls : List CallEntry) :=
        idle { (s.moveIn k).setTill t till with balance := s.balance + value, calls := calls }
      (s.hasCall t .skim = false →
        exec (.countCommit (whole n)) s = .next (completed .countCommit n (reply 0 0) (done s.calls))) ∧
      (s.hasCall t .skim = true → ¬due →
        exec (.countCommit (whole n)) s =
          .next (completed .countCommit n (reply 1 0) (done (s.calls.filter fun e => !skim e)))) ∧
      (s.hasCall t .skim = true → due →
        exec (.countCommit (whole n)) s =
          .next (completed .countCommit n (reply 2 amount)
            (done (s.calls.map fun e => if skim e then { e with amount := some amount } else e))))))

/-- COUNT-COMMIT of a delivery and of an audit: the manifest is COUNTED with its variance lines and total, the
stock and B take the delivery; the audit result is written, its codes unfrozen, stock counts and B kept. A delivery
is refused for its stock movement and with LIMIT; an audit commit in these states is never refused. The counted
value in the reply of an audit above 2,000,000,000 is left open (log entry 18). -/
def Obligations.CommitOfDeliveryAndAudit : Prop :=
  ∀ (n : Bool) (s : State) (a : List Byte) (i : LaneIx) (x : Session), s.ready = true →
    s.port.args = a → a.length = 1 → laneOf (arg a 0 1) = some i → (s.lane i).session = some x →
    (s.lane i).state = .held ∨ (s.lane i).state = .ended →
    let k := x.comp
    let value := sumCodes fun c => (k[c].fit + k[c].unfit) * s.denoms[c].face
    let suspect := min 2000000000 (sumCodes fun c => k[c].suspect * s.denoms[c].face)
    let units := sumCodes fun c => k[c].fit + k[c].unfit + k[c].suspect
    let idle (u : State) : State := u.setLane i { s.lane i with state := .idle, session := none }
    (∀ j m d, x.purpose = .delivery m.number → s.findMan m.number = some j → s.man j = some m →
      m.body = .delivery d → m.state = .receiving →
      (∀ r, inRefusal s k = some r →
        exec (.countCommit (whole n)) s = .next (turnedAway .countCommit n r s)) ∧
      (inRefusal s k = none → 2000000000 < value ∨ 2000000000 < s.balance + value →
        exec (.countCommit (whole n)) s = .next (turnedAway .countCommit n .limit s))) ∧
    (∀ j m d, x.purpose = .delivery m.number → s.findMan m.number = some j → s.man j = some m →
      m.body = .delivery d → m.state = .receiving → inRefusal s k = none → value ≤ 2000000000 →
      s.balance + value ≤ 2000000000 →
      let line (declared : Nat) (c : Code) : VarLine :=
        ⟨c, declared, k[c].fit + k[c].unfit + k[c].suspect,
          ((k[c].fit + k[c].unfit + k[c].suspect : Nat) : Int) - declared,
          saturate (((k[c].fit + k[c].unfit) * s.denoms[c].face : Nat) - (declared * s.denoms[c].face : Nat))⟩
      let lines := (d.lines.map fun y => line y.count y.code) ++
        (codes.filter fun c => k[c] != ⟨0, 0, 0⟩ && !d.lines.any fun y => y.code == c).map (line 0)
      let total := saturate ((value : Int) - d.declared)
      exec (.countCommit (whole n)) s =
        .next (completed .countCommit n
          ([byte i.val, 3] ++ le 2 m.number ++ le 4 value ++ le 4 suspect ++ le 3 units ++ le 2 m.number ++
            [byte ManState.counted.value] ++ le 4 d.declared ++ leInt 4 total ++ [byte lines.length] ++
            lines.flatMap VarLine.bytes)
          (idle { (s.moveIn k).setMan j (some { m with
              state := .counted
              body := .delivery { d with lane := none, count := some ⟨k, value, lines, total⟩ } }) with
            balance := s.balance + value }))) ∧
    (∀ m, x.purpose = .audit m →
      let diff (c : Code) : Int :=
        (((k[c].fit + k[c].unfit) * s.denoms[c].face : Nat) : Int) -
          ((s.stock[c].counts.fit + s.stock[c].counts.unfit) * s.denoms[c].face : Nat)
      let total := saturate (((codes.filter (has m)).map diff).sum)
      ∃ reply, exec (.countCommit (whole n)) s =
        .next (completed .countCommit n reply
          (idle { s with
            stock := tab fun c => if has m c then { s.stock[c] with frozen := false } else s.stock[c]
            audit := some
              ⟨m, tab fun c => if has m c then s.stock[c].counts else ⟨0, 0, 0⟩,
                tab fun c => if has m c then k[c] else ⟨0, 0, 0⟩,
                tab fun c => if has m c then saturate (diff c) else 0, total⟩ })) ∧
        (value ≤ 2000000000 → reply.take 15 =
          [byte i.val, 4] ++ le 2 m.toNat ++ le 4 value ++ le 4 suspect ++ le 3 units) ∧
        reply.drop 15 = [byte (codes.filter (has m)).length] ++ leInt 4 total ++
          (codes.filter (has m)).flatMap fun c => byte c.val :: leInt 4 (saturate (diff c)))

/-- AUDIT-ACCEPT sets the audited codes to their counted figures, posts the exact total to B and ends the
result; a stale result is STATE. AUDIT-DISCARD ends the result and changes nothing else. -/
def Obligations.AuditDecisions : Prop :=
  ∀ (n : Bool) (s : State) (a : List Byte), s.ready = true → s.port.args = a →
    (∀ r, a.length = 3 → s.auth.lockout = 0 → arg a 0 3 = s.auth.code → s.auth.code ≤ 999999 →
      s.audit = some r →
      let delta := ((codes.filter (has r.codes)).map fun c =>
        ((((r.counted[c].fit + r.counted[c].unfit) * s.denoms[c].face : Nat) : Int) -
          ((r.stock[c].fit + r.stock[c].unfit) * s.denoms[c].face : Nat))).sum
      ((∃ c : Code, has r.codes c = true ∧ s.stock[c].counts ≠ r.stock[c]) →
        exec (.auditAccept (whole n)) s = .next (turnedAway .auditAccept n .state s.matched)) ∧
      ((∀ c : Code, has r.codes c = true → s.stock[c].counts = r.stock[c]) →
        0 ≤ (s.balance : Int) + delta → (s.balance : Int) + delta ≤ 2000000000 →
        exec (.auditAccept (whole n)) s =
          .next (completed .auditAccept n
            (leInt 4 delta ++ le 2 r.codes.toNat ++ (codes.filter (has r.codes)).flatMap fun c =>
              le 3 s.stock[c].counts.fit ++ le 3 s.stock[c].counts.unfit ++ le 3 s.stock[c].counts.suspect ++
                le 2 r.counted[c].fit ++ le 2 r.counted[c].unfit ++ le 2 r.counted[c].suspect)
            { s.matched with
              stock := tab fun c =>
                if has r.codes c then { s.stock[c] with counts := r.counted[c] } else s.stock[c]
              balance := ((s.balance : Int) + delta).toNat
              audit := none }))) ∧
    (a = [] →
      (∀ r, s.audit = some r →
        exec (.auditDiscard (whole n)) s =
          .next (completed .auditDiscard n (le 2 r.codes.toNat ++ leInt 4 r.total) { s with audit := none })) ∧
      (s.audit = none →
        exec (.auditDiscard (whole n)) s = .next (turnedAway .auditDiscard n .state s)))

/-! ### Bags and the rack -/

/-- BAG-OPEN opens the lowest free number; BAG-ADD moves units of one code and class from the stock into a
FILLING bag; BAG-RETURN moves them back, a line at 0 removed. The money figures of the bag are those of its
lines. -/
def Obligations.BagFilling : Prop :=
  ∀ (n : Bool) (s : State) (a : List Byte), s.ready = true → s.port.args = a →
    (∀ (b : BagIx) (k : BagKind), a.length = 6 → bagKindOf (arg a 5 1) = some k →
      1 ≤ arg a 0 5 → arg a 0 5 ≤ 9999999999 →
      (∀ c x, s.bag c = some x → x.tag ≠ arg a 0 5) → s.bag b = none → (∀ c, c < b → s.bag c ≠ none) →
      exec (.bagOpen (whole n)) s =
        .next (completed .bagOpen n ([byte (b.val + 1)] ++ le 5 (arg a 0 5) ++ [byte k.value])
          (s.setBag b (some ⟨arg a 0 5, k, .filling, [], 0, 0, 0, none, none⟩)))) ∧
    (∀ (b : BagIx) (x : Bag) (c : Code) (k : CashClass), a.length = 5 → bagOf (arg a 0 1) = some b →
      s.bag b = some x → arg a 1 1 = c.val → classOf (arg a 2 1) = some k → s.denoms[c].kind ≠ .unused →
      (s.denoms[c].kind = .roll → k = .fit) → x.kind.takes k = true → 1 ≤ arg a 3 2 → arg a 3 2 ≤ 3000 →
      x.state = .filling →
      let q := arg a 3 2
      let here (l : BagLine) : Bool := decide (l.code = c) && decide (l.cls = k)
      let filled (l : List BagLine) : Bag := { x with
        lines := l, units := (l.map BagLine.count).sum
        value := sumCodes fun d => ((linesComp l)[d].fit + (linesComp l)[d].unfit) * s.denoms[d].face
        suspectSum := min 2000000000 (sumCodes fun d => (linesComp l)[d].suspect * s.denoms[d].face) }
      let reply (y : Bag) := [byte (b.val + 1), byte c.val, byte k.value] ++ le 2 (lineHeld y.lines c k) ++
        le 2 y.units ++ le 4 y.value ++ le 4 y.suspectSum
      (let y := filled
         (if x.lines.any here then
           x.lines.map (fun l => if here l then { l with count := l.count + q } else l)
          else x.lines ++ [⟨c, k, q⟩])
       outRefusal s (Comp.only c k q) = none → x.units + q ≤ 3000 → y.value ≤ s.limits.bagLimit →
       exec (.bagAdd (whole n)) s =
         .next (completed .bagAdd n (reply y) ((s.moveOut (Comp.only c k q)).setBag b (some y)))) ∧
      (let y := filled ((x.lines.map fun l => if here l then { l with count := l.count - q } else l).filter
          fun l => l.count != 0)
       q ≤ lineHeld x.lines c k → inRefusal s (Comp.only c k q) = none →
       exec (.bagReturn (whole n)) s =
         .next (completed .bagReturn n (reply y) ((s.moveIn (Comp.only c k q)).setBag b (some y)))) ∧
      (lineHeld x.lines c k < q →
        exec (.bagReturn (whole n)) s = .next (turnedAway .bagReturn n .stock s)))

/-- Placement, bag by bag from the head of the queue: into the compartment of the pointer; a compartment brought
to K moves the pointer on, and a bag already in the next compartment sets the halt mark and SAFE. Nothing is
placed while the halt mark is set. -/
def Obligations.PlacementRotates : Prop :=
  ∀ (b : BagIx) (r : List BagIx) (s : State),
    State.placeFrom [] s = { s with rack := { s.rack with queue := [] } } ∧
    (s.rack.halt = true → State.placeFrom (b :: r) s = { s with rack := { s.rack with queue := b :: r } }) ∧
    (s.rack.halt = false →
      let c := s.rack.ptr
      let next : CompIx := c + 1
      let list := s.rack.comps[c] ++ [b]
      let bags := s.bags.set b ((s.bag b).map fun x => { x with state := .placed, comp := some c })
      let comps := s.rack.comps.set c list
      (list.length < s.rack.k →
        State.placeFrom (b :: r) s =
          State.placeFrom r { s with bags := bags, rack := { s.rack with comps := comps } }) ∧
      (s.rack.k ≤ list.length → s.rack.comps[next] = [] →
        State.placeFrom (b :: r) s =
          State.placeFrom r { s with bags := bags, rack := { s.rack with comps := comps, ptr := next } }) ∧
      (s.rack.k ≤ list.length → s.rack.comps[next] ≠ [] →
        State.placeFrom (b :: r) s =
          State.raise .safe { s with
            bags := bags
            rack := { s.rack with comps := comps, ptr := next, halt := true, queue := r } }))

/-- BAG-SHUT seals a filled bag onto the tail of the unplaced queue and places; BAG-BREAK moves its lines back to
the stock and retires it, its places close up, and a halt whose compartment is then empty lifts; RACK-SET
writes K over an empty rack. -/
def Obligations.BagsShutAndBroken : Prop :=
  ∀ (n : Bool) (s : State) (a : List Byte), s.ready = true → s.port.args = a →
    (∀ b x, a.length = 1 → bagOf (arg a 0 1) = some b → s.bag b = some x →
      (x.state = .filling → x.lines ≠ [] →
        ∃ reply, exec (.bagShut (whole n)) s =
          .next (completed .bagShut n reply
            (State.place { s.setBag b (some { x with state := .shut, time := s.stamp }) with
              rack := { s.rack with queue := s.rack.queue ++ [b] } })) ∧
          reply.take 16 = [byte (b.val + 1)] ++ le 5 x.tag ++ le 4 x.value ++ le 2 x.units ++
            le 4 x.suspectSum) ∧
      (x.state ≠ .filling ∨ x.lines = [] →
        exec (.bagShut (whole n)) s = .next (turnedAway .bagShut n .state s))) ∧
    (∀ b x, a.length = 4 → bagOf (arg a 0 1) = some b → s.bag b = some x → s.auth.lockout = 0 →
      arg a 1 3 = s.auth.code → s.auth.code ≤ 999999 →
      (x.state = .manifested →
        exec (.bagBreak (whole n)) s = .next (turnedAway .bagBreak n .state s.matched)) ∧
      (x.state ≠ .manifested → inRefusal s (linesComp x.lines) = none →
        let gone (l : List BagIx) : List BagIx := l.filter fun c => c != b
        let u := { (s.matched.moveIn (linesComp x.lines)).setBag b none with
          rack := { s.rack with comps := mapT gone s.rack.comps, queue := gone s.rack.queue } }
        (¬(s.rack.halt = true ∧ gone s.rack.comps[s.rack.ptr] = []) →
          exec (.bagBreak (whole n)) s =
            .next (completed .bagBreak n
              ([byte (b.val + 1)] ++ le 5 x.tag ++
                [byte x.state.value, indexByte (x.comp.map Fin.val), boolByte s.rack.halt, 0] ++
                le 4 x.value ++ le 4 x.suspectSum ++ [byte x.lines.length] ++
                x.lines.flatMap fun l => [byte l.code.val, byte l.cls.value] ++ le 2 l.count) u)) ∧
        (s.rack.halt = true → gone s.rack.comps[s.rack.ptr] = [] →
          ∃ reply, exec (.bagBreak (whole n)) s =
            .next (completed .bagBreak n reply
              (State.place { u with rack := { u.rack with halt := false } }))))) ∧
    (∀ k : Byte, a = [k] → 1 ≤ k.toNat → k.toNat ≤ 12 →
      ((∀ c : CompIx, s.rack.comps[c] = []) → s.rack.queue = [] →
        exec (.rackSet (whole n)) s =
          .next (completed .rackSet n [k, 0] { s with rack := { s.rack with k := k.toNat, ptr := 0 } })) ∧
      ((∃ c : CompIx, s.rack.comps[c] ≠ []) ∨ s.rack.queue ≠ [] →
        exec (.rackSet (whole n)) s = .next (turnedAway .rackSet n .engaged s)))

/-! ### Manifests and handovers -/

/-- MAN-CREATE of a collection and of a delivery, into the lowest free slot; a delivery whose declared value is
too great is LIMIT. The rescan limit and its clamp mark in the reply of a delivery are the model's choice (log
entry 16). -/
def Obligations.ManifestsCreated : Prop :=
  ∀ (n : Bool) (s : State) (a : List Byte) (i : SlotIx), s.ready = true → s.port.args = a →
    let number := arg a 1 2
    let opens : Stamp := ⟨arg a 6 2, arg a 8 2⟩
    let closes : Stamp := ⟨arg a 10 2, arg a 12 2⟩
    number ≠ 0 → arg a 3 3 ≤ 999999 → opens.minute ≤ 1439 → closes.minute ≤ 1439 →
    opens.day * 1440 + opens.minute < closes.day * 1440 + closes.minute →
    (∀ j m, s.man j = some m → m.number ≠ number) → s.man i = none → (∀ j, j < i → s.man j ≠ none) →
    (∀ p, a.length = 16 → arg a 0 1 = 1 → policyOf (arg a 14 1) = some p →
      let lim := max 1 (min 3 (arg a 15 1))
      exec (.manCreate (whole n)) s =
        .next (completed .manCreate n
          ([byte i.val] ++ le 2 number ++ [1, byte ManState.draft.value, byte lim,
            boolByte (lim != arg a 15 1)] ++ le 4 0)
          (s.setMan i (some ⟨number, .draft, arg a 3 3, opens, closes, 0,
            .collection ⟨p, lim, [], none⟩⟩)))) ∧
    (∀ l, arg a 0 1 = 2 → 1 ≤ arg a 14 1 → arg a 14 1 ≤ 12 → a.length = 15 + 3 * arg a 14 1 →
      readLines s.denoms (linePairs (a.drop 15)) = some l → (∀ x ∈ l, x.count ≠ 0) →
      let declared := sumCodes fun c => lineCount l c * s.denoms[c].face
      (declared ≤ 2000000000 →
        exec (.manCreate (whole n)) s =
          .next (completed .manCreate n
            ([byte i.val] ++ le 2 number ++ [2, byte ManState.ready.value, 0, 0] ++ le 4 declared)
            (s.setMan i (some ⟨number, .ready, arg a 3 3, opens, closes, 0,
              .delivery ⟨l, declared, none, none⟩⟩)))) ∧
      (2000000000 < declared →
        exec (.manCreate (whole n)) s = .next (turnedAway .manCreate n .limit s)))

/-- MAN-ADD, MAN-REMOVE and MAN-CLOSE of a collection in DRAFT. -/
def Obligations.ManifestsPrepared : Prop :=
  ∀ (n : Bool) (s : State) (a : List Byte) (i : SlotIx) (m : Manifest) (c : Collection), s.ready = true →
    s.port.args = a → s.findMan (arg a 0 2) = some i → s.man i = some m → m.body = .collection c →
    (m.state = .draft →
      (∀ b x, a.length = 3 → bagOf (arg a 2 1) = some b → s.bag b = some x →
        x.state = .placed ∨ x.state = .heldBack →
        (c.entries.length < 24 →
          exec (.manAdd (whole n)) s =
            .next (completed .manAdd n
              (le 2 m.number ++ [byte c.entries.length, byte (b.val + 1)] ++ le 5 x.tag ++ le 4 x.value ++
                [indexByte (x.comp.map Fin.val), byte (c.entries.length + 1)])
              ((s.setMan i (some { m with
                body := .collection { c with entries := c.entries ++ [⟨b, x.tag, .pending, 0⟩] } })).setBag b
                  (some { x with state := .manifested })))) ∧
        (24 ≤ c.entries.length →
          exec (.manAdd (whole n)) s = .next (turnedAway .manAdd n .full s))) ∧
      (∀ b x e, a.length = 3 → bagOf (arg a 2 1) = some b → s.bag b = some x → e ∈ c.entries → e.bag = b →
        let l := c.entries.filter fun y => y.bag != b
        exec (.manRemove (whole n)) s =
          .next (completed .manRemove n (le 2 m.number ++ [byte (b.val + 1), byte l.length])
            ((s.setMan i (some { m with body := .collection { c with entries := l } })).setBag b
              (some { x with state := .placed })))) ∧
      (a.length = 2 → c.entries ≠ [] →
        exec (.manClose (whole n)) s =
          .next (completed .manClose n
            (le 2 m.number ++ [byte c.entries.length] ++ le 4 (s.valueListed c))
            (s.setMan i (some { m with state := .ready }))))) ∧
    (m.state ≠ .draft →
      (a.length = 3 →
        exec (.manAdd (whole n)) s = .next (turnedAway .manAdd n .state s) ∧
          exec (.manRemove (whole n)) s = .next (turnedAway .manRemove n .state s)) ∧
      (a.length = 2 → exec (.manClose (whole n)) s = .next (turnedAway .manClose n .state s)))

/-- MAN-CANCEL, by the kind and the state of the manifest: retired, its listed bags PLACED; or refused. -/
def Obligations.ManifestsCancelled : Prop :=
  ∀ (n : Bool) (s : State) (a : List Byte) (i : SlotIx) (m : Manifest), s.ready = true →
    s.port.args = a → a.length = 2 → s.findMan (arg a 0 2) = some i → s.man i = some m →
    (∀ c, m.body = .collection c →
      (m.state ∈ [.draft, .ready, .suspended, .expired, .locked] →
        let l := (c.entries.filter fun e => e.status != .setAside).map Entry.bag
        ∃ t, exec (.manCancel (whole n)) s =
            .next (completed .manCancel n
              (le 2 m.number ++ [1, byte m.state.value, byte l.length]) t) ∧
          t = { s with mans := s.mans.set i none, bags := t.bags } ∧
          ∀ b : BagIx, t.bag b =
            if b ∈ l then (s.bag b).map fun x => { x with state := .placed } else s.bag b) ∧
      (m.state = .bags →
        exec (.manCancel (whole n)) s = .next (turnedAway .manCancel n .engaged s))) ∧
    (∀ d, m.body = .delivery d →
      (m.state ∈ [.ready, .expired, .locked] ∨ m.state = .receiving ∧ d.lane = none →
        exec (.manCancel (whole n)) s =
          .next (completed .manCancel n (le 2 m.number ++ [2, byte m.state.value, 0]) (s.setMan i none))) ∧
      (m.state = .receiving → d.lane ≠ none →
        exec (.manCancel (whole n)) s = .next (turnedAway .manCancel n .engaged s)) ∧
      (m.state = .counted →
        exec (.manCancel (whole n)) s = .next (turnedAway .manCancel n .state s)))

/-- COURIER-ARRIVE of a READY manifest inside its window, no other collection at the door: the right code takes a
collection to BAGS and unlocks, a delivery to RECEIVING; a wrong code counts, and the third locks the manifest
and sets COURIER; a closed window is WINDOW. -/
def Obligations.CourierArrives : Prop :=
  ∀ (n : Bool) (s : State) (a : List Byte) (i : SlotIx) (m : Manifest), s.ready = true →
    s.port.args = a → a.length = 5 → s.findMan (arg a 0 2) = some i → s.man i = some m →
    arg a 2 3 ≤ 999999 → m.state = .ready → s.ret.latch = false → s.clock.isSet = true →
    let now := s.clock.day * 1440 + s.clock.minute
    let inside := m.opens.day * 1440 + m.opens.minute ≤ now ∧ now < m.closes.day * 1440 + m.closes.minute
    (¬inside → exec (.courierArrive (whole n)) s = .next (turnedAway .courierArrive n .window s)) ∧
    (inside → (∃ j m', j ≠ i ∧ s.man j = some m' ∧ m'.state = .bags) →
      exec (.courierArrive (whole n)) s = .next (turnedAway .courierArrive n .engaged s)) ∧
    (inside → (∀ j m', j ≠ i → s.man j = some m' → m'.state ≠ .bags) →
      (arg a 2 3 ≠ m.courier → m.wrong < 2 →
        exec (.courierArrive (whole n)) s =
          .next (turnedAway .courierArrive n .code (s.setMan i (some { m with wrong := m.wrong + 1 })))) ∧
      (arg a 2 3 ≠ m.courier → 2 ≤ m.wrong →
        exec (.courierArrive (whole n)) s =
          .next (turnedAway .courierArrive n .code
            (State.raise .courier
              (s.setMan i (some { m with wrong := m.wrong + 1, state := .locked }))))) ∧
      (∀ c, arg a 2 3 = m.courier → m.body = .collection c →
        exec (.courierArrive (whole n)) s =
          .next (completed .courierArrive n
            (le 2 m.number ++ [1, byte ManState.bags.value, byte c.entries.length] ++ le 4 (s.valueListed c))
            { s.setMan i (some { m with wrong := 0, state := .bags }) with
              door := { s.door with unlocked := true } })) ∧
      (∀ d, arg a 2 3 = m.courier → m.body = .delivery d → s.doorLaw →
        ∃ reply, exec (.courierArrive (whole n)) s =
          .next (completed .courierArrive n reply
            (s.setMan i (some { m with wrong := 0, state := .receiving }))) ∧
          reply.take 4 = le 2 m.number ++ [2, byte ManState.receiving.value]))

/-- BAG-SCAN of a PENDING entry of a collection in BAGS: an undamaged bag is ACCEPTED; a damaged one halts the
handover, is set aside, or counts a rescan, by the policy. -/
def Obligations.BagsScanned : Prop :=
  ∀ (n : Bool) (s : State) (a : List Byte) (i : SlotIx) (m : Manifest) (c : Collection) (k : Nat) (e : Entry),
    s.ready = true → s.port.args = a → a.length = 8 → s.findMan (arg a 0 2) = some i → s.man i = some m →
    m.body = .collection c → m.state = .bags → 1 ≤ arg a 2 5 → arg a 2 5 ≤ 9999999999 →
    c.entries.findIdx? (fun y => y.tag == arg a 2 5) = some k → c.entries[k]? = some e →
    e.status = .pending →
    let body (c' : Collection) : Manifest := { m with body := .collection c' }
    let withEntry (e' : Entry) : Collection := { c with entries := c.entries.set k e' }
    let answers (m' : Manifest) (c' : Collection) (e' : Entry) (t : State) : Prop :=
      exec (.bagScan (whole n)) s =
        .next (completed .bagScan n
          (le 2 m.number ++ [byte k, byte (e.bag.val + 1), byte e'.status.value, byte e'.rescans,
            byte m'.state.value, byte (countStatus .pending c'.entries)]) t)
    (arg a 7 1 = 0 →
      let e' := { e with status := .accepted }
      answers m (withEntry e') e' (s.setMan i (some (body (withEntry e'))))) ∧
    (arg a 7 1 = 1 →
      (c.policy = .halt →
        let m' := { m with state := .suspended, body := .collection { c with halted := some k } }
        answers m' c e (State.raise .courier ((s.setMan i (some m')).recomputeDoor .handover))) ∧
      (c.policy = .setAside →
        let e' := { e with status := .setAside }
        answers m (withEntry e') e'
          ((s.setMan i (some (body (withEntry e')))).markBag e.bag .heldBack)) ∧
      (c.policy = .rescan → e.rescans + 1 ≤ c.rescanLimit →
        let e' := { e with rescans := e.rescans + 1 }
        answers m (withEntry e') e' (s.setMan i (some (body (withEntry e'))))) ∧
      (c.policy = .rescan → c.rescanLimit < e.rescans + 1 →
        let e' := { e with rescans := e.rescans + 1, status := .setAside }
        answers m (withEntry e') e'
          ((s.setMan i (some (body (withEntry e')))).markBag e.bag .heldBack)))

/-- MAN-RESUME sets the halted entry aside, its bag HELD-BACK, and takes the collection back to BAGS with the
output unlocked; MAN-REOPEN gives an EXPIRED or LOCKED manifest a new window close. -/
def Obligations.ManifestsResumedAndReopened : Prop :=
  ∀ (n : Bool) (s : State) (a : List Byte) (i : SlotIx) (m : Manifest), s.ready = true →
    s.port.args = a → s.findMan (arg a 0 2) = some i → s.man i = some m → s.auth.lockout = 0 →
    arg a 2 3 = s.auth.code → s.auth.code ≤ 999999 →
    (a.length = 5 →
      (m.state ≠ .suspended →
        exec (.manResume (whole n)) s = .next (turnedAway .manResume n .state s.matched)) ∧
      (∀ c k e x, m.state = .suspended → m.body = .collection c → c.halted = some k →
        c.entries[k]? = some e → s.bag e.bag = some x → s.ret.latch = false →
        (∀ j m', j ≠ i → s.man j = some m' → m'.state ≠ .bags) →
        let l := c.entries.set k { e with status := .setAside }
        exec (.manResume (whole n)) s =
          .next (completed .manResume n
            (le 2 m.number ++ [byte (e.bag.val + 1)] ++ le 5 e.tag ++ [byte (countStatus .pending l)])
            { (s.matched.setMan i (some { m with
                state := .bags, body := .collection { c with entries := l, halted := none } })).setBag e.bag
                  (some { x with state := .heldBack }) with
              door := { s.door with unlocked := true } }))) ∧
    (a.length = 9 →
      let closes : Stamp := ⟨arg a 5 2, arg a 7 2⟩
      let at' := closes.day * 1440 + closes.minute
      closes.minute ≤ 1439 → m.opens.day * 1440 + m.opens.minute < at' →
      (m.state ≠ .expired → m.state ≠ .locked →
        exec (.manReopen (whole n)) s = .next (turnedAway .manReopen n .state s.matched)) ∧
      (m.state = .expired ∨ m.state = .locked →
        s.clock.isSet = true → at' ≤ s.clock.day * 1440 + s.clock.minute →
        exec (.manReopen (whole n)) s = .next (turnedAway .manReopen n .window s.matched)) ∧
      (m.state = .expired ∨ m.state = .locked →
        s.clock.isSet = false ∨ s.clock.day * 1440 + s.clock.minute < at' →
        ∃ reply, exec (.manReopen (whole n)) s =
          .next (completed .manReopen n reply
            (s.matched.setMan i (some { m with closes := closes, wrong := 0, state := .ready }))) ∧
          reply.take 7 = le 2 m.number ++ [byte ManState.ready.value] ++ le 2 closes.day ++
            le 2 closes.minute))

/-- COURIER-SIGN: a collection with no PENDING entry retires with its ACCEPTED bags, which leave their
compartments, B lowered by their value, the output recomputed with the door interval kept, and a halt whose
compartment is then empty lifted with its placements; a COUNTED delivery retires, no figure changed. -/
def Obligations.CourierSigns : Prop :=
  ∀ (n : Bool) (s : State) (a : List Byte) (i : SlotIx) (m : Manifest), s.ready = true →
    s.port.args = a → a.length = 2 → s.findMan (arg a 0 2) = some i → s.man i = some m →
    (∀ c, m.body = .collection c →
      let l := c.entries.filter fun e => e.status == .accepted
      let value := s.valueAccepted c
      (m.state ≠ .bags ∨ (∃ e ∈ c.entries, e.status = .pending) ∨ l = [] →
        exec (.courierSign (whole n)) s = .next (turnedAway .courierSign n .state s)) ∧
      (m.state = .bags → (∀ e ∈ c.entries, e.status ≠ .pending) → l ≠ [] → s.balance < value →
        exec (.courierSign (whole n)) s = .next (turnedAway .courierSign n .limit s)) ∧
      (m.state = .bags → (∀ e ∈ c.entries, e.status ≠ .pending) → l ≠ [] → value ≤ s.balance →
        let gone (b : BagIx) : Bool := l.any fun e => (e.bag == b) && s.entryPresent e
        let stay (x : List BagIx) : List BagIx := x.filter fun b => !gone b
        ∃ u t : State,
          (∀ b : BagIx, u.bag b = if gone b then none else s.bag b) ∧
          u = { s with
            balance := s.balance - value
            mans := s.mans.set i none
            bags := u.bags
            rack := { s.rack with comps := mapT stay s.rack.comps, queue := stay s.rack.queue } } ∧
          (let v := u.recomputeDoor .handover
           v.door.interval = s.door.interval ∧
           (v.rack.halt = true → v.rack.comps[v.rack.ptr] = [] →
             t = State.place { v with rack := { v.rack with halt := false } }) ∧
           (v.rack.halt = false ∨ v.rack.comps[v.rack.ptr] ≠ [] → t = v) ∧
           exec (.courierSign (whole n)) s =
             .next (completed .courierSign n
               (le 2 m.number ++ [1, byte l.length] ++ (l.flatMap fun e => le 5 e.tag) ++ le 4 value ++
                 le 4 (s.balance - value) ++
                 [byte (countStatus .setAside c.entries), boolByte t.rack.halt,
                  byte (v.rack.queue.length - t.rack.queue.length)]) t)))) ∧
    (∀ d, m.body = .delivery d →
      (∀ q, m.state = .counted → d.count = some q →
        exec (.courierSign (whole n)) s =
          .next (completed .courierSign n
            (le 2 m.number ++ [2] ++ le 4 q.value ++ leInt 4 q.total) (s.setMan i none))) ∧
      (m.state ≠ .counted →
        exec (.courierSign (whole n)) s = .next (turnedAway .courierSign n .state s)))

/-! ### Clock, retention and clearing -/

/-- CLOCK-SET keeps the sub-minute count; RETAIN takes DEEP as WATCH under the supply warning and locks the
output; RELEASE clears the latch and restarts the round countdown; RECORDS-CLEAR empties the records of section
9.7. Each with what refuses it. -/
def Obligations.ClockAndRetentionCommands : Prop :=
  ∀ (n : Bool) (s : State) (a : List Byte), s.ready = true → s.port.args = a →
    (a.length = 4 → 1439 < arg a 2 2 →
      exec (.clockSet (whole n)) s = .next (turnedAway .clockSet n .argument s)) ∧
    (a.length = 1 → arg a 0 1 ≠ 1 → arg a 0 1 ≠ 2 →
      exec (.retain (whole n)) s = .next (turnedAway .retain n .argument s)) ∧
    (a.length = 4 → arg a 2 2 ≤ 1439 →
      (s.anyAtDoor = false →
        exec (.clockSet (whole n)) s =
          .next (completed .clockSet n
            ([boolByte s.clock.isSet] ++ le 2 s.clock.day ++ le 2 s.clock.minute ++ le 2 (arg a 0 2) ++
              le 2 (arg a 2 2))
            { s with clock := ⟨true, arg a 0 2, arg a 2 2, s.clock.sub⟩ })) ∧
      (s.anyAtDoor = true →
        exec (.clockSet (whole n)) s = .next (turnedAway .clockSet n .engaged s))) ∧
    (∀ k, a.length = 1 → (arg a 0 1 = 1 ∧ k = .watch ∨ arg a 0 1 = 2 ∧ k = .deep) →
      let free := s.anySession = false ∧ s.anyAtDoor = false ∧ s.round.run = none
      (free →
        let kind : RetKind := if s.taken.supplyWarn then .watch else k
        exec (.retain (whole n)) s =
          .next (completed .retain n [byte kind.value]
            (State.recomputeDoor .retain { s with
              ret := { s.ret with latch := true, kind := kind, path := some .retain }
              lanes := Vector.replicate 4 Lane.unprofiled
              door := { s.door with interval := none } }))) ∧
      (¬free → exec (.retain (whole n)) s = .next (turnedAway .retain n .engaged s))) ∧
    (a = [] →
      (s.ret.latch = false →
        exec (.release (whole n)) s = .next (turnedAway .release n .state s)) ∧
      (s.ret.latch = true →
        let countdown := if s.round.timerOn then some s.round.interval else none
        exec (.release (whole n)) s =
          .next (completed .release n
            [byte s.ret.cause.value, byte (pathValue s.ret.path), boolByte s.clock.isSet,
             byte (countdown.getD 0)]
            (State.recomputeDoor .retain { s with
              ret := { s.ret with latch := false }
              round := { s.round with countdown := countdown } })))) ∧
    (a.length = 3 → s.auth.lockout = 0 → arg a 0 3 = s.auth.code → s.auth.code ≤ 999999 →
      (s.anySession = true ∨ s.anyAtDoor = true →
        exec (.recordsClear (whole n)) s = .next (turnedAway .recordsClear n .engaged s.matched)) ∧
      (s.anySession = false → s.anyAtDoor = false →
        ∃ reply t, exec (.recordsClear (whole n)) s = .next (completed .recordsClear n reply t) ∧
          t.balance = 0 ∧ t.calls = [] ∧ t.callOverflow = false ∧ t.audit = none ∧
          (∀ c : Code, t.stock[c] = { s.stock[c] with counts := ⟨0, 0, 0⟩ }) ∧
          (∀ u : TillIx, t.till u = { s.till u with
            state := .closed, issue := Vector.replicate 12 0, f := 0, s := 0, r := 0, p := 0, pickups := 0
            lane := none }) ∧
          (∀ b : BagIx, t.bag b = none) ∧ (∀ j : SlotIx, t.man j = none) ∧
          (∀ c : CompIx, t.rack.comps[c] = []) ∧ t.rack = ⟨t.rack.comps, s.rack.k, 0, false, []⟩ ∧
          t = { s.matched with
            balance := 0, calls := [], callOverflow := false, audit := none, stock := t.stock
            tills := t.tills, bags := t.bags, mans := t.mans, rack := t.rack }))

/-! ### Lane frames -/

/-- HELLO, END-FEED, HOLD-ACK, JAM, a frame of another kind or length, and a frame with a wrong CHECK, at a
listening lane, by the lane's state. An UNPROFILED lane discards them. A row is the characters of
its frame (log entry 20). -/
def Obligations.LaneFramesAct : Prop :=
  ∀ (i : LaneIx) (s : State), s.live = true →
    let l := s.lane i
    let h := l.heard
    let puts (u : Lane) : State := s.setLane i u
    let attends (u : Lane) : State := State.raise .lane (s.setLane i u)
    let inSession := l.state ∈ [LaneState.opened, .holding, .held, .ended, .fault]
    (l.state = .unprofiled →
      (∀ m z, exec (.hello i m z) s = .next s) ∧ (∀ q, exec (.endFeed i q) s = .next s) ∧
      exec (.holdAck i) s = .next s ∧ (∀ j, exec (.jam i j) s = .next s) ∧
      (∀ q c f u x, exec (.batch i q c f u x) s = .next s) ∧
      (∀ k b, exec (.protocolFrame i k b) s = .next s) ∧
      (∀ k b x, exec (.checkError i k b x) s = .next s) ∧
      (∀ cs, exec (.framingError i cs) s = .next s)) ∧
    (s.listens i →
      (∀ m z, let u := { h with identity := some ⟨m, z⟩, expect := .number 0 }
        (l.state = .idle → exec (.hello i m z) s = .next (puts u)) ∧
        (inSession → exec (.hello i m z) s = .next (attends (u.erring .restart)))) ∧
      (∀ q, let expected := l.expect = .any ∨ l.expect = .number (q + 1)
        (l.state = .idle → exec (.endFeed i q) s = .next (attends (h.erring .protocol))) ∧
        (inSession → ¬expected → exec (.endFeed i q) s = .next (attends (h.erring .sequence))) ∧
        (expected →
          (l.state = .opened → exec (.endFeed i q) s = .next (attends { h with state := .ended })) ∧
          (l.state = .holding →
            exec (.endFeed i q) s = .next (attends { h with state := .held, hold := none })) ∧
          (l.state = .held ∨ l.state = .ended ∨ l.state = .fault →
            exec (.endFeed i q) s = .next (puts h)))) ∧
      (l.state = .holding →
        exec (.holdAck i) s = .next (attends { h with state := .held, hold := none })) ∧
      (l.state = .idle ∨ l.state = .held ∨ l.state = .fault → exec (.holdAck i) s = .next (puts h)) ∧
      (l.state = .opened ∨ l.state = .ended →
        exec (.holdAck i) s = .next (attends (h.erring .protocol))) ∧
      (∀ j, exec (.jam i j) s = .next (attends ({ h with jam := some j }.erring .jam))) ∧
      (∀ k b, b.length ≤ 12 → frameLen k ≠ some b.length →
        exec (.protocolFrame i k b) s = .next (attends (h.erring .protocol))) ∧
      (∀ k b x, b.length ≤ 12 → charSum ([k, BitVec.ofNat 8 b.length] ++ b ++ [x]) ≠ 0 →
        exec (.checkError i k b x) s = .next (attends (h.erring .check))))

/-- A bad character at a profiled lane: in the hunt a character that is no SYNC latches FRAMING and sets the skip
mark, under which such a character is discarded without a latch; inside a frame a character with no stop bit
latches FRAMING and the receiver hunts, its skip mark clear. A LEN above 12 latches FRAMING. A row is the
characters that arrive (log entry 20). -/
def Obligations.FramingErrors : Prop :=
  ∀ (i : LaneIx) (s : State) (c : RxChar), s.live = true → (s.lane i).state ≠ .unprofiled →
    let l := s.lane i
    let attends (u : Lane) : State := State.raise .lane (s.setLane i u)
    (l.rx = .hunting false → ¬(c.stop = true ∧ c.data = 0xC3) →
      exec (.framingError i [c]) s =
        .next (attends ({ l with rx := .hunting true }.erring .framing))) ∧
    (l.rx = .hunting true → ¬(c.stop = true ∧ c.data = 0xC3) →
      exec (.framingError i [c]) s = .next s) ∧
    (∀ got, l.rx = .collecting got → c.stop = false →
      exec (.framingError i [c]) s = .next (attends (l.heard.erring .framing))) ∧
    (∀ k, l.rx = .collecting [k] → c.stop = true → 12 < c.data.toNat →
      exec (.framingError i [c]) s = .next (attends (l.heard.erring .framing)))

/-- BATCH at a listening lane: in IDLE it is discarded with PROTOCOL; in a session a wrong number, a code or
count out of range, or a total out of range discards it with its error, and else it is pushed on the stack,
the oldest of a full stack folded first. A row is the characters of its frame (log entry 20). -/
def Obligations.BatchesTaken : Prop :=
  ∀ (i : LaneIx) (q c : Byte) (f u z : BitVec 16) (s : State), s.listens i →
    let l := s.lane i
    let h := l.heard
    let k : Counts := ⟨f.toNat, u.toNat, z.toNat⟩
    let discards (e : LaneError) (x : Expect) : Prop :=
      exec (.batch i q c f u z) s =
        .next (State.raise .lane
          (s.setLane i ({ h with discarded := some ⟨q, c, k, e⟩, expect := x }.erring e)))
    (l.state = .idle →
      (l.expect = .absent → discards .protocol .absent) ∧
      (l.expect ≠ .absent → discards .protocol (.number (q + 1)))) ∧
    (∀ x : Session, l.state ∈ [LaneState.opened, .holding, .held, .ended, .fault] → l.session = some x →
      (∀ m, l.expect = .number m → m ≠ q → discards .sequence .any) ∧
      (l.expect = .any ∨ l.expect = .number q →
        (12 ≤ c.toNat → discards .protocol (.number (q + 1))) ∧
        (∀ d : Code, c.toNat = d.val →
          let fits := has x.accepted d = true ∧ k.fit ≤ 999 ∧ k.unfit ≤ 999 ∧ k.suspect ≤ 999
          let total := x.total d
          let room := total.fit + k.fit ≤ 65535 ∧ total.unfit + k.unfit ≤ 65535 ∧
            total.suspect + k.suspect ≤ 65535
          (¬fits → discards .protocol (.number (q + 1))) ∧
          (fits → ¬room → discards .limit (.number (q + 1))) ∧
          (fits → room → x.stack.length < 8 →
            exec (.batch i q c f u z) s =
              .next (s.setLane i { h with
                expect := .number (q + 1), session := some { x with stack := ⟨q, d, k⟩ :: x.stack } })) ∧
          (∀ (older : List Batch) (old : Batch), fits → room → x.stack = older ++ [old] →
            x.stack.length = 8 →
            exec (.batch i q c f u z) s =
              .next (s.setLane i { h with
                expect := .number (q + 1)
                session := some { x with
                  stack := ⟨q, d, k⟩ :: older
                  folded := x.folded.set old.code
                    ⟨x.folded[old.code].fit + old.counts.fit, x.folded[old.code].unfit + old.counts.unfit,
                      x.folded[old.code].suspect + old.counts.suspect⟩ } })))))

/-- The frames the part sends, as characters on TXn at the bit rate of the transmitter. A frame issued: an idle
transmitter sends it at once, else it waits behind the others, in the place of a waiting frame of its sort
(PROFILE, or START and HOLD). A LANE-RESET keeps the frame being sent and a waiting HOLD. The end of a frame sent:
the next waiting frame begins; the end of a PROFILE takes its speed for the lane's transmitter and receiver, which
returns to the hunt; after a LANE-RESET the last HOLD leaves 9,600 bit/s (the draining mark is the model's reading
of it, log entry 22). -/
def Obligations.FrameSentBeginsNext : Prop :=
  (let chars (l : List Byte) : List RxChar := l.map fun b => ⟨b, true⟩
   (∀ (m : CodeSet) (v : Fin 4), ∃ check : Byte,
     (TxFrame.profile m v).chars =
       chars [0xC3, 0x11, 3, byte m.toNat, byte (m.toNat / 256), byte v.val, check] ∧
     0x11 + 3 + byte m.toNat + byte (m.toNat / 256) + byte v.val + check = 0) ∧
   TxFrame.start.chars = chars [0xC3, 0x12, 0, 0xEE] ∧ TxFrame.hold.chars = chars [0xC3, 0x13, 0, 0xED] ∧
   (∀ (l : Lane) (f : TxFrame) (v : Fin 4), l.tx.sending = some ⟨f, v⟩ → l.sends = some (bitRate v, f.chars)) ∧
   (∀ l : Lane, l.tx.sending = none → l.sends = none) ∧
   bitRate 0 = 9600 ∧ bitRate 1 = 19200 ∧ bitRate 2 = 38400 ∧ bitRate 3 = 57600) ∧
  (∀ (f : TxFrame) (t : Transmitter),
    let profile (g : TxFrame) : Prop := ∃ m v, g = .profile m v
    (t.sending = none →
      t.issue f = { t with sending := some ⟨f, t.speed⟩ } ∧ t.reset = ⟨none, [], 0, false⟩) ∧
    (t.sending ≠ none →
      ((∀ g ∈ t.waiting, profile g ↔ ¬profile f) → t.issue f = { t with waiting := t.waiting ++ [f] }) ∧
      (∀ g pre post, t.waiting = pre ++ g :: post → (profile g ↔ profile f) →
        (∀ h ∈ pre ++ post, profile h ↔ ¬profile f) →
        t.issue f = { t with waiting := pre ++ post ++ [f] }) ∧
      t.reset = { t with waiting := t.waiting.filter fun g => g == .hold, draining := true })) ∧
  (∀ (i : LaneIx) (s : State), s.powered = true → s.due = [] →
    let l := s.lane i
    let t := l.tx
    let next (v : Fin 4) : Option Sending := t.waiting.head?.map fun f => ⟨f, v⟩
    let sends (x : Transmitter) : Prop := exec (.frameSent i) s = .next (s.setLane i { l with tx := x })
    (t.sending = none → exec (.frameSent i) s = .next s) ∧
    (∀ m v w, t.sending = some ⟨.profile m v, w⟩ → t.draining = false →
      exec (.frameSent i) s =
        .next (s.setLane i { l with
          rxSpeed := v, rx := .hunting false, tx := ⟨next v, t.waiting.tail, v, false⟩ })) ∧
    (∀ f w, t.sending = some ⟨f, w⟩ → f = .start ∨ f = .hold → t.draining = false →
      sends ⟨next t.speed, t.waiting.tail, t.speed, false⟩) ∧
    (∀ x, t.sending = some x → t.draining = true →
      let v : Fin 4 := match x.frame with
        | .profile _ sp => sp
        | .start | .hold => t.speed
      (t.waiting = [] → sends ⟨none, [], 0, false⟩) ∧
      (∀ r, t.waiting = .hold :: r → sends ⟨some ⟨.hold, v⟩, r, v, true⟩) ∧
      (∀ f r, t.waiting = f :: r → f ≠ .hold → sends ⟨some ⟨f, 0⟩, r, 0, false⟩)))

/-! ### Ticks -/

/-- The second tick and the minute tick: the countdowns they lower, the clock, and the events that then fall due
at that tick (the list of due events, and a minute tick commanded on its own, are the model's, log entries 4, 5
and 6). The round timer stands while it is off, while the latch is set and while RESET# is asserted (sections 3.4
and 9.4); the windows of the states of section 7.1.1 expire (section 7.1.2). In DEEP the timebase stands, and with
no supply no tick acts (log entry 14). -/
def Obligations.TicksLowerCountdowns : Prop :=
  ∀ s : State, s.due = [] →
    let second := { s with
      lanes := mapT (fun l : Lane => { l with hold := l.hold.map fun n => n - 1 }) s.lanes
      door := { s.door with interval := s.door.interval.map fun n => n - 1 }
      clock := { s.clock with sub := if 59 ≤ s.clock.sub then 0 else s.clock.sub + 1 } }
    let runs := s.round.timerOn = true ∧ s.ret.latch = false ∧ s.resetLow = false
    let minute := { s with
      clock :=
        if s.clock.isSet = false then { s.clock with sub := 0 }
        else if s.clock.minute < 1439 then ⟨true, s.clock.day, s.clock.minute + 1, 0⟩
        else if s.clock.day < 65535 then ⟨true, s.clock.day + 1, 0, 0⟩
        else ⟨true, 0, 0, 0⟩
      round := if runs then { s.round with countdown := s.round.countdown.map fun n => n - 1 } else s.round
      auth := { s.auth with lockout := s.auth.lockout - 1 } }
    (s.powered = true → s.ret.kind ≠ .deep →
      (∃ d, exec .secondTick s = .next { second with due := d } ∧
        (∀ i, TickEvent.holdTimeout i ∈ d ↔ ((s.lane i).hold = some 1 ∨ (s.lane i).hold = some 0)) ∧
        (TickEvent.intervalEnd ∈ d ↔ (s.door.interval = some 1 ∨ s.door.interval = some 0)) ∧
        (TickEvent.minuteTick ∈ d ↔ 59 ≤ s.clock.sub)) ∧
      (∃ d, exec .minuteTick s = .next { minute with due := d } ∧
        (TickEvent.timerExpiry ∈ d ↔
          runs ∧ (s.round.countdown = some 1 ∨ s.round.countdown = some 0)) ∧
        (TickEvent.lockoutEnd ∈ d ↔ s.auth.lockout = 1) ∧
        (∀ j : SlotIx, TickEvent.windowExpiry j ∈ d ↔
          s.clock.isSet = true ∧ ∃ m, s.man j = some m ∧
            m.state ∈ [ManState.ready, .bags, .suspended, .locked] ∧
            m.closes.day * 1440 + m.closes.minute ≤ minute.clock.day * 1440 + minute.clock.minute))) ∧
    (s.powered = false ∨ s.ret.kind = .deep →
      exec .secondTick s = .next s ∧ exec .minuteTick s = .next s)

/-- The events that fall at a tick, each when it is due (log entry 4): the hold timeout latches TIMEOUT; the end
of the door interval locks unless a handover holds the output; the end of the lockout changes nothing else;
the timer's expiry runs a fresh interval and starts a round; the expiry of a window takes the manifest to
EXPIRED and sets COURIER. An event that is not due does nothing. -/
def Obligations.TickEventsAct : Prop :=
  ∀ s : State,
    let without (e : TickEvent) : State := { s with due := s.due.erase e }
    (∀ i, TickEvent.holdTimeout i ∈ s.due → (s.lane i).hold = some 0 → (s.lane i).state ≠ .unprofiled →
      exec (.holdTimeout i) s =
        .next (State.raise .lane ((without (.holdTimeout i)).setLane i ((s.lane i).erring .timeout)))) ∧
    (TickEvent.intervalEnd ∈ s.due → s.door.interval = some 0 →
      exec .intervalEnd s =
        .next (State.recomputeDoor .interval
          { without .intervalEnd with door := { s.door with interval := none } })) ∧
    (TickEvent.lockoutEnd ∈ s.due → exec .lockoutEnd s = .next (without .lockoutEnd)) ∧
    (TickEvent.timerExpiry ∈ s.due → s.round.timerOn = true → s.ret.latch = false →
      s.round.countdown = some 0 →
      let fresh := { s.round with countdown := some s.round.interval }
      (s.round.run ≠ none →
        exec .timerExpiry s = .next { without .timerExpiry with round := fresh }) ∧
      (s.round.run = none → s.round.resume < s.round.list.length →
        exec .timerExpiry s =
          .next { without .timerExpiry with
            round := { fresh with run := some ⟨s.round.resume, s.round.resume, 0, 0⟩ } })) ∧
    (∀ j m, TickEvent.windowExpiry j ∈ s.due → s.clock.isSet = true → s.man j = some m →
      m.state ∈ [ManState.ready, .bags, .suspended, .locked] →
      m.closes.day * 1440 + m.closes.minute ≤ s.clock.day * 1440 + s.clock.minute →
      ∃ b, exec (.windowExpiry j) s =
          .next (State.raise .courier
            (State.recomputeDoor .handover
              ((without (.windowExpiry j)).setMan j (some { m with state := .expired, body := b })))) ∧
        (∀ d, m.body = .delivery d → b = m.body) ∧
        (∀ c, m.body = .collection c →
          b = .collection { c with
            halted := none
            entries := c.entries.map fun e =>
              if e.status = .accepted then { e with status := .pending } else e })) ∧
    (s.due = [] →
      ∀ i j, exec (.holdTimeout i) s = .next s ∧ exec .intervalEnd s = .next s ∧
        exec .lockoutEnd s = .next s ∧ exec .timerExpiry s = .next s ∧ exec (.windowExpiry j) s = .next s)

/-! ### Lines, resets and supply -/

/-- An assertion of COURIER-IN sets COURIER, in WATCH wakes the part, in DEEP does nothing; a pulse on ROUND-IN
starts a round when the trigger is enabled and none runs. A change of DOOR-SENSE is judged by the lock output: an
opening while it is locked is FORCED with SAFE, a shut clears the left-open mark. In WATCH it is so judged and wakes
the part with SAFE; in DEEP the part wakes as a pin reset first (what PIN_RESET leaves, RESET# not asserted), and
the change is judged by the locked output it finds. A deassertion of COURIER-IN or ROUND-IN has no effect. A row
carries the level of its line (log entry 7). -/
def Obligations.LineInputsAct : Prop :=
  ∀ s : State, s.live = true → s.lines = s.taken →
    let high (n : LineName) (b : Bool) : State :=
      { s with lines := s.lines.set n b, taken := s.taken.set n b }
    (s.taken.courierIn = false →
      (s.ret.kind = .none →
        exec (.courierCall true) s = .next (State.raise .courier (high .courierIn true))) ∧
      (s.ret.kind = .watch →
        exec (.courierCall true) s =
          .next (State.raise .safe (State.raise .courier
            { high .courierIn true with ret := { s.ret with kind := .none } }))) ∧
      (s.ret.kind = .deep → exec (.courierCall true) s = .next (high .courierIn true))) ∧
    exec (.courierCall false) s = .next (high .courierIn false) ∧
    (s.taken.roundIn = false →
      (s.round.trigOn = true → s.ret.kind = .none → s.round.run = none →
        s.round.resume < s.round.list.length →
        exec (.roundInPulse true) s =
          .next { high .roundIn true with
            round := { s.round with run := some ⟨s.round.resume, s.round.resume, 0, 0⟩ } }) ∧
      (s.round.trigOn = false ∨ s.ret.kind ≠ .none ∨ s.round.run ≠ none →
        exec (.roundInPulse true) s = .next (high .roundIn true))) ∧
    exec (.roundInPulse false) s = .next (high .roundIn false) ∧
    (s.ret.kind = .none →
      (s.taken.doorOpen = false → s.door.unlocked = true →
        exec (.doorSenseChange true) s = .next (high .doorSense true)) ∧
      (s.taken.doorOpen = false → s.door.unlocked = false →
        exec (.doorSenseChange true) s =
          .next (State.raise .safe { high .doorSense true with
            door := { s.door with event := some ⟨.forced, s.stamp⟩ } })) ∧
      (s.taken.doorOpen = true →
        exec (.doorSenseChange false) s =
          .next { high .doorSense false with door := { s.door with leftOpen := false } })) ∧
    (s.ret.kind = .watch →
      let woken (b : Bool) (d : Door) : State :=
        State.raise .safe { high .doorSense b with ret := { s.ret with kind := .none }, door := d }
      (s.taken.doorOpen = false → s.door.unlocked = true →
        exec (.doorSenseChange true) s = .next (woken true s.door)) ∧
      (s.taken.doorOpen = false → s.door.unlocked = false →
        exec (.doorSenseChange true) s =
          .next (woken true { s.door with event := some ⟨.forced, s.stamp⟩ })) ∧
      (s.taken.doorOpen = true →
        exec (.doorSenseChange false) s = .next (woken false { s.door with leftOpen := false }))) ∧
    (s.ret.kind = .deep → ∀ b, s.taken.doorOpen ≠ b →
      ∃ r, exec .pinReset (high .doorSense b) = .next r ∧
        exec (.doorSenseChange b) s =
          .next (if b then
              State.raise .safe { r with resetLow := false, door := { r.door with event := some ⟨.forced, none⟩ } }
            else { r with resetLow := false, door := { r.door with leftOpen := false } }))

/-- An assertion of SUPPLY-WARN with no command in progress: DEEP with the entry path SUPPLY. From a running part
the latch is set, every session ends as by COUNT-ABORT, every lane is UNPROFILED, handovers return to READY with
their ACCEPTED entries PENDING, a running round ends ABORTED with ROUND set, the door interval ends and the output
locks; every other record stands. The loss of the supply leaves the store as it is. What a part with no supply then
answers is log entry 14. -/
def Obligations.SupplyEventsAct : Prop :=
  ∀ s : State, s.live = true → s.lines = s.taken →
    let high (b : Bool) : State :=
      { s with lines := { s.lines with supplyWarn := b }, taken := { s.taken with supplyWarn := b } }
    exec .supplyLost s = .next { s with powered := false } ∧
    exec (.supplyWarning false) s = .next (high false) ∧
    (s.taken.supplyWarn = false → s.port.inProgress = none →
      (s.ret.kind = .watch →
        exec (.supplyWarning true) s =
          .next { high true with ret := { s.ret with kind := .deep, path := some .supply } }) ∧
      (s.ret.kind = .deep → exec (.supplyWarning true) s = .next (high true)) ∧
      (s.ret.kind = .none →
        ∃ t, exec (.supplyWarning true) s = .next t ∧ s.undone t ∧
          t = { high true with
            tills := t.tills, stock := t.stock, mans := t.mans, lanes := t.lanes
            ret := { s.ret with latch := true, kind := .deep, path := some .supply }
            round := s.round.cutShort s.stamp
            door := s.lockedDown
            port := { s.port with attnPending := s.port.attnPending |||
              (if s.round.run = none then 0 else Source.round.weight) |||
              (if s.leavesOpen then Source.safe.weight else 0) } }))

/-- A pin reset: the port at its values after reset, every session ended as by COUNT-ABORT, every lane UNPROFILED,
handovers back in READY, a running round ABORTED, the timer's countdown fresh, the call overflow flag clear, the
door interval ended and the output locked; every other record stands, and the clock with them. RESET# in retention
also wakes the part, at its assertion (log entry 9), with the latch and SAFE set, and from DEEP with the clock
unset. The deassertion of RESET# with no line changed changes nothing else. -/
def Obligations.PinResetActs : Prop :=
  ∀ s : State, s.powered = true → s.due = [] → s.resetLow = false →
    ∃ t, exec .pinReset s = .next t ∧ s.undone t ∧
      t = { s with
        tills := t.tills, stock := t.stock, mans := t.mans, lanes := t.lanes
        port := { args := [], overflow := false, reply := [], readPos := 0, code := .ok, inProgress := none
                  held := [], done := false, attnEnable := 0
                  attnPending := if s.ret.kind = .none then 0 else Source.safe.weight
                  dataOut := if .reply ∈ s.port.held then 0 else s.port.dataOut }
        round := { s.round.cutShort s.stamp with
          countdown := if s.round.timerOn then some s.round.interval else none }
        callOverflow := false
        door := s.lockedDown
        ret := { s.ret with
          kind := .none
          latch := s.ret.latch || decide (s.ret.kind ≠ .none)
          cause := if s.ret.kind = .deep then (if s.ret.path = some .supply then .supply else .retention)
            else .pin }
        clock := if s.ret.kind = .deep then ⟨false, 0, 0, 0⟩ else s.clock
        resetLow := true } ∧
      (s.lines = s.taken → exec .resetDeassert t = .next { t with resetLow := false })

/-- A cold power-up. With the marker broken every record takes its cold value and the cause is STORE-LOST; with
the store held the clock is unset, the cause is POWER, work in flight is undone as by a pin reset (sessions ended as
by COUNT-ABORT, lanes UNPROFILED, handovers back in READY, a running round ABORTED), the port takes its values after
reset, the output is locked, the left-open mark stays only with the door sensed open, and every other record
stands, the latch and the entry path with them. Whether the store was held is the operand of the row (log entry 15);
a round cut short bears an absent time (log entry 26). -/
def Obligations.ColdPowerUpActs : Prop :=
  ∀ (held : Bool) (s : State), s.due = [] →
    (s.ret.storeValid = false ∨ held = false →
      exec (.coldPowerUp held) s =
        .next { State.reset with
          port := { State.reset.port with dataOut := s.port.dataOut }
          lines := s.lines, taken := s.lines, resetLow := s.resetLow, freeCount := s.freeCount
          pending := s.pending }) ∧
    (s.ret.storeValid = true → held = true →
      ∃ t, exec (.coldPowerUp held) s = .next t ∧ s.undone t ∧
        t = { s with
          tills := t.tills, stock := t.stock, mans := t.mans, lanes := t.lanes
          port := { State.reset.port with dataOut := s.port.dataOut }
          round := { s.round.cutShort none with
            countdown := if s.round.timerOn then some s.round.interval else none }
          callOverflow := false
          door := { unlocked := false, interval := none, leftOpen := s.door.leftOpen && s.lines.doorOpen
                    event := s.door.event }
          clock := ⟨false, 0, 0, 0⟩
          ret := { s.ret with kind := .none, cause := .power }
          taken := s.lines
          powered := true })

/-! ### Laws that every step keeps -/

/-- The lock output is unlocked exactly while the latch is clear and a collection is in BAGS or an interval
runs, and every step keeps it so. -/
def Obligations.DoorLawKept : Prop :=
  ∀ s t : State, s.doorLaw → step s = .next t → t.doorLaw

/-- Every step keeps the bounds of the call queue (at most 32 entries, at most one for a till and kind), of the
port's argument buffer and read position, of the authority unit and of the wrong-code counts. Every step keeps the
batch stacks at 8 batches at most. Every step keeps each bag in its one place, with at most K bags in a compartment
and a queue only under a halt, together with the manifests that list the bags; and with these, the bounds of the
lists that replies carry and the bound of 192 bytes of the reply buffer. -/
def Obligations.BoundsKept : Prop :=
  (∀ s t : State, s.queueLaw → s.port.bounded → s.codeLaw → step s = .next t →
    t.queueLaw ∧ t.port.bounded ∧ t.codeLaw) ∧
  (∀ s t : State, s.stackLaw → step s = .next t → t.stackLaw) ∧
  (∀ s t : State, s.rackLaw → step s = .next t → t.rackLaw) ∧
  (∀ s t : State, s.rackLaw → s.listsLaw → s.port.replyBounded → step s = .next t →
    t.listsLaw ∧ t.port.replyBounded)

/-- After reset every law of the records holds. The state after reset is the model's choice of start (log entry
1). -/
def Obligations.LawsAtReset : Prop :=
  State.reset.balanceLaw ∧ State.reset.doorLaw ∧ State.reset.queueLaw ∧ State.reset.port.bounded ∧
    State.reset.codeLaw ∧ State.reset.officeLaw ∧ State.reset.rackLaw ∧ State.reset.listsLaw ∧
    State.reset.port.replyBounded

end
end

