-- ==== Sys2Proof/Laws/State.lean ====
section
/-! SUPPORT. What each update of the state does to each field, by definition. -/

namespace Sys2Proof.Machine

@[simp] theorem State.setTill_port (t : TillIx) (x : Till) (s : State) :
    (s.setTill t x).port = s.port := rfl
@[simp] theorem State.setTill_denoms (t : TillIx) (x : Till) (s : State) :
    (s.setTill t x).denoms = s.denoms := rfl
@[simp] theorem State.setTill_stock (t : TillIx) (x : Till) (s : State) :
    (s.setTill t x).stock = s.stock := rfl
@[simp] theorem State.setTill_balance (t : TillIx) (x : Till) (s : State) :
    (s.setTill t x).balance = s.balance := rfl
@[simp] theorem State.setTill_limits (t : TillIx) (x : Till) (s : State) :
    (s.setTill t x).limits = s.limits := rfl
@[simp] theorem State.setTill_templates (t : TillIx) (x : Till) (s : State) :
    (s.setTill t x).templates = s.templates := rfl
@[simp] theorem State.setTill_tills (t : TillIx) (x : Till) (s : State) :
    (s.setTill t x).tills = s.tills.set t x := rfl
@[simp] theorem State.setTill_calls (t : TillIx) (x : Till) (s : State) :
    (s.setTill t x).calls = s.calls := rfl
@[simp] theorem State.setTill_callOverflow (t : TillIx) (x : Till) (s : State) :
    (s.setTill t x).callOverflow = s.callOverflow := rfl
@[simp] theorem State.setTill_round (t : TillIx) (x : Till) (s : State) :
    (s.setTill t x).round = s.round := rfl
@[simp] theorem State.setTill_lanes (t : TillIx) (x : Till) (s : State) :
    (s.setTill t x).lanes = s.lanes := rfl
@[simp] theorem State.setTill_audit (t : TillIx) (x : Till) (s : State) :
    (s.setTill t x).audit = s.audit := rfl
@[simp] theorem State.setTill_bags (t : TillIx) (x : Till) (s : State) :
    (s.setTill t x).bags = s.bags := rfl
@[simp] theorem State.setTill_rack (t : TillIx) (x : Till) (s : State) :
    (s.setTill t x).rack = s.rack := rfl
@[simp] theorem State.setTill_mans (t : TillIx) (x : Till) (s : State) :
    (s.setTill t x).mans = s.mans := rfl
@[simp] theorem State.setTill_door (t : TillIx) (x : Till) (s : State) :
    (s.setTill t x).door = s.door := rfl
@[simp] theorem State.setTill_auth (t : TillIx) (x : Till) (s : State) :
    (s.setTill t x).auth = s.auth := rfl
@[simp] theorem State.setTill_clock (t : TillIx) (x : Till) (s : State) :
    (s.setTill t x).clock = s.clock := rfl
@[simp] theorem State.setTill_ret (t : TillIx) (x : Till) (s : State) :
    (s.setTill t x).ret = s.ret := rfl
@[simp] theorem State.setTill_lines (t : TillIx) (x : Till) (s : State) :
    (s.setTill t x).lines = s.lines := rfl
@[simp] theorem State.setTill_taken (t : TillIx) (x : Till) (s : State) :
    (s.setTill t x).taken = s.taken := rfl
@[simp] theorem State.setTill_resetLow (t : TillIx) (x : Till) (s : State) :
    (s.setTill t x).resetLow = s.resetLow := rfl
@[simp] theorem State.setTill_powered (t : TillIx) (x : Till) (s : State) :
    (s.setTill t x).powered = s.powered := rfl
@[simp] theorem State.setTill_due (t : TillIx) (x : Till) (s : State) :
    (s.setTill t x).due = s.due := rfl
@[simp] theorem State.setTill_freeCount (t : TillIx) (x : Till) (s : State) :
    (s.setTill t x).freeCount = s.freeCount := rfl
@[simp] theorem State.setTill_pending (t : TillIx) (x : Till) (s : State) :
    (s.setTill t x).pending = s.pending := rfl

@[simp] theorem State.setLane_port (i : LaneIx) (x : Lane) (s : State) :
    (s.setLane i x).port = s.port := rfl
@[simp] theorem State.setLane_denoms (i : LaneIx) (x : Lane) (s : State) :
    (s.setLane i x).denoms = s.denoms := rfl
@[simp] theorem State.setLane_stock (i : LaneIx) (x : Lane) (s : State) :
    (s.setLane i x).stock = s.stock := rfl
@[simp] theorem State.setLane_balance (i : LaneIx) (x : Lane) (s : State) :
    (s.setLane i x).balance = s.balance := rfl
@[simp] theorem State.setLane_limits (i : LaneIx) (x : Lane) (s : State) :
    (s.setLane i x).limits = s.limits := rfl
@[simp] theorem State.setLane_templates (i : LaneIx) (x : Lane) (s : State) :
    (s.setLane i x).templates = s.templates := rfl
@[simp] theorem State.setLane_tills (i : LaneIx) (x : Lane) (s : State) :
    (s.setLane i x).tills = s.tills := rfl
@[simp] theorem State.setLane_calls (i : LaneIx) (x : Lane) (s : State) :
    (s.setLane i x).calls = s.calls := rfl
@[simp] theorem State.setLane_callOverflow (i : LaneIx) (x : Lane) (s : State) :
    (s.setLane i x).callOverflow = s.callOverflow := rfl
@[simp] theorem State.setLane_round (i : LaneIx) (x : Lane) (s : State) :
    (s.setLane i x).round = s.round := rfl
@[simp] theorem State.setLane_lanes (i : LaneIx) (x : Lane) (s : State) :
    (s.setLane i x).lanes = s.lanes.set i x := rfl
@[simp] theorem State.setLane_audit (i : LaneIx) (x : Lane) (s : State) :
    (s.setLane i x).audit = s.audit := rfl
@[simp] theorem State.setLane_bags (i : LaneIx) (x : Lane) (s : State) :
    (s.setLane i x).bags = s.bags := rfl
@[simp] theorem State.setLane_rack (i : LaneIx) (x : Lane) (s : State) :
    (s.setLane i x).rack = s.rack := rfl
@[simp] theorem State.setLane_mans (i : LaneIx) (x : Lane) (s : State) :
    (s.setLane i x).mans = s.mans := rfl
@[simp] theorem State.setLane_door (i : LaneIx) (x : Lane) (s : State) :
    (s.setLane i x).door = s.door := rfl
@[simp] theorem State.setLane_auth (i : LaneIx) (x : Lane) (s : State) :
    (s.setLane i x).auth = s.auth := rfl
@[simp] theorem State.setLane_clock (i : LaneIx) (x : Lane) (s : State) :
    (s.setLane i x).clock = s.clock := rfl
@[simp] theorem State.setLane_ret (i : LaneIx) (x : Lane) (s : State) :
    (s.setLane i x).ret = s.ret := rfl
@[simp] theorem State.setLane_lines (i : LaneIx) (x : Lane) (s : State) :
    (s.setLane i x).lines = s.lines := rfl
@[simp] theorem State.setLane_taken (i : LaneIx) (x : Lane) (s : State) :
    (s.setLane i x).taken = s.taken := rfl
@[simp] theorem State.setLane_resetLow (i : LaneIx) (x : Lane) (s : State) :
    (s.setLane i x).resetLow = s.resetLow := rfl
@[simp] theorem State.setLane_powered (i : LaneIx) (x : Lane) (s : State) :
    (s.setLane i x).powered = s.powered := rfl
@[simp] theorem State.setLane_due (i : LaneIx) (x : Lane) (s : State) :
    (s.setLane i x).due = s.due := rfl
@[simp] theorem State.setLane_freeCount (i : LaneIx) (x : Lane) (s : State) :
    (s.setLane i x).freeCount = s.freeCount := rfl
@[simp] theorem State.setLane_pending (i : LaneIx) (x : Lane) (s : State) :
    (s.setLane i x).pending = s.pending := rfl

@[simp] theorem State.setBag_port (b : BagIx) (x : Option Bag) (s : State) :
    (s.setBag b x).port = s.port := rfl
@[simp] theorem State.setBag_denoms (b : BagIx) (x : Option Bag) (s : State) :
    (s.setBag b x).denoms = s.denoms := rfl
@[simp] theorem State.setBag_stock (b : BagIx) (x : Option Bag) (s : State) :
    (s.setBag b x).stock = s.stock := rfl
@[simp] theorem State.setBag_balance (b : BagIx) (x : Option Bag) (s : State) :
    (s.setBag b x).balance = s.balance := rfl
@[simp] theorem State.setBag_limits (b : BagIx) (x : Option Bag) (s : State) :
    (s.setBag b x).limits = s.limits := rfl
@[simp] theorem State.setBag_templates (b : BagIx) (x : Option Bag) (s : State) :
    (s.setBag b x).templates = s.templates := rfl
@[simp] theorem State.setBag_tills (b : BagIx) (x : Option Bag) (s : State) :
    (s.setBag b x).tills = s.tills := rfl
@[simp] theorem State.setBag_calls (b : BagIx) (x : Option Bag) (s : State) :
    (s.setBag b x).calls = s.calls := rfl
@[simp] theorem State.setBag_callOverflow (b : BagIx) (x : Option Bag) (s : State) :
    (s.setBag b x).callOverflow = s.callOverflow := rfl
@[simp] theorem State.setBag_round (b : BagIx) (x : Option Bag) (s : State) :
    (s.setBag b x).round = s.round := rfl
@[simp] theorem State.setBag_lanes (b : BagIx) (x : Option Bag) (s : State) :
    (s.setBag b x).lanes = s.lanes := rfl
@[simp] theorem State.setBag_audit (b : BagIx) (x : Option Bag) (s : State) :
    (s.setBag b x).audit = s.audit := rfl
@[simp] theorem State.setBag_bags (b : BagIx) (x : Option Bag) (s : State) :
    (s.setBag b x).bags = s.bags.set b x := rfl
@[simp] theorem State.setBag_rack (b : BagIx) (x : Option Bag) (s : State) :
    (s.setBag b x).rack = s.rack := rfl
@[simp] theorem State.setBag_mans (b : BagIx) (x : Option Bag) (s : State) :
    (s.setBag b x).mans = s.mans := rfl
@[simp] theorem State.setBag_door (b : BagIx) (x : Option Bag) (s : State) :
    (s.setBag b x).door = s.door := rfl
@[simp] theorem State.setBag_auth (b : BagIx) (x : Option Bag) (s : State) :
    (s.setBag b x).auth = s.auth := rfl
@[simp] theorem State.setBag_clock (b : BagIx) (x : Option Bag) (s : State) :
    (s.setBag b x).clock = s.clock := rfl
@[simp] theorem State.setBag_ret (b : BagIx) (x : Option Bag) (s : State) :
    (s.setBag b x).ret = s.ret := rfl
@[simp] theorem State.setBag_lines (b : BagIx) (x : Option Bag) (s : State) :
    (s.setBag b x).lines = s.lines := rfl
@[simp] theorem State.setBag_taken (b : BagIx) (x : Option Bag) (s : State) :
    (s.setBag b x).taken = s.taken := rfl
@[simp] theorem State.setBag_resetLow (b : BagIx) (x : Option Bag) (s : State) :
    (s.setBag b x).resetLow = s.resetLow := rfl
@[simp] theorem State.setBag_powered (b : BagIx) (x : Option Bag) (s : State) :
    (s.setBag b x).powered = s.powered := rfl
@[simp] theorem State.setBag_due (b : BagIx) (x : Option Bag) (s : State) :
    (s.setBag b x).due = s.due := rfl
@[simp] theorem State.setBag_freeCount (b : BagIx) (x : Option Bag) (s : State) :
    (s.setBag b x).freeCount = s.freeCount := rfl
@[simp] theorem State.setBag_pending (b : BagIx) (x : Option Bag) (s : State) :
    (s.setBag b x).pending = s.pending := rfl

@[simp] theorem State.setMan_port (i : SlotIx) (x : Option Manifest) (s : State) :
    (s.setMan i x).port = s.port := rfl
@[simp] theorem State.setMan_denoms (i : SlotIx) (x : Option Manifest) (s : State) :
    (s.setMan i x).denoms = s.denoms := rfl
@[simp] theorem State.setMan_stock (i : SlotIx) (x : Option Manifest) (s : State) :
    (s.setMan i x).stock = s.stock := rfl
@[simp] theorem State.setMan_balance (i : SlotIx) (x : Option Manifest) (s : State) :
    (s.setMan i x).balance = s.balance := rfl
@[simp] theorem State.setMan_limits (i : SlotIx) (x : Option Manifest) (s : State) :
    (s.setMan i x).limits = s.limits := rfl
@[simp] theorem State.setMan_templates (i : SlotIx) (x : Option Manifest) (s : State) :
    (s.setMan i x).templates = s.templates := rfl
@[simp] theorem State.setMan_tills (i : SlotIx) (x : Option Manifest) (s : State) :
    (s.setMan i x).tills = s.tills := rfl
@[simp] theorem State.setMan_calls (i : SlotIx) (x : Option Manifest) (s : State) :
    (s.setMan i x).calls = s.calls := rfl
@[simp] theorem State.setMan_callOverflow (i : SlotIx) (x : Option Manifest) (s : State) :
    (s.setMan i x).callOverflow = s.callOverflow := rfl
@[simp] theorem State.setMan_round (i : SlotIx) (x : Option Manifest) (s : State) :
    (s.setMan i x).round = s.round := rfl
@[simp] theorem State.setMan_lanes (i : SlotIx) (x : Option Manifest) (s : State) :
    (s.setMan i x).lanes = s.lanes := rfl
@[simp] theorem State.setMan_audit (i : SlotIx) (x : Option Manifest) (s : State) :
    (s.setMan i x).audit = s.audit := rfl
@[simp] theorem State.setMan_bags (i : SlotIx) (x : Option Manifest) (s : State) :
    (s.setMan i x).bags = s.bags := rfl
@[simp] theorem State.setMan_rack (i : SlotIx) (x : Option Manifest) (s : State) :
    (s.setMan i x).rack = s.rack := rfl
@[simp] theorem State.setMan_mans (i : SlotIx) (x : Option Manifest) (s : State) :
    (s.setMan i x).mans = s.mans.set i x := rfl
@[simp] theorem State.setMan_door (i : SlotIx) (x : Option Manifest) (s : State) :
    (s.setMan i x).door = s.door := rfl
@[simp] theorem State.setMan_auth (i : SlotIx) (x : Option Manifest) (s : State) :
    (s.setMan i x).auth = s.auth := rfl
@[simp] theorem State.setMan_clock (i : SlotIx) (x : Option Manifest) (s : State) :
    (s.setMan i x).clock = s.clock := rfl
@[simp] theorem State.setMan_ret (i : SlotIx) (x : Option Manifest) (s : State) :
    (s.setMan i x).ret = s.ret := rfl
@[simp] theorem State.setMan_lines (i : SlotIx) (x : Option Manifest) (s : State) :
    (s.setMan i x).lines = s.lines := rfl
@[simp] theorem State.setMan_taken (i : SlotIx) (x : Option Manifest) (s : State) :
    (s.setMan i x).taken = s.taken := rfl
@[simp] theorem State.setMan_resetLow (i : SlotIx) (x : Option Manifest) (s : State) :
    (s.setMan i x).resetLow = s.resetLow := rfl
@[simp] theorem State.setMan_powered (i : SlotIx) (x : Option Manifest) (s : State) :
    (s.setMan i x).powered = s.powered := rfl
@[simp] theorem State.setMan_due (i : SlotIx) (x : Option Manifest) (s : State) :
    (s.setMan i x).due = s.due := rfl
@[simp] theorem State.setMan_freeCount (i : SlotIx) (x : Option Manifest) (s : State) :
    (s.setMan i x).freeCount = s.freeCount := rfl
@[simp] theorem State.setMan_pending (i : SlotIx) (x : Option Manifest) (s : State) :
    (s.setMan i x).pending = s.pending := rfl

@[simp] theorem State.raise_port (a : Source) (s : State) :
    (s.raise a).port = { s.port with attnPending := s.port.attnPending ||| a.weight } := rfl
@[simp] theorem State.raise_denoms (a : Source) (s : State) :
    (s.raise a).denoms = s.denoms := rfl
@[simp] theorem State.raise_stock (a : Source) (s : State) :
    (s.raise a).stock = s.stock := rfl
@[simp] theorem State.raise_balance (a : Source) (s : State) :
    (s.raise a).balance = s.balance := rfl
@[simp] theorem State.raise_limits (a : Source) (s : State) :
    (s.raise a).limits = s.limits := rfl
@[simp] theorem State.raise_templates (a : Source) (s : State) :
    (s.raise a).templates = s.templates := rfl
@[simp] theorem State.raise_tills (a : Source) (s : State) :
    (s.raise a).tills = s.tills := rfl
@[simp] theorem State.raise_calls (a : Source) (s : State) :
    (s.raise a).calls = s.calls := rfl
@[simp] theorem State.raise_callOverflow (a : Source) (s : State) :
    (s.raise a).callOverflow = s.callOverflow := rfl
@[simp] theorem State.raise_round (a : Source) (s : State) :
    (s.raise a).round = s.round := rfl
@[simp] theorem State.raise_lanes (a : Source) (s : State) :
    (s.raise a).lanes = s.lanes := rfl
@[simp] theorem State.raise_audit (a : Source) (s : State) :
    (s.raise a).audit = s.audit := rfl
@[simp] theorem State.raise_bags (a : Source) (s : State) :
    (s.raise a).bags = s.bags := rfl
@[simp] theorem State.raise_rack (a : Source) (s : State) :
    (s.raise a).rack = s.rack := rfl
@[simp] theorem State.raise_mans (a : Source) (s : State) :
    (s.raise a).mans = s.mans := rfl
@[simp] theorem State.raise_door (a : Source) (s : State) :
    (s.raise a).door = s.door := rfl
@[simp] theorem State.raise_auth (a : Source) (s : State) :
    (s.raise a).auth = s.auth := rfl
@[simp] theorem State.raise_clock (a : Source) (s : State) :
    (s.raise a).clock = s.clock := rfl
@[simp] theorem State.raise_ret (a : Source) (s : State) :
    (s.raise a).ret = s.ret := rfl
@[simp] theorem State.raise_lines (a : Source) (s : State) :
    (s.raise a).lines = s.lines := rfl
@[simp] theorem State.raise_taken (a : Source) (s : State) :
    (s.raise a).taken = s.taken := rfl
@[simp] theorem State.raise_resetLow (a : Source) (s : State) :
    (s.raise a).resetLow = s.resetLow := rfl
@[simp] theorem State.raise_powered (a : Source) (s : State) :
    (s.raise a).powered = s.powered := rfl
@[simp] theorem State.raise_due (a : Source) (s : State) :
    (s.raise a).due = s.due := rfl
@[simp] theorem State.raise_freeCount (a : Source) (s : State) :
    (s.raise a).freeCount = s.freeCount := rfl
@[simp] theorem State.raise_pending (a : Source) (s : State) :
    (s.raise a).pending = s.pending := rfl

@[simp] theorem State.moveOut_port (k : Comp) (s : State) :
    (s.moveOut k).port = s.port := rfl
@[simp] theorem State.moveOut_denoms (k : Comp) (s : State) :
    (s.moveOut k).denoms = s.denoms := rfl
@[simp] theorem State.moveOut_stock (k : Comp) (s : State) :
    (s.moveOut k).stock = tab fun c => { s.stock[c] with counts := s.stock[c].counts.sub k[c] } := rfl
@[simp] theorem State.moveOut_balance (k : Comp) (s : State) :
    (s.moveOut k).balance = s.balance := rfl
@[simp] theorem State.moveOut_limits (k : Comp) (s : State) :
    (s.moveOut k).limits = s.limits := rfl
@[simp] theorem State.moveOut_templates (k : Comp) (s : State) :
    (s.moveOut k).templates = s.templates := rfl
@[simp] theorem State.moveOut_tills (k : Comp) (s : State) :
    (s.moveOut k).tills = s.tills := rfl
@[simp] theorem State.moveOut_calls (k : Comp) (s : State) :
    (s.moveOut k).calls = s.calls := rfl
@[simp] theorem State.moveOut_callOverflow (k : Comp) (s : State) :
    (s.moveOut k).callOverflow = s.callOverflow := rfl
@[simp] theorem State.moveOut_round (k : Comp) (s : State) :
    (s.moveOut k).round = s.round := rfl
@[simp] theorem State.moveOut_lanes (k : Comp) (s : State) :
    (s.moveOut k).lanes = s.lanes := rfl
@[simp] theorem State.moveOut_audit (k : Comp) (s : State) :
    (s.moveOut k).audit = s.audit := rfl
@[simp] theorem State.moveOut_bags (k : Comp) (s : State) :
    (s.moveOut k).bags = s.bags := rfl
@[simp] theorem State.moveOut_rack (k : Comp) (s : State) :
    (s.moveOut k).rack = s.rack := rfl
@[simp] theorem State.moveOut_mans (k : Comp) (s : State) :
    (s.moveOut k).mans = s.mans := rfl
@[simp] theorem State.moveOut_door (k : Comp) (s : State) :
    (s.moveOut k).door = s.door := rfl
@[simp] theorem State.moveOut_auth (k : Comp) (s : State) :
    (s.moveOut k).auth = s.auth := rfl
@[simp] theorem State.moveOut_clock (k : Comp) (s : State) :
    (s.moveOut k).clock = s.clock := rfl
@[simp] theorem State.moveOut_ret (k : Comp) (s : State) :
    (s.moveOut k).ret = s.ret := rfl
@[simp] theorem State.moveOut_lines (k : Comp) (s : State) :
    (s.moveOut k).lines = s.lines := rfl
@[simp] theorem State.moveOut_taken (k : Comp) (s : State) :
    (s.moveOut k).taken = s.taken := rfl
@[simp] theorem State.moveOut_resetLow (k : Comp) (s : State) :
    (s.moveOut k).resetLow = s.resetLow := rfl
@[simp] theorem State.moveOut_powered (k : Comp) (s : State) :
    (s.moveOut k).powered = s.powered := rfl
@[simp] theorem State.moveOut_due (k : Comp) (s : State) :
    (s.moveOut k).due = s.due := rfl
@[simp] theorem State.moveOut_freeCount (k : Comp) (s : State) :
    (s.moveOut k).freeCount = s.freeCount := rfl
@[simp] theorem State.moveOut_pending (k : Comp) (s : State) :
    (s.moveOut k).pending = s.pending := rfl

@[simp] theorem State.moveIn_port (k : Comp) (s : State) :
    (s.moveIn k).port = s.port := rfl
@[simp] theorem State.moveIn_denoms (k : Comp) (s : State) :
    (s.moveIn k).denoms = s.denoms := rfl
@[simp] theorem State.moveIn_stock (k : Comp) (s : State) :
    (s.moveIn k).stock = tab fun c => { s.stock[c] with counts := s.stock[c].counts.add k[c] } := rfl
@[simp] theorem State.moveIn_balance (k : Comp) (s : State) :
    (s.moveIn k).balance = s.balance := rfl
@[simp] theorem State.moveIn_limits (k : Comp) (s : State) :
    (s.moveIn k).limits = s.limits := rfl
@[simp] theorem State.moveIn_templates (k : Comp) (s : State) :
    (s.moveIn k).templates = s.templates := rfl
@[simp] theorem State.moveIn_tills (k : Comp) (s : State) :
    (s.moveIn k).tills = s.tills := rfl
@[simp] theorem State.moveIn_calls (k : Comp) (s : State) :
    (s.moveIn k).calls = s.calls := rfl
@[simp] theorem State.moveIn_callOverflow (k : Comp) (s : State) :
    (s.moveIn k).callOverflow = s.callOverflow := rfl
@[simp] theorem State.moveIn_round (k : Comp) (s : State) :
    (s.moveIn k).round = s.round := rfl
@[simp] theorem State.moveIn_lanes (k : Comp) (s : State) :
    (s.moveIn k).lanes = s.lanes := rfl
@[simp] theorem State.moveIn_audit (k : Comp) (s : State) :
    (s.moveIn k).audit = s.audit := rfl
@[simp] theorem State.moveIn_bags (k : Comp) (s : State) :
    (s.moveIn k).bags = s.bags := rfl
@[simp] theorem State.moveIn_rack (k : Comp) (s : State) :
    (s.moveIn k).rack = s.rack := rfl
@[simp] theorem State.moveIn_mans (k : Comp) (s : State) :
    (s.moveIn k).mans = s.mans := rfl
@[simp] theorem State.moveIn_door (k : Comp) (s : State) :
    (s.moveIn k).door = s.door := rfl
@[simp] theorem State.moveIn_auth (k : Comp) (s : State) :
    (s.moveIn k).auth = s.auth := rfl
@[simp] theorem State.moveIn_clock (k : Comp) (s : State) :
    (s.moveIn k).clock = s.clock := rfl
@[simp] theorem State.moveIn_ret (k : Comp) (s : State) :
    (s.moveIn k).ret = s.ret := rfl
@[simp] theorem State.moveIn_lines (k : Comp) (s : State) :
    (s.moveIn k).lines = s.lines := rfl
@[simp] theorem State.moveIn_taken (k : Comp) (s : State) :
    (s.moveIn k).taken = s.taken := rfl
@[simp] theorem State.moveIn_resetLow (k : Comp) (s : State) :
    (s.moveIn k).resetLow = s.resetLow := rfl
@[simp] theorem State.moveIn_powered (k : Comp) (s : State) :
    (s.moveIn k).powered = s.powered := rfl
@[simp] theorem State.moveIn_due (k : Comp) (s : State) :
    (s.moveIn k).due = s.due := rfl
@[simp] theorem State.moveIn_freeCount (k : Comp) (s : State) :
    (s.moveIn k).freeCount = s.freeCount := rfl
@[simp] theorem State.moveIn_pending (k : Comp) (s : State) :
    (s.moveIn k).pending = s.pending := rfl

@[simp] theorem State.freeze_port (m : CodeSet) (b : Bool) (s : State) :
    (s.freeze m b).port = s.port := rfl
@[simp] theorem State.freeze_denoms (m : CodeSet) (b : Bool) (s : State) :
    (s.freeze m b).denoms = s.denoms := rfl
@[simp] theorem State.freeze_stock (m : CodeSet) (b : Bool) (s : State) :
    (s.freeze m b).stock = tab fun c => if has m c then { s.stock[c] with frozen := b } else s.stock[c] := rfl
@[simp] theorem State.freeze_balance (m : CodeSet) (b : Bool) (s : State) :
    (s.freeze m b).balance = s.balance := rfl
@[simp] theorem State.freeze_limits (m : CodeSet) (b : Bool) (s : State) :
    (s.freeze m b).limits = s.limits := rfl
@[simp] theorem State.freeze_templates (m : CodeSet) (b : Bool) (s : State) :
    (s.freeze m b).templates = s.templates := rfl
@[simp] theorem State.freeze_tills (m : CodeSet) (b : Bool) (s : State) :
    (s.freeze m b).tills = s.tills := rfl
@[simp] theorem State.freeze_calls (m : CodeSet) (b : Bool) (s : State) :
    (s.freeze m b).calls = s.calls := rfl
@[simp] theorem State.freeze_callOverflow (m : CodeSet) (b : Bool) (s : State) :
    (s.freeze m b).callOverflow = s.callOverflow := rfl
@[simp] theorem State.freeze_round (m : CodeSet) (b : Bool) (s : State) :
    (s.freeze m b).round = s.round := rfl
@[simp] theorem State.freeze_lanes (m : CodeSet) (b : Bool) (s : State) :
    (s.freeze m b).lanes = s.lanes := rfl
@[simp] theorem State.freeze_audit (m : CodeSet) (b : Bool) (s : State) :
    (s.freeze m b).audit = s.audit := rfl
@[simp] theorem State.freeze_bags (m : CodeSet) (b : Bool) (s : State) :
    (s.freeze m b).bags = s.bags := rfl
@[simp] theorem State.freeze_rack (m : CodeSet) (b : Bool) (s : State) :
    (s.freeze m b).rack = s.rack := rfl
@[simp] theorem State.freeze_mans (m : CodeSet) (b : Bool) (s : State) :
    (s.freeze m b).mans = s.mans := rfl
@[simp] theorem State.freeze_door (m : CodeSet) (b : Bool) (s : State) :
    (s.freeze m b).door = s.door := rfl
@[simp] theorem State.freeze_auth (m : CodeSet) (b : Bool) (s : State) :
    (s.freeze m b).auth = s.auth := rfl
@[simp] theorem State.freeze_clock (m : CodeSet) (b : Bool) (s : State) :
    (s.freeze m b).clock = s.clock := rfl
@[simp] theorem State.freeze_ret (m : CodeSet) (b : Bool) (s : State) :
    (s.freeze m b).ret = s.ret := rfl
@[simp] theorem State.freeze_lines (m : CodeSet) (b : Bool) (s : State) :
    (s.freeze m b).lines = s.lines := rfl
@[simp] theorem State.freeze_taken (m : CodeSet) (b : Bool) (s : State) :
    (s.freeze m b).taken = s.taken := rfl
@[simp] theorem State.freeze_resetLow (m : CodeSet) (b : Bool) (s : State) :
    (s.freeze m b).resetLow = s.resetLow := rfl
@[simp] theorem State.freeze_powered (m : CodeSet) (b : Bool) (s : State) :
    (s.freeze m b).powered = s.powered := rfl
@[simp] theorem State.freeze_due (m : CodeSet) (b : Bool) (s : State) :
    (s.freeze m b).due = s.due := rfl
@[simp] theorem State.freeze_freeCount (m : CodeSet) (b : Bool) (s : State) :
    (s.freeze m b).freeCount = s.freeCount := rfl
@[simp] theorem State.freeze_pending (m : CodeSet) (b : Bool) (s : State) :
    (s.freeze m b).pending = s.pending := rfl

@[simp] theorem State.post_port (d : Int) (s : State) :
    (s.post d).port = s.port := rfl
@[simp] theorem State.post_denoms (d : Int) (s : State) :
    (s.post d).denoms = s.denoms := rfl
@[simp] theorem State.post_stock (d : Int) (s : State) :
    (s.post d).stock = s.stock := rfl
@[simp] theorem State.post_balance (d : Int) (s : State) :
    (s.post d).balance = ((s.balance : Int) + d).toNat := rfl
@[simp] theorem State.post_limits (d : Int) (s : State) :
    (s.post d).limits = s.limits := rfl
@[simp] theorem State.post_templates (d : Int) (s : State) :
    (s.post d).templates = s.templates := rfl
@[simp] theorem State.post_tills (d : Int) (s : State) :
    (s.post d).tills = s.tills := rfl
@[simp] theorem State.post_calls (d : Int) (s : State) :
    (s.post d).calls = s.calls := rfl
@[simp] theorem State.post_callOverflow (d : Int) (s : State) :
    (s.post d).callOverflow = s.callOverflow := rfl
@[simp] theorem State.post_round (d : Int) (s : State) :
    (s.post d).round = s.round := rfl
@[simp] theorem State.post_lanes (d : Int) (s : State) :
    (s.post d).lanes = s.lanes := rfl
@[simp] theorem State.post_audit (d : Int) (s : State) :
    (s.post d).audit = s.audit := rfl
@[simp] theorem State.post_bags (d : Int) (s : State) :
    (s.post d).bags = s.bags := rfl
@[simp] theorem State.post_rack (d : Int) (s : State) :
    (s.post d).rack = s.rack := rfl
@[simp] theorem State.post_mans (d : Int) (s : State) :
    (s.post d).mans = s.mans := rfl
@[simp] theorem State.post_door (d : Int) (s : State) :
    (s.post d).door = s.door := rfl
@[simp] theorem State.post_auth (d : Int) (s : State) :
    (s.post d).auth = s.auth := rfl
@[simp] theorem State.post_clock (d : Int) (s : State) :
    (s.post d).clock = s.clock := rfl
@[simp] theorem State.post_ret (d : Int) (s : State) :
    (s.post d).ret = s.ret := rfl
@[simp] theorem State.post_lines (d : Int) (s : State) :
    (s.post d).lines = s.lines := rfl
@[simp] theorem State.post_taken (d : Int) (s : State) :
    (s.post d).taken = s.taken := rfl
@[simp] theorem State.post_resetLow (d : Int) (s : State) :
    (s.post d).resetLow = s.resetLow := rfl
@[simp] theorem State.post_powered (d : Int) (s : State) :
    (s.post d).powered = s.powered := rfl
@[simp] theorem State.post_due (d : Int) (s : State) :
    (s.post d).due = s.due := rfl
@[simp] theorem State.post_freeCount (d : Int) (s : State) :
    (s.post d).freeCount = s.freeCount := rfl
@[simp] theorem State.post_pending (d : Int) (s : State) :
    (s.post d).pending = s.pending := rfl

@[simp] theorem State.removeCall_port (t : TillIx) (k : CallKind) (s : State) :
    (s.removeCall t k).port = s.port := rfl
@[simp] theorem State.removeCall_denoms (t : TillIx) (k : CallKind) (s : State) :
    (s.removeCall t k).denoms = s.denoms := rfl
@[simp] theorem State.removeCall_stock (t : TillIx) (k : CallKind) (s : State) :
    (s.removeCall t k).stock = s.stock := rfl
@[simp] theorem State.removeCall_balance (t : TillIx) (k : CallKind) (s : State) :
    (s.removeCall t k).balance = s.balance := rfl
@[simp] theorem State.removeCall_limits (t : TillIx) (k : CallKind) (s : State) :
    (s.removeCall t k).limits = s.limits := rfl
@[simp] theorem State.removeCall_templates (t : TillIx) (k : CallKind) (s : State) :
    (s.removeCall t k).templates = s.templates := rfl
@[simp] theorem State.removeCall_tills (t : TillIx) (k : CallKind) (s : State) :
    (s.removeCall t k).tills = s.tills := rfl
@[simp] theorem State.removeCall_calls (t : TillIx) (k : CallKind) (s : State) :
    (s.removeCall t k).calls = s.calls.filter fun e => !e.isFor t k := rfl
@[simp] theorem State.removeCall_callOverflow (t : TillIx) (k : CallKind) (s : State) :
    (s.removeCall t k).callOverflow = s.callOverflow := rfl
@[simp] theorem State.removeCall_round (t : TillIx) (k : CallKind) (s : State) :
    (s.removeCall t k).round = s.round := rfl
@[simp] theorem State.removeCall_lanes (t : TillIx) (k : CallKind) (s : State) :
    (s.removeCall t k).lanes = s.lanes := rfl
@[simp] theorem State.removeCall_audit (t : TillIx) (k : CallKind) (s : State) :
    (s.removeCall t k).audit = s.audit := rfl
@[simp] theorem State.removeCall_bags (t : TillIx) (k : CallKind) (s : State) :
    (s.removeCall t k).bags = s.bags := rfl
@[simp] theorem State.removeCall_rack (t : TillIx) (k : CallKind) (s : State) :
    (s.removeCall t k).rack = s.rack := rfl
@[simp] theorem State.removeCall_mans (t : TillIx) (k : CallKind) (s : State) :
    (s.removeCall t k).mans = s.mans := rfl
@[simp] theorem State.removeCall_door (t : TillIx) (k : CallKind) (s : State) :
    (s.removeCall t k).door = s.door := rfl
@[simp] theorem State.removeCall_auth (t : TillIx) (k : CallKind) (s : State) :
    (s.removeCall t k).auth = s.auth := rfl
@[simp] theorem State.removeCall_clock (t : TillIx) (k : CallKind) (s : State) :
    (s.removeCall t k).clock = s.clock := rfl
@[simp] theorem State.removeCall_ret (t : TillIx) (k : CallKind) (s : State) :
    (s.removeCall t k).ret = s.ret := rfl
@[simp] theorem State.removeCall_lines (t : TillIx) (k : CallKind) (s : State) :
    (s.removeCall t k).lines = s.lines := rfl
@[simp] theorem State.removeCall_taken (t : TillIx) (k : CallKind) (s : State) :
    (s.removeCall t k).taken = s.taken := rfl
@[simp] theorem State.removeCall_resetLow (t : TillIx) (k : CallKind) (s : State) :
    (s.removeCall t k).resetLow = s.resetLow := rfl
@[simp] theorem State.removeCall_powered (t : TillIx) (k : CallKind) (s : State) :
    (s.removeCall t k).powered = s.powered := rfl
@[simp] theorem State.removeCall_due (t : TillIx) (k : CallKind) (s : State) :
    (s.removeCall t k).due = s.due := rfl
@[simp] theorem State.removeCall_freeCount (t : TillIx) (k : CallKind) (s : State) :
    (s.removeCall t k).freeCount = s.freeCount := rfl
@[simp] theorem State.removeCall_pending (t : TillIx) (k : CallKind) (s : State) :
    (s.removeCall t k).pending = s.pending := rfl

@[simp] theorem State.mergeCall_port (t : TillIx) (k : CallKind) (a : Option Nat) (s : State) :
    (s.mergeCall t k a).port = s.port := rfl
@[simp] theorem State.mergeCall_denoms (t : TillIx) (k : CallKind) (a : Option Nat) (s : State) :
    (s.mergeCall t k a).denoms = s.denoms := rfl
@[simp] theorem State.mergeCall_stock (t : TillIx) (k : CallKind) (a : Option Nat) (s : State) :
    (s.mergeCall t k a).stock = s.stock := rfl
@[simp] theorem State.mergeCall_balance (t : TillIx) (k : CallKind) (a : Option Nat) (s : State) :
    (s.mergeCall t k a).balance = s.balance := rfl
@[simp] theorem State.mergeCall_limits (t : TillIx) (k : CallKind) (a : Option Nat) (s : State) :
    (s.mergeCall t k a).limits = s.limits := rfl
@[simp] theorem State.mergeCall_templates (t : TillIx) (k : CallKind) (a : Option Nat) (s : State) :
    (s.mergeCall t k a).templates = s.templates := rfl
@[simp] theorem State.mergeCall_tills (t : TillIx) (k : CallKind) (a : Option Nat) (s : State) :
    (s.mergeCall t k a).tills = s.tills := rfl
@[simp] theorem State.mergeCall_calls (t : TillIx) (k : CallKind) (a : Option Nat) (s : State) :
    (s.mergeCall t k a).calls = s.calls.map fun e =>
      if e.isFor t k && decide (k = .skim) then { e with amount := a } else e := rfl
@[simp] theorem State.mergeCall_callOverflow (t : TillIx) (k : CallKind) (a : Option Nat) (s : State) :
    (s.mergeCall t k a).callOverflow = s.callOverflow := rfl
@[simp] theorem State.mergeCall_round (t : TillIx) (k : CallKind) (a : Option Nat) (s : State) :
    (s.mergeCall t k a).round = s.round := rfl
@[simp] theorem State.mergeCall_lanes (t : TillIx) (k : CallKind) (a : Option Nat) (s : State) :
    (s.mergeCall t k a).lanes = s.lanes := rfl
@[simp] theorem State.mergeCall_audit (t : TillIx) (k : CallKind) (a : Option Nat) (s : State) :
    (s.mergeCall t k a).audit = s.audit := rfl
@[simp] theorem State.mergeCall_bags (t : TillIx) (k : CallKind) (a : Option Nat) (s : State) :
    (s.mergeCall t k a).bags = s.bags := rfl
@[simp] theorem State.mergeCall_rack (t : TillIx) (k : CallKind) (a : Option Nat) (s : State) :
    (s.mergeCall t k a).rack = s.rack := rfl
@[simp] theorem State.mergeCall_mans (t : TillIx) (k : CallKind) (a : Option Nat) (s : State) :
    (s.mergeCall t k a).mans = s.mans := rfl
@[simp] theorem State.mergeCall_door (t : TillIx) (k : CallKind) (a : Option Nat) (s : State) :
    (s.mergeCall t k a).door = s.door := rfl
@[simp] theorem State.mergeCall_auth (t : TillIx) (k : CallKind) (a : Option Nat) (s : State) :
    (s.mergeCall t k a).auth = s.auth := rfl
@[simp] theorem State.mergeCall_clock (t : TillIx) (k : CallKind) (a : Option Nat) (s : State) :
    (s.mergeCall t k a).clock = s.clock := rfl
@[simp] theorem State.mergeCall_ret (t : TillIx) (k : CallKind) (a : Option Nat) (s : State) :
    (s.mergeCall t k a).ret = s.ret := rfl
@[simp] theorem State.mergeCall_lines (t : TillIx) (k : CallKind) (a : Option Nat) (s : State) :
    (s.mergeCall t k a).lines = s.lines := rfl
@[simp] theorem State.mergeCall_taken (t : TillIx) (k : CallKind) (a : Option Nat) (s : State) :
    (s.mergeCall t k a).taken = s.taken := rfl
@[simp] theorem State.mergeCall_resetLow (t : TillIx) (k : CallKind) (a : Option Nat) (s : State) :
    (s.mergeCall t k a).resetLow = s.resetLow := rfl
@[simp] theorem State.mergeCall_powered (t : TillIx) (k : CallKind) (a : Option Nat) (s : State) :
    (s.mergeCall t k a).powered = s.powered := rfl
@[simp] theorem State.mergeCall_due (t : TillIx) (k : CallKind) (a : Option Nat) (s : State) :
    (s.mergeCall t k a).due = s.due := rfl
@[simp] theorem State.mergeCall_freeCount (t : TillIx) (k : CallKind) (a : Option Nat) (s : State) :
    (s.mergeCall t k a).freeCount = s.freeCount := rfl
@[simp] theorem State.mergeCall_pending (t : TillIx) (k : CallKind) (a : Option Nat) (s : State) :
    (s.mergeCall t k a).pending = s.pending := rfl

@[simp] theorem State.access_port (s : State) :
    s.access.port = { s.port with done := false } := rfl
@[simp] theorem State.access_denoms (s : State) :
    s.access.denoms = s.denoms := rfl
@[simp] theorem State.access_stock (s : State) :
    s.access.stock = s.stock := rfl
@[simp] theorem State.access_balance (s : State) :
    s.access.balance = s.balance := rfl
@[simp] theorem State.access_limits (s : State) :
    s.access.limits = s.limits := rfl
@[simp] theorem State.access_templates (s : State) :
    s.access.templates = s.templates := rfl
@[simp] theorem State.access_tills (s : State) :
    s.access.tills = s.tills := rfl
@[simp] theorem State.access_calls (s : State) :
    s.access.calls = s.calls := rfl
@[simp] theorem State.access_callOverflow (s : State) :
    s.access.callOverflow = s.callOverflow := rfl
@[simp] theorem State.access_round (s : State) :
    s.access.round = s.round := rfl
@[simp] theorem State.access_lanes (s : State) :
    s.access.lanes = s.lanes := rfl
@[simp] theorem State.access_audit (s : State) :
    s.access.audit = s.audit := rfl
@[simp] theorem State.access_bags (s : State) :
    s.access.bags = s.bags := rfl
@[simp] theorem State.access_rack (s : State) :
    s.access.rack = s.rack := rfl
@[simp] theorem State.access_mans (s : State) :
    s.access.mans = s.mans := rfl
@[simp] theorem State.access_door (s : State) :
    s.access.door = s.door := rfl
@[simp] theorem State.access_auth (s : State) :
    s.access.auth = s.auth := rfl
@[simp] theorem State.access_clock (s : State) :
    s.access.clock = s.clock := rfl
@[simp] theorem State.access_ret (s : State) :
    s.access.ret = s.ret := rfl
@[simp] theorem State.access_lines (s : State) :
    s.access.lines = s.lines := rfl
@[simp] theorem State.access_taken (s : State) :
    s.access.taken = s.taken := rfl
@[simp] theorem State.access_resetLow (s : State) :
    s.access.resetLow = s.resetLow := rfl
@[simp] theorem State.access_powered (s : State) :
    s.access.powered = s.powered := rfl
@[simp] theorem State.access_due (s : State) :
    s.access.due = s.due := rfl
@[simp] theorem State.access_freeCount (s : State) :
    s.access.freeCount = s.freeCount := rfl
@[simp] theorem State.access_pending (s : State) :
    s.access.pending = s.pending := rfl

@[simp] theorem State.endCommand_port (b : Byte) (l : List Byte) (r : PortCode) (s : State) :
    (s.endCommand b l r).port = { s.port with
      args := [], overflow := false, reply := l, readPos := 0, code := r, inProgress := none, held := [],
      done := true,
      attnPending := notified b s.port.attnPending } := rfl
@[simp] theorem State.endCommand_denoms (b : Byte) (l : List Byte) (r : PortCode) (s : State) :
    (s.endCommand b l r).denoms = s.denoms := rfl
@[simp] theorem State.endCommand_stock (b : Byte) (l : List Byte) (r : PortCode) (s : State) :
    (s.endCommand b l r).stock = s.stock := rfl
@[simp] theorem State.endCommand_balance (b : Byte) (l : List Byte) (r : PortCode) (s : State) :
    (s.endCommand b l r).balance = s.balance := rfl
@[simp] theorem State.endCommand_limits (b : Byte) (l : List Byte) (r : PortCode) (s : State) :
    (s.endCommand b l r).limits = s.limits := rfl
@[simp] theorem State.endCommand_templates (b : Byte) (l : List Byte) (r : PortCode) (s : State) :
    (s.endCommand b l r).templates = s.templates := rfl
@[simp] theorem State.endCommand_tills (b : Byte) (l : List Byte) (r : PortCode) (s : State) :
    (s.endCommand b l r).tills = s.tills := rfl
@[simp] theorem State.endCommand_calls (b : Byte) (l : List Byte) (r : PortCode) (s : State) :
    (s.endCommand b l r).calls = s.calls := rfl
@[simp] theorem State.endCommand_callOverflow (b : Byte) (l : List Byte) (r : PortCode) (s : State) :
    (s.endCommand b l r).callOverflow = s.callOverflow := rfl
@[simp] theorem State.endCommand_round (b : Byte) (l : List Byte) (r : PortCode) (s : State) :
    (s.endCommand b l r).round = s.round := rfl
@[simp] theorem State.endCommand_lanes (b : Byte) (l : List Byte) (r : PortCode) (s : State) :
    (s.endCommand b l r).lanes = s.lanes := rfl
@[simp] theorem State.endCommand_audit (b : Byte) (l : List Byte) (r : PortCode) (s : State) :
    (s.endCommand b l r).audit = s.audit := rfl
@[simp] theorem State.endCommand_bags (b : Byte) (l : List Byte) (r : PortCode) (s : State) :
    (s.endCommand b l r).bags = s.bags := rfl
@[simp] theorem State.endCommand_rack (b : Byte) (l : List Byte) (r : PortCode) (s : State) :
    (s.endCommand b l r).rack = s.rack := rfl
@[simp] theorem State.endCommand_mans (b : Byte) (l : List Byte) (r : PortCode) (s : State) :
    (s.endCommand b l r).mans = s.mans := rfl
@[simp] theorem State.endCommand_door (b : Byte) (l : List Byte) (r : PortCode) (s : State) :
    (s.endCommand b l r).door = s.door := rfl
@[simp] theorem State.endCommand_auth (b : Byte) (l : List Byte) (r : PortCode) (s : State) :
    (s.endCommand b l r).auth = s.auth := rfl
@[simp] theorem State.endCommand_clock (b : Byte) (l : List Byte) (r : PortCode) (s : State) :
    (s.endCommand b l r).clock = s.clock := rfl
@[simp] theorem State.endCommand_ret (b : Byte) (l : List Byte) (r : PortCode) (s : State) :
    (s.endCommand b l r).ret = s.ret := rfl
@[simp] theorem State.endCommand_lines (b : Byte) (l : List Byte) (r : PortCode) (s : State) :
    (s.endCommand b l r).lines = s.lines := rfl
@[simp] theorem State.endCommand_taken (b : Byte) (l : List Byte) (r : PortCode) (s : State) :
    (s.endCommand b l r).taken = s.taken := rfl
@[simp] theorem State.endCommand_resetLow (b : Byte) (l : List Byte) (r : PortCode) (s : State) :
    (s.endCommand b l r).resetLow = s.resetLow := rfl
@[simp] theorem State.endCommand_powered (b : Byte) (l : List Byte) (r : PortCode) (s : State) :
    (s.endCommand b l r).powered = s.powered := rfl
@[simp] theorem State.endCommand_due (b : Byte) (l : List Byte) (r : PortCode) (s : State) :
    (s.endCommand b l r).due = s.due := rfl
@[simp] theorem State.endCommand_freeCount (b : Byte) (l : List Byte) (r : PortCode) (s : State) :
    (s.endCommand b l r).freeCount = s.freeCount := rfl
@[simp] theorem State.endCommand_pending (b : Byte) (l : List Byte) (r : PortCode) (s : State) :
    (s.endCommand b l r).pending = s.pending := rfl

end Sys2Proof.Machine
end

