-- ==== Sys2Proof/Laws/Ops.lean ====
section
/-! SUPPORT. What each shared operation can change (its frame) and what it answers, said once. -/

namespace Sys2Proof.Machine

/-! ### Tables -/

theorem tab_get {α : Type} (f : Code → α) (c : Code) : (tab f)[c] = f c := by
  fin_cases c <;> rfl

theorem mapT_get {α β : Type} {n : Nat} (f : α → β) (v : Vector α n) (i : Fin n) : (mapT f v)[i] = f v[i] := by
  simp [mapT, Fin.getElem_fin, Vector.getElem_mk]

theorem mapT_congr {α β : Type} {n : Nat} {f g : α → β} (v : Vector α n) (h : ∀ x, f x = g x) :
    mapT f v = mapT g v := by
  rw [funext h]

theorem mapT_id {α : Type} {n : Nat} {f : α → α} (v : Vector α n) (h : ∀ x, f x = x) : mapT f v = v := by
  ext i hi
  exact (mapT_get f v ⟨i, hi⟩).trans (h _)

theorem mapT_mapT {α β γ : Type} {n : Nat} (f : α → β) (g : β → γ) (v : Vector α n) :
    mapT g (mapT f v) = mapT (fun x => g (f x)) v := by
  simp [mapT, Function.comp_def]

theorem mem_codes (c : Code) : c ∈ codes := by revert c; decide

theorem till_setTill (t u : TillIx) (x : Till) (s : State) :
    (s.setTill t x).till u = if u = t then x else s.till u := by
  simp only [State.till, State.setTill, Fin.getElem_fin, Vector.getElem_set]
  by_cases h : u = t <;> simp_all [Fin.ext_iff, eq_comm]

theorem lane_setLane (i j : LaneIx) (x : Lane) (s : State) :
    (s.setLane i x).lane j = if j = i then x else s.lane j := by
  simp only [State.lane, State.setLane, Fin.getElem_fin, Vector.getElem_set]
  by_cases h : j = i <;> simp_all [Fin.ext_iff, eq_comm]

theorem bag_setBag (b c : BagIx) (x : Option Bag) (s : State) :
    (s.setBag b x).bag c = if c = b then x else s.bag c := by
  simp only [State.bag, State.setBag, Fin.getElem_fin, Vector.getElem_set]
  by_cases h : c = b <;> simp_all [Fin.ext_iff, eq_comm]

theorem man_setMan (i j : SlotIx) (x : Option Manifest) (s : State) :
    (s.setMan i x).man j = if j = i then x else s.man j := by
  simp only [State.man, State.setMan, Fin.getElem_fin, Vector.getElem_set]
  by_cases h : j = i <;> simp_all [Fin.ext_iff, eq_comm]

/-! ### The command byte -/

theorem Cmd.ofCode_byte (c : Cmd) (n : Bool) : Cmd.ofCode ((c.byte n).toNat % 128) = some c := by
  cases c <;> cases n <;> decide

theorem Cmd.byte_notify (c : Cmd) (n : Bool) : decide (128 ≤ (c.byte n).toNat) = n := by
  cases c <;> cases n <;> decide

/-! ### The door output -/

theorem recomputeDoor_frame (c : LockCause) (s : State) :
    ∃ d p, s.recomputeDoor c = { s with door := d, port := p } := by
  unfold State.recomputeDoor
  split <;> exact ⟨_, _, rfl⟩

@[simp] theorem recomputeDoor_unlocked (c : LockCause) (s : State) :
    (s.recomputeDoor c).door.unlocked = s.shouldUnlock := by
  unfold State.recomputeDoor
  split
  · next h => simp at h; simp [h]
  · rfl

@[simp] theorem recomputeDoor_interval (c : LockCause) (s : State) :
    (s.recomputeDoor c).door.interval = s.door.interval := by
  unfold State.recomputeDoor
  split <;> rfl

/-- What the output follows is not changed by its own recomputation (R148). -/
theorem recomputeDoor_shouldUnlock (c : LockCause) (s : State) :
    (s.recomputeDoor c).shouldUnlock = s.shouldUnlock := by
  unfold State.recomputeDoor
  split <;> rfl

/-! ### The call queue -/

theorem raiseCall_frame (t : TillIx) (k : CallKind) (a : Option Nat) (s : State) :
    ∃ l p, s.raiseCall t k a = { s with calls := l, port := p } := by
  unfold State.raiseCall
  split <;> exact ⟨_, _, rfl⟩

theorem reevaluateSkim_frame (t : TillIx) (s : State) :
    ∃ l, s.reevaluateSkim t = { s with calls := l } := by
  unfold State.reevaluateSkim
  split <;> exact ⟨_, rfl⟩

/-! ### Rounds -/

theorem endRound_frame (k : RoundEnd) (n : Nat) (b : Bool) (r : RoundRun) (s : State) :
    ∃ x p, s.endRound k n b r = { s with round := x, port := p } := by
  unfold State.endRound
  dsimp only
  split <;> exact ⟨_, _, rfl⟩

theorem startRound_frame (s : State) : ∃ x p, s.startRound = { s with round := x, port := p } := by
  unfold State.startRound
  dsimp only
  split
  · exact ⟨_, _, rfl⟩
  · exact endRound_frame ..

theorem abortRound_frame (b : Bool) (s : State) :
    ∃ x p, s.abortRound b = { s with round := x, port := p } := by
  unfold State.abortRound
  split
  · exact ⟨_, _, rfl⟩
  · exact endRound_frame ..

/-! ### Lanes and sessions -/

theorem laneError_frame (e : LaneError) (i : LaneIx) (s : State) :
    ∃ l p, s.laneError e i = { s with lanes := l, port := p } := by
  unfold State.laneError
  dsimp only
  split <;> exact ⟨_, _, rfl⟩

theorem release_frame (p : Purpose) (s : State) :
    ∃ x y z, s.release p = { s with tills := x, mans := y, stock := z } := by
  unfold State.release
  split
  · exact ⟨_, _, _, rfl⟩
  · exact ⟨_, _, _, rfl⟩
  · split <;> exact ⟨_, _, _, rfl⟩
  · exact ⟨_, _, _, rfl⟩

theorem releaseLane_frame (i : LaneIx) (s : State) :
    ∃ x y z, s.releaseLane i = { s with tills := x, mans := y, stock := z } := by
  unfold State.releaseLane
  split
  · exact ⟨_, _, _, rfl⟩
  · exact release_frame ..

theorem lanesDown_frame (s : State) :
    ∃ x y z, s.lanesDown = { s with
      tills := x, mans := y, stock := z, lanes := Vector.replicate 4 Lane.unprofiled } := by
  unfold State.lanesDown
  simp only [lanesAll, List.foldl]
  obtain ⟨_, _, _, h0⟩ := releaseLane_frame 0 s
  rw [h0]
  obtain ⟨_, _, _, h1⟩ := releaseLane_frame 1 { s with tills := _, mans := _, stock := _ }
  rw [h1]
  obtain ⟨_, _, _, h2⟩ := releaseLane_frame 2 { s with tills := _, mans := _, stock := _ }
  rw [h2]
  obtain ⟨_, _, _, h3⟩ := releaseLane_frame 3 { s with tills := _, mans := _, stock := _ }
  rw [h3]
  exact ⟨_, _, _, rfl⟩

theorem bindSession_frame (i : LaneIx) (p : Purpose) (s : State) :
    ∃ x y z l, s.bindSession i p = { s with tills := x, mans := y, stock := z, calls := l } := by
  unfold State.bindSession
  split
  · exact ⟨_, _, _, _, rfl⟩
  · exact ⟨_, _, _, _, rfl⟩
  · split <;> exact ⟨_, _, _, _, rfl⟩
  · exact ⟨_, _, _, _, rfl⟩

/-! ### Bags and the rack -/

/-- The bag table and the compartment after one placement (R115). -/
def State.entered (b : BagIx) (s : State) : State :=
  { s with
    bags := s.bags.set b ((s.bag b).map fun x => { x with state := .placed, comp := some s.rack.ptr })
    rack := { s.rack with comps := s.rack.comps.set s.rack.ptr (s.rack.comps[s.rack.ptr] ++ [b]) } }

/-- One placement: the bag enters, and a compartment brought to K turns the pointer, with a halt on a compartment
that holds a bag (R115, R116). -/
theorem placeOne_cases (b : BagIx) (s : State) :
    let room := (s.rack.comps[s.rack.ptr] ++ [b]).length < s.rack.k
    let p : CompIx := s.rack.ptr + 1
    let u := s.entered b
    (room → s.placeOne b = u) ∧
    (¬room → u.rack.comps[p] = [] → s.placeOne b = { u with rack := { u.rack with ptr := p } }) ∧
    (¬room → u.rack.comps[p] ≠ [] →
      s.placeOne b = State.raise .safe { u with rack := { u.rack with ptr := p, halt := true } }) := by
  refine ⟨fun h => if_pos h, fun h1 h2 => ?_, fun h1 h2 => ?_⟩
  · exact (if_neg h1).trans (if_pos (List.isEmpty_iff.mpr h2))
  · exact (if_neg h1).trans (if_neg (mt List.isEmpty_iff.mp h2))

theorem placeOne_frame (b : BagIx) (s : State) :
    ∃ x r p, s.placeOne b = { s with bags := x, rack := r, port := p } := by
  unfold State.placeOne
  dsimp only
  split
  · exact ⟨_, _, _, rfl⟩
  · split <;> exact ⟨_, _, _, rfl⟩

theorem placeFrom_halted (b : BagIx) (r : List BagIx) (s : State) (h : s.rack.halt = true) :
    State.placeFrom (b :: r) s = { s with rack := { s.rack with queue := b :: r } } := if_pos h

theorem placeFrom_free (b : BagIx) (r : List BagIx) (s : State) (h : s.rack.halt ≠ true) :
    State.placeFrom (b :: r) s = State.placeFrom r (s.placeOne b) := if_neg h

theorem liftHalt_lifts (s : State) (h : s.rack.halt = true) (he : s.rack.comps[s.rack.ptr] = []) :
    s.liftHalt = State.place { s with rack := { s.rack with halt := false } } :=
  if_pos (by rw [h, he]; rfl)

theorem liftHalt_stays (s : State) (h : s.rack.halt = true → s.rack.comps[s.rack.ptr] ≠ []) : s.liftHalt = s :=
  if_neg fun hb => by
    rw [Bool.and_eq_true, List.isEmpty_iff] at hb
    exact h hb.1 hb.2

theorem retireEntry_present (e : Entry) (s : State) (h : s.entryPresent e = true) :
    s.retireEntry e = s.retireBag e.bag := if_pos h

theorem retireEntry_absent (e : Entry) (s : State) (h : s.entryPresent e ≠ true) : s.retireEntry e = s := if_neg h

theorem placeFrom_frame (l : List BagIx) (s : State) :
    ∃ x r p, State.placeFrom l s = { s with bags := x, rack := r, port := p } := by
  induction l generalizing s with
  | nil => exact ⟨_, _, _, rfl⟩
  | cons b r ih =>
    unfold State.placeFrom
    split
    · exact ⟨_, _, _, rfl⟩
    · obtain ⟨_, _, _, h⟩ := placeOne_frame b s
      rw [h]
      obtain ⟨_, _, _, h⟩ := ih { s with bags := _, rack := _, port := _ }
      rw [h]
      exact ⟨_, _, _, rfl⟩

theorem place_frame (s : State) : ∃ x r p, s.place = { s with bags := x, rack := r, port := p } :=
  placeFrom_frame ..

theorem liftHalt_frame (s : State) : ∃ x r p, s.liftHalt = { s with bags := x, rack := r, port := p } := by
  unfold State.liftHalt
  split
  · obtain ⟨_, _, _, h⟩ := place_frame { s with rack := { s.rack with halt := false } }
    rw [h]
    exact ⟨_, _, _, rfl⟩
  · exact ⟨_, _, _, rfl⟩

theorem markBags_frame (l : List BagIx) (k : BagState) (s : State) :
    ∃ x, l.foldl (fun s b => s.markBag b k) s = { s with bags := x } := by
  induction l generalizing s with
  | nil => exact ⟨_, rfl⟩
  | cons b r ih =>
    obtain ⟨x, h⟩ := ih (s.markBag b k)
    exact ⟨x, h.trans rfl⟩

theorem retireEntries_frame (l : List Entry) (s : State) :
    ∃ x r, l.foldl State.retireEntry s = { s with bags := x, rack := r } := by
  induction l generalizing s with
  | nil => exact ⟨_, _, rfl⟩
  | cons e r ih =>
    obtain ⟨x, y, h⟩ := ih (s.retireEntry e)
    refine ⟨x, y, h.trans ?_⟩
    unfold State.retireEntry
    split <;> rfl

/-- A test of the entries of a list: one of them is present and names the bag. -/
theorem present_setBag (b : BagIx) (e : Entry) (s : State) :
    (s.setBag b none).entryPresent e = (!(e.bag == b) && s.entryPresent e) := by
  unfold State.entryPresent
  rw [bag_setBag]
  by_cases h : e.bag = b <;> simp [h]

/-- The bags and the rack after the bags of some entries have retired: a bag is gone if an entry that was present
named it (R136 step 1). -/
theorem retireEntries_spec (l : List Entry) (s : State) :
    let gone (b : BagIx) : Bool := l.any fun e => (e.bag == b) && s.entryPresent e
    let stay (x : List BagIx) : List BagIx := x.filter fun b => !gone b
    (∀ b, (l.foldl State.retireEntry s).bag b = if gone b then none else s.bag b) ∧
    (l.foldl State.retireEntry s).rack =
      { s.rack with comps := mapT stay s.rack.comps, queue := stay s.rack.queue } := by
  induction l generalizing s with
  | nil =>
    refine ⟨fun b => rfl, ?_⟩
    dsimp only [List.foldl_nil]
    rw [mapT_id _ fun x => by simp]
    simp
  | cons e r ih =>
    dsimp only
    rw [List.foldl_cons]
    by_cases h : s.entryPresent e = true
    · have hs : s.retireEntry e = s.retireBag e.bag := retireEntry_present e s h
      have hp : ∀ f, (s.retireBag e.bag).entryPresent f = (!(f.bag == e.bag) && s.entryPresent f) := fun f =>
        present_setBag e.bag f s
      have hg : ∀ b, b ≠ e.bag →
          (r.any fun f => (f.bag == b) && (s.retireBag e.bag).entryPresent f) =
            r.any fun f => (f.bag == b) && s.entryPresent f := by
        intro b hb
        refine congrArg r.any (funext fun f => ?_)
        rw [hp]
        by_cases hf : f.bag = b
        · subst hf; simp [hb]
        · rw [beq_eq_false_iff_ne.mpr hf]; rfl
      obtain ⟨i1, i2⟩ := ih (s.retireEntry e)
      rw [hs] at i1 i2 ⊢
      refine ⟨fun b => ?_, ?_⟩
      · have hbag : (s.retireBag e.bag).bag b = if b = e.bag then none else s.bag b := bag_setBag ..
        rw [i1 b, hbag]
        by_cases hb : b = e.bag
        · subst hb; simp [h]
        · simp only [hg b hb, List.any_cons, beq_eq_false_iff_ne.mpr (Ne.symm hb), Bool.false_and, Bool.false_or,
            if_neg hb]
      · rw [i2]
        have hf : ∀ x : List BagIx,
            ((x.filter fun b => b != e.bag).filter fun b =>
              !r.any fun f => (f.bag == b) && (s.retireBag e.bag).entryPresent f) =
            x.filter fun b => !(e :: r).any fun f => (f.bag == b) && s.entryPresent f := by
          intro x
          rw [List.filter_filter]
          apply List.filter_congr
          intro b _
          rw [List.any_cons, h]
          by_cases hb : b = e.bag
          · subst hb; simp
          · simp only [hg b hb, beq_eq_false_iff_ne.mpr (Ne.symm hb), bne_iff_ne.mpr hb, Bool.false_or,
              Bool.and_true]
        show ({ s.rack with
          comps := mapT (fun x => x.filter fun b =>
              !r.any fun f => (f.bag == b) && (s.retireBag e.bag).entryPresent f)
            (mapT (fun x => x.filter fun b => b != e.bag) s.rack.comps)
          queue := (s.rack.queue.filter fun b => b != e.bag).filter fun b =>
            !r.any fun f => (f.bag == b) && (s.retireBag e.bag).entryPresent f } : Rack) = _
        rw [mapT_mapT, mapT_congr _ hf, hf]
    · have hs : s.retireEntry e = s := retireEntry_absent e s h
      rw [hs]
      obtain ⟨i1, i2⟩ := ih s
      have h0 : s.entryPresent e = false := by simpa using h
      refine ⟨fun b => ?_, ?_⟩
      · rw [i1 b]; simp only [List.any_cons, h0, Bool.and_false, Bool.false_or]
      · rw [i2]; simp only [List.any_cons, h0, Bool.and_false, Bool.false_or]

/-! ### Reset -/

theorem endWork_frame (s : State) :
    ∃ t m k r p d, s.endWork = { s with
      tills := t, mans := m, stock := k, lanes := Vector.replicate 4 Lane.unprofiled, round := r,
      port := p, callOverflow := false, door := d } := by
  unfold State.endWork
  dsimp only
  obtain ⟨_, _, _, h⟩ := lanesDown_frame s
  rw [h]
  obtain ⟨_, _, h⟩ := abortRound_frame false { s with
    tills := _, mans := _, stock := _, lanes := Vector.replicate 4 Lane.unprofiled }
  rw [h]
  exact ⟨_, _, _, _, _, _, rfl⟩

theorem pinReset_frame (s : State) :
    ∃ t m k r p d c x, s.pinReset = { s with
      tills := t, mans := m, stock := k, lanes := Vector.replicate 4 Lane.unprofiled, round := r,
      port := p, callOverflow := false, door := d, clock := c, ret := x } := by
  unfold State.pinReset
  dsimp only
  obtain ⟨_, _, _, _, _, _, h⟩ := endWork_frame s
  rw [h]
  obtain ⟨_, _, h⟩ := recomputeDoor_frame .reset { s with
    tills := _, mans := _, stock := _, lanes := Vector.replicate 4 Lane.unprofiled, round := _,
    port := _, callOverflow := false, door := _ }
  rw [h]
  split <;> exact ⟨_, _, _, _, _, _, _, _, rfl⟩

/-! ### The same, as equations: an operation changes at most the fields named -/

theorem recomputeDoor_eq (c : LockCause) (s : State) :
    s.recomputeDoor c = { s with door := (s.recomputeDoor c).door, port := (s.recomputeDoor c).port } := by
  obtain ⟨_, _, h⟩ := recomputeDoor_frame c s
  rw [h]

theorem raiseCall_eq (t : TillIx) (k : CallKind) (a : Option Nat) (s : State) :
    s.raiseCall t k a = { s with calls := (s.raiseCall t k a).calls, port := (s.raiseCall t k a).port } := by
  obtain ⟨_, _, h⟩ := raiseCall_frame t k a s
  rw [h]

theorem reevaluateSkim_eq (t : TillIx) (s : State) :
    s.reevaluateSkim t = { s with calls := (s.reevaluateSkim t).calls } := by
  obtain ⟨_, h⟩ := reevaluateSkim_frame t s
  rw [h]

theorem startRound_eq (s : State) :
    s.startRound = { s with round := (s.startRound).round, port := (s.startRound).port } := by
  obtain ⟨_, _, h⟩ := startRound_frame s
  rw [h]

theorem releaseLane_eq (i : LaneIx) (s : State) :
    s.releaseLane i = { s with
      tills := (s.releaseLane i).tills
      mans := (s.releaseLane i).mans
      stock := (s.releaseLane i).stock } := by
  obtain ⟨_, _, _, h⟩ := releaseLane_frame i s
  rw [h]

theorem bindSession_eq (i : LaneIx) (p : Purpose) (s : State) :
    s.bindSession i p = { s with
      tills := (s.bindSession i p).tills
      mans := (s.bindSession i p).mans
      stock := (s.bindSession i p).stock
      calls := (s.bindSession i p).calls } := by
  obtain ⟨_, _, _, _, h⟩ := bindSession_frame i p s
  rw [h]

theorem place_eq (s : State) :
    s.place = { s with
      bags := (s.place).bags
      rack := (s.place).rack
      port := (s.place).port } := by
  obtain ⟨_, _, _, h⟩ := place_frame s
  rw [h]

theorem liftHalt_eq (s : State) :
    s.liftHalt = { s with
      bags := (s.liftHalt).bags
      rack := (s.liftHalt).rack
      port := (s.liftHalt).port } := by
  obtain ⟨_, _, _, h⟩ := liftHalt_frame s
  rw [h]

theorem markBags_eq (l : List BagIx) (k : BagState) (s : State) :
    l.foldl (fun s b => s.markBag b k) s = { s with bags := (l.foldl (fun s b => s.markBag b k) s).bags } := by
  obtain ⟨_, h⟩ := markBags_frame l k s
  rw [h]

theorem retireEntries_eq (l : List Entry) (s : State) :
    l.foldl State.retireEntry s = { s with
      bags := (l.foldl State.retireEntry s).bags
      rack := (l.foldl State.retireEntry s).rack } := by
  obtain ⟨_, _, h⟩ := retireEntries_frame l s
  rw [h]

theorem laneError_eq (e : LaneError) (i : LaneIx) (s : State) :
    s.laneError e i = { s with lanes := (s.laneError e i).lanes, port := (s.laneError e i).port } := by
  obtain ⟨_, _, h⟩ := laneError_frame e i s
  rw [h]

theorem abortRound_eq (b : Bool) (s : State) :
    s.abortRound b = { s with round := (s.abortRound b).round, port := (s.abortRound b).port } := by
  obtain ⟨_, _, h⟩ := abortRound_frame b s
  rw [h]

theorem lanesDown_eq (s : State) :
    s.lanesDown = { s with
      tills := (s.lanesDown).tills
      mans := (s.lanesDown).mans
      stock := (s.lanesDown).stock
      lanes := (s.lanesDown).lanes } := by
  obtain ⟨_, _, _, h⟩ := lanesDown_frame s
  rw [h]

theorem endWork_eq (s : State) :
    s.endWork = { s with
      tills := (s.endWork).tills
      mans := (s.endWork).mans
      stock := (s.endWork).stock
      lanes := (s.endWork).lanes
      round := (s.endWork).round
      port := (s.endWork).port
      callOverflow := (s.endWork).callOverflow
      door := (s.endWork).door } := by
  obtain ⟨_, _, _, _, _, _, h⟩ := endWork_frame s
  rw [h]

theorem pinReset_eq (s : State) :
    s.pinReset = { s with
      tills := (s.pinReset).tills
      mans := (s.pinReset).mans
      stock := (s.pinReset).stock
      lanes := (s.pinReset).lanes
      round := (s.pinReset).round
      port := (s.pinReset).port
      callOverflow := (s.pinReset).callOverflow
      door := (s.pinReset).door
      clock := (s.pinReset).clock
      ret := (s.pinReset).ret } := by
  obtain ⟨_, _, _, _, _, _, _, _, h⟩ := pinReset_frame s
  rw [h]

/-! ### Ticks -/

theorem settle_of_nothing_due (s : State) (h : s.due = []) : s.settle = s := by
  simp [State.settle, h]

end Sys2Proof.Machine
end

