-- ==== Sys2Proof/Laws/Frames.lean ====
section
/-! SUPPORT. The frame of every command of the command table: the fields its checks and effects can change,
taken or refused. -/

namespace Sys2Proof.Machine

/-- The state an answer carries. -/
def Answer.state : Answer → State
  | .taken _ s => s
  | .refused _ s => s

/-- What holds of the state of an override command: of the state it found, of a wrong code's effect, and of
what follows a matching code (R145). -/
theorem withAuthority_state (P : State → Prop) (code : Nat) (s : State) (next : State → Answer) (hs : P s)
    (hw : P s.wrongOverride) (hn : P (next { s with auth := { s.auth with failures := 0 } }).state) :
    P (withAuthority code s next).state := by
  unfold withAuthority
  split
  · exact hs
  split
  · exact hs
  split
  · exact hw
  · exact hn

theorem signCollection_frame (i : SlotIx) (m : Manifest) (c : Collection) (s : State) :
    ∃ x0 x1 x2 x3 x4 x5, (signCollection i m c s).state =
      { s with mans := x0, bags := x1, balance := x2, door := x3, rack := x4, port := x5 } := by
  unfold signCollection
  dsimp only
  split
  · exact ⟨_, _, _, _, _, _, rfl⟩
  split
  · exact ⟨_, _, _, _, _, _, rfl⟩
  dsimp only [Answer.state]
  rw [liftHalt_eq, recomputeDoor_eq, retireEntries_eq]
  exact ⟨_, _, _, _, _, _, rfl⟩

theorem nopEffect_frame (a : List Byte) (s : State) :
    (nopEffect a s).state = s := by
  simp only [nopEffect, noArgs]
  repeat' split
  all_goals rfl

theorem statusReadEffect_frame (a : List Byte) (s : State) :
    (statusReadEffect a s).state = s := by
  simp only [statusReadEffect, noArgs]
  repeat' split
  all_goals rfl

theorem attnReadEffect_frame (a : List Byte) (s : State) :
    (attnReadEffect a s).state = s := by
  simp only [attnReadEffect, noArgs]
  repeat' split
  all_goals rfl

theorem attnEnableEffect_frame (a : List Byte) (s : State) :
    ∃ x0, (attnEnableEffect a s).state = { s with port := x0 } := by
  simp only [attnEnableEffect]
  repeat' split
  all_goals exact ⟨_, rfl⟩

theorem attnClearEffect_frame (a : List Byte) (s : State) :
    ∃ x0, (attnClearEffect a s).state = { s with port := x0 } := by
  simp only [attnClearEffect]
  repeat' split
  all_goals exact ⟨_, rfl⟩

theorem clockSetEffect_frame (a : List Byte) (s : State) :
    ∃ x0, (clockSetEffect a s).state = { s with clock := x0 } := by
  simp only [clockSetEffect]
  repeat' split
  all_goals exact ⟨_, rfl⟩

theorem clockReadEffect_frame (a : List Byte) (s : State) :
    (clockReadEffect a s).state = s := by
  simp only [clockReadEffect, noArgs]
  repeat' split
  all_goals rfl

theorem retainEffect_frame (a : List Byte) (s : State) :
    ∃ x0 x1 x2 x3, (retainEffect a s).state = { s with ret := x0, lanes := x1, door := x2, port := x3 } := by
  simp only [retainEffect, State.enterRetention]
  repeat' split
  all_goals first
    | exact ⟨_, _, _, _, rfl⟩
    | exact ⟨_, _, _, _, (recomputeDoor_eq _ _).trans rfl⟩

theorem releaseEffect_frame (a : List Byte) (s : State) :
    ∃ x0 x1 x2 x3, (releaseEffect a s).state = { s with ret := x0, round := x1, door := x2, port := x3 } := by
  simp only [releaseEffect, noArgs, State.leaveRetention]
  repeat' split
  all_goals first
    | exact ⟨_, _, _, _, rfl⟩
    | exact ⟨_, _, _, _, (recomputeDoor_eq _ _).trans rfl⟩

theorem recordsClearEffect_frame (a : List Byte) (s : State) :
    ∃ x0 x1 x2 x3 x4 x5 x6 x7 x8 x9 x10,
      (recordsClearEffect a s).state = { s with auth := x0, port := x1, stock := x2, tills := x3, calls := x4, callOverflow := x5, bags := x6, rack := x7, mans := x8, audit := x9, balance := x10 } := by
  simp only [recordsClearEffect, withAuthority, State.wrongOverride]
  repeat' split
  all_goals exact ⟨_, _, _, _, _, _, _, _, _, _, _, rfl⟩

theorem overrideSetEffect_frame (a : List Byte) (s : State) :
    ∃ x0 x1, (overrideSetEffect a s).state = { s with auth := x0, port := x1 } := by
  simp only [overrideSetEffect, withAuthority, State.wrongOverride]
  repeat' split
  all_goals exact ⟨_, _, rfl⟩

theorem doorOpenEffect_frame (a : List Byte) (s : State) :
    ∃ x0 x1 x2, (doorOpenEffect a s).state = { s with auth := x0, port := x1, door := x2 } := by
  simp only [doorOpenEffect, withAuthority, State.wrongOverride, State.startInterval]
  repeat' split
  all_goals first
    | exact ⟨_, _, _, rfl⟩
    | exact ⟨_, _, _, (recomputeDoor_eq _ _).trans rfl⟩

theorem doorLockEffect_frame (a : List Byte) (s : State) :
    ∃ x0 x1, (doorLockEffect a s).state = { s with door := x0, port := x1 } := by
  simp only [doorLockEffect, noArgs, State.dropInterval]
  repeat' split
  all_goals first
    | exact ⟨_, _, rfl⟩
    | exact ⟨_, _, (recomputeDoor_eq _ _).trans rfl⟩

theorem doorReadEffect_frame (a : List Byte) (s : State) :
    (doorReadEffect a s).state = s := by
  simp only [doorReadEffect, noArgs]
  repeat' split
  all_goals rfl

theorem denomSetEffect_frame (a : List Byte) (s : State) :
    ∃ x0, (denomSetEffect a s).state = { s with denoms := x0 } := by
  simp only [denomSetEffect]
  repeat' split
  all_goals exact ⟨_, rfl⟩

theorem denomReadEffect_frame (a : List Byte) (s : State) :
    (denomReadEffect a s).state = s := by
  simp only [denomReadEffect, noArgs]
  repeat' split
  all_goals rfl

theorem stockReadEffect_frame (a : List Byte) (s : State) :
    (stockReadEffect a s).state = s := by
  simp only [stockReadEffect, noArgs]
  repeat' split
  all_goals rfl

theorem officeReadEffect_frame (a : List Byte) (s : State) :
    (officeReadEffect a s).state = s := by
  simp only [officeReadEffect, noArgs]
  repeat' split
  all_goals rfl

theorem limitsSetEffect_frame (a : List Byte) (s : State) :
    ∃ x0, (limitsSetEffect a s).state = { s with limits := x0 } := by
  simp only [limitsSetEffect]
  repeat' split
  all_goals exact ⟨_, rfl⟩

theorem limitsReadEffect_frame (a : List Byte) (s : State) :
    (limitsReadEffect a s).state = s := by
  simp only [limitsReadEffect, noArgs]
  repeat' split
  all_goals rfl

theorem templateSetEffect_frame (a : List Byte) (s : State) :
    ∃ x0, (templateSetEffect a s).state = { s with templates := x0 } := by
  simp only [templateSetEffect]
  repeat' split
  all_goals exact ⟨_, rfl⟩

theorem templateReadEffect_frame (a : List Byte) (s : State) :
    (templateReadEffect a s).state = s := by
  simp only [templateReadEffect]
  repeat' split
  all_goals rfl

theorem tillSetupEffect_frame (a : List Byte) (s : State) :
    ∃ x0, (tillSetupEffect a s).state = { s with tills := x0 } := by
  simp only [tillSetupEffect, withTill]
  repeat' split
  all_goals exact ⟨_, rfl⟩

theorem floatIssueEffect_frame (a : List Byte) (s : State) :
    ∃ x0 x1, (floatIssueEffect a s).state = { s with stock := x0, tills := x1 } := by
  simp only [floatIssueEffect, withTill]
  repeat' split
  all_goals exact ⟨_, _, rfl⟩

theorem floatCancelEffect_frame (a : List Byte) (s : State) :
    ∃ x0 x1, (floatCancelEffect a s).state = { s with stock := x0, tills := x1 } := by
  simp only [floatCancelEffect, withTill]
  repeat' split
  all_goals exact ⟨_, _, rfl⟩

theorem tillOpenEffect_frame (a : List Byte) (s : State) :
    ∃ x0, (tillOpenEffect a s).state = { s with tills := x0 } := by
  simp only [tillOpenEffect, withTill]
  repeat' split
  all_goals exact ⟨_, rfl⟩

theorem topupIssueEffect_frame (a : List Byte) (s : State) :
    ∃ x0 x1 x2, (topupIssueEffect a s).state = { s with stock := x0, tills := x1, calls := x2 } := by
  simp only [topupIssueEffect]
  repeat' split
  all_goals exact ⟨_, _, _, rfl⟩

theorem posCashEffect_frame (a : List Byte) (s : State) :
    ∃ x0, (posCashEffect a s).state = { s with tills := x0 } := by
  simp only [posCashEffect, withTill]
  repeat' split
  all_goals exact ⟨_, rfl⟩

theorem tillCloseEffect_frame (a : List Byte) (s : State) :
    ∃ x0 x1 x2 x3,
      (tillCloseEffect a s).state = { s with tills := x0, calls := x1, callOverflow := x2, port := x3 } := by
  simp only [tillCloseEffect, withTill]
  repeat' split
  all_goals first
    | exact ⟨_, _, _, _, rfl⟩
    | exact ⟨_, _, _, _, (congrArg State.loseCall (raiseCall_eq _ _ _ _)).trans rfl⟩
    | exact ⟨_, _, _, _, (raiseCall_eq _ _ _ _).trans rfl⟩

theorem tillReadEffect_frame (a : List Byte) (s : State) :
    (tillReadEffect a s).state = s := by
  simp only [tillReadEffect, withTill]
  repeat' split
  all_goals rfl

theorem varianceAcceptEffect_frame (a : List Byte) (s : State) :
    ∃ x0 x1 x2, (varianceAcceptEffect a s).state = { s with auth := x0, port := x1, tills := x2 } := by
  simp only [varianceAcceptEffect, withTill, withAuthority, State.wrongOverride]
  repeat' split
  all_goals exact ⟨_, _, _, rfl⟩

theorem recountEffect_frame (a : List Byte) (s : State) :
    ∃ x0 x1 x2 x3 x4,
      (recountEffect a s).state = { s with auth := x0, port := x1, stock := x2, balance := x3, tills := x4 } := by
  simp only [recountEffect, withTill, withAuthority, State.wrongOverride]
  repeat' split
  all_goals exact ⟨_, _, _, _, _, rfl⟩

theorem callPostEffect_frame (a : List Byte) (s : State) :
    ∃ x0 x1 x2, (callPostEffect a s).state = { s with calls := x0, callOverflow := x1, port := x2 } := by
  simp only [callPostEffect, withTill]
  repeat' split
  all_goals first
    | exact ⟨_, _, _, rfl⟩
    | exact ⟨_, _, _, (raiseCall_eq _ _ _ _).trans rfl⟩

theorem callTakeEffect_frame (a : List Byte) (s : State) :
    ∃ x0, (callTakeEffect a s).state = { s with calls := x0 } := by
  simp only [callTakeEffect]
  repeat' split
  all_goals exact ⟨_, rfl⟩

theorem callCancelEffect_frame (a : List Byte) (s : State) :
    ∃ x0, (callCancelEffect a s).state = { s with calls := x0 } := by
  simp only [callCancelEffect, withTill]
  repeat' split
  all_goals exact ⟨_, rfl⟩

theorem callReadEffect_frame (a : List Byte) (s : State) :
    ∃ x0, (callReadEffect a s).state = { s with callOverflow := x0 } := by
  simp only [callReadEffect]
  repeat' split
  all_goals exact ⟨_, rfl⟩

theorem roundSetEffect_frame (a : List Byte) (s : State) :
    ∃ x0, (roundSetEffect a s).state = { s with round := x0 } := by
  simp only [roundSetEffect]
  repeat' split
  all_goals exact ⟨_, rfl⟩

theorem roundTimerEffect_frame (a : List Byte) (s : State) :
    ∃ x0, (roundTimerEffect a s).state = { s with round := x0 } := by
  simp only [roundTimerEffect]
  repeat' split
  all_goals exact ⟨_, rfl⟩

theorem roundNowEffect_frame (a : List Byte) (s : State) :
    ∃ x0 x1, (roundNowEffect a s).state = { s with round := x0, port := x1 } := by
  simp only [roundNowEffect, noArgs]
  repeat' split
  all_goals first
    | exact ⟨_, _, rfl⟩
    | exact ⟨_, _, (startRound_eq _).trans rfl⟩

theorem roundReadEffect_frame (a : List Byte) (s : State) :
    (roundReadEffect a s).state = s := by
  simp only [roundReadEffect, noArgs]
  repeat' split
  all_goals rfl

theorem laneProfileEffect_frame (a : List Byte) (s : State) :
    ∃ x0, (laneProfileEffect a s).state = { s with lanes := x0 } := by
  simp only [laneProfileEffect, withLane]
  repeat' split
  all_goals exact ⟨_, rfl⟩

theorem laneResetEffect_frame (a : List Byte) (s : State) :
    ∃ x0 x1 x2 x3,
      (laneResetEffect a s).state = { s with lanes := x0, tills := x1, mans := x2, stock := x3 } := by
  simp only [laneResetEffect, withLane]
  repeat' split
  all_goals first
    | exact ⟨_, _, _, _, rfl⟩
    | exact ⟨_, _, _, _, (congrArg (State.setLane _ _) (releaseLane_eq _ _)).trans rfl⟩

theorem laneClearEffect_frame (a : List Byte) (s : State) :
    ∃ x0, (laneClearEffect a s).state = { s with lanes := x0 } := by
  simp only [laneClearEffect, withLane, withProfiled]
  repeat' split
  all_goals exact ⟨_, rfl⟩

theorem laneReadEffect_frame (a : List Byte) (s : State) :
    (laneReadEffect a s).state = s := by
  simp only [laneReadEffect, withLane]
  repeat' split
  all_goals rfl

theorem countOpenEffect_frame (a : List Byte) (s : State) :
    ∃ x0 x1 x2 x3 x4,
      (countOpenEffect a s).state = { s with lanes := x0, tills := x1, calls := x2, mans := x3, stock := x4 } := by
  simp only [countOpenEffect]
  repeat' split
  all_goals first
    | exact ⟨_, _, _, _, _, rfl⟩
    | exact ⟨_, _, _, _, _, (bindSession_eq _ _ _).trans rfl⟩

theorem countHoldEffect_frame (a : List Byte) (s : State) :
    ∃ x0, (countHoldEffect a s).state = { s with lanes := x0 } := by
  simp only [countHoldEffect, withLane, withProfiled]
  repeat' split
  all_goals exact ⟨_, rfl⟩

theorem countResumeEffect_frame (a : List Byte) (s : State) :
    ∃ x0, (countResumeEffect a s).state = { s with lanes := x0 } := by
  simp only [countResumeEffect, withLane, withProfiled]
  repeat' split
  all_goals exact ⟨_, rfl⟩

theorem countVoidEffect_frame (a : List Byte) (s : State) :
    ∃ x0, (countVoidEffect a s).state = { s with lanes := x0 } := by
  simp only [countVoidEffect, withLane, withProfiled]
  repeat' split
  all_goals exact ⟨_, rfl⟩

theorem countRollsEffect_frame (a : List Byte) (s : State) :
    ∃ x0, (countRollsEffect a s).state = { s with lanes := x0 } := by
  simp only [countRollsEffect, withLane, withProfiled]
  repeat' split
  all_goals exact ⟨_, rfl⟩

theorem countCommitEffect_frame (a : List Byte) (s : State) :
    ∃ x0 x1 x2 x3 x4 x5 x6,
      (countCommitEffect a s).state = { s with lanes := x0, stock := x1, balance := x2, tills := x3, calls := x4, mans := x5, audit := x6 } := by
  simp only [countCommitEffect, withLane, withProfiled, commitSession, commitTillClose, commitPickup, commitDelivery, commitDeliveryTo, commitAudit]
  repeat' split
  all_goals first
    | exact ⟨_, _, _, _, _, _, _, rfl⟩
    | exact ⟨_, _, _, _, _, _, _, (reevaluateSkim_eq _ _).trans rfl⟩

theorem countAbortEffect_frame (a : List Byte) (s : State) :
    ∃ x0 x1 x2 x3,
      (countAbortEffect a s).state = { s with lanes := x0, tills := x1, mans := x2, stock := x3 } := by
  simp only [countAbortEffect, withLane, withProfiled]
  repeat' split
  all_goals first
    | exact ⟨_, _, _, _, rfl⟩
    | exact ⟨_, _, _, _, (congrArg (State.setLane _ _) (releaseLane_eq _ _)).trans rfl⟩

theorem auditReadEffect_frame (a : List Byte) (s : State) :
    (auditReadEffect a s).state = s := by
  simp only [auditReadEffect, noArgs]
  repeat' split
  all_goals rfl

theorem auditAcceptEffect_frame (a : List Byte) (s : State) :
    ∃ x0 x1 x2 x3 x4,
      (auditAcceptEffect a s).state = { s with auth := x0, port := x1, stock := x2, balance := x3, audit := x4 } := by
  simp only [auditAcceptEffect, withAuthority, State.wrongOverride]
  repeat' split
  all_goals exact ⟨_, _, _, _, _, rfl⟩

theorem auditDiscardEffect_frame (a : List Byte) (s : State) :
    ∃ x0, (auditDiscardEffect a s).state = { s with audit := x0 } := by
  simp only [auditDiscardEffect, noArgs]
  repeat' split
  all_goals exact ⟨_, rfl⟩

theorem bagOpenEffect_frame (a : List Byte) (s : State) :
    ∃ x0, (bagOpenEffect a s).state = { s with bags := x0 } := by
  simp only [bagOpenEffect]
  repeat' split
  all_goals exact ⟨_, rfl⟩

theorem bagAddEffect_frame (a : List Byte) (s : State) :
    ∃ x0 x1, (bagAddEffect a s).state = { s with bags := x0, stock := x1 } := by
  simp only [bagAddEffect, withBag]
  repeat' split
  all_goals exact ⟨_, _, rfl⟩

theorem bagReturnEffect_frame (a : List Byte) (s : State) :
    ∃ x0 x1, (bagReturnEffect a s).state = { s with bags := x0, stock := x1 } := by
  simp only [bagReturnEffect, withBag]
  repeat' split
  all_goals exact ⟨_, _, rfl⟩

theorem bagShutEffect_frame (a : List Byte) (s : State) :
    ∃ x0 x1 x2, (bagShutEffect a s).state = { s with bags := x0, rack := x1, port := x2 } := by
  simp only [bagShutEffect, withBag]
  repeat' split
  all_goals first
    | exact ⟨_, _, _, rfl⟩
    | exact ⟨_, _, _, (place_eq _).trans rfl⟩

theorem bagBreakEffect_frame (a : List Byte) (s : State) :
    ∃ x0 x1 x2 x3 x4,
      (bagBreakEffect a s).state = { s with auth := x0, port := x1, stock := x2, bags := x3, rack := x4 } := by
  simp only [bagBreakEffect, withBag, withAuthority, State.wrongOverride]
  repeat' split
  all_goals first
    | exact ⟨_, _, _, _, _, rfl⟩
    | exact ⟨_, _, _, _, _, (liftHalt_eq _).trans rfl⟩

theorem bagReadEffect_frame (a : List Byte) (s : State) :
    (bagReadEffect a s).state = s := by
  simp only [bagReadEffect, withBag]
  repeat' split
  all_goals rfl

theorem rackSetEffect_frame (a : List Byte) (s : State) :
    ∃ x0, (rackSetEffect a s).state = { s with rack := x0 } := by
  simp only [rackSetEffect]
  repeat' split
  all_goals exact ⟨_, rfl⟩

theorem rackReadEffect_frame (a : List Byte) (s : State) :
    (rackReadEffect a s).state = s := by
  simp only [rackReadEffect, noArgs]
  repeat' split
  all_goals rfl

theorem manCreateEffect_frame (a : List Byte) (s : State) :
    ∃ x0, (manCreateEffect a s).state = { s with mans := x0 } := by
  simp only [manCreateEffect]
  repeat' split
  all_goals exact ⟨_, rfl⟩

theorem manAddEffect_frame (a : List Byte) (s : State) :
    ∃ x0 x1, (manAddEffect a s).state = { s with mans := x0, bags := x1 } := by
  simp only [manAddEffect, withMan]
  repeat' split
  all_goals exact ⟨_, _, rfl⟩

theorem manRemoveEffect_frame (a : List Byte) (s : State) :
    ∃ x0 x1, (manRemoveEffect a s).state = { s with mans := x0, bags := x1 } := by
  simp only [manRemoveEffect, withMan]
  repeat' split
  all_goals exact ⟨_, _, rfl⟩

theorem manCloseEffect_frame (a : List Byte) (s : State) :
    ∃ x0, (manCloseEffect a s).state = { s with mans := x0 } := by
  simp only [manCloseEffect, withMan]
  repeat' split
  all_goals exact ⟨_, rfl⟩

theorem manCancelEffect_frame (a : List Byte) (s : State) :
    ∃ x0 x1, (manCancelEffect a s).state = { s with mans := x0, bags := x1 } := by
  simp only [manCancelEffect, withMan]
  repeat' split
  all_goals first
    | exact ⟨_, _, rfl⟩
    | exact ⟨_, _, (markBags_eq _ _ _).trans rfl⟩

theorem courierArriveEffect_frame (a : List Byte) (s : State) :
    ∃ x0 x1 x2, (courierArriveEffect a s).state = { s with mans := x0, door := x1, port := x2 } := by
  unfold courierArriveEffect withMan
  beta_reduce
  repeat' split
  all_goals first
    | exact ⟨_, _, _, rfl⟩
    | (unfold State.wrongCourier; split <;> exact ⟨_, _, _, rfl⟩)
    | exact ⟨_, _, _, (recomputeDoor_eq _ _).trans rfl⟩

theorem bagScanEffect_frame (a : List Byte) (s : State) :
    ∃ x0 x1 x2 x3, (bagScanEffect a s).state = { s with mans := x0, bags := x1, door := x2, port := x3 } := by
  simp only [bagScanEffect, withMan, scanEntry]
  repeat' split
  all_goals first
    | exact ⟨_, _, _, _, rfl⟩
    | exact ⟨_, _, _, _, (congrArg (State.raise _) (recomputeDoor_eq _ _)).trans rfl⟩

theorem manResumeEffect_frame (a : List Byte) (s : State) :
    ∃ x0 x1 x2 x3 x4,
      (manResumeEffect a s).state = { s with auth := x0, port := x1, mans := x2, bags := x3, door := x4 } := by
  unfold manResumeEffect withMan
  split
  · exact ⟨_, _, _, _, _, rfl⟩
  split
  · exact ⟨_, _, _, _, _, rfl⟩
  split
  · exact ⟨_, _, _, _, _, rfl⟩
  apply withAuthority_state (fun t => ∃ x0 x1 x2 x3 x4,
    t = { s with auth := x0, port := x1, mans := x2, bags := x3, door := x4 })
  · exact ⟨_, _, _, _, _, rfl⟩
  · unfold State.wrongOverride
    split <;> exact ⟨_, _, _, _, _, rfl⟩
  · repeat' split
    all_goals first
      | exact ⟨_, _, _, _, _, rfl⟩
      | exact ⟨_, _, _, _, _, (recomputeDoor_eq _ _).trans rfl⟩

theorem courierSignEffect_frame (a : List Byte) (s : State) :
    ∃ x0 x1 x2 x3 x4 x5,
      (courierSignEffect a s).state = { s with mans := x0, bags := x1, balance := x2, door := x3, rack := x4, port := x5 } := by
  simp only [courierSignEffect, withMan, signDelivery]
  repeat' split
  all_goals first
    | exact ⟨_, _, _, _, _, _, rfl⟩
    | exact signCollection_frame ..

theorem manReopenEffect_frame (a : List Byte) (s : State) :
    ∃ x0 x1 x2, (manReopenEffect a s).state = { s with auth := x0, port := x1, mans := x2 } := by
  simp only [manReopenEffect, withMan, withAuthority, State.wrongOverride]
  repeat' split
  all_goals exact ⟨_, _, _, rfl⟩

theorem manReadEffect_frame (a : List Byte) (s : State) :
    (manReadEffect a s).state = s := by
  simp only [manReadEffect, withMan]
  repeat' split
  all_goals rfl

end Sys2Proof.Machine
end

