-- ==== Sys2Proof/Laws/Port.lean ====
section
/-! SUPPORT. What a command byte does at an idle port, so that a claim about a command is a claim about its
effect; and what each row's meaning is when nothing is due. -/

namespace Sys2Proof.Machine

theorem exec_cmdInstr (c : Cmd) (w : CmdWrite) (s : State) :
    exec (cmdInstr c w) s = .next (runCommand c w s) := by
  cases c <;> rfl

theorem idle_iff (s : State) : s.idle = true ↔
    s.powered = true ∧ s.resetLow = false ∧ s.ret.kind = .none ∧ s.due = [] ∧
      s.port.inProgress = none ∧ s.port.held = [] := by
  simp [State.idle, and_assoc]

theorem ready_iff (s : State) : s.ready = true ↔ s.idle = true ∧ s.port.overflow = false := by
  simp [State.ready]

/-- The state in which a command written at an idle port is judged: BUSY set, DONE cleared (R173, R177). -/
def State.busyWith (b : Byte) (s : State) : State :=
  { s with port := { s.port with done := false, inProgress := some b } }

theorem runCommand_idle (c : Cmd) (n : Bool) (s : State) (h : s.idle = true) :
    runCommand c (whole n) s = finish (c.byte n) (judge (c.byte n) (s.busyWith (c.byte n))) := by
  obtain ⟨hp, hr, hk, hd, hb, hh⟩ := (idle_iff s).mp h
  simp [runCommand, whole, settle_of_nothing_due s hd, commandWrite, hp, hr, Port.busy, hb, startCommand, hk,
    State.complete, State.access, hh, takeHeld, State.busyWith]

theorem judge_cmd (c : Cmd) (n : Bool) (s : State) (h : s.port.overflow = false) :
    judge (c.byte n) s = effect c s.port.args s := by
  simp [judge, Cmd.ofCode_byte, h]

theorem judge_overflow (c : Cmd) (n : Bool) (s : State) (h : s.port.overflow = true) :
    judge (c.byte n) s = .refused .argument s := by
  simp [judge, Cmd.ofCode_byte, h]

/-- A command of the table at a ready part: its effect on the argument buffer, then its completion. -/
theorem exec_ready (c : Cmd) (n : Bool) (s : State) (h : s.ready = true) :
    exec (cmdInstr c (whole n)) s =
      .next (finish (c.byte n) (effect c s.port.args (s.busyWith (c.byte n)))) := by
  obtain ⟨hi, ho⟩ := (ready_iff s).mp h
  rw [exec_cmdInstr, runCommand_idle c n s hi, judge_cmd _ _ _ (by simpa [State.busyWith] using ho)]
  rfl

theorem finish_taken (b : Byte) (l : List Byte) (t : State) : finish b (.taken l t) = t.endCommand b l .ok := rfl

theorem finish_refused (b : Byte) (r : PortCode) (t : State) :
    finish b (.refused r t) = t.endCommand b [] r := rfl

/-- A completion forgets that the command was in progress: BUSY and DONE are written by it (R173, R177). -/
theorem endCommand_busyWith (b c : Byte) (l : List Byte) (r : PortCode) (t : State) :
    (t.busyWith c).endCommand b l r = t.endCommand b l r := rfl

/-! ### A part that can take a command, awake or in WATCH -/

theorem accepts_awake (s : State) (h : s.accepts = true) :
    s.awake.ready = true ∧ s.awake.port.args = s.port.args := by
  simp [State.accepts] at h
  cases hk : s.ret.kind <;>
    simp_all [State.awake, State.wakeWatch, State.raise, State.ready, State.idle]

/-- A command byte in WATCH is taken by the part it woke (R162, R182). -/
theorem exec_accepts (c : Cmd) (n : Bool) (s : State) (h : s.accepts = true) :
    exec (cmdInstr c (whole n)) s = exec (cmdInstr c (whole n)) s.awake := by
  simp [State.accepts] at h
  cases hk : s.ret.kind
  · simp [State.awake, hk]
  · rw [exec_cmdInstr, exec_cmdInstr]
    have e : s.awake.due = [] := by simp_all [State.awake, State.wakeWatch, State.raise]
    simp [runCommand, settle_of_nothing_due _ e, settle_of_nothing_due _ h.1.1.1.2, whole, commandWrite, h,
      Port.busy, startCommand, hk]
    simp_all [State.awake, State.wakeWatch, State.raise, State.access]
  · simp_all

/-! ### What a command reads is as it was before its write -/

@[simp] theorem busyWith_denoms (b : Byte) (s : State) : (s.busyWith b).denoms = s.denoms := rfl

@[simp] theorem busyWith_stock (b : Byte) (s : State) : (s.busyWith b).stock = s.stock := rfl

@[simp] theorem busyWith_balance (b : Byte) (s : State) : (s.busyWith b).balance = s.balance := rfl

@[simp] theorem busyWith_limits (b : Byte) (s : State) : (s.busyWith b).limits = s.limits := rfl

@[simp] theorem busyWith_templates (b : Byte) (s : State) : (s.busyWith b).templates = s.templates := rfl

@[simp] theorem busyWith_tills (b : Byte) (s : State) : (s.busyWith b).tills = s.tills := rfl

@[simp] theorem busyWith_calls (b : Byte) (s : State) : (s.busyWith b).calls = s.calls := rfl

@[simp] theorem busyWith_callOverflow (b : Byte) (s : State) : (s.busyWith b).callOverflow = s.callOverflow := rfl

@[simp] theorem busyWith_round (b : Byte) (s : State) : (s.busyWith b).round = s.round := rfl

@[simp] theorem busyWith_lanes (b : Byte) (s : State) : (s.busyWith b).lanes = s.lanes := rfl

@[simp] theorem busyWith_audit (b : Byte) (s : State) : (s.busyWith b).audit = s.audit := rfl

@[simp] theorem busyWith_bags (b : Byte) (s : State) : (s.busyWith b).bags = s.bags := rfl

@[simp] theorem busyWith_rack (b : Byte) (s : State) : (s.busyWith b).rack = s.rack := rfl

@[simp] theorem busyWith_mans (b : Byte) (s : State) : (s.busyWith b).mans = s.mans := rfl

@[simp] theorem busyWith_door (b : Byte) (s : State) : (s.busyWith b).door = s.door := rfl

@[simp] theorem busyWith_auth (b : Byte) (s : State) : (s.busyWith b).auth = s.auth := rfl

@[simp] theorem busyWith_clock (b : Byte) (s : State) : (s.busyWith b).clock = s.clock := rfl

@[simp] theorem busyWith_ret (b : Byte) (s : State) : (s.busyWith b).ret = s.ret := rfl

@[simp] theorem busyWith_lines (b : Byte) (s : State) : (s.busyWith b).lines = s.lines := rfl

@[simp] theorem busyWith_taken (b : Byte) (s : State) : (s.busyWith b).taken = s.taken := rfl

@[simp] theorem busyWith_resetLow (b : Byte) (s : State) : (s.busyWith b).resetLow = s.resetLow := rfl

@[simp] theorem busyWith_powered (b : Byte) (s : State) : (s.busyWith b).powered = s.powered := rfl

@[simp] theorem busyWith_due (b : Byte) (s : State) : (s.busyWith b).due = s.due := rfl

@[simp] theorem busyWith_freeCount (b : Byte) (s : State) : (s.busyWith b).freeCount = s.freeCount := rfl

@[simp] theorem busyWith_pending (b : Byte) (s : State) : (s.busyWith b).pending = s.pending := rfl

@[simp] theorem busyWith_port_args (b : Byte) (s : State) :
    (s.busyWith b).port.args = s.port.args := rfl

@[simp] theorem busyWith_port_overflow (b : Byte) (s : State) :
    (s.busyWith b).port.overflow = s.port.overflow := rfl

@[simp] theorem busyWith_port_reply (b : Byte) (s : State) :
    (s.busyWith b).port.reply = s.port.reply := rfl

@[simp] theorem busyWith_port_readPos (b : Byte) (s : State) :
    (s.busyWith b).port.readPos = s.port.readPos := rfl

@[simp] theorem busyWith_port_code (b : Byte) (s : State) :
    (s.busyWith b).port.code = s.port.code := rfl

@[simp] theorem busyWith_port_held (b : Byte) (s : State) :
    (s.busyWith b).port.held = s.port.held := rfl

@[simp] theorem busyWith_port_attnPending (b : Byte) (s : State) :
    (s.busyWith b).port.attnPending = s.port.attnPending := rfl

@[simp] theorem busyWith_port_attnEnable (b : Byte) (s : State) :
    (s.busyWith b).port.attnEnable = s.port.attnEnable := rfl

@[simp] theorem busyWith_port_dataOut (b : Byte) (s : State) :
    (s.busyWith b).port.dataOut = s.port.dataOut := rfl

@[simp] theorem busyWith_stamp (b : Byte) (s : State) : (s.busyWith b).stamp = s.stamp := rfl

@[simp] theorem busyWith_anyBags (b : Byte) (s : State) : (s.busyWith b).anyBags = s.anyBags := rfl

@[simp] theorem busyWith_shouldUnlock (b : Byte) (s : State) : (s.busyWith b).shouldUnlock = s.shouldUnlock := rfl

@[simp] theorem busyWith_stockValue (b : Byte) (s : State) : (s.busyWith b).stockValue = s.stockValue := rfl

@[simp] theorem busyWith_floatsOut (b : Byte) (s : State) : (s.busyWith b).floatsOut = s.floatsOut := rfl

@[simp] theorem busyWith_bagValue (b : Byte) (s : State) : (s.busyWith b).bagValue = s.bagValue := rfl

@[simp] theorem busyWith_anySession (b : Byte) (s : State) : (s.busyWith b).anySession = s.anySession := rfl

@[simp] theorem busyWith_anyAtDoor (b : Byte) (s : State) : (s.busyWith b).anyAtDoor = s.anyAtDoor := rfl

@[simp] theorem busyWith_auditOpen (b : Byte) (s : State) : (s.busyWith b).auditOpen = s.auditOpen := rfl

@[simp] theorem busyWith_freeSlot (b : Byte) (s : State) : (s.busyWith b).freeSlot = s.freeSlot := rfl

@[simp] theorem busyWith_freeBag (b : Byte) (s : State) : (s.busyWith b).freeBag = s.freeBag := rfl

@[simp] theorem busyWith_bagsSlot (b : Byte) (s : State) : (s.busyWith b).bagsSlot = s.bagsSlot := rfl

@[simp] theorem busyWith_bagCount (b : Byte) (s : State) : (s.busyWith b).bagCount = s.bagCount := rfl

@[simp] theorem busyWith_till (b : Byte) (s : State) (x : TillIx) :
    (s.busyWith b).till x = s.till x := rfl

@[simp] theorem busyWith_lane (b : Byte) (s : State) (x : LaneIx) :
    (s.busyWith b).lane x = s.lane x := rfl

@[simp] theorem busyWith_bag (b : Byte) (s : State) (x : BagIx) :
    (s.busyWith b).bag x = s.bag x := rfl

@[simp] theorem busyWith_man (b : Byte) (s : State) (x : SlotIx) :
    (s.busyWith b).man x = s.man x := rfl

@[simp] theorem busyWith_findMan (b : Byte) (s : State) (x : Nat) :
    (s.busyWith b).findMan x = s.findMan x := rfl

@[simp] theorem busyWith_tagBag (b : Byte) (s : State) (x : Nat) :
    (s.busyWith b).tagBag x = s.tagBag x := rfl

@[simp] theorem busyWith_referenced (b : Byte) (s : State) (x : Code) :
    (s.busyWith b).referenced x = s.referenced x := rfl

@[simp] theorem busyWith_valueListed (b : Byte) (s : State) (x : Collection) :
    (s.busyWith b).valueListed x = s.valueListed x := rfl

@[simp] theorem busyWith_valueAccepted (b : Byte) (s : State) (x : Collection) :
    (s.busyWith b).valueAccepted x = s.valueAccepted x := rfl

@[simp] theorem busyWith_entryPresent (b : Byte) (s : State) (x : Entry) :
    (s.busyWith b).entryPresent x = s.entryPresent x := rfl

@[simp] theorem busyWith_tillsIn (b : Byte) (s : State) (x : TillState) :
    (s.busyWith b).tillsIn x = s.tillsIn x := rfl

@[simp] theorem busyWith_hasCall (b : Byte) (s : State) (x : TillIx) (y : CallKind) :
    (s.busyWith b).hasCall x y = s.hasCall x y := rfl

@[simp] theorem busyWith_callPos (b : Byte) (s : State) (x : TillIx) (y : CallKind) :
    (s.busyWith b).callPos x y = s.callPos x y := rfl

@[simp] theorem outRefusal_busyWith (b : Byte) (s : State) (x : Comp) :
    outRefusal (s.busyWith b) x = outRefusal s x := rfl

@[simp] theorem inRefusal_busyWith (b : Byte) (s : State) (x : Comp) :
    inRefusal (s.busyWith b) x = inRefusal s x := rfl

@[simp] theorem postRefused_busyWith (b : Byte) (s : State) (x : Int) :
    postRefused (s.busyWith b) x = postRefused s x := rfl

@[simp] theorem inBags_busyWith (b : Byte) (s : State) (x : SlotIx) :
    inBags (s.busyWith b) x = inBags s x := rfl

@[simp] theorem bindCheck_busyWith (b : Byte) (s : State) (x : OpenTarget) :
    bindCheck (s.busyWith b) x = bindCheck s x := rfl

/-- The shared operations act on a state with a command in progress as on the state without it. -/
theorem recomputeDoor_busyWith (b : Byte) (k : LockCause) (s : State) :
    (s.busyWith b).recomputeDoor k = (s.recomputeDoor k).busyWith b := by
  have e : (s.busyWith b).recomputeDoor k =
      if s.door.unlocked && !s.shouldUnlock && s.taken.doorOpen then
        (State.raise .safe { s with door := { s.door with unlocked := false, leftOpen := true,
                                                          event := some ⟨.leftOpen k, s.stamp⟩ } }).busyWith b
      else ({ s with door := { s.door with unlocked := s.shouldUnlock } } : State).busyWith b := rfl
  rw [e]
  unfold State.recomputeDoor
  split <;> rfl

theorem raise_busyWith (b : Byte) (x : Source) (s : State) :
    State.raise x (s.busyWith b) = (State.raise x s).busyWith b := rfl

/-! ### Placement while a command is in progress -/

theorem placeOne_busyWith (x : Byte) (b : BagIx) (s : State) :
    (s.busyWith x).placeOne b = (s.placeOne b).busyWith x := by
  obtain ⟨r1, r2, r3⟩ := placeOne_cases b s
  obtain ⟨q1, q2, q3⟩ := placeOne_cases b (s.busyWith x)
  by_cases h1 : (s.rack.comps[s.rack.ptr] ++ [b]).length < s.rack.k
  · rw [r1 h1, q1 h1]; rfl
  · by_cases h2 : (s.entered b).rack.comps[s.rack.ptr + 1] = []
    · rw [r2 h1 h2, q2 h1 h2]; rfl
    · rw [r3 h1 h2, q3 h1 h2]; rfl

theorem placeFrom_busyWith (x : Byte) (l : List BagIx) (s : State) :
    State.placeFrom l (s.busyWith x) = (State.placeFrom l s).busyWith x := by
  induction l generalizing s with
  | nil => rfl
  | cons b r ih =>
    by_cases h : s.rack.halt = true
    · rw [placeFrom_halted b r s h, placeFrom_halted b r (s.busyWith x) h]; rfl
    · rw [placeFrom_free b r s h, placeFrom_free b r (s.busyWith x) h, placeOne_busyWith, ih]

theorem place_busyWith (x : Byte) (s : State) : (s.busyWith x).place = s.place.busyWith x :=
  placeFrom_busyWith x s.rack.queue s

theorem liftHalt_busyWith (x : Byte) (s : State) : (s.busyWith x).liftHalt = s.liftHalt.busyWith x := by
  by_cases h : s.rack.halt = true → s.rack.comps[s.rack.ptr] ≠ []
  · rw [liftHalt_stays s h, liftHalt_stays (s.busyWith x) h]
  · rw [Classical.not_imp, not_not] at h
    rw [liftHalt_lifts s h.1 h.2, liftHalt_lifts (s.busyWith x) h.1 h.2]
    exact place_busyWith x { s with rack := { s.rack with halt := false } }

theorem retireEntries_busyWith (x : Byte) (l : List Entry) (s : State) :
    l.foldl State.retireEntry (s.busyWith x) = (l.foldl State.retireEntry s).busyWith x := by
  induction l generalizing s with
  | nil => rfl
  | cons e r ih =>
    rw [List.foldl_cons, List.foldl_cons, ← ih]
    by_cases h : s.entryPresent e = true
    · rw [retireEntry_present e s h, retireEntry_present e (s.busyWith x) h]; rfl
    · rw [retireEntry_absent e s h, retireEntry_absent e (s.busyWith x) h]

/-- A matching override code: what follows runs with the failure count at 0 (R145). -/
theorem withAuthority_matched (code : Nat) (s : State) (next : State → Answer) (h : s.auth.lockout = 0)
    (h1 : code = s.auth.code) (h2 : s.auth.code ≤ 999999) :
    withAuthority code s next = next s.matched := by
  unfold withAuthority
  rw [if_neg (by omega), if_neg (by omega), if_neg (by omega)]
  rfl

/-- A command whose effect is taken, at a ready part: the reply and the effect's state, then the completion. -/
theorem exec_taken (c : Cmd) (n : Bool) (s : State) (h : s.ready = true) {l : List Byte} {t : State}
    (e : effect c s.port.args (s.busyWith (c.byte n)) = .taken l (t.busyWith (c.byte n))) :
    exec (cmdInstr c (whole n)) s = .next (completed c n l t) := by
  rw [exec_ready c n s h, e]
  rfl

/-- A command whose effect is a refusal, at a ready part. -/
theorem exec_refused (c : Cmd) (n : Bool) (s : State) (h : s.ready = true) {r : PortCode} {t : State}
    (e : effect c s.port.args (s.busyWith (c.byte n)) = .refused r (t.busyWith (c.byte n))) :
    exec (cmdInstr c (whole n)) s = .next (turnedAway c n r t) := by
  rw [exec_ready c n s h, e]
  rfl

end Sys2Proof.Machine
end

