-- ==== Sys2Proof/Laws/Steps.lean ====
section
/-! SUPPORT. What one step can do: a law that the primitive effects keep is kept by every step. -/

namespace Sys2Proof.Machine

/-- A change of the port that keeps or empties the reply, and keeps the bounds of the buffers. -/
def Port.keeps (p q : Port) : Prop := (q.reply = p.reply ∨ q.reply = []) ∧ (p.bounded → q.bounded)

/-- What a law must bear for every step to keep it: the changes of the port and of the model's own fields, the
effect of a command with its completion, and each primitive event. -/
structure Kept (P : State → Prop) : Prop where
  port : ∀ s p, s.port.keeps p → P s → P { s with port := p }
  own : ∀ s d f q l t r w, P s → P { s with
    due := d, freeCount := f, pending := q, lines := l, taken := t, resetLow := r, powered := w }
  awake : ∀ s, P s → P { s with ret := { s.ret with kind := .none } }
  deep : ∀ s, P s → P { s with ret := { s.ret with kind := .deep, path := some .supply } }
  command : ∀ b c s, P s → P (finish b (effect c s.port.args s))
  reset : ∀ s, P s → P s.pinReset
  supply : ∀ s, P s → P s.supplyEffects
  cold : ∀ h s, P s → P (coldPowerUp h s)
  door : ∀ o s, P s → P (s.judgeDoor o)
  second : ∀ s, P s → P s.secondNow
  minute : ∀ s, P s → P s.minuteNow
  error : ∀ e i s, P s → P (s.laneError e i)
  hello : ∀ i m z s, P s → P (takeHello i m z s)
  batch : ∀ i q c n s, P s → P (takeBatch i q c n s)
  endFeed : ∀ i q s, P s → P (takeEndFeed i q s)
  holdAck : ∀ i s, P s → P (takeHoldAck i s)
  jam : ∀ i j s, P s → P (takeJam i j s)
  receiver : ∀ i r s, P s → P (s.setLane i { s.lane i with rx := r })
  sent : ∀ i s, P s → P (s.setLane i (s.lane i).frameEnd)
  interval : ∀ s, P s → P (s.dropInterval .interval)
  timer : ∀ s, P s → P { s with round := { s.round with countdown := some s.round.interval } }
  round : ∀ s, P s → P s.startRound
  evaluation : ∀ s, P s → P (roundEvaluate s)
  expiry : ∀ i s, P s → P (s.expireSlot i)

variable {P : State → Prop}

/-! ### Changes of the port -/

theorem Port.keeps_same (p q : Port) (h1 : q.reply = p.reply) (h2 : q.args = p.args) (h3 : q.readPos = p.readPos) :
    p.keeps q :=
  ⟨.inl h1, fun h => by unfold Port.bounded at h ⊢; rw [h1, h2, h3]; exact h⟩

theorem Port.keeps_cleared (p : Port) (b : Byte) : p.keeps (Port.cleared b) :=
  ⟨.inr rfl, fun _ => ⟨Nat.zero_le _, Nat.zero_le _⟩⟩

theorem Port.keeps_append (b : Byte) (p : Port) : ({ p with done := false } : Port).keeps (p.append b) := by
  unfold Port.append
  split
  · next h => exact ⟨.inl rfl, fun hb => ⟨by rw [List.length_append]; exact h, hb.2⟩⟩
  · exact ⟨.inl rfl, fun hb => hb⟩

theorem Kept.raise (k : Kept P) (x : Source) (s : State) (h : P s) : P (State.raise x s) :=
  k.port s _ (Port.keeps_same _ _ rfl rfl rfl) h

theorem Kept.access (k : Kept P) (s : State) (h : P s) : P s.access :=
  k.port s _ (Port.keeps_same _ _ rfl rfl rfl) h

theorem Kept.wake (k : Kept P) (s : State) (h : P s) : P s.wakeWatch := k.raise _ _ (k.awake s h)

/-! ### Events of a tick -/

theorem Kept.fire (k : Kept P) (e : TickEvent) (s : State) (h : P s) : P (fire e s) := by
  unfold Sys2Proof.Machine.fire
  split
  · unfold holdTimeoutNow
    split
    · exact k.error _ _ s h
    · exact h
  · unfold intervalEndNow
    split
    · exact k.interval s h
    · exact h
  · exact k.minute s h
  · unfold timerExpiryNow
    split
    · dsimp only
      split
      · exact k.timer s h
      · exact k.round _ (k.timer s h)
    · exact h
  · exact h
  · unfold windowExpiryNow
    split
    · exact k.expiry _ s h
    · exact h

theorem Kept.settleOnce (k : Kept P) (s : State) (h : P s) : P s.settleOnce := by
  unfold State.settleOnce
  have key : ∀ (l : List TickEvent) (t : State), P t → P (l.foldl (fun s e => Sys2Proof.Machine.fire e s) t) := by
    intro l
    induction l with
    | nil => exact fun _ ht => ht
    | cons e r ih => exact fun t ht => ih _ (k.fire e t ht)
  exact key _ _ (k.own s _ _ _ _ _ _ _ h)

theorem Kept.settle (k : Kept P) (s : State) (h : P s) : P s.settle := by
  unfold State.settle
  split
  · exact h
  · exact k.settleOnce _ (k.settleOnce s h)

theorem Kept.take (k : Kept P) (e : TickEvent) (s : State) (h : P s) : P (s.take e) := by
  unfold State.take
  split
  · exact k.fire e _ (k.own s _ _ _ _ _ _ _ h)
  · exact k.settle s h

/-! ### Transfers and completions -/

theorem Kept.finish (k : Kept P) (b : Byte) (s : State) (h : P s) : P (finish b (judge b s)) := by
  unfold judge
  split
  · exact k.port s _ ⟨.inr rfl, fun _ => ⟨Nat.zero_le _, Nat.zero_le _⟩⟩ h
  · split
    · exact k.port s _ ⟨.inr rfl, fun _ => ⟨Nat.zero_le _, Nat.zero_le _⟩⟩ h
    · exact k.command b _ s h

theorem Kept.argument (k : Kept P) (b : Byte) (s : State) (h : P s) : P (acceptArgument b s) := by
  unfold acceptArgument
  split
  · exact k.access s h
  · exact k.port s.access _ (Port.keeps_append b { s.port with done := false }) (k.access s h)

theorem Kept.read (k : Kept P) (s : State) (h : P s) : P (readReply s) := by
  refine k.port s _ ⟨.inl rfl, fun hb => ⟨hb.1, ?_⟩⟩ h
  show (if s.port.readPos < s.port.reply.length then s.port.readPos + 1 else s.port.readPos) ≤ s.port.reply.length
  by_cases hlt : s.port.readPos < s.port.reply.length
  · rw [if_pos hlt]
    exact hlt
  · rw [if_neg hlt]
    exact hb.2

theorem Kept.start (k : Kept P) (b : Byte) (s : State) (h : P s) : P (startCommand b s) := by
  unfold startCommand
  split
  · exact k.access s h
  · exact k.port _ _ (Port.keeps_same _ _ rfl rfl rfl) (k.wake _ (k.access s h))
  · exact k.port s _ (Port.keeps_same _ _ rfl rfl rfl) h

theorem Kept.takeHeld (k : Kept P) (l : List Held) (s : State) (h : P s) : P (takeHeld l s) := by
  induction l generalizing s with
  | nil => exact h
  | cons x r ih =>
    cases x with
    | argument b => exact ih _ (k.argument b s h)
    | reply => exact ih _ (k.read s h)
    | command b =>
      unfold Sys2Proof.Machine.takeHeld
      split
      · exact k.port _ _ (Port.keeps_same _ _ rfl rfl rfl) (k.start b s h)
      · exact ih _ (k.start b s h)

theorem Kept.complete (k : Kept P) (s : State) (h : P s) : P s.complete := by
  unfold State.complete
  split
  · exact h
  · exact k.takeHeld _ _ (k.finish _ s h)

theorem Kept.completeAll (k : Kept P) (s : State) (h : P s) : P s.completeAll := by
  unfold State.completeAll
  generalize s.port.held.length + 1 = n
  induction n generalizing s with
  | zero => exact h
  | succ n ih =>
    unfold completeMany
    split
    · exact ih _ (k.complete s h)
    · exact h

theorem Kept.write (k : Kept P) (b : Byte) (w : Pace) (s : State) (h : P s) : P (commandWrite b w s) := by
  unfold commandWrite
  split
  · exact h
  split
  · exact k.port s _ (Port.keeps_same _ _ rfl rfl rfl) h
  split
  · exact k.complete _ (k.start b s h)
  · exact k.start b s h

theorem Kept.float (k : Kept P) (s : State) (h : P s) : P s.floatRead :=
  k.own { s with port := { s.port with dataOut := _ } } s.due _ s.pending s.lines s.taken s.resetLow s.powered
    (k.port s _ (Port.keeps_same _ _ rfl rfl rfl) h)

/-! ### Lines, resets and supply -/

theorem Kept.level (k : Kept P) (n : LineName) (s : State) (h : P s) : P (takeLevel n s) := by
  unfold takeLevel
  split
  · exact h
  have h1 : P { s with taken := s.taken.set n (s.lines.get n) } :=
    k.own s s.due s.freeCount s.pending s.lines _ s.resetLow s.powered h
  generalize ({ s with taken := s.taken.set n (s.lines.get n) } : State) = t at h1
  generalize s.lines.get n = b
  unfold actLine
  split
  · split
    · unfold roundPulse
      split
      · exact k.round t h1
      · exact h1
    · exact h1
  · split
    · unfold Sys2Proof.Machine.courierCall
      split
      · exact k.raise _ t h1
      · exact k.wake _ (k.raise _ t h1)
      · exact h1
    · exact h1
  · unfold doorChange
    split
    · exact k.door b t h1
    · exact k.wake _ (k.door b t h1)
    · exact k.door b _ (k.reset t h1)
  · split
    · unfold supplyAsserted
      have h2 : P t.completeAll := k.completeAll t h1
      generalize t.completeAll = u at h2
      dsimp only
      split
      · exact k.supply u h2
      · exact k.deep u h2
      · exact h2
    · exact h1

theorem Kept.line (k : Kept P) (n : LineName) (b : Bool) (s : State) (h : P s) : P (lineLevel n b s) := by
  unfold lineLevel
  dsimp only
  split
  · exact k.own s s.due s.freeCount s.pending _ s.taken s.resetLow s.powered h
  · exact k.level n _ (k.own s s.due s.freeCount s.pending _ s.taken s.resetLow s.powered h)

theorem Kept.assertReset (k : Kept P) (s : State) (h : P s) : P (assertReset s) := by
  unfold Sys2Proof.Machine.assertReset
  split
  · exact k.own s s.due s.freeCount s.pending s.lines s.taken _ s.powered h
  split
  · exact h
  · exact k.own _ _ _ _ _ _ _ _ (k.reset s h)

theorem Kept.deassertReset (k : Kept P) (s : State) (h : P s) : P (deassertReset s) := by
  unfold Sys2Proof.Machine.deassertReset
  split
  · exact k.own s s.due s.freeCount s.pending s.lines s.taken _ s.powered h
  split
  · exact h
  have key : ∀ (l : List LineName) (t : State), P t → P (l.foldl (fun s n => takeLevel n s) t) := by
    intro l
    induction l with
    | nil => exact fun _ ht => ht
    | cons n r ih => exact fun t ht => ih _ (k.level n t ht)
  refine key _ _ ?_
  split
  · exact k.own s s.due s.freeCount s.pending s.lines s.taken _ s.powered h
  · exact k.own s s.due _ s.pending s.lines s.taken _ s.powered h

/-! ### Lanes -/

theorem Kept.frame (k : Kept P) (i : LaneIx) (kind : Byte) (body : List Byte) (s : State) (h : P s) :
    P (takeFrame i kind body s) := by
  have he : P (s.laneError .protocol i) := k.error _ _ s h
  have one : ∀ {p : Prop} [Decidable p] {t : State}, P t → P (if p then t else s.laneError .protocol i) := by
    intro p _ t ht
    split
    · exact ht
    · exact he
  match body with
  | [] => exact one (k.holdAck i s h)
  | [b] =>
    show P (if _ then _ else if _ then _ else _)
    split
    · exact k.endFeed i b s h
    · exact one (k.jam i b s h)
  | [_, _] => exact he
  | [_, _, _] => exact he
  | [_, _, _, _] => exact he
  | [m, _, _, _, _] => exact one (k.hello i m _ s h)
  | [_, _, _, _, _, _] => exact he
  | [_, _, _, _, _, _, _] => exact he
  | [q, c, _, _, _, _, _, _] => exact one (k.batch i q c _ s h)
  | _ :: _ :: _ :: _ :: _ :: _ :: _ :: _ :: _ :: _ => exact he

theorem Kept.receive (k : Kept P) (i : LaneIx) (l : List RxChar) (s : State) (h : P s) : P (receive i l s) := by
  unfold Sys2Proof.Machine.receive
  split
  · exact h
  have key : ∀ (es : List RxEvent) (t : State), P t → P (es.foldl (laneEvent i) t) := by
    intro es
    induction es with
    | nil => exact fun _ ht => ht
    | cons e r ih =>
      intro t ht
      refine ih _ ?_
      unfold laneEvent
      split
      · exact k.frame i _ _ t ht
      · exact k.error _ i t ht
  exact key _ _ (k.receiver i _ s h)

/-! ### Every command of the queue -/

theorem Kept.exec (k : Kept P) (c : Instr) (s t : State) (h : P s) (e : exec c s = .next t) : P t := by
  have next : ∀ {u : State}, P u → (Host.Outcome.next u : Result) = .next t → P t := by
    intro u hu he
    injection he with he
    rw [← he]
    exact hu
  have hs : P s.settle := k.settle s h
  generalize hst : s.settle = u at hs
  cases c
  case argumentWrite b =>
    refine next ?_ e
    rw [hst]
    unfold Sys2Proof.Machine.argumentWrite
    split
    · exact hs
    split
    · exact k.port u _ (Port.keeps_same _ _ rfl rfl rfl) hs
    · exact k.argument b u hs
  case replyRead =>
    refine next ?_ e
    rw [hst]
    unfold Sys2Proof.Machine.replyRead
    split
    · exact k.float u hs
    split
    · exact k.port u _ (Port.keeps_same _ _ rfl rfl rfl) hs
    split
    · exact k.port u _ (Port.keeps_same _ _ rfl rfl rfl) hs
    · exact k.read u hs
  case statusByteRead =>
    refine next ?_ e
    rw [hst]
    unfold Sys2Proof.Machine.statusByteRead
    split
    · exact k.float u hs
    split
    · exact k.port u _ (Port.keeps_same _ _ rfl rfl rfl) hs
    · exact k.port u _ (Port.keeps_same _ _ rfl rfl rfl) hs
  case doneAcknowledge =>
    refine next ?_ e
    rw [hst]
    unfold Sys2Proof.Machine.doneAcknowledge
    split
    · exact hs
    · exact k.access u hs
  case commandCompletion =>
    refine next ?_ e
    rw [hst]
    split
    · exact hs
    · exact k.complete u hs
  case pinReset => exact next (hst ▸ k.assertReset u hs) e
  case resetDeassert => exact next (hst ▸ k.deassertReset u hs) e
  case coldPowerUp b => exact next (hst ▸ k.cold b u hs) e
  case supplyLost =>
    exact next (hst ▸ k.own u u.due u.freeCount u.pending u.lines u.taken u.resetLow false hs) e
  case supplyWarning b => exact next (hst ▸ k.line .supplyWarn b u hs) e
  case courierCall b => exact next (hst ▸ k.line .courierIn b u hs) e
  case roundInPulse b => exact next (hst ▸ k.line .roundIn b u hs) e
  case doorSenseChange b => exact next (hst ▸ k.line .doorSense b u hs) e
  case secondTick =>
    refine next ?_ e
    unfold State.takeSecond
    rw [hst]
    split
    · exact k.second u hs
    · exact hs
  case minuteTick =>
    refine next ?_ e
    unfold State.takeMinute
    rw [hst]
    split
    · exact k.minute _ (k.own s _ s.freeCount s.pending s.lines s.taken s.resetLow s.powered h)
    split
    · exact k.minute u hs
    · exact hs
  case holdTimeout i => exact next (k.take _ s h) e
  case intervalEnd => exact next (k.take _ s h) e
  case lockoutEnd => exact next (k.take _ s h) e
  case timerExpiry => exact next (k.take _ s h) e
  case windowExpiry j => exact next (k.take _ s h) e
  case roundEvaluation =>
    refine next ?_ e
    rw [hst]
    split
    · exact hs
    · exact k.evaluation u hs
  case frameSent i =>
    refine next ?_ e
    rw [hst]
    unfold Sys2Proof.Machine.frameSent
    split
    · exact hs
    · exact k.sent i u hs
  case hello => exact next (hst ▸ k.receive _ _ u hs) e
  case batch => exact next (hst ▸ k.receive _ _ u hs) e
  case endFeed => exact next (hst ▸ k.receive _ _ u hs) e
  case holdAck => exact next (hst ▸ k.receive _ _ u hs) e
  case jam => exact next (hst ▸ k.receive _ _ u hs) e
  case protocolFrame => exact next (hst ▸ k.receive _ _ u hs) e
  case framingError => exact next (hst ▸ k.receive _ _ u hs) e
  case checkError => exact next (hst ▸ k.receive _ _ u hs) e
  all_goals exact next (k.write _ _ _ (k.settle s h)) e

/-- A law that the primitive effects keep is kept by every step. -/
theorem Kept.step (k : Kept P) (s t : State) (h : P s) (e : step s = .next t) : P t := by
  unfold Sys2Proof.Machine.step at e
  split at e
  · injection e with e
    rw [← e]
    exact h
  · exact k.exec _ _ t (k.own s s.due s.freeCount _ s.lines s.taken s.resetLow s.powered h) e

end Sys2Proof.Machine
end

