-- ==== Sys2Proof/Laws/Fields.lean ====
section
/-! SUPPORT. The tables and registers that a command leaves as they stood, for each field the commands that may
change it. -/

namespace Sys2Proof.Machine

/-! ### What the checks of an operand leave to show -/

theorem withBag_state (P : State → Prop) (len : Nat) (a : List Byte) (s : State) (next : BagIx → Bag → Answer)
    (hs : P s) (hn : ∀ b x, s.bag b = some x → P (next b x).state) : P (withBag len a s next).state := by
  unfold withBag
  split
  · exact hs
  split
  · exact hs
  split
  · exact hs
  · next hx => exact hn _ _ hx

theorem withMan_state (P : State → Prop) (len : Nat) (a : List Byte) (s : State)
    (next : SlotIx → Manifest → Answer) (hs : P s)
    (hn : ∀ i m, s.findMan (arg a 0 2) = some i → s.man i = some m → P (next i m).state) :
    P (withMan len a s next).state := by
  unfold withMan
  split
  · exact hs
  split
  · exact hs
  split
  · exact hs
  · next hi _ _ hm => exact hn _ _ hi hm

theorem withTill_state (P : State → Prop) (len : Nat) (a : List Byte) (s : State) (next : TillIx → Answer)
    (hs : P s) (hn : ∀ t, P (next t).state) : P (withTill len a s next).state := by
  unfold withTill
  split
  · exact hs
  split
  · exact hs
  · exact hn _

theorem withLane_state (P : State → Prop) (len : Nat) (a : List Byte) (s : State) (next : LaneIx → Answer)
    (hs : P s) (hn : ∀ i, P (next i).state) : P (withLane len a s next).state := by
  unfold withLane
  split
  · exact hs
  split
  · exact hs
  · exact hn _

theorem withProfiled_state (P : State → Prop) (len : Nat) (a : List Byte) (s : State) (next : LaneIx → Answer)
    (hs : P s) (hn : ∀ i, (s.lane i).state ≠ .unprofiled → P (next i).state) :
    P (withProfiled len a s next).state := by
  refine withLane_state P len a s _ hs fun i => ?_
  split
  · exact hs
  · next hu => exact hn i hu

/-- The commands that may change the field `denoms`. -/
def Cmd.denomsWriters : List Cmd :=
  [.denomSet]

/-- The commands that may change the field `stock`. -/
def Cmd.stockWriters : List Cmd :=
  [.recordsClear, .floatIssue, .floatCancel, .topupIssue, .recount, .laneReset, .countOpen, .countCommit,
   .countAbort, .auditAccept, .bagAdd, .bagReturn, .bagBreak]

/-- The commands that may change the field `balance`. -/
def Cmd.balanceWriters : List Cmd :=
  [.recordsClear, .recount, .countCommit, .auditAccept, .courierSign]

/-- The commands that may change the field `tills`. -/
def Cmd.tillsWriters : List Cmd :=
  [.recordsClear, .tillSetup, .floatIssue, .floatCancel, .tillOpen, .topupIssue, .posCash, .tillClose,
   .varianceAccept, .recount, .laneReset, .countOpen, .countCommit, .countAbort]

/-- The commands that may change the field `lanes`. -/
def Cmd.lanesWriters : List Cmd :=
  [.retain, .laneProfile, .laneReset, .laneClear, .countOpen, .countHold, .countResume, .countVoid,
   .countRolls, .countCommit, .countAbort]

/-- The commands that may change the field `bags`. -/
def Cmd.bagsWriters : List Cmd :=
  [.recordsClear, .bagOpen, .bagAdd, .bagReturn, .bagShut, .bagBreak, .manAdd, .manRemove, .manCancel,
   .bagScan, .manResume, .courierSign]

/-- The commands that may change the field `rack`. -/
def Cmd.rackWriters : List Cmd :=
  [.recordsClear, .bagShut, .bagBreak, .rackSet, .courierSign]

/-- The commands that may change the field `mans`. -/
def Cmd.mansWriters : List Cmd :=
  [.recordsClear, .laneReset, .countOpen, .countCommit, .countAbort, .manCreate, .manAdd, .manRemove,
   .manClose, .manCancel, .courierArrive, .bagScan, .manResume, .courierSign, .manReopen]

/-- The commands that may change the field `round`. -/
def Cmd.roundWriters : List Cmd :=
  [.release, .roundSet, .roundTimer, .roundNow]

/-- The commands that may change the field `clock`. -/
def Cmd.clockWriters : List Cmd :=
  [.clockSet]

/-- The commands that may change the field `ret`. -/
def Cmd.retWriters : List Cmd :=
  [.retain, .release]

/-- The commands that may change the field `door`. -/
def Cmd.doorWriters : List Cmd :=
  [.retain, .release, .doorOpen, .doorLock, .courierArrive, .bagScan, .manResume, .courierSign]

/-- A command leaves every field that it is not a writer of. -/
theorem effect_same (c : Cmd) (a : List Byte) (s : State) :
    let t := (effect c a s).state
    (c ∉ Cmd.denomsWriters → t.denoms = s.denoms) ∧
    (c ∉ Cmd.stockWriters → t.stock = s.stock) ∧
    (c ∉ Cmd.balanceWriters → t.balance = s.balance) ∧
    (c ∉ Cmd.tillsWriters → t.tills = s.tills) ∧
    (c ∉ Cmd.lanesWriters → t.lanes = s.lanes) ∧
    (c ∉ Cmd.bagsWriters → t.bags = s.bags) ∧
    (c ∉ Cmd.rackWriters → t.rack = s.rack) ∧
    (c ∉ Cmd.mansWriters → t.mans = s.mans) ∧
    (c ∉ Cmd.roundWriters → t.round = s.round) ∧
    (c ∉ Cmd.clockWriters → t.clock = s.clock) ∧
    (c ∉ Cmd.retWriters → t.ret = s.ret) ∧
    (c ∉ Cmd.doorWriters → t.door = s.door) := by
  dsimp only
  cases c
  case' nop =>
    rw [show (effect .nop a s).state = s from nopEffect_frame a s]
  case' statusRead =>
    rw [show (effect .statusRead a s).state = s from statusReadEffect_frame a s]
  case' attnRead =>
    rw [show (effect .attnRead a s).state = s from attnReadEffect_frame a s]
  case' attnEnable =>
    obtain ⟨_, h⟩ := attnEnableEffect_frame a s
    rw [show (effect .attnEnable a s).state = _ from h]
  case' attnClear =>
    obtain ⟨_, h⟩ := attnClearEffect_frame a s
    rw [show (effect .attnClear a s).state = _ from h]
  case' clockSet =>
    obtain ⟨_, h⟩ := clockSetEffect_frame a s
    rw [show (effect .clockSet a s).state = _ from h]
  case' clockRead =>
    rw [show (effect .clockRead a s).state = s from clockReadEffect_frame a s]
  case' retain =>
    obtain ⟨_, _, _, _, h⟩ := retainEffect_frame a s
    rw [show (effect .retain a s).state = _ from h]
  case' release =>
    obtain ⟨_, _, _, _, h⟩ := releaseEffect_frame a s
    rw [show (effect .release a s).state = _ from h]
  case' recordsClear =>
    obtain ⟨_, _, _, _, _, _, _, _, _, _, _, h⟩ := recordsClearEffect_frame a s
    rw [show (effect .recordsClear a s).state = _ from h]
  case' overrideSet =>
    obtain ⟨_, _, h⟩ := overrideSetEffect_frame a s
    rw [show (effect .overrideSet a s).state = _ from h]
  case' doorOpen =>
    obtain ⟨_, _, _, h⟩ := doorOpenEffect_frame a s
    rw [show (effect .doorOpen a s).state = _ from h]
  case' doorLock =>
    obtain ⟨_, _, h⟩ := doorLockEffect_frame a s
    rw [show (effect .doorLock a s).state = _ from h]
  case' doorRead =>
    rw [show (effect .doorRead a s).state = s from doorReadEffect_frame a s]
  case' denomSet =>
    obtain ⟨_, h⟩ := denomSetEffect_frame a s
    rw [show (effect .denomSet a s).state = _ from h]
  case' denomRead =>
    rw [show (effect .denomRead a s).state = s from denomReadEffect_frame a s]
  case' stockRead =>
    rw [show (effect .stockRead a s).state = s from stockReadEffect_frame a s]
  case' officeRead =>
    rw [show (effect .officeRead a s).state = s from officeReadEffect_frame a s]
  case' limitsSet =>
    obtain ⟨_, h⟩ := limitsSetEffect_frame a s
    rw [show (effect .limitsSet a s).state = _ from h]
  case' limitsRead =>
    rw [show (effect .limitsRead a s).state = s from limitsReadEffect_frame a s]
  case' templateSet =>
    obtain ⟨_, h⟩ := templateSetEffect_frame a s
    rw [show (effect .templateSet a s).state = _ from h]
  case' templateRead =>
    rw [show (effect .templateRead a s).state = s from templateReadEffect_frame a s]
  case' tillSetup =>
    obtain ⟨_, h⟩ := tillSetupEffect_frame a s
    rw [show (effect .tillSetup a s).state = _ from h]
  case' floatIssue =>
    obtain ⟨_, _, h⟩ := floatIssueEffect_frame a s
    rw [show (effect .floatIssue a s).state = _ from h]
  case' floatCancel =>
    obtain ⟨_, _, h⟩ := floatCancelEffect_frame a s
    rw [show (effect .floatCancel a s).state = _ from h]
  case' tillOpen =>
    obtain ⟨_, h⟩ := tillOpenEffect_frame a s
    rw [show (effect .tillOpen a s).state = _ from h]
  case' topupIssue =>
    obtain ⟨_, _, _, h⟩ := topupIssueEffect_frame a s
    rw [show (effect .topupIssue a s).state = _ from h]
  case' posCash =>
    obtain ⟨_, h⟩ := posCashEffect_frame a s
    rw [show (effect .posCash a s).state = _ from h]
  case' tillClose =>
    obtain ⟨_, _, _, _, h⟩ := tillCloseEffect_frame a s
    rw [show (effect .tillClose a s).state = _ from h]
  case' tillRead =>
    rw [show (effect .tillRead a s).state = s from tillReadEffect_frame a s]
  case' varianceAccept =>
    obtain ⟨_, _, _, h⟩ := varianceAcceptEffect_frame a s
    rw [show (effect .varianceAccept a s).state = _ from h]
  case' recount =>
    obtain ⟨_, _, _, _, _, h⟩ := recountEffect_frame a s
    rw [show (effect .recount a s).state = _ from h]
  case' callPost =>
    obtain ⟨_, _, _, h⟩ := callPostEffect_frame a s
    rw [show (effect .callPost a s).state = _ from h]
  case' callTake =>
    obtain ⟨_, h⟩ := callTakeEffect_frame a s
    rw [show (effect .callTake a s).state = _ from h]
  case' callCancel =>
    obtain ⟨_, h⟩ := callCancelEffect_frame a s
    rw [show (effect .callCancel a s).state = _ from h]
  case' callRead =>
    obtain ⟨_, h⟩ := callReadEffect_frame a s
    rw [show (effect .callRead a s).state = _ from h]
  case' roundSet =>
    obtain ⟨_, h⟩ := roundSetEffect_frame a s
    rw [show (effect .roundSet a s).state = _ from h]
  case' roundTimer =>
    obtain ⟨_, h⟩ := roundTimerEffect_frame a s
    rw [show (effect .roundTimer a s).state = _ from h]
  case' roundNow =>
    obtain ⟨_, _, h⟩ := roundNowEffect_frame a s
    rw [show (effect .roundNow a s).state = _ from h]
  case' roundRead =>
    rw [show (effect .roundRead a s).state = s from roundReadEffect_frame a s]
  case' laneProfile =>
    obtain ⟨_, h⟩ := laneProfileEffect_frame a s
    rw [show (effect .laneProfile a s).state = _ from h]
  case' laneReset =>
    obtain ⟨_, _, _, _, h⟩ := laneResetEffect_frame a s
    rw [show (effect .laneReset a s).state = _ from h]
  case' laneClear =>
    obtain ⟨_, h⟩ := laneClearEffect_frame a s
    rw [show (effect .laneClear a s).state = _ from h]
  case' laneRead =>
    rw [show (effect .laneRead a s).state = s from laneReadEffect_frame a s]
  case' countOpen =>
    obtain ⟨_, _, _, _, _, h⟩ := countOpenEffect_frame a s
    rw [show (effect .countOpen a s).state = _ from h]
  case' countHold =>
    obtain ⟨_, h⟩ := countHoldEffect_frame a s
    rw [show (effect .countHold a s).state = _ from h]
  case' countResume =>
    obtain ⟨_, h⟩ := countResumeEffect_frame a s
    rw [show (effect .countResume a s).state = _ from h]
  case' countVoid =>
    obtain ⟨_, h⟩ := countVoidEffect_frame a s
    rw [show (effect .countVoid a s).state = _ from h]
  case' countRolls =>
    obtain ⟨_, h⟩ := countRollsEffect_frame a s
    rw [show (effect .countRolls a s).state = _ from h]
  case' countCommit =>
    obtain ⟨_, _, _, _, _, _, _, h⟩ := countCommitEffect_frame a s
    rw [show (effect .countCommit a s).state = _ from h]
  case' countAbort =>
    obtain ⟨_, _, _, _, h⟩ := countAbortEffect_frame a s
    rw [show (effect .countAbort a s).state = _ from h]
  case' auditRead =>
    rw [show (effect .auditRead a s).state = s from auditReadEffect_frame a s]
  case' auditAccept =>
    obtain ⟨_, _, _, _, _, h⟩ := auditAcceptEffect_frame a s
    rw [show (effect .auditAccept a s).state = _ from h]
  case' auditDiscard =>
    obtain ⟨_, h⟩ := auditDiscardEffect_frame a s
    rw [show (effect .auditDiscard a s).state = _ from h]
  case' bagOpen =>
    obtain ⟨_, h⟩ := bagOpenEffect_frame a s
    rw [show (effect .bagOpen a s).state = _ from h]
  case' bagAdd =>
    obtain ⟨_, _, h⟩ := bagAddEffect_frame a s
    rw [show (effect .bagAdd a s).state = _ from h]
  case' bagReturn =>
    obtain ⟨_, _, h⟩ := bagReturnEffect_frame a s
    rw [show (effect .bagReturn a s).state = _ from h]
  case' bagShut =>
    obtain ⟨_, _, _, h⟩ := bagShutEffect_frame a s
    rw [show (effect .bagShut a s).state = _ from h]
  case' bagBreak =>
    obtain ⟨_, _, _, _, _, h⟩ := bagBreakEffect_frame a s
    rw [show (effect .bagBreak a s).state = _ from h]
  case' bagRead =>
    rw [show (effect .bagRead a s).state = s from bagReadEffect_frame a s]
  case' rackSet =>
    obtain ⟨_, h⟩ := rackSetEffect_frame a s
    rw [show (effect .rackSet a s).state = _ from h]
  case' rackRead =>
    rw [show (effect .rackRead a s).state = s from rackReadEffect_frame a s]
  case' manCreate =>
    obtain ⟨_, h⟩ := manCreateEffect_frame a s
    rw [show (effect .manCreate a s).state = _ from h]
  case' manAdd =>
    obtain ⟨_, _, h⟩ := manAddEffect_frame a s
    rw [show (effect .manAdd a s).state = _ from h]
  case' manRemove =>
    obtain ⟨_, _, h⟩ := manRemoveEffect_frame a s
    rw [show (effect .manRemove a s).state = _ from h]
  case' manClose =>
    obtain ⟨_, h⟩ := manCloseEffect_frame a s
    rw [show (effect .manClose a s).state = _ from h]
  case' manCancel =>
    obtain ⟨_, _, h⟩ := manCancelEffect_frame a s
    rw [show (effect .manCancel a s).state = _ from h]
  case' courierArrive =>
    obtain ⟨_, _, _, h⟩ := courierArriveEffect_frame a s
    rw [show (effect .courierArrive a s).state = _ from h]
  case' bagScan =>
    obtain ⟨_, _, _, _, h⟩ := bagScanEffect_frame a s
    rw [show (effect .bagScan a s).state = _ from h]
  case' manResume =>
    obtain ⟨_, _, _, _, _, h⟩ := manResumeEffect_frame a s
    rw [show (effect .manResume a s).state = _ from h]
  case' courierSign =>
    obtain ⟨_, _, _, _, _, _, h⟩ := courierSignEffect_frame a s
    rw [show (effect .courierSign a s).state = _ from h]
  case' manReopen =>
    obtain ⟨_, _, _, h⟩ := manReopenEffect_frame a s
    rw [show (effect .manReopen a s).state = _ from h]
  case' manRead =>
    rw [show (effect .manRead a s).state = s from manReadEffect_frame a s]
  all_goals repeat' apply And.intro
  all_goals first
    | exact fun _ => rfl
    | exact fun h => absurd (by decide) h

/-! ### The frames of the events -/

theorem judgeDoor_frame (o : Bool) (s : State) : ∃ d p, s.judgeDoor o = { s with door := d, port := p } := by
  unfold State.judgeDoor
  repeat' split
  all_goals exact ⟨_, _, rfl⟩

theorem dropInterval_frame (k : LockCause) (s : State) :
    ∃ d p, s.dropInterval k = { s with door := d, port := p } := by
  unfold State.dropInterval
  rw [recomputeDoor_eq]
  exact ⟨_, _, rfl⟩

theorem expireSlot_frame (i : SlotIx) (s : State) :
    ∃ m d p, s.expireSlot i = { s with mans := m, door := d, port := p } := by
  unfold State.expireSlot
  split
  · exact ⟨_, _, _, rfl⟩
  split
  · rw [recomputeDoor_eq]
    exact ⟨_, _, _, rfl⟩
  · exact ⟨_, _, _, rfl⟩

theorem roundAdvance_frame (r : RoundRun) (s : State) :
    ∃ x p, s.roundAdvance r = { s with round := x, port := p } := by
  unfold State.roundAdvance
  dsimp only
  split
  · exact endRound_frame ..
  · exact ⟨_, _, rfl⟩

theorem roundEvaluate_frame (s : State) :
    ∃ l x p, roundEvaluate s = { s with calls := l, round := x, port := p } := by
  have raised : ∀ t a r, ∃ l x p, (s.raiseCall t .skim a).roundAdvance r =
      { s with calls := l, round := x, port := p } := by
    intro t a r
    obtain ⟨_, _, h⟩ := raiseCall_frame t .skim a s
    rw [h]
    obtain ⟨_, _, h⟩ := roundAdvance_frame r { s with calls := _, port := _ }
    rw [h]
    exact ⟨_, _, _, rfl⟩
  have ended : ∀ k n b r, ∃ l x p, s.endRound k n b r = { s with calls := l, round := x, port := p } := by
    intro k n b r
    obtain ⟨_, _, h⟩ := endRound_frame k n b r s
    rw [h]
    exact ⟨_, _, _, rfl⟩
  unfold roundEvaluate
  split
  · exact ⟨_, _, _, rfl⟩
  split
  · exact ended ..
  unfold evaluateTill
  dsimp only
  split
  · obtain ⟨_, _, h⟩ := roundAdvance_frame _ s
    rw [h]
    exact ⟨_, _, _, rfl⟩
  split
  · exact raised ..
  · exact raised ..
  · exact ended ..

theorem takeHello_frame (i : LaneIx) (m : Byte) (z : BitVec 32) (s : State) :
    ∃ l p, takeHello i m z s = { s with lanes := l, port := p } := by
  unfold takeHello
  dsimp only
  split
  · exact ⟨_, _, rfl⟩
  · exact ⟨_, _, rfl⟩
  all_goals
    rw [laneError_eq]
    exact ⟨_, _, rfl⟩

theorem takeBatch_frame (i : LaneIx) (q c : Byte) (k : Counts) (s : State) :
    ∃ l p, takeBatch i q c k s = { s with lanes := l, port := p } := by
  unfold takeBatch
  dsimp only
  split
  · exact ⟨_, _, rfl⟩
  · rw [laneError_eq]
    exact ⟨_, _, rfl⟩
  all_goals
    split
    · exact ⟨_, _, rfl⟩
    split
    · exact ⟨_, _, rfl⟩
    · rw [laneError_eq]
      exact ⟨_, _, rfl⟩
    · exact ⟨_, _, rfl⟩

theorem takeEndFeed_frame (i : LaneIx) (q : Byte) (s : State) :
    ∃ l p, takeEndFeed i q s = { s with lanes := l, port := p } := by
  unfold takeEndFeed
  dsimp only
  split
  · exact ⟨_, _, rfl⟩
  · exact laneError_frame ..
  all_goals
    split
    · exact ⟨_, _, rfl⟩
    · exact laneError_frame ..

theorem takeHoldAck_frame (i : LaneIx) (s : State) :
    ∃ l p, takeHoldAck i s = { s with lanes := l, port := p } := by
  unfold takeHoldAck
  dsimp only
  split
  · exact ⟨_, _, rfl⟩
  · exact laneError_frame ..
  · exact laneError_frame ..
  all_goals exact ⟨_, _, rfl⟩

theorem takeJam_frame (i : LaneIx) (j : Byte) (s : State) :
    ∃ l p, takeJam i j s = { s with lanes := l, port := p } := by
  unfold takeJam
  dsimp only
  split
  · exact ⟨_, _, rfl⟩
  all_goals
    rw [laneError_eq]
    exact ⟨_, _, rfl⟩

theorem supplyEffects_frame (s : State) :
    ∃ t m k r p d x, s.supplyEffects = { s with
      tills := t, mans := m, stock := k, lanes := Vector.replicate 4 Lane.unprofiled, round := r, port := p
      door := d, ret := x } := by
  obtain ⟨_, _, _, h⟩ := lanesDown_frame s
  unfold State.supplyEffects
  dsimp only
  rw [recomputeDoor_eq, abortRound_eq, h]
  exact ⟨_, _, _, _, _, _, _, rfl⟩

/-- A cold power-up with the store held: the records that no rule names stand (R166). -/
theorem startIntact_frame (s : State) :
    ∃ t m k r p d c x l, s.startIntact = { s with
      tills := t, mans := m, stock := k, lanes := Vector.replicate 4 Lane.unprofiled, round := r, port := p
      callOverflow := false, door := d, clock := c, ret := x, taken := l, due := [], powered := true } := by
  obtain ⟨_, _, _, _, _, _, h⟩ := endWork_frame { s with clock := Clock.unset }
  unfold State.startIntact
  dsimp only
  rw [h]
  exact ⟨_, _, _, _, _, _, _, _, _, rfl⟩

end Sys2Proof.Machine
end

