-- ==== Sys2Proof/Laws/Undone.lean ====
section
/-! SUPPORT. What the release of sessions leaves, and the work in flight undone (R84, R86, R144). -/

namespace Sys2Proof.Machine

/-- Some lane of a list holds a session whose purpose passes a test (R71). -/
def State.heldBy (s : State) (l : List LaneIx) (p : Purpose → Bool) : Bool :=
  l.any fun i => (s.lane i).session.any fun x => p x.purpose

theorem mem_lanesAll (i : LaneIx) : i ∈ lanesAll := by revert i; decide

theorem heldBy_iff (s : State) (p : Purpose → Bool) :
    s.heldBy lanesAll p = true ↔ ∃ q, p q = true ∧ s.holds q := by
  unfold State.heldBy State.holds
  rw [List.any_eq_true]
  constructor
  · rintro ⟨i, _, h⟩
    obtain ⟨x, hx, hp⟩ := (Option.any_eq_true ..).mp h
    exact ⟨x.purpose, hp, i, x, hx, rfl⟩
  · rintro ⟨_, hq, i, x, hx, rfl⟩
    refine ⟨i, mem_lanesAll i, ?_⟩
    rw [hx]; exact hq

/-! ### One release -/

theorem release_till (p : Purpose) (s : State) (t : TillIx) :
    (s.release p).till t =
      { s.till t with
        lane := if p = .tillClose t ∨ p = .pickup t then none else (s.till t).lane
        state := if p = .tillClose t then .closing else (s.till t).state } := by
  unfold State.release
  split
  · next u =>
    rw [till_setTill]
    by_cases h : t = u
    · subst h; simp
    · simp [h, Ne.symm h]
  · next u =>
    rw [till_setTill]
    by_cases h : t = u
    · subst h; simp
    · simp [h, Ne.symm h]
  · split <;> simp [State.till, State.setMan]
  · simp [State.till, State.freeze]

/-- A purpose is an audit of a set that holds a code (R71). -/
def Purpose.audits (c : Code) : Purpose → Bool
  | .audit m => has m c
  | .tillClose _ | .pickup _ | .delivery _ => false

theorem release_stock (p : Purpose) (s : State) (c : Code) :
    (s.release p).stock[c] =
      { s.stock[c] with frozen := if p.audits c then false else s.stock[c].frozen } := by
  unfold State.release
  split
  · rfl
  · rfl
  · split <;> rfl
  · next m =>
    refine (tab_get _ c).trans ?_
    by_cases h : has m c = true <;> simp [Purpose.audits, h]

/-- A purpose is a delivery bound to a slot (R71, R122). -/
def State.delivers (s : State) (j : SlotIx) : Purpose → Bool
  | .delivery n => decide (s.findMan n = some j)
  | .tillClose _ | .pickup _ | .audit _ => false

theorem release_man (p : Purpose) (s : State) (j : SlotIx) :
    (s.release p).man j =
      if s.delivers j p then (s.man j).map (Manifest.withLane none) else s.man j := by
  unfold State.release
  split
  · rfl
  · rfl
  · next n =>
    split
    · next h => simp [State.delivers, h]
    · next i h =>
      rw [man_setMan]
      by_cases hj : j = i
      · subst hj; simp [State.delivers, h]
      · simp [State.delivers, h, hj, Ne.symm hj]
  · rfl

theorem withLane_number (l : Option LaneIx) (m : Manifest) : (m.withLane l).number = m.number := by
  unfold Manifest.withLane
  split <;> rfl

/-- The search by number sees only which slots hold which numbers (R122). -/
theorem findMan_congr (s t : State)
    (h : ∀ j, (t.man j).map Manifest.number = (s.man j).map Manifest.number) (n : Nat) :
    t.findMan n = s.findMan n := by
  have e : ∀ u : State, ∀ j : SlotIx,
      (u.man j).any (fun m => m.number == n) = ((u.man j).map Manifest.number).any (· == n) := by
    intro u j
    cases u.man j <;> rfl
  unfold State.findMan
  rw [e, e, e, e, h, h]

theorem release_findMan (p : Purpose) (s : State) (n : Nat) : (s.release p).findMan n = s.findMan n := by
  apply findMan_congr
  intro j
  rw [release_man]
  split
  · cases s.man j with
    | none => rfl
    | some m => exact congrArg some (withLane_number none m)
  · rfl

theorem releaseLane_lanes (i : LaneIx) (s : State) : (s.releaseLane i).lanes = s.lanes := by
  obtain ⟨_, _, _, h⟩ := releaseLane_frame i s
  rw [h]

theorem releaseLane_findMan (i : LaneIx) (s : State) (n : Nat) : (s.releaseLane i).findMan n = s.findMan n := by
  unfold State.releaseLane
  split
  · rfl
  · exact release_findMan ..

/-! ### Every release -/

theorem releases_lanes (l : List LaneIx) (s : State) : (l.foldl State.releaseLane s).lanes = s.lanes := by
  induction l generalizing s with
  | nil => rfl
  | cons i r ih => rw [List.foldl_cons, ih, releaseLane_lanes]

theorem heldBy_releaseLane (i : LaneIx) (s : State) (l : List LaneIx) (p : Purpose → Bool) :
    (s.releaseLane i).heldBy l p = s.heldBy l p := by
  unfold State.heldBy State.lane
  rw [releaseLane_lanes]

theorem releases_till (l : List LaneIx) (s : State) (t : TillIx) :
    (l.foldl State.releaseLane s).till t =
      { s.till t with
        lane := if s.heldBy l (fun p => decide (p = .tillClose t ∨ p = .pickup t)) then none else (s.till t).lane
        state := if s.heldBy l (fun p => decide (p = .tillClose t)) then .closing else (s.till t).state } := by
  induction l generalizing s with
  | nil => rfl
  | cons i r ih =>
    rw [List.foldl_cons, ih, heldBy_releaseLane, heldBy_releaseLane]
    have e : ∀ p, s.heldBy (i :: r) p = ((s.lane i).session.any (fun x => p x.purpose) || s.heldBy r p) :=
      fun p => List.any_cons ..
    rw [e, e]
    unfold State.releaseLane
    cases hs : (s.lane i).session with
    | none => simp
    | some x =>
      simp only [release_till, Option.any_some]
      congr 1
      · by_cases h : x.purpose = .tillClose t <;> simp [h]
      · by_cases h : x.purpose = .tillClose t ∨ x.purpose = .pickup t <;> simp [h]

theorem releases_stock (l : List LaneIx) (s : State) (c : Code) :
    (l.foldl State.releaseLane s).stock[c] =
      { s.stock[c] with frozen := if s.heldBy l (Purpose.audits c) then false else s.stock[c].frozen } := by
  induction l generalizing s with
  | nil => rfl
  | cons i r ih =>
    rw [List.foldl_cons, ih, heldBy_releaseLane]
    have e : ∀ p, s.heldBy (i :: r) p = ((s.lane i).session.any (fun x => p x.purpose) || s.heldBy r p) :=
      fun p => List.any_cons ..
    rw [e]
    unfold State.releaseLane
    cases hs : (s.lane i).session with
    | none => simp
    | some x =>
      simp only [release_stock, Option.any_some]
      by_cases h : x.purpose.audits c <;> simp [h]

theorem delivers_congr (s t : State) (h : ∀ n, t.findMan n = s.findMan n) (j : SlotIx) :
    t.delivers j = s.delivers j := by
  funext p
  cases p <;> simp [State.delivers, h]

theorem withLane_idem (m : Manifest) : (m.withLane none).withLane none = m.withLane none := by
  unfold Manifest.withLane
  cases hb : m.body with
  | collection c => dsimp only; rw [hb]
  | delivery d => rfl

theorem releases_man (l : List LaneIx) (s : State) (j : SlotIx) :
    (l.foldl State.releaseLane s).man j =
      if s.heldBy l (s.delivers j) then (s.man j).map (Manifest.withLane none) else s.man j := by
  induction l generalizing s with
  | nil => rfl
  | cons i r ih =>
    rw [List.foldl_cons, ih, heldBy_releaseLane, delivers_congr _ _ (releaseLane_findMan i s)]
    have e : ∀ p, s.heldBy (i :: r) p = ((s.lane i).session.any (fun x => p x.purpose) || s.heldBy r p) :=
      fun p => List.any_cons ..
    rw [e]
    unfold State.releaseLane
    cases hs : (s.lane i).session with
    | none => simp
    | some x =>
      simp only [release_man, Option.any_some]
      have idem : (Manifest.withLane none ∘ Manifest.withLane none) = Manifest.withLane none :=
        funext withLane_idem
      by_cases h : s.delivers j x.purpose <;> by_cases h2 : s.heldBy r (s.delivers j) <;> simp [h, h2, idem]

theorem lanesDown_till (s : State) (t : TillIx) :
    s.lanesDown.till t = (lanesAll.foldl State.releaseLane s).till t := rfl

theorem lanesDown_stock (s : State) (c : Code) :
    s.lanesDown.stock[c] = (lanesAll.foldl State.releaseLane s).stock[c] := rfl

theorem lanesDown_man (s : State) (j : SlotIx) :
    s.lanesDown.man j = (lanesAll.foldl State.releaseLane s).man j := rfl

theorem lanesDown_lane (s : State) (i : LaneIx) : s.lanesDown.lane i = Lane.unprofiled := by
  simp [State.lanesDown, State.lane]

theorem bagsToReady_man (s : State) (j : SlotIx) :
    s.bagsToReady.man j = (s.man j).map Manifest.leaveBags := mapT_get ..

/-- The sessions of every lane released, and every manifest in BAGS back in READY: what a pin reset, the supply
warning and a cold power-up leave of the tills, the stock, the manifests and the lanes. -/
theorem undone_of (s t : State) (hl : ∀ i, t.lane i = Lane.unprofiled)
    (ht : ∀ u, t.till u = (lanesAll.foldl State.releaseLane s).till u)
    (hk : ∀ c : Code, t.stock[c] = (lanesAll.foldl State.releaseLane s).stock[c])
    (hm : ∀ j, t.man j = ((lanesAll.foldl State.releaseLane s).man j).map Manifest.leaveBags) : s.undone t := by
  have hold : ∀ p : Purpose → Bool, (s.heldBy lanesAll p = true ↔ ∃ q, p q = true ∧ s.holds q) := heldBy_iff s
  refine ⟨hl, fun u => ?_, fun c => ?_, fun j => ?_⟩
  · rw [ht, releases_till]
    have h1 : s.heldBy lanesAll (fun p => decide (p = .tillClose u)) = true ↔ s.holds (.tillClose u) := by
      rw [hold]; simp
    have h2 : s.heldBy lanesAll (fun p => decide (p = .tillClose u ∨ p = .pickup u)) = true ↔
        s.holds (.tillClose u) ∨ s.holds (.pickup u) := by
      rw [hold]; simp [or_and_right, exists_or]
    refine ⟨fun h => ?_, fun h h' => ?_, fun h h' => ?_⟩
    · rw [if_pos (h1.mpr h), if_pos (h2.mpr (Or.inl h))]
    · rw [if_neg (mt h1.mp h), if_pos (h2.mpr (Or.inr h'))]
    · rw [if_neg (mt h1.mp h), if_neg (mt h2.mp (by rintro (x | x); exacts [h x, h' x]))]
  · rw [hk, releases_stock]
    have h1 : s.heldBy lanesAll (Purpose.audits c) = true ↔ ∃ m, has m c = true ∧ s.holds (.audit m) := by
      rw [hold]
      constructor
      · rintro ⟨q, hq, hh⟩
        cases q <;> simp [Purpose.audits] at hq
        exact ⟨_, hq, hh⟩
      · rintro ⟨m, hm, hh⟩; exact ⟨.audit m, hm, hh⟩
    exact ⟨fun h => by rw [if_pos (h1.mpr h)],
      fun h => by rw [if_neg (mt h1.mp fun ⟨m, a, b⟩ => h m a b)]⟩
  · have h1 : s.heldBy lanesAll (s.delivers j) = true ↔ ∃ n, s.holds (.delivery n) ∧ s.findMan n = some j := by
      rw [hold]
      constructor
      · rintro ⟨q, hq, hh⟩
        cases q <;> simp [State.delivers] at hq
        exact ⟨_, hh, hq⟩
      · rintro ⟨n, hh, hn⟩; exact ⟨.delivery n, by simp [State.delivers, hn], hh⟩
    rw [hm, releases_man]
    refine ⟨fun h => by simp [h], fun m h => ⟨fun c hb => ?_, fun d hb => ?_⟩⟩
    · have e : ∀ x : Bool, (if x then (s.man j).map (Manifest.withLane none) else s.man j) = some m := by
        intro x
        rw [h]
        cases x
        · rfl
        · simp [Manifest.withLane, hb]
      have e' := e (s.heldBy lanesAll (s.delivers j))
      rw [e']
      simp only [Option.map_some, Manifest.leaveBags, hb]
      by_cases hs : m.state = .bags <;> simp [hs, Collection.revert]
      · rw [← hb]
    · refine ⟨fun hh => ?_, fun hh => ?_⟩
      · rw [if_pos (h1.mpr hh), h]
        simp only [Option.map_some, Manifest.withLane, hb, Manifest.leaveBags]
        by_cases hs : m.state = .bags <;> simp [hs]
      · rw [if_neg (by rw [h1]; rintro ⟨n, a, b⟩; exact hh n a b), h]
        simp only [Option.map_some, Manifest.leaveBags, hb]
        by_cases hs : m.state = .bags <;> simp [hs, ← hb]

/-- Work undone is said of the tills, the stock, the manifests and the lanes alone. -/
theorem undone_congr (s u t v : State) (h : s.undone t)
    (h1 : u.tills = s.tills) (h2 : u.stock = s.stock) (h3 : u.mans = s.mans) (h4 : u.lanes = s.lanes)
    (g1 : v.tills = t.tills) (g2 : v.stock = t.stock) (g3 : v.mans = t.mans) (g4 : v.lanes = t.lanes) :
    u.undone v := by
  have a1 : u.till = s.till := by funext i; unfold State.till; rw [h1]
  have a2 : u.man = s.man := by funext i; unfold State.man; rw [h3]
  have a3 : u.lane = s.lane := by funext i; unfold State.lane; rw [h4]
  have a4 : u.holds = s.holds := by funext p; unfold State.holds; rw [a3]
  have a5 : u.findMan = s.findMan := by funext n; unfold State.findMan; rw [a2]
  have b1 : v.till = t.till := by funext i; unfold State.till; rw [g1]
  have b2 : v.man = t.man := by funext i; unfold State.man; rw [g3]
  have b3 : v.lane = t.lane := by funext i; unfold State.lane; rw [g4]
  unfold State.undone
  rw [a1, a2, a4, a5, b1, b2, b3, h2, g2]
  exact h

theorem bagsToReady_tills (s : State) : s.bagsToReady.tills = s.tills := rfl

theorem bagsToReady_bags (s : State) : s.bagsToReady.bags = s.bags := rfl

theorem bagsToReady_rack (s : State) : s.bagsToReady.rack = s.rack := rfl

theorem bagsToReady_stock (s : State) : s.bagsToReady.stock = s.stock := rfl

theorem bagsToReady_lanes (s : State) : s.bagsToReady.lanes = s.lanes := rfl

theorem undone_lanesDown (s : State) : s.undone s.lanesDown.bagsToReady := by
  apply undone_of
  · intro i
    rw [State.lane, bagsToReady_lanes]
    exact lanesDown_lane s i
  · intro u
    rw [State.till, bagsToReady_tills]
    exact lanesDown_till s u
  · intro c
    rw [bagsToReady_stock]
    exact lanesDown_stock s c
  · intro j
    rw [bagsToReady_man]
    exact congrArg _ (lanesDown_man s j)

/-- With every manifest in BAGS sent to READY, no collection is at the door. -/
theorem bagsToReady_anyBags (s : State) : s.bagsToReady.anyBags = false := by
  have h : ∀ j : SlotIx, inBags s.bagsToReady j = false := by
    intro j
    unfold inBags
    rw [bagsToReady_man]
    cases s.man j with
    | none => rfl
    | some m =>
      show ((Manifest.leaveBags m).state == ManState.bags) = false
      unfold Manifest.leaveBags
      split <;> simp_all
  rw [State.anyBags, h, h]
  rfl

/-- A running round cut short, and ROUND where the rule sets it (R57). -/
theorem abortRound_cutShort (b : Bool) (s : State) :
    s.abortRound b = { s with
      round := s.round.cutShort s.stamp
      port := { s.port with attnPending := s.port.attnPending |||
        (if s.round.run = none ∨ b = false then 0 else Source.round.weight) } } := by
  unfold State.abortRound
  cases h : s.round.run with
  | none => simp [RoundEngine.cutShort, h]
  | some r => cases b <;> simp [State.endRound, RoundEngine.cutShort, h, State.raise]

/-- A lock with no collection at the door and no interval (R148, R151). -/
theorem recomputeDoor_locks (k : LockCause) (s : State) (h : s.anyBags = false) (hi : s.door.interval = none) :
    s.recomputeDoor k = { s with
      door := { unlocked := false, interval := none, leftOpen := s.door.leftOpen || s.leavesOpen
                event := if s.leavesOpen then some ⟨.leftOpen k, s.stamp⟩ else s.door.event }
      port := { s.port with attnPending := s.port.attnPending |||
        (if s.leavesOpen then Source.safe.weight else 0) } } := by
  have hu : s.shouldUnlock = false := by simp [State.shouldUnlock, h, hi]
  unfold State.recomputeDoor State.leavesOpen
  rw [hu]
  cases h1 : s.door.unlocked <;> cases h2 : s.taken.doorOpen <;> simp [State.raise, ← hi]

/-- Work in flight ended, field by field (R59, R86, R144, R165). -/
theorem endWork_fields (s : State) :
    s.endWork = { s with
      tills := s.lanesDown.tills
      stock := s.lanesDown.stock
      mans := s.lanesDown.bagsToReady.mans
      lanes := s.lanesDown.lanes
      round := { s.round.cutShort s.stamp with
        countdown := if s.round.timerOn then some s.round.interval else none }
      callOverflow := false
      door := { s.door with interval := none } } := by
  obtain ⟨a, m, k, h⟩ := lanesDown_frame s
  have hr : ∀ o, (s.round.cutShort o).timerOn = s.round.timerOn ∧
      (s.round.cutShort o).interval = s.round.interval := by
    intro o
    unfold RoundEngine.cutShort
    split <;> exact ⟨rfl, rfl⟩
  unfold State.endWork
  rw [h, abortRound_cutShort]
  simp [State.bagsToReady, RoundEngine.fresh, State.stamp, hr]

end Sys2Proof.Machine
end

