-- ==== Sys2Proof/Laws/Rack.lean ====
section
/-! SUPPORT. The places of the bags: what each operation on the bag table and the rack does to them (R105, R114
to R118). -/

namespace Sys2Proof.Machine

theorem comps_set (v : Vector (List BagIx) 4) (c d : CompIx) (x : List BagIx) :
    (v.set c x)[d] = if d = c then x else v[d] := by
  simp only [Fin.getElem_fin, Vector.getElem_set]
  by_cases h : d = c <;> simp_all [Fin.ext_iff, eq_comm]

/-- The places of the bags with a list in place of the queue, before a lift of the halt (R115, R117): the
compartment under the pointer may be empty under a halt. -/
structure Placing (l : List BagIx) (s : State) : Prop where
  queued : ∀ b, b ∈ l ↔ ∃ x, s.bag b = some x ∧ x.state = .shut
  held : ∀ b, ∀ c : CompIx, b ∈ s.rack.comps[c] ↔ ∃ x, s.bag b = some x ∧ x.comp = some c
  state : ∀ b x, s.bag b = some x → (x.comp ≠ none ↔ x.state.inCompartment)
  once : l.Nodup
  apart : ∀ c : CompIx, s.rack.comps[c].Nodup
  low : 1 ≤ s.rack.k
  high : s.rack.k ≤ 12
  bound : ∀ c : CompIx, s.rack.comps[c].length ≤ s.rack.k
  room : s.rack.halt = false → s.rack.comps[s.rack.ptr].length < s.rack.k

/-- Under a halt the compartment under the pointer holds a bag (R116). -/
def State.haltHolds (s : State) : Prop := s.rack.halt = true → s.rack.comps[s.rack.ptr] ≠ []

theorem placesLaw_iff (s : State) : s.placesLaw ↔ Placing s.rack.queue s ∧
    (s.rack.halt = false → s.rack.queue = []) ∧ s.haltHolds := by
  constructor
  · rintro ⟨h1, h2, h3, h4, h5, h6, h7, h8, h9, h10⟩
    exact ⟨⟨h1, h2, h3, h4, h5, h6, h7, h8, fun h => (h9 h).2⟩, fun h => (h9 h).1, h10⟩
  · rintro ⟨h, h1, h2⟩
    exact ⟨h.queued, h.held, h.state, h.once, h.apart, h.low, h.high, h.bound, fun g => ⟨h1 g, h.room g⟩, h2⟩

theorem placesLaw_congr (s t : State) (hb : t.bags = s.bags) (hr : t.rack = s.rack) (h : s.placesLaw) :
    t.placesLaw := by
  cases s
  cases t
  dsimp only at hb hr
  subst hb hr
  exact h

/-- What `Placing` says does not rest on the queue, the manifests or the port. -/
theorem Placing.other {l : List BagIx} {s : State} (h : Placing l s) (q : List BagIx) (p : Port)
    (m : Vector (Option Manifest) 2) : Placing l { s with port := p, mans := m, rack := { s.rack with queue := q } } :=
  ⟨h.queued, h.held, h.state, h.once, h.apart, h.low, h.high, h.bound, h.room⟩

/-- A bag that changes without a change of place (R118). -/
theorem placesLaw_setBag (b : BagIx) (x y : Bag) (s : State) (h : s.placesLaw) (hx : s.bag b = some x)
    (hc : y.comp = x.comp) (hs : (y.state = .shut ↔ x.state = .shut))
    (hi : (y.state.inCompartment ↔ x.state.inCompartment)) : (s.setBag b (some y)).placesLaw := by
  obtain ⟨h1, h2, h3, rest⟩ := h
  refine ⟨fun d => ?_, fun d c => ?_, fun d z hz => ?_, rest⟩
  · refine (h1 d).trans ?_
    rw [bag_setBag]
    by_cases hd : d = b
    · subst hd
      simp [hx, hs]
    · simp [hd]
  · refine (h2 d c).trans ?_
    rw [bag_setBag]
    by_cases hd : d = b
    · subst hd
      simp [hx, hc]
    · simp [hd]
  · rw [bag_setBag] at hz
    by_cases hd : d = b
    · rw [if_pos hd] at hz
      injection hz with hz
      rw [← hz, hc, hi]
      exact h3 b x hx
    · rw [if_neg hd] at hz
      exact h3 d z hz

/-- A bag in a compartment takes another state of a bag in a compartment (R118). -/
theorem placesLaw_markBag (b : BagIx) (k : BagState) (s : State) (h : s.placesLaw) (hk : k.inCompartment)
    (hb : ∀ x, s.bag b = some x → x.state.inCompartment) : (s.markBag b k).placesLaw := by
  have shut : ∀ j : BagState, j.inCompartment → j ≠ .shut := by
    intro j hj
    rcases hj with hj | hj | hj <;> rw [hj] <;> decide
  unfold State.markBag
  cases hx : s.bag b with
  | none =>
    have e : s.setBag b none = s := by
      unfold State.setBag
      have : s.bags.set b none = s.bags := by
        ext i hi
        rw [Vector.getElem_set]
        split
        · next he => subst he; rw [← hx]; rfl
        · rfl
      rw [this]
    exact e.symm ▸ h
  | some x =>
    exact placesLaw_setBag b x _ s h hx rfl
      ⟨fun e => absurd e (shut _ hk), fun e => absurd e (shut _ (hb x hx))⟩ ⟨fun _ => hb x hx, fun _ => hk⟩

/-- A free number takes a FILLING bag (R108). -/
theorem placesLaw_open (b : BagIx) (y : Bag) (s : State) (h : s.placesLaw) (hx : s.bag b = none)
    (hs : y.state = .filling) (hc : y.comp = none) : (s.setBag b (some y)).placesLaw := by
  obtain ⟨h1, h2, h3, rest⟩ := h
  refine ⟨fun d => ?_, fun d c => ?_, fun d z hz => ?_, rest⟩
  · refine (h1 d).trans ?_
    rw [bag_setBag]
    by_cases hd : d = b
    · subst hd
      simp [hx, hs]
    · simp [hd]
  · refine (h2 d c).trans ?_
    rw [bag_setBag]
    by_cases hd : d = b
    · subst hd
      simp [hx, hc]
    · simp [hd]
  · rw [bag_setBag] at hz
    by_cases hd : d = b
    · rw [if_pos hd] at hz
      injection hz with hz
      rw [← hz, hc, hs]
      simp [BagState.inCompartment]
    · rw [if_neg hd] at hz
      exact h3 d z hz

/-! ### Placement -/

theorem entered_bag (b d : BagIx) (s : State) :
    (s.entered b).bag d = if d = b then (s.bag b).map fun x => { x with state := .placed, comp := some s.rack.ptr }
      else s.bag d := bag_setBag b d _ s

theorem entered_comps (b : BagIx) (c : CompIx) (s : State) :
    (s.entered b).rack.comps[c] =
      if c = s.rack.ptr then s.rack.comps[s.rack.ptr] ++ [b] else s.rack.comps[c] := comps_set ..

/-- The bag at the head of a queue enters the pointer's compartment (R115). -/
theorem Placing.entered {b : BagIx} {r : List BagIx} {s : State} (h : Placing (b :: r) s)
    (hh : s.rack.halt = false) (p : CompIx) (halt : Bool)
    (hp : halt = false → ((s.entered b).rack.comps[p]).length < s.rack.k) :
    Placing r { s.entered b with rack := { (s.entered b).rack with ptr := p, halt := halt } } := by
  obtain ⟨x, hx, hs⟩ := (h.queued b).mp (List.mem_cons_self ..)
  have hc : x.comp = none := by
    by_contra hne
    have := (h.state b x hx).mp hne
    rw [hs] at this
    rcases this with e | e | e <;> exact absurd e (by decide)
  have hnb : ∀ c : CompIx, b ∉ s.rack.comps[c] := by
    intro c hb
    obtain ⟨y, hy, hyc⟩ := (h.held b c).mp hb
    rw [hx] at hy
    injection hy with hy
    rw [← hy, hc] at hyc
    exact absurd hyc (by simp)
  have hnr : b ∉ r := (List.nodup_cons.mp h.once).1
  refine ⟨fun d => ?_, fun d c => ?_, fun d y hy => ?_, (List.nodup_cons.mp h.once).2, fun c => ?_, h.low, h.high,
    fun c => ?_, hp⟩
  · show d ∈ r ↔ ∃ y, (s.entered b).bag d = some y ∧ _
    rw [entered_bag]
    by_cases hd : d = b
    · subst hd
      simp [hx, hnr]
    · rw [if_neg hd, ← h.queued d]
      simp [hd]
  · show d ∈ (s.entered b).rack.comps[c] ↔ ∃ y, (s.entered b).bag d = some y ∧ _
    rw [entered_bag, entered_comps]
    by_cases hd : d = b
    · subst hd
      by_cases hcc : c = s.rack.ptr
      · simp [hcc, hx]
      · rw [if_neg hcc]
        simp [hx, Ne.symm hcc, -Fin.getElem_fin]
        exact hnb c
    · rw [if_neg hd, ← h.held d c]
      by_cases hcc : c = s.rack.ptr
      · simp [hcc, hd]
      · simp [hcc]
  · replace hy : (s.entered b).bag d = some y := hy
    rw [entered_bag] at hy
    by_cases hd : d = b
    · rw [if_pos hd, hx] at hy
      injection hy with hy
      rw [← hy]
      simp [BagState.inCompartment]
    · rw [if_neg hd] at hy
      exact h.state d y hy
  · show (s.entered b).rack.comps[c].Nodup
    rw [entered_comps]
    by_cases hcc : c = s.rack.ptr
    · rw [if_pos hcc]
      exact List.nodup_append.mpr ⟨h.apart _, List.nodup_singleton b, fun y hy z hz => by
        rw [List.mem_singleton.mp hz]
        rintro rfl
        exact hnb _ hy⟩
    · rw [if_neg hcc]
      exact h.apart c
  · show (s.entered b).rack.comps[c].length ≤ s.rack.k
    rw [entered_comps]
    by_cases hcc : c = s.rack.ptr
    · rw [if_pos hcc, List.length_append]
      exact h.room hh
    · rw [if_neg hcc]
      exact h.bound c

theorem placeOne_places {b : BagIx} {r : List BagIx} {s : State} (h : Placing (b :: r) s)
    (hh : s.rack.halt = false) :
    Placing r (s.placeOne b) ∧ (s.placeOne b).haltHolds := by
  obtain ⟨c1, c2, c3⟩ := placeOne_cases b s
  by_cases hr : (s.rack.comps[s.rack.ptr] ++ [b]).length < s.rack.k
  · rw [c1 hr]
    refine ⟨h.entered hh s.rack.ptr s.rack.halt fun _ => ?_, fun ht => ?_⟩
    · rw [entered_comps, if_pos rfl]
      exact hr
    · exact absurd (hh.symm.trans ht) (by decide)
  · by_cases he : (s.entered b).rack.comps[s.rack.ptr + 1] = []
    · rw [c2 hr he]
      refine ⟨h.entered hh (s.rack.ptr + 1) s.rack.halt fun _ => ?_, fun ht => ?_⟩
      · rw [he]
        exact h.low
      · exact absurd (hh.symm.trans ht) (by decide)
    · rw [c3 hr he]
      exact ⟨(h.entered hh (s.rack.ptr + 1) true fun e => absurd e (by decide)).other _ _ _, fun _ => he⟩

theorem placeFrom_places (l : List BagIx) (s : State) (h : Placing l s)
    (hh : s.haltHolds) : (State.placeFrom l s).placesLaw := by
  induction l generalizing s with
  | nil => exact (placesLaw_iff _).mpr ⟨h.other [] s.port s.mans, fun _ => rfl, hh⟩
  | cons b r ih =>
    by_cases ht : s.rack.halt = true
    · rw [placeFrom_halted b r s ht]
      exact (placesLaw_iff _).mpr
        ⟨h.other (b :: r) s.port s.mans, fun e => absurd (ht.symm.trans e) (by decide), hh⟩
    · rw [placeFrom_free b r s ht]
      obtain ⟨h1, h2⟩ := placeOne_places h (by simpa using ht)
      exact ih _ h1 h2

/-- Placement keeps the places (R115, R116). -/
theorem place_places (s : State) (h : Placing s.rack.queue s)
    (hh : s.haltHolds) : s.place.placesLaw :=
  placeFrom_places _ s h hh

/-- The lift of a halt keeps the places (R117). -/
theorem liftHalt_places (s : State) (h : Placing s.rack.queue s) (hq : s.rack.halt = false → s.rack.queue = []) :
    s.liftHalt.placesLaw := by
  by_cases hl : s.rack.halt = true → s.rack.comps[s.rack.ptr] ≠ []
  · rw [liftHalt_stays s hl]
    exact (placesLaw_iff _).mpr ⟨h, hq, hl⟩
  · rw [Classical.not_imp, not_not] at hl
    rw [liftHalt_lifts s hl.1 hl.2]
    refine place_places _ ⟨h.queued, h.held, h.state, h.once, h.apart, h.low, h.high, h.bound, fun _ => ?_⟩
      fun e => absurd e (by simp)
    show (s.rack.comps[s.rack.ptr]).length < s.rack.k
    rw [hl.2]
    exact h.low

/-- Bags retire from the table and from every list of the rack (R105, R117). -/
theorem Placing.filter {s : State} (h : Placing s.rack.queue s) (gone : BagIx → Bool) (t : State)
    (hb : ∀ b, t.bag b = if gone b then none else s.bag b)
    (hr : t.rack = { s.rack with
      comps := mapT (fun x => x.filter fun b => !gone b) s.rack.comps
      queue := s.rack.queue.filter fun b => !gone b }) : Placing t.rack.queue t := by
  have hc : ∀ c : CompIx, t.rack.comps[c] = s.rack.comps[c].filter fun b => !gone b := by
    intro c
    rw [hr]
    exact mapT_get ..
  have hq : t.rack.queue = s.rack.queue.filter fun b => !gone b := by rw [hr]
  have hk : t.rack.k = s.rack.k := by rw [hr]
  have hp : t.rack.ptr = s.rack.ptr := by rw [hr]
  refine ⟨fun d => ?_, fun d c => ?_, fun d x hx => ?_, ?_, fun c => ?_, ?_, ?_, fun c => ?_, fun hh => ?_⟩
  · rw [hq, List.mem_filter, h.queued d, hb]
    cases gone d <;> simp
  · rw [hc, List.mem_filter, h.held d c, hb]
    cases gone d <;> simp
  · rw [hb] at hx
    split at hx
    · exact absurd hx (by simp)
    · exact h.state d x hx
  · rw [hq]
    exact h.once.filter _
  · rw [hc]
    exact (h.apart c).filter _
  · rw [hk]
    exact h.low
  · rw [hk]
    exact h.high
  · rw [hc, hk]
    exact (List.length_filter_le _ _).trans (h.bound c)
  · rw [hc, hk, hp]
    refine (List.length_filter_le _ _).trans_lt (h.room ?_)
    rw [← hh, hr]

end Sys2Proof.Machine
end

