-- ==== Sys2Proof/Laws/Listed.lean ====
section
/-! SUPPORT. The bags that manifests list: what each operation on the manifests and the bag table does to them
(R123, R127 to R137). -/

namespace Sys2Proof.Machine

theorem listedLaw_congr (s t : State) (hb : t.bags = s.bags) (hm : t.mans = s.mans) (h : s.listedLaw) :
    t.listedLaw := by
  cases s
  cases t
  dsimp only at hb hm
  subst hb hm
  exact h

theorem rackLaw_congr (s t : State) (hb : t.bags = s.bags) (hr : t.rack = s.rack) (hm : t.mans = s.mans)
    (h : s.rackLaw) : t.rackLaw := ⟨placesLaw_congr s t hb hr h.1, listedLaw_congr s t hb hm h.2⟩

/-- The entries of a manifest are in order: no bag is listed twice, a DRAFT has PENDING entries alone, a halted
entry is PENDING and its manifest SUSPENDED (R123, R127, R134). -/
def Manifest.entriesOk (m : Manifest) : Prop :=
  ∀ c, m.body = .collection c →
    (c.entries.Pairwise fun e f => e.status ≠ .setAside → f.status ≠ .setAside → e.bag ≠ f.bag) ∧
    (m.state = .draft → ∀ e ∈ c.entries, e.status = .pending) ∧
    (∀ k, c.halted = some k → m.state = .suspended ∧ ∀ e, c.entries[k]? = some e → e.status = .pending)

/-- A manifest lists an entry as PENDING or ACCEPTED (R123). -/
def Manifest.holds (m : Manifest) (e : Entry) : Prop :=
  ∃ c, m.body = .collection c ∧ e ∈ c.entries ∧ e.status ≠ .setAside

theorem lists_iff (s : State) (i : SlotIx) (e : Entry) : s.lists i e ↔ ∃ m, s.man i = some m ∧ m.holds e := by
  constructor
  · rintro ⟨m, c, h1, h2, h3⟩
    exact ⟨m, h1, c, h2, h3⟩
  · rintro ⟨m, h1, c, h2, h3⟩
    exact ⟨m, c, h1, h2, h3⟩

theorem listed_ok {s : State} (h : s.listedLaw) (i : SlotIx) (m : Manifest) (hm : s.man i = some m) :
    m.entriesOk := fun c hc => h.2.2 i m c hm hc

/-- A state that lists no bag anew, and in which the listed bags stand. -/
theorem listedLaw_less (s t : State) (h : s.listedLaw)
    (hl : ∀ i e, t.lists i e → ∃ f, s.lists i f ∧ f.bag = e.bag ∧ f.tag = e.tag)
    (hb : ∀ i e, t.lists i e → ∀ x, s.bag e.bag = some x → x.state = .manifested →
      ∃ y, t.bag e.bag = some y ∧ y.tag = x.tag ∧ y.state = .manifested)
    (ho : ∀ i m, t.man i = some m → m.entriesOk) : t.listedLaw := by
  refine ⟨fun i e he => ?_, fun i j e f he hf hef => ?_, fun i m c hm hc => ho i m hm c hc⟩
  · obtain ⟨f, hf, h1, h2⟩ := hl i e he
    obtain ⟨x, hx, h3, h4⟩ := h.1 i f hf
    rw [h1] at hx
    obtain ⟨y, hy, h5, h6⟩ := hb i e he x hx h4
    exact ⟨y, hy, by rw [h5, h3, h2], h6⟩
  · obtain ⟨e', he', h1, _⟩ := hl i e he
    obtain ⟨f', hf', h2, _⟩ := hl j f hf
    exact h.2.1 i j e' f' he' hf' (by rw [h1, h2, hef])

/-- The bag table changes, but not the bags that are listed. -/
theorem listedLaw_bags (s t : State) (h : s.listedLaw) (hm : t.mans = s.mans)
    (hb : ∀ i e, s.lists i e → ∀ x, s.bag e.bag = some x → x.state = .manifested →
      ∃ y, t.bag e.bag = some y ∧ y.tag = x.tag ∧ y.state = .manifested) : t.listedLaw := by
  have hman : t.man = s.man := by
    funext i
    unfold State.man
    rw [hm]
  have hl : t.lists = s.lists := by
    funext i e
    unfold State.lists
    rw [hman]
  refine listedLaw_less s t h (fun i e he => ⟨e, hl ▸ he, rfl, rfl⟩) (fun i e he => hb i e (hl ▸ he)) fun i m h1 => ?_
  rw [hman] at h1
  exact listed_ok h i m h1

/-- A bag that is not listed changes. -/
theorem listedLaw_setBag (b : BagIx) (o : Option Bag) (s : State) (h : s.listedLaw)
    (hn : ∀ i e, s.lists i e → e.bag ≠ b) : (s.setBag b o).listedLaw := by
  refine listedLaw_bags s _ h rfl fun i e he x hx hs => ⟨x, ?_, rfl, hs⟩
  rw [bag_setBag, if_neg (hn i e he)]
  exact hx

/-- A bag that is not MANIFESTED is not listed (R123). -/
theorem unlisted_of_state {s : State} (h : s.listedLaw) (b : BagIx)
    (hb : ∀ x, s.bag b = some x → x.state ≠ .manifested) (i : SlotIx) (e : Entry) (he : s.lists i e) : e.bag ≠ b := by
  rintro rfl
  obtain ⟨x, hx, _, hs⟩ := h.1 i e he
  exact hb x hx hs

/-- A bag changes and keeps its tag and its state. -/
theorem listedLaw_sameBag (b : BagIx) (x y : Bag) (s : State) (h : s.listedLaw) (hx : s.bag b = some x)
    (ht : y.tag = x.tag) (hs : y.state = x.state) : (s.setBag b (some y)).listedLaw := by
  refine listedLaw_bags s _ h rfl fun i e he z hz hm => ?_
  rw [bag_setBag]
  by_cases hb : e.bag = b
  · rw [hb, hx] at hz
    injection hz with hz
    exact ⟨y, by rw [if_pos hb], by rw [ht, hz], by rw [hs, hz]; exact hm⟩
  · exact ⟨z, by rw [if_neg hb]; exact hz, rfl, hm⟩

/-- A manifest changes without listing a bag anew. -/
theorem listedLaw_setMan (i : SlotIx) (o : Option Manifest) (s : State) (h : s.listedLaw)
    (hl : ∀ m' e, o = some m' → m'.holds e → ∃ m f, s.man i = some m ∧ m.holds f ∧ f.bag = e.bag ∧ f.tag = e.tag)
    (ho : ∀ m', o = some m' → m'.entriesOk) : (s.setMan i o).listedLaw := by
  refine listedLaw_less s _ h (fun j e he => ?_) (fun j e he x hx hs => ⟨x, hx, rfl, hs⟩) fun j m hm => ?_
  · obtain ⟨m', hm', he'⟩ := (lists_iff ..).mp he
    rw [man_setMan] at hm'
    by_cases hj : j = i
    · rw [if_pos hj] at hm'
      obtain ⟨m, f, h1, h2, h3⟩ := hl m' e hm' he'
      exact ⟨f, (lists_iff ..).mpr ⟨m, hj ▸ h1, h2⟩, h3⟩
    · rw [if_neg hj] at hm'
      exact ⟨e, (lists_iff ..).mpr ⟨m', hm', he'⟩, rfl, rfl⟩
  · rw [man_setMan] at hm
    by_cases hj : j = i
    · rw [if_pos hj] at hm
      exact ho m hm
    · rw [if_neg hj] at hm
      exact listed_ok h j m hm

/-- A slot is freed (R130, R136). -/
theorem listedLaw_freeSlot (i : SlotIx) (s : State) (h : s.listedLaw) : (s.setMan i none).listedLaw :=
  listedLaw_setMan i none s h (fun _ _ e => absurd e (by simp)) fun _ e => absurd e (by simp)

/-- What a slot lists once it is written. -/
theorem lists_setMan (i j : SlotIx) (o : Option Manifest) (s : State) (e : Entry) :
    (s.setMan i o).lists j e ↔ if j = i then ∃ m, o = some m ∧ m.holds e else s.lists j e := by
  rw [lists_iff, man_setMan]
  by_cases h : j = i
  · simp [h]
  · simp [h, lists_iff]

/-- A manifest whose entries are as they were, in a state whose rule they meet. -/
theorem entriesOk_sameBody (m m' : Manifest) (h : m.entriesOk) (hb : m'.body = m.body)
    (hd : m'.state = .draft → m.state = .draft)
    (hs : ∀ c, m.body = .collection c → c.halted ≠ none → m.state = .suspended → m'.state = .suspended) :
    m'.entriesOk := by
  intro c hc
  rw [hb] at hc
  obtain ⟨h1, h2, h3⟩ := h c hc
  refine ⟨h1, fun e => h2 (hd e), fun k hk => ⟨hs c hc (by rw [hk]; simp) (h3 k hk).1, (h3 k hk).2⟩⟩

theorem listedLaw_sameBody (i : SlotIx) (m m' : Manifest) (s : State) (h : s.listedLaw) (hm : s.man i = some m)
    (hb : m'.body = m.body) (hd : m'.state = .draft → m.state = .draft)
    (hs : ∀ c, m.body = .collection c → c.halted ≠ none → m.state = .suspended → m'.state = .suspended) :
    (s.setMan i (some m')).listedLaw := by
  refine listedLaw_setMan i _ s h (fun n e hn he => ?_) fun n hn => ?_
  · injection hn with hn
    subst hn
    obtain ⟨c, hc, he⟩ := he
    exact ⟨m, e, hm, ⟨c, hb ▸ hc, he⟩, rfl, rfl⟩
  · injection hn with hn
    rw [← hn]
    exact entriesOk_sameBody m m' (listed_ok h i m hm) hb hd hs

/-- A manifest that is not SUSPENDED has no halted entry (R134). -/
theorem unhalted_of_state {m : Manifest} (h : m.entriesOk) (c : Collection) (hc : m.body = .collection c)
    (hs : m.state ≠ .suspended) : c.halted = none := by
  cases hh : c.halted with
  | none => rfl
  | some k => exact absurd ((h c hc).2.2 k hh).1 hs

/-- A manifest that is no collection lists nothing. -/
theorem entriesOk_delivery (m : Manifest) (d : Delivery) (h : m.body = .delivery d) : m.entriesOk := by
  intro c hc
  rw [h] at hc
  exact absurd hc (by simp)

theorem not_holds_delivery (m : Manifest) (d : Delivery) (h : m.body = .delivery d) (e : Entry) : ¬m.holds e := by
  rintro ⟨c, hc, _⟩
  rw [h] at hc
  exact absurd hc (by simp)

theorem listedLaw_delivery (i : SlotIx) (m' : Manifest) (d : Delivery) (s : State) (h : s.listedLaw)
    (hd : m'.body = .delivery d) : (s.setMan i (some m')).listedLaw := by
  refine listedLaw_setMan i _ s h (fun n e hn he => ?_) fun n hn => ?_
  · injection hn with hn
    subst hn
    exact absurd he (not_holds_delivery m' d hd e)
  · injection hn with hn
    rw [← hn]
    exact entriesOk_delivery m' d hd

/-- One entry of a collection is rewritten: it keeps its bag and tag, and stays listed or leaves the list. -/
theorem listedLaw_setEntry (i : SlotIx) (m m' : Manifest) (c c' : Collection) (k : Nat) (e e' : Entry) (s : State)
    (h : s.listedLaw) (hm : s.man i = some m) (hc : m.body = .collection c) (hk : c.entries[k]? = some e)
    (hp : e.status ≠ .setAside) (hc' : m'.body = .collection c') (he : c'.entries = c.entries.set k e')
    (hb : e'.bag = e.bag) (ht : e'.tag = e.tag) (hs : m'.state ≠ .draft) (hh : c'.halted = none) :
    (s.setMan i (some m')).listedLaw := by
  have hlt : k < c.entries.length := (List.getElem?_eq_some_iff.mp hk).1
  have hmem : ∀ f ∈ c'.entries, f = e' ∨ f ∈ c.entries := by
    intro f hf
    rw [he] at hf
    exact (List.mem_or_eq_of_mem_set hf).symm
  refine listedLaw_setMan i _ s h (fun n f hn hf => ?_) fun n hn => ?_
  · injection hn with hn
    subst hn
    obtain ⟨d, hd, hf, hfs⟩ := hf
    rw [hc'] at hd
    injection hd with hd
    subst hd
    rcases hmem f hf with rfl | hf
    · exact ⟨m, e, hm, ⟨c, hc, List.mem_of_getElem? hk, hp⟩, hb.symm, ht.symm⟩
    · exact ⟨m, f, hm, ⟨c, hc, hf, hfs⟩, rfl, rfl⟩
  · injection hn with hn
    subst hn
    intro d hd
    rw [hc'] at hd
    injection hd with hd
    subst hd
    refine ⟨?_, fun hd => absurd hd hs, fun j hj => absurd (hh.symm.trans hj) (by simp)⟩
    obtain ⟨h1, _, _⟩ := listed_ok h i m hm c hc
    rw [he]
    rw [List.pairwise_iff_getElem] at h1 ⊢
    intro a b ha hb2 hab
    rw [List.length_set] at ha hb2
    have e0 : c.entries[k] = e := (List.getElem?_eq_some_iff.mp hk).2
    have := h1 a b ha hb2 hab
    rw [List.getElem_set, List.getElem_set]
    by_cases h2 : k = a
    · subst h2
      rw [if_pos rfl, if_neg (by omega), hb]
      intro _ h4
      rw [e0] at this
      exact this hp h4
    · rw [if_neg h2]
      by_cases h3 : k = b
      · subst h3
        rw [if_pos rfl, hb]
        intro h4 _
        rw [e0] at this
        exact this h4 hp
      · rw [if_neg h3]
        exact this

/-- Once an entry is set aside, no entry of its collection lists its bag. -/
theorem setEntry_apart {l : List Entry} {k : Nat} {e e' : Entry}
    (h : l.Pairwise fun e f => e.status ≠ .setAside → f.status ≠ .setAside → e.bag ≠ f.bag) (hk : l[k]? = some e)
    (hp : e.status ≠ .setAside) (hs : e'.status = .setAside) (f : Entry) (hf : f ∈ l.set k e')
    (hfs : f.status ≠ .setAside) : f.bag ≠ e.bag := by
  obtain ⟨hlt, e0⟩ := List.getElem?_eq_some_iff.mp hk
  obtain ⟨j, hj, hje⟩ := List.getElem_of_mem hf
  rw [List.getElem_set] at hje
  by_cases hkj : k = j
  · rw [if_pos hkj] at hje
    rw [← hje] at hfs
    exact absurd hs hfs
  · rw [if_neg hkj] at hje
    rw [List.length_set] at hj
    rw [List.pairwise_iff_getElem] at h
    rcases Nat.lt_or_gt_of_ne hkj with hlt' | hlt'
    · have := h k j hlt hj hlt'
      rw [e0, hje] at this
      exact (this hp hfs).symm
    · have := h j k hj hlt hlt'
      rw [e0, hje] at this
      exact this hfs hp

end Sys2Proof.Machine
end

