-- ==== Sys2Proof/Laws/Places.lean ====
section
/-! SUPPORT. The commands and events on the places of the bags and the manifests that list them (R118, R123). -/

namespace Sys2Proof.Machine

/-! ### Placement and the bags that are listed -/

theorem placeOne_bag (b d : BagIx) (s : State) (h : d ≠ b) : (s.placeOne b).bag d = s.bag d := by
  obtain ⟨c1, c2, c3⟩ := placeOne_cases b s
  have e : (s.entered b).bag d = s.bag d := by rw [entered_bag, if_neg h]
  by_cases hr : (s.rack.comps[s.rack.ptr] ++ [b]).length < s.rack.k
  · rw [c1 hr]
    exact e
  · by_cases he : (s.entered b).rack.comps[s.rack.ptr + 1] = []
    · rw [c2 hr he]
      exact e
    · rw [c3 hr he]
      exact e

theorem placeFrom_bag (l : List BagIx) (d : BagIx) (s : State) (h : d ∉ l) :
    (State.placeFrom l s).bag d = s.bag d := by
  induction l generalizing s with
  | nil => rfl
  | cons b r ih =>
    rw [List.mem_cons, not_or] at h
    by_cases ht : s.rack.halt = true
    · rw [placeFrom_halted b r s ht]
      rfl
    · rw [placeFrom_free b r s ht, ih _ h.2, placeOne_bag b d s h.1]

/-- Placement moves SHUT bags alone (R115). -/
theorem listedLaw_place (s : State) (h : s.listedLaw) (hp : Placing s.rack.queue s) : s.place.listedLaw := by
  obtain ⟨_, _, _, e⟩ := place_frame s
  refine listedLaw_bags s _ h (by rw [e]) fun i f hf x hx hs => ⟨x, ?_, rfl, hs⟩
  refine (placeFrom_bag _ _ s fun hm => ?_).trans hx
  obtain ⟨y, hy, hy2⟩ := (hp.queued _).mp hm
  rw [hx] at hy
  injection hy with hy
  rw [hy, hy2] at hs
  exact absurd hs (by decide)

theorem listedLaw_liftHalt (s : State) (h : s.listedLaw) (hp : Placing s.rack.queue s) : s.liftHalt.listedLaw := by
  by_cases hl : s.rack.halt = true → s.rack.comps[s.rack.ptr] ≠ []
  · rw [liftHalt_stays s hl]
    exact h
  · rw [Classical.not_imp, not_not] at hl
    rw [liftHalt_lifts s hl.1 hl.2]
    refine listedLaw_place _ (listedLaw_congr s _ rfl rfl h) ?_
    refine ⟨hp.queued, hp.held, hp.state, hp.once, hp.apart, hp.low, hp.high, hp.bound, fun _ => ?_⟩
    show (s.rack.comps[s.rack.ptr]).length < s.rack.k
    rw [hl.2]
    exact hp.low

/-! ### Marks -/

/-- Bags in compartments that no manifest lists take another such state (R118, R130). -/
theorem rackLaw_markBags (l : List BagIx) (k : BagState) (s : State) (h : s.rackLaw) (hk : k.inCompartment)
    (hb : ∀ b ∈ l, ∀ x, s.bag b = some x → x.state.inCompartment)
    (hn : ∀ b ∈ l, ∀ i e, s.lists i e → e.bag ≠ b) :
    (l.foldl (fun s b => s.markBag b k) s).rackLaw := by
  induction l generalizing s with
  | nil => exact h
  | cons b r ih =>
    refine ih (s.markBag b k) ⟨?_, ?_⟩ (fun d hd x hx => ?_) fun d hd i e he => ?_
    · exact placesLaw_markBag b k s h.1 hk (hb b (List.mem_cons_self ..))
    · exact listedLaw_setBag b _ s h.2 (hn b (List.mem_cons_self ..))
    · unfold State.markBag at hx
      rw [bag_setBag] at hx
      by_cases hdb : d = b
      · rw [if_pos hdb] at hx
        obtain ⟨y, _, rfl⟩ := Option.map_eq_some_iff.mp hx
        exact hk
      · rw [if_neg hdb] at hx
        exact hb d (List.mem_cons_of_mem _ hd) x hx
    · exact hn d (List.mem_cons_of_mem _ hd) i e he

theorem rackLaw_markBag (b : BagIx) (k : BagState) (s : State) (h : s.rackLaw) (hk : k.inCompartment)
    (hb : ∀ x, s.bag b = some x → x.state.inCompartment) (hn : ∀ i e, s.lists i e → e.bag ≠ b) :
    (s.markBag b k).rackLaw :=
  rackLaw_markBags [b] k s h hk (fun d hd => by rw [List.mem_singleton.mp hd]; exact hb)
    fun d hd => by rw [List.mem_singleton.mp hd]; exact hn

/-- A listed bag is in a compartment (R118, R123). -/
theorem listed_inCompartment {s : State} (h : s.listedLaw) {i : SlotIx} {e : Entry} (he : s.lists i e) (x : Bag)
    (hx : s.bag e.bag = some x) : x.state.inCompartment := by
  obtain ⟨y, hy, _, hs⟩ := h.1 i e he
  rw [hx] at hy
  injection hy with hy
  rw [hy]
  exact .inr (.inl hs)

/-! ### The bag commands -/

theorem freeBag_none (s : State) (b : BagIx) (h : s.freeBag = some b) : s.bag b = none := by
  have := List.find?_some h
  simpa using this

theorem bagOpen_rackLaw (a : List Byte) (s : State) (h : s.rackLaw) : (bagOpenEffect a s).state.rackLaw := by
  unfold bagOpenEffect
  split
  · exact h
  dsimp only
  split
  · exact h
  split
  · exact h
  split
  · exact h
  split
  · exact h
  · next b hb =>
    have hn := freeBag_none s b hb
    exact ⟨placesLaw_open b _ s h.1 hn rfl rfl,
      listedLaw_setBag b _ s h.2 (unlisted_of_state h.2 b fun x hx => absurd (hn.symm.trans hx) (by simp))⟩

/-- A bag changes its lines and nothing else. -/
theorem rackLaw_withLines (b : BagIx) (x : Bag) (d : Vector Denom 12) (l : List BagLine) (s : State) (h : s.rackLaw)
    (hx : s.bag b = some x) : (s.setBag b (some (x.withLines d l))).rackLaw :=
  ⟨placesLaw_setBag b x _ s h.1 hx rfl Iff.rfl Iff.rfl, listedLaw_sameBag b x _ s h.2 hx rfl rfl⟩

theorem bagAdd_rackLaw (a : List Byte) (s : State) (h : s.rackLaw) : (bagAddEffect a s).state.rackLaw := by
  refine withBag_state State.rackLaw _ _ _ _ h fun b x hx => ?_
  split
  · exact h
  split
  · exact h
  split
  · exact h
  dsimp only
  split
  · exact h
  split
  · exact h
  · exact rackLaw_withLines b x _ _ (s.moveOut _) h hx

theorem bagReturn_rackLaw (a : List Byte) (s : State) (h : s.rackLaw) : (bagReturnEffect a s).state.rackLaw := by
  refine withBag_state State.rackLaw _ _ _ _ h fun b x hx => ?_
  split
  · exact h
  split
  · exact h
  split
  · exact h
  split
  · exact h
  · exact rackLaw_withLines b x _ _ (s.moveIn _) h hx

/-- A FILLING bag joins the queue (R111). -/
theorem sealBag_places (b : BagIx) (x : Bag) (s : State) (h : s.placesLaw) (hx : s.bag b = some x)
    (hs : x.state = .filling) : Placing (s.sealBag b x).rack.queue (s.sealBag b x) ∧ (s.sealBag b x).haltHolds := by
  obtain ⟨p, _, hh⟩ := (placesLaw_iff s).mp h
  have hc : x.comp = none := by
    by_contra hne
    have := (p.state b x hx).mp hne
    rw [hs] at this
    rcases this with e | e | e <;> exact absurd e (by decide)
  have hnq : b ∉ s.rack.queue := by
    intro hm
    obtain ⟨y, hy, hy2⟩ := (p.queued b).mp hm
    rw [hx] at hy
    injection hy with hy
    rw [← hy, hs] at hy2
    exact absurd hy2 (by decide)
  have hbag : ∀ d, (s.sealBag b x).bag d =
      if d = b then some { x with state := .shut, time := s.stamp } else s.bag d := fun d => bag_setBag b d _ s
  refine ⟨⟨fun d => ?_, fun d c => ?_, fun d y hy => ?_, ?_, p.apart, p.low, p.high, p.bound, p.room⟩, hh⟩
  · show d ∈ s.rack.queue ++ [b] ↔ _
    rw [hbag, List.mem_append, List.mem_singleton, p.queued d]
    by_cases hd : d = b
    · subst hd
      simp
    · simp [hd]
  · refine (p.held d c).trans ?_
    rw [hbag]
    by_cases hd : d = b
    · subst hd
      simp [hx, hc]
    · simp [hd]
  · rw [hbag] at hy
    by_cases hd : d = b
    · rw [if_pos hd] at hy
      injection hy with hy
      rw [← hy]
      simp [hc, BagState.inCompartment]
    · rw [if_neg hd] at hy
      exact p.state d y hy
  · show (s.rack.queue ++ [b]).Nodup
    exact List.nodup_append.mpr ⟨p.once, List.nodup_singleton b, fun y hy z hz => by
      rw [List.mem_singleton.mp hz]
      rintro rfl
      exact hnq hy⟩

theorem bagShut_rackLaw (a : List Byte) (s : State) (h : s.rackLaw) : (bagShutEffect a s).state.rackLaw := by
  refine withBag_state State.rackLaw _ _ _ _ h fun b x hx => ?_
  dsimp only
  split
  · exact h
  next hs =>
  split
  · exact h
  have hs' : x.state = .filling := by simpa using hs
  obtain ⟨p, hh⟩ := sealBag_places b x s h.1 hx hs'
  have hl : (s.sealBag b x).listedLaw :=
    listedLaw_congr _ _ rfl rfl (listedLaw_setBag b (some { x with state := .shut, time := s.stamp }) s h.2
      (unlisted_of_state h.2 b fun y hy => by
        rw [hx] at hy
        injection hy with hy
        rw [← hy, hs']
        decide))
  exact ⟨place_places _ p hh, listedLaw_place _ hl p⟩

theorem retireBag_places (b : BagIx) (s : State) (h : Placing s.rack.queue s) :
    Placing (s.retireBag b).rack.queue (s.retireBag b) := by
  refine h.filter (fun d => d == b) _ (fun d => ?_) rfl
  refine (bag_setBag b d none s).trans ?_
  by_cases hd : d = b <;> simp [hd]

theorem bagBreak_rackLaw (a : List Byte) (s : State) (h : s.rackLaw) : (bagBreakEffect a s).state.rackLaw := by
  refine withBag_state State.rackLaw _ _ _ _ h fun b x hx => ?_
  dsimp only
  apply withAuthority_state State.rackLaw
  · exact h
  · unfold State.wrongOverride
    split <;> exact h
  split
  · exact h
  next hs =>
  split
  · exact h
  obtain ⟨p, hq, _⟩ := (placesLaw_iff s).mp h.1
  have p1 := retireBag_places b (({ s with auth := { s.auth with failures := 0 } } : State).moveIn (linesComp x.lines))
    ⟨p.queued, p.held, p.state, p.once, p.apart, p.low, p.high, p.bound, p.room⟩
  have l1 : ((({ s with auth := { s.auth with failures := 0 } } : State).moveIn
      (linesComp x.lines)).retireBag b).listedLaw :=
    listedLaw_congr _ _ rfl rfl (listedLaw_setBag b none s h.2 (unlisted_of_state h.2 b fun y hy => by
      rw [hx] at hy
      injection hy with hy
      rw [← hy]
      exact hs))
  refine ⟨liftHalt_places _ p1 fun hh => ?_, listedLaw_liftHalt _ l1 p1⟩
  show s.rack.queue.filter _ = []
  rw [hq hh]
  rfl

theorem rackSet_rackLaw (a : List Byte) (s : State) (h : s.rackLaw) : (rackSetEffect a s).state.rackLaw := by
  unfold rackSetEffect
  split
  · exact h
  split
  · exact h
  next hk =>
  split
  · exact h
  next he =>
  refine ⟨?_, listedLaw_congr s _ rfl rfl h.2⟩
  obtain ⟨p, _, hh⟩ := (placesLaw_iff s).mp h.1
  have hc : ∀ c : CompIx, s.rack.comps[c] = [] := by
    intro c
    simp only [Rack.holds, Bool.or_eq_true, List.any_eq_true, not_or, not_exists, not_and] at he
    have := he.1 c (mem_lanesAll c)
    simpa using this
  have hq : s.rack.queue = [] := by
    simp only [Rack.holds, Bool.or_eq_true, not_or] at he
    simpa using he.2
  have hhalt : s.rack.halt = false := by
    cases e : s.rack.halt with
    | false => rfl
    | true => exact absurd (hc _) (hh e)
  rw [not_or] at hk
  refine (placesLaw_iff _).mpr ⟨⟨p.queued, p.held, p.state, p.once, p.apart, ?_, ?_, fun c => ?_, fun _ => ?_⟩,
    fun _ => hq, fun e => absurd (hhalt.symm.trans e) (by decide)⟩
  · show 1 ≤ arg a 0 1
    omega
  · show arg a 0 1 ≤ 12
    omega
  · show s.rack.comps[c].length ≤ _
    rw [hc]
    exact Nat.zero_le _
  · show s.rack.comps[(0 : CompIx)].length < arg a 0 1
    rw [hc]
    show 0 < arg a 0 1
    omega

theorem cleared_rackLaw (s : State) (h : s.rackLaw) : s.clearRecords.rackLaw := by
  have hb : ∀ b, s.clearRecords.bag b = none := fun b => by simp [State.clearRecords, State.bag]
  have hm : ∀ i, s.clearRecords.man i = none := fun i => by simp [State.clearRecords, State.man]
  have hc : ∀ c : CompIx, s.clearRecords.rack.comps[c] = [] := fun c => by simp [State.clearRecords]
  obtain ⟨p, _, _⟩ := (placesLaw_iff s).mp h.1
  refine ⟨(placesLaw_iff _).mpr ⟨⟨fun b => ?_, fun b c => ?_, fun b x hx => ?_, List.nodup_nil, fun c => ?_, p.low,
    p.high, fun c => ?_, fun _ => ?_⟩, fun _ => rfl, fun e => absurd e (by simp [State.clearRecords])⟩, ?_, ?_, ?_⟩
  · rw [hb]
    simp [State.clearRecords]
  · rw [hb, hc]
    simp
  · rw [hb] at hx
    exact absurd hx (by simp)
  · rw [hc]
    exact List.nodup_nil
  · rw [hc]
    exact Nat.zero_le _
  · rw [hc]
    exact p.low
  · rintro i e ⟨m, c, h1, _⟩
    rw [hm] at h1
    exact absurd h1 (by simp)
  · rintro i j e f ⟨m, c, h1, _⟩
    rw [hm] at h1
    exact absurd h1 (by simp)
  · intro i m c h1
    rw [hm] at h1
    exact absurd h1 (by simp)

end Sys2Proof.Machine
end

