-- ==== Sys2Proof/Laws/Handovers.lean ====
section
/-! SUPPORT. The manifest commands on the places of the bags and the manifests that list them (R123, R126 to
R138). -/

namespace Sys2Proof.Machine

theorem rackLaw_recompute (k : LockCause) (s : State) (h : s.rackLaw) : (s.recomputeDoor k).rackLaw := by
  obtain ⟨_, _, e⟩ := recomputeDoor_frame k s
  rw [e]
  exact h

theorem rackLaw_setMan (i : SlotIx) (o : Option Manifest) (s : State) (h : s.rackLaw)
    (hl : (s.setMan i o).listedLaw) : (s.setMan i o).rackLaw :=
  ⟨placesLaw_congr s _ rfl rfl h.1, hl⟩

theorem manCreate_rackLaw (a : List Byte) (s : State) (h : s.rackLaw) : (manCreateEffect a s).state.rackLaw := by
  have hnew : ∀ body cl, createBody s.denoms a = some (body, cl) → ∀ c, body = .collection c →
      c.entries = [] ∧ c.halted = none := by
    intro body cl hb c hc
    subst hc
    unfold createBody at hb
    repeat' split at hb
    all_goals simp at hb
    rw [← hb.1]
    exact ⟨rfl, rfl⟩
  unfold manCreateEffect
  split
  · exact h
  next body clamped hb =>
  dsimp only
  split
  · exact h
  split
  · exact h
  split
  · exact h
  next i hi =>
  split
  · exact h
  refine rackLaw_setMan i _ s h (listedLaw_setMan i _ s h.2 (fun m e hm he => ?_) fun m hm => ?_)
  · injection hm with hm
    subst hm
    obtain ⟨c, hc, hmem, _⟩ := he
    rw [(hnew body clamped hb c hc).1] at hmem
    exact absurd hmem (List.not_mem_nil)
  · injection hm with hm
    subst hm
    intro c hc
    obtain ⟨h1, h2⟩ := hnew body clamped hb c hc
    rw [h1, h2]
    exact ⟨List.Pairwise.nil, fun _ e he => absurd he (List.not_mem_nil), fun k hk => absurd hk (by simp)⟩

theorem manAdd_rackLaw (a : List Byte) (s : State) (h : s.rackLaw) : (manAddEffect a s).state.rackLaw := by
  refine withMan_state State.rackLaw _ _ _ _ h fun i m _ hm => ?_
  dsimp only
  split
  · exact h
  next c hc =>
  split
  · exact h
  next hd =>
  split
  · exact h
  next b hb =>
  split
  · exact h
  next x hx =>
  split
  · exact h
  next hs =>
  split
  · exact h
  have hdraft : m.state = .draft := by simpa using hd
  have hplace : x.state = .placed ∨ x.state = .heldBack := by
    by_contra hne
    exact hs (not_or.mp hne)
  have hin : x.state.inCompartment := by
    rcases hplace with e | e
    · exact .inl e
    · exact .inr (.inr e)
  have hnot : ∀ y, s.bag b = some y → y.state ≠ .manifested := by
    intro y hy
    rw [hx] at hy
    injection hy with hy
    rw [← hy]
    rcases hplace with e | e <;> rw [e] <;> decide
  have hun := unlisted_of_state h.2 b hnot
  obtain ⟨ok1, ok2, ok3⟩ := listed_ok h.2 i m hm c hc
  have old : ∀ e ∈ c.entries, s.lists i e := fun e he =>
    ⟨m, c, hm, hc, he, by rw [ok2 hdraft e he]; decide⟩
  have hbag : ∀ d, (State.markBag b .manifested (s.setMan i (some { m with
      body := .collection { c with entries := c.entries ++ [newEntry b x] } }))).bag d =
      if d = b then some { x with state := .manifested } else s.bag d := by
    intro d
    unfold State.markBag
    rw [bag_setBag]
    show (if d = b then (s.bag b).map _ else s.bag d) = _
    rw [hx]
    rfl
  have hlist : ∀ j e, (State.markBag b .manifested (s.setMan i (some { m with
      body := .collection { c with entries := c.entries ++ [newEntry b x] } }))).lists j e →
      s.lists j e ∨ (j = i ∧ e = newEntry b x) := by
    intro j e he
    have he' := (lists_setMan i j _ s e).mp he
    by_cases hj : j = i
    · rw [if_pos hj] at he'
      obtain ⟨n, hn, d, hd, hmem, hst⟩ := he'
      injection hn with hn
      subst hn
      injection hd with hd
      subst hd
      rcases List.mem_append.mp hmem with hmem | hmem
      · exact .inl (hj ▸ old e hmem)
      · exact .inr ⟨hj, List.mem_singleton.mp hmem⟩
    · rw [if_neg hj] at he'
      exact .inl he'
  dsimp only [Answer.state]
  refine ⟨?_, ?_, ?_, ?_⟩
  · refine placesLaw_markBag b .manifested _ (placesLaw_congr s _ rfl rfl h.1) (.inr (.inl rfl)) fun y hy => ?_
    have hy' : s.bag b = some y := hy
    rw [hx] at hy'
    injection hy' with hy'
    rw [← hy']
    exact hin
  · intro j e he
    rw [hbag]
    rcases hlist j e he with he | ⟨_, he⟩
    · rw [if_neg (hun j e he)]
      exact h.2.1 j e he
    · rw [he]
      exact ⟨_, if_pos rfl, rfl, rfl⟩
  · intro j k e f he hf hef
    rcases hlist j e he with he | ⟨hj, he⟩ <;> rcases hlist k f hf with hf | ⟨hk, hf⟩
    · exact h.2.2.1 j k e f he hf hef
    · rw [hf] at hef
      exact absurd hef (hun j e he)
    · rw [he] at hef
      exact absurd hef.symm (hun k f hf)
    · rw [hj, hk]
  · intro j n d hn hd
    have hn' : (s.setMan i (some { m with
      body := .collection { c with entries := c.entries ++ [newEntry b x] } })).man j = some n := hn
    rw [man_setMan] at hn'
    by_cases hj : j = i
    · rw [if_pos hj] at hn'
      injection hn' with hn'
      subst hn'
      injection hd with hd
      subst hd
      refine ⟨?_, fun _ e he => ?_, fun k hk => ?_⟩
      · refine List.pairwise_append.mpr ⟨ok1, List.pairwise_singleton _ _, fun e he f hf => ?_⟩
        rw [List.mem_singleton.mp hf]
        exact fun _ _ => hun i e (old e he)
      · rcases List.mem_append.mp he with he | he
        · exact ok2 hdraft e he
        · rw [List.mem_singleton.mp he]
          rfl
      · have := (ok3 k hk).1
        rw [hdraft] at this
        exact absurd this (by decide)
    · rw [if_neg hj] at hn'
      exact h.2.2.2 j n d hn' hd

theorem manRemove_rackLaw (a : List Byte) (s : State) (h : s.rackLaw) : (manRemoveEffect a s).state.rackLaw := by
  refine withMan_state State.rackLaw _ _ _ _ h fun i m _ hm => ?_
  dsimp only
  split
  · exact h
  next c hc =>
  split
  · exact h
  next hd =>
  split
  · exact h
  next b hb =>
  split
  swap
  · exact h
  next hany =>
  have hdraft : m.state = .draft := by simpa using hd
  obtain ⟨ok1, ok2, ok3⟩ := listed_ok h.2 i m hm c hc
  have old : ∀ e ∈ c.entries, s.lists i e := fun e he =>
    ⟨m, c, hm, hc, he, by rw [ok2 hdraft e he]; decide⟩
  obtain ⟨e0, he0, hb0⟩ := List.any_eq_true.mp hany
  have hb0' : e0.bag = b := by simpa using hb0
  have hl : (s.setMan i (some { m with
      body := .collection { c with entries := c.entries.filter fun e => e.bag != b } })).listedLaw := by
    refine listedLaw_setMan i _ s h.2 (fun n e hn he => ?_) fun n hn => ?_
    · injection hn with hn
      subst hn
      obtain ⟨d, hd, hmem, hst⟩ := he
      injection hd with hd
      subst hd
      exact ⟨m, e, hm, ⟨c, hc, (List.mem_filter.mp hmem).1, hst⟩, rfl, rfl⟩
    · injection hn with hn
      subst hn
      intro d hd
      injection hd with hd
      subst hd
      refine ⟨ok1.filter _, fun _ e he => ok2 hdraft e (List.mem_filter.mp he).1, fun k hk => ?_⟩
      have := (ok3 k hk).1
      rw [hdraft] at this
      exact absurd this (by decide)
  refine rackLaw_markBag b .placed _ (rackLaw_setMan i _ s h hl) (.inl rfl) (fun x hx => ?_) fun j e he => ?_
  · exact listed_inCompartment h.2 (old e0 he0) x (hb0'.symm ▸ hx)
  · have he' := (lists_setMan i j _ s e).mp he
    by_cases hj : j = i
    · rw [if_pos hj] at he'
      obtain ⟨n, hn, d, hd, hmem, _⟩ := he'
      injection hn with hn
      subst hn
      injection hd with hd
      subst hd
      simpa using (List.mem_filter.mp hmem).2
    · rw [if_neg hj] at he'
      intro hbe
      exact hj (h.2.2.1 j i e e0 he' (old e0 he0) (by rw [hbe, hb0']))

theorem manClose_rackLaw (a : List Byte) (s : State) (h : s.rackLaw) : (manCloseEffect a s).state.rackLaw := by
  refine withMan_state State.rackLaw _ _ _ _ h fun i m _ hm => ?_
  split
  · exact h
  next c hc =>
  split
  · exact h
  next hd =>
  split
  · exact h
  refine rackLaw_setMan i _ s h (listedLaw_sameBody i m _ s h.2 hm rfl (fun e => absurd e (by simp))
    fun c' _ _ hs => ?_)
  have hdraft : m.state = .draft := by simpa using hd
  rw [hdraft] at hs
  exact absurd hs (by decide)

theorem manCancel_rackLaw (a : List Byte) (s : State) (h : s.rackLaw) : (manCancelEffect a s).state.rackLaw := by
  refine withMan_state State.rackLaw _ _ _ _ h fun i m _ hm => ?_
  dsimp only
  split
  · exact h
  have listed : ∀ b ∈ m.body.listedBags, ∃ e, s.lists i e ∧ e.bag = b := by
    intro b hb
    cases hbody : m.body with
    | delivery d =>
      rw [hbody] at hb
      exact absurd hb (List.not_mem_nil)
    | collection c =>
      rw [hbody] at hb
      obtain ⟨e, he, heb⟩ := List.mem_map.mp hb
      obtain ⟨hmem, hst⟩ := List.mem_filter.mp he
      exact ⟨e, ⟨m, c, hm, hbody, hmem, by simpa [Entry.listed] using hst⟩, heb⟩
  refine rackLaw_markBags _ .placed _ (rackLaw_setMan i none s h (listedLaw_freeSlot i s h.2)) (.inl rfl)
    (fun b hb x hx => ?_) fun b hb j e he => ?_
  · obtain ⟨e, he, heb⟩ := listed b hb
    exact listed_inCompartment h.2 he x (heb.symm ▸ hx)
  · obtain ⟨f, hf, hfb⟩ := listed b hb
    have he' := (lists_setMan i j _ s e).mp he
    by_cases hj : j = i
    · rw [if_pos hj] at he'
      obtain ⟨n, hn, _⟩ := he'
      exact absurd hn (by simp)
    · rw [if_neg hj] at he'
      intro hbe
      exact hj (h.2.2.1 j i e f he' hf (by rw [hbe, hfb]))

theorem courierArrive_rackLaw (a : List Byte) (s : State) (h : s.rackLaw) :
    (courierArriveEffect a s).state.rackLaw := by
  refine withMan_state State.rackLaw _ _ _ _ h fun i m _ hm => ?_
  split
  · exact h
  split
  · exact h
  next hs =>
  have hready : m.state = .ready := by simpa using hs
  have same : ∀ m' : Manifest, m'.body = m.body → m'.state ≠ .draft → (s.setMan i (some m')).rackLaw := by
    intro m' hb hd
    refine rackLaw_setMan i _ s h (listedLaw_sameBody i m m' s h.2 hm hb (fun e => absurd e hd) fun c' _ _ e => ?_)
    rw [hready] at e
    exact absurd e (by decide)
  split
  · exact h
  split
  · exact h
  split
  · exact h
  split
  · exact h
  split
  · unfold State.wrongCourier
    split
    · exact same _ rfl (by simp)
    · exact same _ rfl (by simp [hready])
  · refine rackLaw_recompute _ _ (same _ rfl ?_)
    dsimp only
    unfold ManBody.arrivedState
    split <;> decide

theorem bagScan_rackLaw (a : List Byte) (s : State) (h : s.rackLaw) : (bagScanEffect a s).state.rackLaw := by
  refine withMan_state State.rackLaw _ _ _ _ h fun i m _ hm => ?_
  split
  · exact h
  next bad _ =>
  split
  · exact h
  split
  · exact h
  next c hc =>
  split
  · exact h
  next hs =>
  have hbags : m.state = .bags := by simpa using hs
  split
  · exact h
  next k hk =>
  split
  · exact h
  next e he =>
  split
  · exact h
  next hp =>
  have hpend : e.status = .pending := by simpa using hp
  have hlist : s.lists i e := ⟨m, c, hm, hc, List.mem_of_getElem? he, by rw [hpend]; decide⟩
  have hnone : c.halted = none := unhalted_of_state (listed_ok h.2 i m hm) c hc (by rw [hbags]; decide)
  unfold scanEntry
  split
  · next hh =>
    dsimp only
    refine rackLaw_congr _ _ rfl rfl rfl (rackLaw_recompute .handover _ (rackLaw_setMan i (some
      { m with state := .suspended, body := .collection { c with halted := some k } }) s h ?_))
    refine listedLaw_setMan i _ s h.2 (fun n f hn hf => ?_) fun n hn => ?_
    · injection hn with hn
      subst hn
      obtain ⟨d, hd, hmem, hst⟩ := hf
      injection hd with hd
      subst hd
      exact ⟨m, f, hm, ⟨c, hc, hmem, hst⟩, rfl, rfl⟩
    · injection hn with hn
      subst hn
      intro d hd
      injection hd with hd
      subst hd
      refine ⟨(listed_ok h.2 i m hm c hc).1, fun e => absurd e (by simp), fun j hj => ⟨rfl, fun f hf => ?_⟩⟩
      injection hj with hj
      rw [← hj] at hf
      have := he.symm.trans hf
      injection this with this
      rw [← this]
      exact hpend
  · dsimp only
    have same : ∀ e' : Entry, e'.bag = e.bag → e'.tag = e.tag →
        (s.setMan i (some { m with body := .collection { c with entries := c.entries.set k e' } })).rackLaw :=
      fun e' hb ht => rackLaw_setMan i _ s h (listedLaw_setEntry i m _ c _ k e e' s h.2 hm hc he
        (by rw [hpend]; decide) rfl rfl hb ht (by show m.state ≠ .draft; rw [hbags]; decide) hnone)
    have aside : ∀ e' : Entry, e'.bag = e.bag → e'.tag = e.tag → e'.status = .setAside →
        (State.markBag e.bag .heldBack
          (s.setMan i (some { m with body := .collection { c with entries := c.entries.set k e' } }))).rackLaw := by
      intro e' hb ht hst
      refine rackLaw_markBag e.bag .heldBack _ (same e' hb ht) (.inr (.inr rfl))
        (fun x hx => listed_inCompartment h.2 hlist x hx) fun j f hf => ?_
      have hf' := (lists_setMan i j _ s f).mp hf
      by_cases hj : j = i
      · rw [if_pos hj] at hf'
        obtain ⟨n, hn, d, hd, hmem, hfs⟩ := hf'
        injection hn with hn
        subst hn
        injection hd with hd
        subst hd
        exact setEntry_apart (listed_ok h.2 i m hm c hc).1 he (by rw [hpend]; decide) hst f hmem hfs
      · rw [if_neg hj] at hf'
        intro hbe
        exact hj (h.2.2.1 j i f e hf' hlist hbe)
    have keep : ∀ e' : Entry, e'.bag = e.bag → e'.tag = e.tag →
        (if e'.status = .setAside then State.markBag e.bag .heldBack
          (s.setMan i (some { m with body := .collection { c with entries := c.entries.set k e' } }))
         else s.setMan i (some { m with body := .collection { c with entries := c.entries.set k e' } })).rackLaw := by
      intro e' hb ht
      split
      · next hst => exact aside e' hb ht hst
      · exact same e' hb ht
    refine keep _ ?_ ?_
    · split
      · unfold Entry.damaged
        repeat' split
        all_goals rfl
      · rfl
    · split
      · unfold Entry.damaged
        repeat' split
        all_goals rfl
      · rfl

theorem manResume_rackLaw (a : List Byte) (s : State) (h : s.rackLaw) : (manResumeEffect a s).state.rackLaw := by
  refine withMan_state State.rackLaw _ _ _ _ h fun i m _ hm => ?_
  apply withAuthority_state State.rackLaw
  · exact h
  · unfold State.wrongOverride
    split <;> exact h
  generalize hu : ({ s with auth := { s.auth with failures := 0 } } : State) = u
  have h' : u.rackLaw := by
    rw [← hu]
    exact h
  have hm' : u.man i = some m := by
    rw [← hu]
    exact hm
  split
  · exact h'
  next c hc =>
  split
  · exact h'
  next hs =>
  have hsus : m.state = .suspended := by simpa using hs
  split
  · exact h'
  split
  · exact h'
  split
  · exact h'
  next k e hk =>
  have hke : c.halted = some k ∧ c.entries[k]? = some e := by
    unfold Collection.haltedEntry at hk
    split at hk
    · exact absurd hk (by simp)
    · next j hj =>
      obtain ⟨f, hf, hfe⟩ := Option.map_eq_some_iff.mp hk
      injection hfe with h1 h2
      rw [← h1, ← h2]
      exact ⟨hj, hf⟩
  have hpend : e.status = .pending := ((listed_ok h'.2 i m hm' c hc).2.2 k hke.1).2 e hke.2
  have hlist : u.lists i e := ⟨m, c, hm', hc, List.mem_of_getElem? hke.2, by rw [hpend]; decide⟩
  refine rackLaw_recompute _ _ (rackLaw_markBag e.bag .heldBack _ (rackLaw_setMan i _ u h'
    (listedLaw_setEntry i m _ c _ k e { e with status := .setAside } u h'.2 hm' hc hke.2 (by rw [hpend]; decide) rfl
      rfl rfl rfl (by simp) rfl)) (.inr (.inr rfl)) (fun x hx => listed_inCompartment h'.2 hlist x hx)
    fun j f hf => ?_)
  have hf' := (lists_setMan i j _ u f).mp hf
  by_cases hj : j = i
  · rw [if_pos hj] at hf'
    obtain ⟨n, hn, d, hd, hmem, hfs⟩ := hf'
    injection hn with hn
    subst hn
    injection hd with hd
    subst hd
    exact setEntry_apart (listed_ok h'.2 i m hm' c hc).1 hke.2 (by rw [hpend]; decide) rfl f hmem hfs
  · rw [if_neg hj] at hf'
    intro hbe
    exact hj (h'.2.2.1 j i f e hf' hlist hbe)

theorem retireEntries_places (l : List Entry) (s : State) (h : Placing s.rack.queue s) :
    Placing (l.foldl State.retireEntry s).rack.queue (l.foldl State.retireEntry s) := by
  obtain ⟨e1, e2⟩ := retireEntries_spec l s
  exact h.filter _ _ e1 e2

theorem signCollection_rackLaw (i : SlotIx) (m : Manifest) (c : Collection) (s : State) (h : s.rackLaw)
    (hm : s.man i = some m) (hc : m.body = .collection c) : (signCollection i m c s).state.rackLaw := by
  unfold signCollection
  dsimp only
  split
  · exact h
  split
  · exact h
  dsimp only [Answer.state]
  obtain ⟨p, hq, _⟩ := (placesLaw_iff s).mp h.1
  have hacc : ∀ e ∈ c.entries.filter (fun e => e.status == .accepted), s.lists i e := by
    intro e he
    obtain ⟨hmem, hst⟩ := List.mem_filter.mp he
    refine ⟨m, c, hm, hc, hmem, ?_⟩
    rw [beq_iff_eq.mp hst]
    decide
  have p1 := retireEntries_places (c.entries.filter fun e => e.status == .accepted) s p
  obtain ⟨sp1, sp2⟩ := retireEntries_spec (c.entries.filter fun e => e.status == .accepted) s
  have hq1 : ((c.entries.filter fun e => e.status == .accepted).foldl State.retireEntry s).rack.halt = false →
      ((c.entries.filter fun e => e.status == .accepted).foldl State.retireEntry s).rack.queue = [] := by
    rw [sp2]
    intro hh
    show s.rack.queue.filter _ = []
    rw [hq hh]
    rfl
  have hmans : ((c.entries.filter fun e => e.status == .accepted).foldl State.retireEntry s).mans = s.mans := by
    rw [retireEntries_eq]
  generalize hw : (c.entries.filter fun e => e.status == .accepted).foldl State.retireEntry s = w at *
  have hl : (w.setMan i none).listedLaw := by
    refine listedLaw_less s _ h.2 (fun j e he => ?_) (fun j e he x hx hs => ?_) fun j n hn => ?_
    · obtain ⟨n, hn, hne⟩ := (lists_iff ..).mp he
      rw [man_setMan] at hn
      split at hn
      · exact absurd hn (by simp)
      · unfold State.man at hn
        rw [hmans] at hn
        exact ⟨e, (lists_iff ..).mpr ⟨n, hn, hne⟩, rfl, rfl⟩
    · refine ⟨x, ?_, rfl, hs⟩
      obtain ⟨n, hn, hne⟩ := (lists_iff ..).mp he
      rw [man_setMan] at hn
      split at hn
      · exact absurd hn (by simp)
      next hj =>
      unfold State.man at hn
      rw [hmans] at hn
      show w.bag e.bag = some x
      rw [sp1, if_neg, hx]
      intro hg
      obtain ⟨f, hf, hg⟩ := List.any_eq_true.mp hg
      rw [Bool.and_eq_true, beq_iff_eq] at hg
      exact hj (h.2.2.1 j i e f ((lists_iff ..).mpr ⟨n, hn, hne⟩) (hacc f hf) hg.1.symm)
    · rw [man_setMan] at hn
      split at hn
      · exact absurd hn (by simp)
      · unfold State.man at hn
        rw [hmans] at hn
        exact listed_ok h.2 j n hn
  have hr := fun (t : State) (k : LockCause) => recomputeDoor_frame k t
  obtain ⟨d, po, e⟩ := recomputeDoor_frame .handover ((w.post (-(s.valueAccepted c : Int))).setMan i none)
  rw [e]
  exact ⟨liftHalt_places _ ⟨p1.queued, p1.held, p1.state, p1.once, p1.apart, p1.low, p1.high, p1.bound, p1.room⟩ hq1,
    listedLaw_liftHalt _ (listedLaw_congr _ _ rfl rfl hl)
      ⟨p1.queued, p1.held, p1.state, p1.once, p1.apart, p1.low, p1.high, p1.bound, p1.room⟩⟩

theorem courierSign_rackLaw (a : List Byte) (s : State) (h : s.rackLaw) : (courierSignEffect a s).state.rackLaw := by
  refine withMan_state State.rackLaw _ _ _ _ h fun i m _ hm => ?_
  split
  · next c hc => exact signCollection_rackLaw i m c s h hm hc
  · unfold signDelivery
    split
    · exact rackLaw_setMan i none s h (listedLaw_freeSlot i s h.2)
    · exact h

theorem manReopen_rackLaw (a : List Byte) (s : State) (h : s.rackLaw) : (manReopenEffect a s).state.rackLaw := by
  refine withMan_state State.rackLaw _ _ _ _ h fun i m _ hm => ?_
  apply withAuthority_state State.rackLaw
  · exact h
  · unfold State.wrongOverride
    split <;> exact h
  generalize hu : ({ s with auth := { s.auth with failures := 0 } } : State) = u
  have h' : u.rackLaw := by
    rw [← hu]
    exact h
  have hm' : u.man i = some m := by
    rw [← hu]
    exact hm
  dsimp only
  split
  · exact h'
  split
  · exact h'
  next hs =>
  split
  · exact h'
  refine rackLaw_setMan i _ u h' (listedLaw_sameBody i m _ u h'.2 hm' rfl (fun e => absurd e (by simp))
    fun c _ _ e => ?_)
  rw [e] at hs
  exact absurd ⟨by decide, by decide⟩ hs

/-! ### Sessions -/

theorem rackLaw_mans (f : Manifest → Manifest) (s t : State) (h : s.rackLaw) (hb : t.bags = s.bags)
    (hr : t.rack = s.rack) (hm : ∀ j, t.man j = s.man j ∨ t.man j = (s.man j).map f)
    (hf : ∀ m : Manifest, (∀ e, (f m).holds e → ∃ g, m.holds g ∧ g.bag = e.bag ∧ g.tag = e.tag) ∧
      (m.entriesOk → (f m).entriesOk)) : t.rackLaw := by
  have back : ∀ j n, t.man j = some n → ∃ m, s.man j = some m ∧ (n = m ∨ n = f m) := by
    intro j n hn
    rcases hm j with e | e
    · exact ⟨n, e ▸ hn, .inl rfl⟩
    · rw [e] at hn
      obtain ⟨m, h1, h2⟩ := Option.map_eq_some_iff.mp hn
      exact ⟨m, h1, .inr h2.symm⟩
  refine ⟨placesLaw_congr s t hb hr h.1, listedLaw_less s t h.2 (fun i e he => ?_) (fun i e he x hx hs =>
    ⟨x, ?_, rfl, hs⟩) fun i n hn => ?_⟩
  · obtain ⟨n, hn, hne⟩ := (lists_iff ..).mp he
    obtain ⟨m, h1, h2⟩ := back i n hn
    rcases h2 with rfl | rfl
    · exact ⟨e, (lists_iff ..).mpr ⟨n, h1, hne⟩, rfl, rfl⟩
    · obtain ⟨g, hg, h3⟩ := (hf m).1 e hne
      exact ⟨g, (lists_iff ..).mpr ⟨m, h1, hg⟩, h3⟩
  · unfold State.bag at hx ⊢
    rw [hb]
    exact hx
  · obtain ⟨m, h1, h2⟩ := back i n hn
    rcases h2 with rfl | rfl
    · exact listed_ok h.2 i n h1
    · exact (hf m).2 (listed_ok h.2 i m h1)

/-- A manifest whose session lane is written lists what it listed (R84, R139). -/
theorem withLane_lists (l : Option LaneIx) (m : Manifest) :
    (∀ e, (m.withLane l).holds e → ∃ g, m.holds g ∧ g.bag = e.bag ∧ g.tag = e.tag) ∧
      (m.entriesOk → (m.withLane l).entriesOk) := by
  unfold Manifest.withLane
  cases hb : m.body with
  | collection c => exact ⟨fun e he => ⟨e, he, rfl, rfl⟩, fun h => h⟩
  | delivery d =>
    exact ⟨fun e he => absurd he (not_holds_delivery _ _ rfl e), fun _ => entriesOk_delivery _ _ rfl⟩

theorem rackLaw_release (p : Purpose) (s : State) (h : s.rackLaw) : (s.release p).rackLaw := by
  obtain ⟨_, _, _, e⟩ := release_frame p s
  refine rackLaw_mans (Manifest.withLane none) s _ h (by rw [e]) (by rw [e]) (fun j => ?_) (withLane_lists none)
  rw [release_man]
  split
  · exact .inr rfl
  · exact .inl rfl

theorem rackLaw_releaseLane (i : LaneIx) (s : State) (h : s.rackLaw) : (s.releaseLane i).rackLaw := by
  unfold State.releaseLane
  split
  · exact h
  · exact rackLaw_release _ s h

theorem rackLaw_bindSession (i : LaneIx) (p : Purpose) (s : State) (h : s.rackLaw) : (s.bindSession i p).rackLaw := by
  obtain ⟨_, _, _, _, e⟩ := bindSession_frame i p s
  refine rackLaw_mans (Manifest.withLane (some i)) s _ h (by rw [e]) (by rw [e]) (fun j => ?_)
    (withLane_lists (some i))
  unfold State.bindSession
  split
  · exact .inl rfl
  · exact .inl rfl
  · split
    · exact .inl rfl
    · next k _ =>
      rw [man_setMan]
      split
      · next hj =>
        rw [hj]
        exact .inr rfl
      · exact .inl rfl
  · exact .inl rfl

/-- A collection's ACCEPTED entries revert; the bags it lists stay listed (R137, R144). -/
theorem revert_lists (m m' : Manifest) (c : Collection) (hc : m.body = .collection c) (o : Option Nat)
    (hc' : m'.body = .collection { c.revert with halted := o })
    (ho : m.entriesOk → o = none) (hd : m'.state ≠ .draft) :
    (∀ e, m'.holds e → ∃ g, m.holds g ∧ g.bag = e.bag ∧ g.tag = e.tag) ∧ (m.entriesOk → m'.entriesOk) := by
  have key : ∀ g : Entry, (if g.status = .accepted then { g with status := .pending } else g).bag = g.bag ∧
      (if g.status = .accepted then { g with status := .pending } else g).tag = g.tag ∧
      ((if g.status = .accepted then { g with status := .pending } else g).status ≠ .setAside →
        g.status ≠ .setAside) := by
    intro g
    split
    · next hg => exact ⟨rfl, rfl, fun _ => by rw [hg]; decide⟩
    · exact ⟨rfl, rfl, fun h => h⟩
  constructor
  · rintro e ⟨d, hd, hmem, hst⟩
    rw [hc'] at hd
    injection hd with hd
    subst hd
    obtain ⟨g, hg, rfl⟩ := List.mem_map.mp hmem
    obtain ⟨k1, k2, k3⟩ := key g
    exact ⟨g, ⟨c, hc, hg, k3 hst⟩, k1.symm, k2.symm⟩
  · intro hm d hd'
    rw [hc'] at hd'
    injection hd' with hd'
    subst hd'
    refine ⟨?_, fun e => absurd e hd, fun k hk => absurd ((ho hm).symm.trans hk) (by simp)⟩
    refine List.pairwise_map.mpr ((hm c hc).1.imp fun {x y} hxy h1 h2 => ?_)
    rw [(key x).1, (key y).1]
    exact hxy ((key x).2.2 h1) ((key y).2.2 h2)

theorem leaveBags_lists (m : Manifest) :
    (∀ e, m.leaveBags.holds e → ∃ g, m.holds g ∧ g.bag = e.bag ∧ g.tag = e.tag) ∧
      (m.entriesOk → m.leaveBags.entriesOk) := by
  unfold Manifest.leaveBags
  split
  · next hs =>
    cases hb : m.body with
    | collection c =>
      exact revert_lists m _ c hb c.halted rfl (fun h => unhalted_of_state h c hb (by rw [hs]; decide)) (by simp)
    | delivery d =>
      exact ⟨fun e he => absurd he (not_holds_delivery _ _ rfl e), fun _ => entriesOk_delivery _ _ rfl⟩
  · exact ⟨fun e he => ⟨e, he, rfl, rfl⟩, fun h => h⟩

theorem expire_lists (m : Manifest) :
    (∀ e, m.expire.holds e → ∃ g, m.holds g ∧ g.bag = e.bag ∧ g.tag = e.tag) ∧
      (m.entriesOk → m.expire.entriesOk) := by
  unfold Manifest.expire
  cases hb : m.body with
  | collection c => exact revert_lists m _ c hb none rfl (fun _ => rfl) (by simp)
  | delivery d =>
    exact ⟨fun e he => absurd he (not_holds_delivery _ _ rfl e), fun _ => entriesOk_delivery _ _ rfl⟩

theorem rackLaw_expireSlot (i : SlotIx) (s : State) (h : s.rackLaw) : (s.expireSlot i).rackLaw := by
  unfold State.expireSlot
  split
  · exact h
  next m hm =>
  split
  · refine rackLaw_congr _ _ rfl rfl rfl (rackLaw_recompute .handover (s.setMan i (some m.expire)) ?_)
    refine rackLaw_mans Manifest.expire s _ h rfl rfl (fun j => ?_) expire_lists
    rw [man_setMan]
    split
    · next hj =>
      rw [hj, hm]
      exact .inr rfl
    · exact .inl rfl
  · exact h

theorem rackLaw_lanesDown (s : State) (h : s.rackLaw) : s.lanesDown.rackLaw := by
  have key : ∀ (l : List LaneIx) (t : State), t.rackLaw → (l.foldl State.releaseLane t).rackLaw := by
    intro l
    induction l with
    | nil => exact fun _ ht => ht
    | cons i r ih => exact fun t ht => ih _ (rackLaw_releaseLane i t ht)
  exact rackLaw_congr _ _ rfl rfl rfl (key lanesAll s h)

theorem rackLaw_bagsToReady (s : State) (h : s.rackLaw) : s.bagsToReady.rackLaw :=
  rackLaw_mans Manifest.leaveBags s _ h rfl rfl (fun j => .inr (bagsToReady_man s j)) leaveBags_lists

theorem rackLaw_endWork (s : State) (h : s.rackLaw) : s.endWork.rackLaw := by
  have e := endWork_fields s
  have h1 := rackLaw_bagsToReady _ (rackLaw_lanesDown s h)
  obtain ⟨_, _, _, e1⟩ := lanesDown_frame s
  refine rackLaw_congr _ _ ?_ ?_ ?_ h1
  · rw [e, bagsToReady_bags, e1]
  · rw [e, bagsToReady_rack, e1]
  · rw [e]

theorem rackLaw_pinReset (s : State) (h : s.rackLaw) : s.pinReset.rackLaw := by
  have h1 := rackLaw_recompute .reset _ (rackLaw_endWork s h)
  unfold State.pinReset
  dsimp only
  split
  · exact h1
  · exact h1

theorem rackLaw_supplyEffects (s : State) (h : s.rackLaw) : s.supplyEffects.rackLaw := by
  have h1 := rackLaw_bagsToReady _ (rackLaw_lanesDown s h)
  unfold State.supplyEffects
  generalize s.lanesDown.bagsToReady = u at h1 ⊢
  obtain ⟨_, _, e⟩ := abortRound_frame true u
  rw [e]
  exact rackLaw_recompute _ _ h1

theorem rackLaw_startIntact (s : State) (h : s.rackLaw) : s.startIntact.rackLaw := by
  have h1 : (({ s with clock := Clock.unset } : State).endWork).rackLaw := rackLaw_endWork _ h
  unfold State.startIntact
  exact h1

theorem commit_rackLaw (a : List Byte) (s : State) (h : s.rackLaw) : (countCommitEffect a s).state.rackLaw := by
  refine withProfiled_state State.rackLaw _ _ _ _ h fun i _ => ?_
  have session : ∀ x, (commitSession i x s).state.rackLaw := by
    intro x
    unfold commitSession
    split
    · unfold commitTillClose
      dsimp only
      repeat' split
      all_goals exact h
    · unfold commitPickup
      dsimp only
      repeat' split
      all_goals try exact h
      dsimp only [Answer.state]
      obtain ⟨_, e⟩ := reevaluateSkim_frame ‹_› ((((s.moveIn x.comp).post _).setTill _ _).endSession i)
      rw [e]
      exact h
    · unfold commitDelivery
      split
      · exact h
      split
      swap
      · exact h
      split
      swap
      · exact h
      unfold commitDeliveryTo
      dsimp only
      repeat' split
      all_goals try exact h
      exact rackLaw_congr _ _ rfl rfl rfl (rackLaw_setMan _ _ s h (listedLaw_delivery _ _ _ s h.2 rfl))
    · exact h
  split
  · exact h
  · exact session _
  · exact session _
  · exact h

theorem effect_rackLaw (c : Cmd) (a : List Byte) (s : State) (h : s.rackLaw) : (effect c a s).state.rackLaw := by
  have sess : ∀ (i : LaneIx) (l : Lane) (t : State), t.rackLaw → (t.setLane i l).rackLaw := fun _ _ _ ht => ht
  by_cases hb : c ∈ Cmd.bagsWriters ∨ c ∈ Cmd.rackWriters ∨ c ∈ Cmd.mansWriters
  · cases c <;> first | exact absurd hb (by decide) | skip
    case recordsClear =>
      show (recordsClearEffect a s).state.rackLaw
      unfold recordsClearEffect
      split
      · exact h
      apply withAuthority_state State.rackLaw
      · exact h
      · unfold State.wrongOverride
        split <;> exact h
      split
      · exact h
      · exact cleared_rackLaw _ h
    case bagOpen => exact bagOpen_rackLaw a s h
    case bagAdd => exact bagAdd_rackLaw a s h
    case bagReturn => exact bagReturn_rackLaw a s h
    case bagShut => exact bagShut_rackLaw a s h
    case bagBreak => exact bagBreak_rackLaw a s h
    case rackSet => exact rackSet_rackLaw a s h
    case manCreate => exact manCreate_rackLaw a s h
    case manAdd => exact manAdd_rackLaw a s h
    case manRemove => exact manRemove_rackLaw a s h
    case manClose => exact manClose_rackLaw a s h
    case manCancel => exact manCancel_rackLaw a s h
    case courierArrive => exact courierArrive_rackLaw a s h
    case bagScan => exact bagScan_rackLaw a s h
    case manResume => exact manResume_rackLaw a s h
    case courierSign => exact courierSign_rackLaw a s h
    case manReopen => exact manReopen_rackLaw a s h
    case countCommit => exact commit_rackLaw a s h
    case laneReset =>
      refine withLane_state State.rackLaw _ _ _ _ h fun i => ?_
      exact sess i _ _ (rackLaw_releaseLane i s h)
    case countAbort =>
      refine withProfiled_state State.rackLaw _ _ _ _ h fun i _ => ?_
      dsimp only
      split
      · exact h
      · exact sess i _ _ (rackLaw_releaseLane i s h)
    case countOpen =>
      show (countOpenEffect a s).state.rackLaw
      unfold countOpenEffect
      dsimp only
      repeat' split
      all_goals try exact h
      exact rackLaw_bindSession _ _ _ h
  · rw [not_or, not_or] at hb
    obtain ⟨_, _, _, _, _, k1, k2, k3, _⟩ := effect_same c a s
    exact rackLaw_congr s _ (k1 hb.1) (k2 hb.2.1) (k3 hb.2.2) h

end Sys2Proof.Machine
end

