-- ==== Sys2Proof/Laws/Stacks.lean ====
section
/-! SUPPORT. The batch stacks: what each primitive effect does to the sessions of the lanes (R71, R76, R77). -/

namespace Sys2Proof.Machine

theorem stackLaw_congr (s t : State) (h : t.lanes = s.lanes) (hs : s.stackLaw) : t.stackLaw := by
  unfold State.stackLaw State.lane at *
  rw [h]
  exact hs

theorem stackLaw_setLane (i : LaneIx) (l : Lane) (s : State) (hs : s.stackLaw)
    (hl : ∀ x, l.session = some x → x.stack.length ≤ 8) : (s.setLane i l).stackLaw := by
  intro j x hx
  rw [lane_setLane] at hx
  split at hx
  · exact hl x hx
  · exact hs j x hx

/-- A lane that keeps its session. -/
theorem stackLaw_sameSession (i : LaneIx) (l : Lane) (s : State) (hs : s.stackLaw)
    (hl : l.session = (s.lane i).session) : (s.setLane i l).stackLaw :=
  stackLaw_setLane i l s hs fun x hx => hs i x (hl ▸ hx)

theorem stackLaw_unprofiled (s : State) (h : s.lanes = Vector.replicate 4 Lane.unprofiled) : s.stackLaw := by
  intro i x hx
  unfold State.lane at hx
  rw [h] at hx
  simp [Lane.unprofiled] at hx

theorem push_length (b : Batch) (x : Session) (h : x.stack.length ≤ 8) : (x.push b).stack.length ≤ 8 := by
  unfold Session.push
  split
  · next h8 => exact h8
  · next h8 =>
    split
    · next he =>
      rw [List.getLast?_eq_none_iff] at he
      rw [he] at h8
      exact absurd (by decide) h8
    · show (b :: x.stack.dropLast).length ≤ 8
      rw [List.length_cons, List.length_dropLast]
      omega

theorem stackLaw_laneError (e : LaneError) (i : LaneIx) (s : State) (hs : s.stackLaw) :
    (s.laneError e i).stackLaw := by
  unfold State.laneError
  dsimp only
  split
  · exact hs
  all_goals exact stackLaw_sameSession i _ s hs rfl

theorem stackLaw_takeBatch (i : LaneIx) (q c : Byte) (k : Counts) (s : State) (hs : s.stackLaw) :
    (takeBatch i q c k s).stackLaw := by
  unfold takeBatch
  dsimp only
  split
  · exact hs
  · exact stackLaw_laneError _ _ _ (stackLaw_sameSession i _ s hs rfl)
  all_goals
    split
    · exact hs
    · next x hx =>
      split
      · refine stackLaw_setLane i _ s hs fun y hy => ?_
        injection hy with hy
        rw [← hy]
        exact push_length _ _ (hs i x hx)
      · exact stackLaw_laneError _ _ _ (stackLaw_sameSession i _ s hs rfl)
      · exact hs

theorem stackLaw_takeHello (i : LaneIx) (m : Byte) (z : BitVec 32) (s : State) (hs : s.stackLaw) :
    (takeHello i m z s).stackLaw := by
  unfold takeHello
  dsimp only
  split
  · exact hs
  · exact stackLaw_sameSession i _ s hs rfl
  all_goals exact stackLaw_laneError _ _ _ (stackLaw_sameSession i _ s hs rfl)

theorem stackLaw_takeEndFeed (i : LaneIx) (q : Byte) (s : State) (hs : s.stackLaw) :
    (takeEndFeed i q s).stackLaw := by
  unfold takeEndFeed
  dsimp only
  split
  · exact hs
  · exact stackLaw_laneError _ _ _ hs
  · split
    · exact stackLaw_sameSession i _ s hs rfl
    · exact stackLaw_laneError _ _ _ hs
  · split
    · exact stackLaw_sameSession i _ s hs rfl
    · exact stackLaw_laneError _ _ _ hs
  all_goals
    split
    · exact hs
    · exact stackLaw_laneError _ _ _ hs

theorem stackLaw_takeHoldAck (i : LaneIx) (s : State) (hs : s.stackLaw) : (takeHoldAck i s).stackLaw := by
  unfold takeHoldAck
  dsimp only
  split
  · exact stackLaw_sameSession i _ s hs rfl
  · exact stackLaw_laneError _ _ _ hs
  · exact stackLaw_laneError _ _ _ hs
  all_goals exact hs

theorem stackLaw_takeJam (i : LaneIx) (j : Byte) (s : State) (hs : s.stackLaw) : (takeJam i j s).stackLaw := by
  unfold takeJam
  dsimp only
  split
  · exact hs
  all_goals exact stackLaw_laneError _ _ _ (stackLaw_sameSession i _ s hs rfl)

theorem frameEnd_session (l : Lane) : l.frameEnd.session = l.session := by
  unfold Lane.frameEnd
  dsimp only
  split
  · split <;> rfl
  · rfl

theorem stackLaw_second (s : State) (hs : s.stackLaw) : s.secondNow.stackLaw := by
  intro i x hx
  refine hs i x ?_
  have e : s.secondNow.lane i = (s.lane i).second := mapT_get ..
  rw [e] at hx
  exact hx

/-! ### The commands -/

theorem bindSession_lanes (i : LaneIx) (p : Purpose) (s : State) : (s.bindSession i p).lanes = s.lanes := by
  rw [bindSession_eq]

theorem reevaluateSkim_lanes (t : TillIx) (s : State) : (s.reevaluateSkim t).lanes = s.lanes := by
  rw [reevaluateSkim_eq]

theorem stackLaw_endSession (i : LaneIx) (s : State) (hs : s.stackLaw) : (s.endSession i).stackLaw :=
  stackLaw_setLane i _ s hs fun _ hx => absurd hx (by simp)

theorem stackLaw_commit (a : List Byte) (s : State) (hs : s.stackLaw) : (countCommitEffect a s).state.stackLaw := by
  have hend : ∀ (i : LaneIx) (t : State), t.lanes = s.lanes → (t.endSession i).stackLaw :=
    fun i t ht => stackLaw_endSession i t (stackLaw_congr s t ht hs)
  simp only [countCommitEffect, withProfiled, withLane, commitSession, commitTillClose, commitPickup,
    commitDelivery, commitDeliveryTo, commitAudit]
  repeat' split
  all_goals try dsimp only [Answer.state]
  all_goals first
    | with_reducible exact hs
    | exact hend _ _ rfl
    | exact stackLaw_congr _ _ (reevaluateSkim_lanes _ _) (hend _ _ rfl)

theorem effect_stackLaw (c : Cmd) (a : List Byte) (s : State) (hs : s.stackLaw) : (effect c a s).state.stackLaw := by
  by_cases hc : c ∈ Cmd.lanesWriters
  · have same : ∀ (i : LaneIx) (l : Lane) (t : State), t.lanes = s.lanes → l.session = (s.lane i).session →
        (t.setLane i l).stackLaw := fun i l t ht hl =>
      stackLaw_sameSession i l t (stackLaw_congr s t ht hs) (hl.trans (by unfold State.lane; rw [ht]))
    have gone : ∀ (i : LaneIx) (l : Lane) (t : State), t.lanes = s.lanes → l.session = none →
        (t.setLane i l).stackLaw := fun i l t ht hl =>
      stackLaw_setLane i l t (stackLaw_congr s t ht hs) fun x hx => absurd (hl.symm.trans hx) (by simp)
    cases c <;> first | exact absurd hc (by decide) | skip
    case retain =>
      show (retainEffect a s).state.stackLaw
      simp only [retainEffect, State.enterRetention]
      repeat' split
      all_goals try dsimp only [Answer.state]
      all_goals first
        | with_reducible exact hs
        | (refine stackLaw_unprofiled _ ?_; show (State.recomputeDoor _ _).lanes = _; rw [recomputeDoor_eq])
    case laneProfile =>
      show (laneProfileEffect a s).state.stackLaw
      simp only [laneProfileEffect, withLane]
      repeat' split
      all_goals try dsimp only [Answer.state]
      all_goals first
        | with_reducible exact hs
        | exact same _ _ s rfl rfl
    case laneReset =>
      show (laneResetEffect a s).state.stackLaw
      simp only [laneResetEffect, withLane]
      repeat' split
      all_goals try dsimp only [Answer.state]
      all_goals first
        | with_reducible exact hs
        | exact gone _ _ _ (releaseLane_lanes _ _) rfl
    case laneClear =>
      show (laneClearEffect a s).state.stackLaw
      simp only [laneClearEffect, withProfiled, withLane]
      repeat' split
      all_goals try dsimp only [Answer.state]
      all_goals first
        | with_reducible exact hs
        | exact same _ _ s rfl rfl
    case countOpen =>
      show (countOpenEffect a s).state.stackLaw
      simp only [countOpenEffect]
      repeat' split
      all_goals try dsimp only [Answer.state]
      all_goals first
        | with_reducible exact hs
        | (refine stackLaw_congr _ _ (bindSession_lanes _ _ _) (stackLaw_setLane _ _ s hs fun x hx => ?_)
           injection hx with hx
           rw [← hx]
           exact Nat.zero_le _)
    case countHold =>
      show (countHoldEffect a s).state.stackLaw
      simp only [countHoldEffect, withProfiled, withLane]
      repeat' split
      all_goals try dsimp only [Answer.state]
      all_goals first
        | with_reducible exact hs
        | exact same _ _ s rfl rfl
    case countResume =>
      show (countResumeEffect a s).state.stackLaw
      simp only [countResumeEffect, withProfiled, withLane]
      repeat' split
      all_goals try dsimp only [Answer.state]
      all_goals first
        | with_reducible exact hs
        | exact same _ _ s rfl rfl
    case countVoid =>
      show (countVoidEffect a s).state.stackLaw
      simp only [countVoidEffect, withProfiled, withLane]
      repeat' split
      all_goals try dsimp only [Answer.state]
      all_goals first
        | with_reducible exact hs
        | (next h0 _ _ _ hx _ _ _ hst => 
           refine stackLaw_setLane _ _ s hs fun y hy => ?_
           injection hy with hy
           rw [← hy]
           have := hs _ _ hx
           rw [hst] at this
           exact Nat.le_of_succ_le this)
    case countRolls =>
      show (countRollsEffect a s).state.stackLaw
      simp only [countRollsEffect, withProfiled, withLane]
      repeat' split
      all_goals try dsimp only [Answer.state]
      all_goals first
        | with_reducible exact hs
        | (next x hx _ =>
           refine stackLaw_setLane _ _ s hs fun y hy => ?_
           injection hy with hy
           rw [← hy]
           exact hs _ x hx)
    case countCommit => exact stackLaw_commit a s hs
    case countAbort =>
      show (countAbortEffect a s).state.stackLaw
      simp only [countAbortEffect, withProfiled, withLane]
      repeat' split
      all_goals try dsimp only [Answer.state]
      all_goals first
        | with_reducible exact hs
        | exact gone _ _ _ (releaseLane_lanes _ _) rfl
  · exact stackLaw_congr s _ ((effect_same c a s).2.2.2.2.1 hc) hs

end Sys2Proof.Machine
end

