-- ==== Sys2Proof/Laws/Contents.lean ====
section
/-! SUPPORT. The contents of the bags and the lists of the manifests: what the commands and events do to them
(R51, R105, R123, R124, R141). -/

namespace Sys2Proof.Machine

/-! ### Bag contents -/

/-- Every bag's lines and value meet a rule (R105). -/
def State.bagsAll (Q : List BagLine → Nat → Prop) (s : State) : Prop := ∀ b x, s.bag b = some x → Q x.lines x.value

variable {Q : List BagLine → Nat → Prop}

theorem bagsAll_congr (s t : State) (hb : t.bags = s.bags) (h : s.bagsAll Q) : t.bagsAll Q := by
  unfold State.bagsAll State.bag at *
  rw [hb]
  exact h

theorem bagsAll_setBag (b : BagIx) (o : Option Bag) (s : State) (h : s.bagsAll Q)
    (ho : ∀ x, o = some x → Q x.lines x.value) : (s.setBag b o).bagsAll Q := by
  intro d x hx
  rw [bag_setBag] at hx
  split at hx
  · exact ho x hx
  · exact h d x hx

/-- A bag that keeps its lines and value. -/
theorem bagsAll_mapBag (b : BagIx) (f : Bag → Bag) (s : State) (h : s.bagsAll Q)
    (hf : ∀ x, (f x).lines = x.lines ∧ (f x).value = x.value) : (s.setBag b ((s.bag b).map f)).bagsAll Q := by
  refine bagsAll_setBag b _ s h fun y hy => ?_
  obtain ⟨x, hx, rfl⟩ := Option.map_eq_some_iff.mp hy
  rw [(hf x).1, (hf x).2]
  exact h b x hx

theorem bagsAll_markBag (b : BagIx) (k : BagState) (s : State) (h : s.bagsAll Q) : (s.markBag b k).bagsAll Q :=
  bagsAll_mapBag b _ s h fun _ => ⟨rfl, rfl⟩

theorem bagsAll_markBags (l : List BagIx) (k : BagState) (s : State) (h : s.bagsAll Q) :
    (l.foldl (fun s b => s.markBag b k) s).bagsAll Q := by
  induction l generalizing s with
  | nil => exact h
  | cons b r ih => exact ih _ (bagsAll_markBag b k s h)

theorem bagsAll_placeOne (b : BagIx) (s : State) (h : s.bagsAll Q) : (s.placeOne b).bagsAll Q := by
  have he : (s.entered b).bagsAll Q := bagsAll_congr _ _ rfl (bagsAll_mapBag b
    (fun x => { x with state := .placed, comp := some s.rack.ptr }) s h fun _ => ⟨rfl, rfl⟩)
  obtain ⟨c1, c2, c3⟩ := placeOne_cases b s
  by_cases hr : (s.rack.comps[s.rack.ptr] ++ [b]).length < s.rack.k
  · rw [c1 hr]
    exact he
  · by_cases hc : (s.entered b).rack.comps[s.rack.ptr + 1] = []
    · rw [c2 hr hc]
      exact he
    · rw [c3 hr hc]
      exact he

theorem bagsAll_placeFrom (l : List BagIx) (s : State) (h : s.bagsAll Q) : (State.placeFrom l s).bagsAll Q := by
  induction l generalizing s with
  | nil => exact h
  | cons b r ih =>
    by_cases ht : s.rack.halt = true
    · rw [placeFrom_halted b r s ht]
      exact h
    · rw [placeFrom_free b r s ht]
      exact ih _ (bagsAll_placeOne b s h)

theorem bagsAll_liftHalt (s : State) (h : s.bagsAll Q) : s.liftHalt.bagsAll Q := by
  unfold State.liftHalt
  split
  · exact bagsAll_placeFrom _ _ h
  · exact h

theorem bagsAll_retireBag (b : BagIx) (s : State) (h : s.bagsAll Q) : (s.retireBag b).bagsAll Q :=
  bagsAll_congr _ _ rfl (bagsAll_setBag b none s h fun _ e => absurd e (by simp))

theorem bagsAll_retireEntries (l : List Entry) (s : State) (h : s.bagsAll Q) :
    (l.foldl State.retireEntry s).bagsAll Q := by
  induction l generalizing s with
  | nil => exact h
  | cons e r ih =>
    refine ih _ ?_
    unfold State.retireEntry
    split
    · exact bagsAll_retireBag _ s h
    · exact h

theorem bagsAll_wrongOverride (s : State) (h : s.bagsAll Q) : s.wrongOverride.bagsAll Q := by
  unfold State.wrongOverride
  split <;> exact h

/-- The commands but BAG-OPEN, BAG-ADD and BAG-RETURN write no contents (R105). -/
theorem effect_bagsAll (c : Cmd) (a : List Byte) (s : State) (h : s.bagsAll Q)
    (hc : c ∉ [Cmd.bagOpen, .bagAdd, .bagReturn]) : (effect c a s).state.bagsAll Q := by
  by_cases hb : c ∈ Cmd.bagsWriters
  · cases c <;> first | exact absurd hb (by decide) | exact absurd (by decide) hc | skip
    case recordsClear =>
      show (recordsClearEffect a s).state.bagsAll Q
      unfold recordsClearEffect
      split
      · exact h
      apply withAuthority_state (State.bagsAll Q)
      · exact h
      · exact bagsAll_wrongOverride s h
      split
      · exact h
      · intro b x hx
        have : (State.clearRecords { s with auth := { s.auth with failures := 0 } }).bag b = none := by
          simp [State.clearRecords, State.bag]
        exact absurd (this.symm.trans hx) (by simp)
    case bagShut =>
      refine withBag_state (State.bagsAll Q) _ _ _ _ h fun b x hx => ?_
      dsimp only
      split
      · exact h
      split
      · exact h
      · exact bagsAll_placeFrom _ _ (bagsAll_congr _ _ rfl (bagsAll_setBag b _ s h fun y hy => by
          injection hy with hy
          rw [← hy]
          exact h b x hx))
    case bagBreak =>
      refine withBag_state (State.bagsAll Q) _ _ _ _ h fun b x hx => ?_
      apply withAuthority_state (State.bagsAll Q)
      · exact h
      · exact bagsAll_wrongOverride s h
      split
      · exact h
      split
      · exact h
      · exact bagsAll_liftHalt _ (bagsAll_retireBag b _ h)
    case manAdd =>
      refine withMan_state (State.bagsAll Q) _ _ _ _ h fun i m _ hm => ?_
      dsimp only
      repeat' split
      all_goals try dsimp only [Answer.state]
      all_goals first
        | with_reducible exact h
        | exact bagsAll_markBag _ _ (s.setMan i _) h
    case manRemove =>
      refine withMan_state (State.bagsAll Q) _ _ _ _ h fun i m _ hm => ?_
      dsimp only
      repeat' split
      all_goals try dsimp only [Answer.state]
      all_goals first
        | with_reducible exact h
        | exact bagsAll_markBag _ _ (s.setMan i _) h
    case manCancel =>
      refine withMan_state (State.bagsAll Q) _ _ _ _ h fun i m _ hm => ?_
      dsimp only
      split
      · exact h
      · exact bagsAll_markBags _ _ (s.setMan i none) h
    case bagScan =>
      refine withMan_state (State.bagsAll Q) _ _ _ _ h fun i m _ hm => ?_
      repeat' split
      all_goals try exact h
      unfold scanEntry
      split
      · dsimp only [Answer.state]
        rw [recomputeDoor_eq]
        exact h
      · dsimp only [Answer.state]
        repeat' split
        all_goals first
          | exact bagsAll_markBag _ _ (s.setMan i _) h
          | exact h
    case manResume =>
      refine withMan_state (State.bagsAll Q) _ _ _ _ h fun i m _ hm => ?_
      apply withAuthority_state (State.bagsAll Q)
      · exact h
      · exact bagsAll_wrongOverride s h
      generalize hu : ({ s with auth := { s.auth with failures := 0 } } : State) = u
      have h' : u.bagsAll Q := by
        rw [← hu]
        exact h
      repeat' split
      all_goals try exact h'
      dsimp only [Answer.state]
      rw [recomputeDoor_eq]
      exact bagsAll_markBag _ _ (u.setMan i _) h'
    case courierSign =>
      refine withMan_state (State.bagsAll Q) _ _ _ _ h fun i m _ hm => ?_
      split
      · next c _ =>
        unfold signCollection
        dsimp only
        split
        · exact h
        split
        · exact h
        dsimp only [Answer.state]
        refine bagsAll_liftHalt _ ?_
        rw [recomputeDoor_eq]
        exact bagsAll_retireEntries _ s h
      · unfold signDelivery
        split <;> exact h
  · exact bagsAll_congr s _ ((effect_same c a s).2.2.2.2.2.1 hb) h

/-! ### The lines of a bag (R105) -/

/-- No two lines share a code and class (R105). -/
def linesApart (l : List BagLine) : Prop := l.Pairwise fun x y => ¬(x.code = y.code ∧ x.cls = y.cls)

theorem isFor_iff (c : Code) (k : CashClass) (x : BagLine) : x.isFor c k = true ↔ x.code = c ∧ x.cls = k := by
  simp [BagLine.isFor]

theorem linesApart_map (f : BagLine → BagLine) (l : List BagLine) (h : linesApart l)
    (hf : ∀ x, (f x).code = x.code ∧ (f x).cls = x.cls) : linesApart (l.map f) := by
  refine List.pairwise_map.mpr (h.imp fun {x y} hxy => ?_)
  rw [(hf x).1, (hf x).2, (hf y).1, (hf y).2]
  exact hxy

theorem linesApart_add (c : Code) (k : CashClass) (n : Nat) (l : List BagLine) (h : linesApart l) :
    linesApart (addLine c k n l) := by
  unfold addLine
  split
  · refine linesApart_map _ l h fun x => ?_
    split <;> exact ⟨rfl, rfl⟩
  · next hn =>
    refine List.pairwise_append.mpr ⟨h, List.pairwise_singleton _ _, fun x hx y hy => ?_⟩
    rw [List.mem_singleton.mp hy]
    intro e
    exact hn (List.any_eq_true.mpr ⟨x, hx, (isFor_iff c k x).mpr e⟩)

theorem linesApart_take (c : Code) (k : CashClass) (n : Nat) (l : List BagLine) (h : linesApart l) :
    linesApart (takeLine c k n l) := by
  unfold takeLine
  refine List.Pairwise.filter _ (linesApart_map _ l h fun x => ?_)
  split <;> exact ⟨rfl, rfl⟩

theorem bagsApart_iff (s : State) : (∀ b x, s.bag b = some x → x.linesApart) ↔
    s.bagsAll fun l _ => linesApart l := Iff.rfl

theorem effect_bagsApart (c : Cmd) (a : List Byte) (s : State) (h : s.bagsAll fun l _ => linesApart l) :
    (effect c a s).state.bagsAll fun l _ => linesApart l := by
  by_cases hc : c ∈ [Cmd.bagOpen, .bagAdd, .bagReturn]
  · cases c <;> first | exact absurd hc (by decide) | skip
    case bagOpen =>
      show (bagOpenEffect a s).state.bagsAll _
      unfold bagOpenEffect
      dsimp only
      repeat' split
      all_goals try dsimp only [Answer.state]
      all_goals first
        | with_reducible exact h
        | exact bagsAll_setBag _ _ s h fun x hx => by
            injection hx with hx
            rw [← hx]
            exact List.Pairwise.nil
    case bagAdd =>
      refine withBag_state (State.bagsAll _) _ _ _ _ h fun b x hx => ?_
      dsimp only
      repeat' split
      all_goals try dsimp only [Answer.state]
      all_goals first
        | with_reducible exact h
        | exact bagsAll_setBag _ _ (s.moveOut _) h fun y hy => by
            injection hy with hy
            rw [← hy]
            exact linesApart_add _ _ _ _ (h b x hx)
    case bagReturn =>
      refine withBag_state (State.bagsAll _) _ _ _ _ h fun b x hx => ?_
      dsimp only
      repeat' split
      all_goals try dsimp only [Answer.state]
      all_goals first
        | with_reducible exact h
        | exact bagsAll_setBag _ _ (s.moveIn _) h fun y hy => by
            injection hy with hy
            rw [← hy]
            exact linesApart_take _ _ _ _ (h b x hx)
  · exact effect_bagsAll c a s h hc

/-! ### The lists of the manifests -/

/-- The bounds of the lists of a manifest (R123, R124, R141). -/
def Manifest.listsOk (m : Manifest) : Prop :=
  (∀ c, m.body = .collection c → c.entries.length ≤ 24) ∧
  (∀ d, m.body = .delivery d → (d.lines.Pairwise fun x y => x.code ≠ y.code) ∧
    ∀ n, d.count = some n → n.variance.length ≤ 12)

def State.mansOk (s : State) : Prop := ∀ i m, s.man i = some m → m.listsOk

theorem mansOk_congr (s t : State) (hm : t.mans = s.mans) (h : s.mansOk) : t.mansOk := by
  unfold State.mansOk State.man at *
  rw [hm]
  exact h

theorem mansOk_setMan (i : SlotIx) (o : Option Manifest) (s : State) (h : s.mansOk)
    (ho : ∀ m, o = some m → m.listsOk) : (s.setMan i o).mansOk := by
  intro j m hm
  rw [man_setMan] at hm
  split at hm
  · exact ho m hm
  · exact h j m hm

theorem mansOk_mapMan (f : Manifest → Manifest) (s t : State) (h : s.mansOk)
    (hm : ∀ j, t.man j = s.man j ∨ t.man j = (s.man j).map f) (hf : ∀ m : Manifest, m.listsOk → (f m).listsOk) :
    t.mansOk := by
  intro j n hn
  rcases hm j with e | e
  · exact h j n (e ▸ hn)
  · rw [e] at hn
    obtain ⟨m, h1, rfl⟩ := Option.map_eq_some_iff.mp hn
    exact hf m (h j m h1)

theorem listsOk_sameBody (m m' : Manifest) (h : m.listsOk) (hb : m'.body = m.body) : m'.listsOk := by
  unfold Manifest.listsOk at *
  rw [hb]
  exact h

theorem listsOk_collection (m : Manifest) (c : Collection) (hb : m.body = .collection c) (h : c.entries.length ≤ 24) :
    m.listsOk := by
  refine ⟨fun d hd => ?_, fun d hd => ?_⟩
  · rw [hb] at hd
    injection hd with hd
    rw [← hd]
    exact h
  · rw [hb] at hd
    exact absurd hd (by simp)

theorem listsOk_delivery (m : Manifest) (d : Delivery) (hb : m.body = .delivery d)
    (h1 : d.lines.Pairwise fun x y => x.code ≠ y.code) (h2 : ∀ n, d.count = some n → n.variance.length ≤ 12) :
    m.listsOk := by
  refine ⟨fun e he => ?_, fun e he => ?_⟩
  · rw [hb] at he
    exact absurd he (by simp)
  · rw [hb] at he
    injection he with he
    rw [← he]
    exact ⟨h1, h2⟩

theorem withLane_listsOk (l : Option LaneIx) (m : Manifest) (h : m.listsOk) : (m.withLane l).listsOk := by
  unfold Manifest.withLane
  cases hb : m.body with
  | collection c => exact h
  | delivery d => exact listsOk_delivery _ _ rfl (h.2 d hb).1 (h.2 d hb).2

theorem leaveBags_listsOk (m : Manifest) (h : m.listsOk) : m.leaveBags.listsOk := by
  unfold Manifest.leaveBags
  split
  · cases hb : m.body with
    | collection c =>
      refine listsOk_collection _ _ rfl ?_
      show (c.entries.map _).length ≤ 24
      rw [List.length_map]
      exact h.1 c hb
    | delivery d => exact listsOk_delivery _ d rfl (h.2 d hb).1 (h.2 d hb).2
  · exact h

theorem expire_listsOk (m : Manifest) (h : m.listsOk) : m.expire.listsOk := by
  unfold Manifest.expire
  cases hb : m.body with
  | collection c =>
    refine listsOk_collection _ _ rfl ?_
    show (c.entries.map _).length ≤ 24
    rw [List.length_map]
    exact h.1 c hb
  | delivery d => exact listsOk_delivery _ d rfl (h.2 d hb).1 (h.2 d hb).2

theorem readLines_apart (d : Vector Denom 12) (l : List (Nat × Nat)) (r : List DeclLine)
    (h : readLines d l = some r) : r.Pairwise fun x y => x.code ≠ y.code := by
  induction l generalizing r with
  | nil =>
    injection h with h
    rw [← h]
    exact List.Pairwise.nil
  | cons p q ih =>
    unfold readLines at h
    split at h
    · next c t _ ht =>
      split at h
      · exact absurd h (by simp)
      · next hn =>
        injection h with h
        rw [← h]
        refine List.pairwise_cons.mpr ⟨fun y hy e => ?_, ih t ht⟩
        exact hn (List.any_eq_true.mpr ⟨y, hy, by simpa using e.symm⟩)
    · exact absurd h (by simp)

/-- A list of distinct codes has 12 members at most (R5). -/
theorem codes_bound (l : List Code) (h : l.Nodup) : l.length ≤ 12 := by
  have := List.Nodup.length_le_card h
  simpa using this

theorem lines_bound (l : List DeclLine) (h : l.Pairwise fun x y => x.code ≠ y.code) : l.length ≤ 12 := by
  have := codes_bound (l.map DeclLine.code) (List.pairwise_map.mpr h)
  rwa [List.length_map] at this

/-- The delivery variance has a line for a code at most (R141). -/
theorem variance_bound (d : Vector Denom 12) (decl : List DeclLine) (k : Comp)
    (h : decl.Pairwise fun x y => x.code ≠ y.code) : (varianceLines d decl k).length ≤ 12 := by
  have hn : (decl.map DeclLine.code ++
      codes.filter fun c => (k[c] != Counts.zero) && !decl.any (fun l => l.code == c)).Nodup := by
    refine List.nodup_append.mpr ⟨List.pairwise_map.mpr h, List.Nodup.filter _ (by decide), ?_⟩
    intro x hx y hy e
    subst e
    obtain ⟨l, hl, hlx⟩ := List.mem_map.mp hx
    have h2 := (List.mem_filter.mp hy).2
    rw [Bool.and_eq_true, Bool.not_eq_true'] at h2
    have h3 : decl.any (fun l => l.code == x) = true := List.any_eq_true.mpr ⟨l, hl, by simpa using hlx⟩
    exact absurd (h3.symm.trans h2.2) (by decide)
  have := codes_bound _ hn
  unfold varianceLines
  rw [List.length_append, List.length_map] at this ⊢
  rwa [List.length_map]

theorem mansOk_wrongOverride (s : State) (h : s.mansOk) : s.wrongOverride.mansOk := by
  unfold State.wrongOverride
  split <;> exact h

theorem mansOk_release (p : Purpose) (s : State) (h : s.mansOk) : (s.release p).mansOk := by
  refine mansOk_mapMan (Manifest.withLane none) s _ h (fun j => ?_) (withLane_listsOk none)
  rw [release_man]
  split
  · exact .inr rfl
  · exact .inl rfl

theorem mansOk_releaseLane (i : LaneIx) (s : State) (h : s.mansOk) : (s.releaseLane i).mansOk := by
  unfold State.releaseLane
  split
  · exact h
  · exact mansOk_release _ s h

theorem mansOk_lanesDown (s : State) (h : s.mansOk) : s.lanesDown.mansOk := by
  have key : ∀ (l : List LaneIx) (t : State), t.mansOk → (l.foldl State.releaseLane t).mansOk := by
    intro l
    induction l with
    | nil => exact fun _ ht => ht
    | cons i r ih => exact fun t ht => ih _ (mansOk_releaseLane i t ht)
  exact mansOk_congr _ _ rfl (key lanesAll s h)

theorem mansOk_bagsToReady (s : State) (h : s.mansOk) : s.bagsToReady.mansOk :=
  mansOk_mapMan Manifest.leaveBags s _ h (fun j => .inr (bagsToReady_man s j)) leaveBags_listsOk

theorem createBody_listsOk (d : Vector Denom 12) (a : List Byte) (body : ManBody) (cl : Bool)
    (hb : createBody d a = some (body, cl)) (m : Manifest) (hm : m.body = body) : m.listsOk := by
  unfold createBody at hb
  split at hb
  · split at hb
    · exact absurd hb (by simp)
    split at hb
    · exact absurd hb (by simp)
    · injection hb with hb
      injection hb with hb _
      rw [← hb] at hm
      exact listsOk_collection m _ hm (Nat.zero_le _)
  · dsimp only at hb
    split at hb
    · exact absurd hb (by simp)
    split at hb
    · exact absurd hb (by simp)
    · next l hl =>
      split at hb
      · exact absurd hb (by simp)
      · injection hb with hb
        injection hb with hb _
        rw [← hb] at hm
        exact listsOk_delivery m _ hm (readLines_apart d _ l hl) fun _ e => absurd e (by simp)
  · exact absurd hb (by simp)

theorem effect_mansOk (c : Cmd) (a : List Byte) (s : State) (h : s.mansOk) : (effect c a s).state.mansOk := by
  have setLane : ∀ (i : LaneIx) (l : Lane) (t : State), t.mansOk → (t.setLane i l).mansOk := fun _ _ _ ht => ht
  have same : ∀ (i : SlotIx) (m m' : Manifest) (t : State), t.mansOk → t.man i = some m → m'.body = m.body →
      (t.setMan i (some m')).mansOk := fun i m m' t ht hm hb =>
    mansOk_setMan i _ t ht fun n hn => by
      injection hn with hn
      rw [← hn]
      exact listsOk_sameBody m m' (ht i m hm) hb
  have coll : ∀ (i : SlotIx) (m : Manifest) (c : Collection) (t : State), t.mansOk → m.body = .collection c →
      c.entries.length ≤ 24 → (t.setMan i (some m)).mansOk := fun i m c t ht hb hl =>
    mansOk_setMan i _ t ht fun n hn => by
      injection hn with hn
      rw [← hn]
      exact listsOk_collection m c hb hl
  have free : ∀ (i : SlotIx) (t : State), t.mansOk → (t.setMan i none).mansOk := fun i t ht =>
    mansOk_setMan i none t ht fun n hn => absurd hn (by simp)
  by_cases hc : c ∈ Cmd.mansWriters
  · cases c <;> first | exact absurd hc (by decide) | skip
    case recordsClear =>
      show (recordsClearEffect a s).state.mansOk
      unfold recordsClearEffect
      split
      · exact h
      apply withAuthority_state State.mansOk
      · exact h
      · exact mansOk_wrongOverride s h
      split
      · exact h
      · intro j m hm
        have : (State.clearRecords { s with auth := { s.auth with failures := 0 } }).man j = none := by
          simp [State.clearRecords, State.man]
        exact absurd (this.symm.trans hm) (by simp)
    case laneReset =>
      refine withLane_state State.mansOk _ _ _ _ h fun i => ?_
      exact setLane i _ _ (mansOk_releaseLane i s h)
    case countAbort =>
      refine withProfiled_state State.mansOk _ _ _ _ h fun i _ => ?_
      dsimp only
      split
      · exact h
      · exact setLane i _ _ (mansOk_releaseLane i s h)
    case countOpen =>
      show (countOpenEffect a s).state.mansOk
      unfold countOpenEffect
      dsimp only
      repeat' split
      all_goals try exact h
      next i _ _ _ _ _ _ _ _ p _ =>
      refine mansOk_mapMan (Manifest.withLane (some i)) s _ h (fun j => ?_) (withLane_listsOk (some i))
      dsimp only [Answer.state]
      unfold State.bindSession
      split
      · exact .inl rfl
      · exact .inl rfl
      · split
        · exact .inl rfl
        · rw [man_setMan]
          split
          · next hj =>
            rw [hj]
            exact .inr rfl
          · exact .inl rfl
      · exact .inl rfl
    case countCommit =>
      refine withProfiled_state State.mansOk _ _ _ _ h fun i _ => ?_
      have session : ∀ x, (commitSession i x s).state.mansOk := by
        intro x
        unfold commitSession
        split
        · unfold commitTillClose
          dsimp only
          repeat' split
          all_goals exact h
        · unfold commitPickup
          dsimp only
          repeat' split
          all_goals try exact h
          dsimp only [Answer.state]
          obtain ⟨_, e⟩ := reevaluateSkim_frame ‹_› ((((s.moveIn x.comp).post _).setTill _ _).endSession i)
          rw [e]
          exact h
        · unfold commitDelivery
          split
          · exact h
          split
          swap
          · exact h
          next m hm =>
          split
          swap
          · exact h
          next _ d hd _ =>
          unfold commitDeliveryTo
          dsimp only
          repeat' split
          all_goals try exact h
          have hd2 := ((h _ m hm).2 d hd).1
          refine mansOk_congr _ _ rfl (mansOk_setMan _ _ s h fun n hn => ?_)
          injection hn with hn
          rw [← hn]
          refine listsOk_delivery _ _ rfl hd2 fun k hk => ?_
          injection hk with hk
          rw [← hk]
          exact variance_bound _ _ _ hd2
        · exact h
      split
      · exact h
      · exact session _
      · exact session _
      · exact h
    case manCreate =>
      show (manCreateEffect a s).state.mansOk
      unfold manCreateEffect
      split
      · exact h
      next body cl hb =>
      dsimp only
      repeat' split
      all_goals try dsimp only [Answer.state]
      all_goals first
        | with_reducible exact h
        | exact mansOk_setMan _ _ s h fun n hn => by
            injection hn with hn
            exact createBody_listsOk s.denoms a body cl hb n (by rw [← hn])
    case manAdd =>
      refine withMan_state State.mansOk _ _ _ _ h fun i m _ hm => ?_
      dsimp only
      split
      · exact h
      split
      · exact h
      split
      · exact h
      split
      · exact h
      split
      · exact h
      split
      · exact h
      next hl =>
      refine mansOk_congr _ _ rfl (coll i _ _ s h rfl ?_)
      rw [List.length_append]
      exact Nat.not_le.mp hl
    case manRemove =>
      refine withMan_state State.mansOk _ _ _ _ h fun i m _ hm => ?_
      dsimp only
      split
      · exact h
      next c hb =>
      split
      · exact h
      split
      · exact h
      split
      · exact mansOk_congr _ _ rfl (coll i _ _ s h rfl ((List.length_filter_le _ _).trans ((h i m hm).1 c hb)))
      · exact h
    case manClose =>
      refine withMan_state State.mansOk _ _ _ _ h fun i m _ hm => ?_
      repeat' split
      all_goals try dsimp only [Answer.state]
      all_goals first
        | with_reducible exact h
        | exact same i m _ s h hm rfl
    case manCancel =>
      refine withMan_state State.mansOk _ _ _ _ h fun i m _ hm => ?_
      dsimp only
      split
      · exact h
      · dsimp only [Answer.state]
        rw [markBags_eq]
        exact free i s h
    case courierArrive =>
      refine withMan_state State.mansOk _ _ _ _ h fun i m _ hm => ?_
      repeat' split
      all_goals try exact h
      · dsimp only [Answer.state]
        unfold State.wrongCourier
        split
        · exact same i m _ s h hm rfl
        · exact same i m _ s h hm rfl
      · dsimp only [Answer.state]
        rw [recomputeDoor_eq]
        exact same i m _ s h hm rfl
    case bagScan =>
      refine withMan_state State.mansOk _ _ _ _ h fun i m _ hm => ?_
      split
      · exact h
      split
      · exact h
      split
      · exact h
      next c hb =>
      have hl := (h i m hm).1 c hb
      repeat' split
      all_goals try exact h
      unfold scanEntry
      split
      · dsimp only [Answer.state]
        rw [recomputeDoor_eq]
        exact coll i _ { c with halted := _ } s h rfl hl
      · dsimp only [Answer.state]
        have h1 := fun e' k => coll i { m with body := .collection { c with entries := c.entries.set k e' } } _ s h rfl
          (by rw [List.length_set]; exact hl)
        repeat' split
        all_goals exact h1 _ _
    case manResume =>
      refine withMan_state State.mansOk _ _ _ _ h fun i m _ hm => ?_
      apply withAuthority_state State.mansOk
      · exact h
      · exact mansOk_wrongOverride s h
      generalize hu : ({ s with auth := { s.auth with failures := 0 } } : State) = u
      have h' : u.mansOk := by
        rw [← hu]
        exact h
      have hm' : u.man i = some m := by
        rw [← hu]
        exact hm
      split
      · exact h'
      next c hb =>
      have hl := (h' i m hm').1 c hb
      repeat' split
      all_goals try exact h'
      dsimp only [Answer.state]
      rw [recomputeDoor_eq]
      exact coll i _ _ u h' rfl (by rw [List.length_set]; exact hl)
    case courierSign =>
      refine withMan_state State.mansOk _ _ _ _ h fun i m _ hm => ?_
      split
      · next c _ =>
        unfold signCollection
        dsimp only
        split
        · exact h
        split
        · exact h
        dsimp only [Answer.state]
        rw [liftHalt_eq, recomputeDoor_eq, retireEntries_eq]
        exact free i s h
      · unfold signDelivery
        split
        · exact free i s h
        · exact h
    case manReopen =>
      refine withMan_state State.mansOk _ _ _ _ h fun i m _ hm => ?_
      apply withAuthority_state State.mansOk
      · exact h
      · exact mansOk_wrongOverride s h
      generalize hu : ({ s with auth := { s.auth with failures := 0 } } : State) = u
      have h' : u.mansOk := by
        rw [← hu]
        exact h
      have hm' : u.man i = some m := by
        rw [← hu]
        exact hm
      dsimp only
      repeat' split
      all_goals try dsimp only [Answer.state]
      all_goals first
        | with_reducible exact h'
        | exact same i m _ u h' hm' rfl
  · exact mansOk_congr s _ ((effect_same c a s).2.2.2.2.2.2.2.1 hc) h

end Sys2Proof.Machine
end

