-- ==== Sys2Proof/Laws/Office.lean ====
section
/-! SUPPORT. The office balance: what the movements of stock, floats and bags do to the three parts of the law and
to B (R10, R15, R16), and the figures that the law rests on (R27, R87, R105). -/

namespace Sys2Proof.Machine

/-! ### Sums over a table -/

theorem sumCodes_congr {f g : Code → Nat} (h : ∀ c, f c = g c) : sumCodes f = sumCodes g :=
  congrArg List.sum (List.map_congr_left fun c _ => h c)

theorem sumCodes_add (f g : Code → Nat) : sumCodes (fun c => f c + g c) = sumCodes f + sumCodes g :=
  List.sum_map_add

theorem sumCodes_zero : sumCodes (fun _ => 0) = 0 := rfl

/-- A change of one entry changes the sum over the table by as much. -/
theorem sum_set {α : Type} {n : Nat} (f : α → Nat) (v : Vector α n) (i : Fin n) (x : α) :
    ((v.set i x).toList.map f).sum + f v[i] = (v.toList.map f).sum + f x := by
  have key : ∀ (l : List α) (k : Nat) (h : k < l.length),
      ((l.set k x).map f).sum + f l[k] = (l.map f).sum + f x := by
    intro l
    induction l with
    | nil => exact fun k h => absurd h (Nat.not_lt_zero k)
    | cons y r ih =>
      intro k h
      cases k with
      | zero =>
        simp only [List.set_cons_zero, List.map_cons, List.sum_cons, List.getElem_cons_zero]
        omega
      | succ k =>
        have := ih k (Nat.lt_of_succ_lt_succ h)
        simp only [List.set_cons_succ, List.map_cons, List.sum_cons, List.getElem_cons_succ]
        omega
  have := key v.toList i.val (by simp)
  simpa [Vector.toList_set] using this

/-! ### The three parts of the law -/

/-- What a till adds to the floats out (R16). -/
def Till.out (t : Till) : Nat := if t.state.floatOut then t.f else 0

/-- What a bag number adds to the bag value (R16). -/
def bagWorth (o : Option Bag) : Nat := match o with | none => 0 | some x => x.value

theorem floatsOut_setTill (t : TillIx) (x : Till) (s : State) :
    (s.setTill t x).floatsOut + (s.till t).out = s.floatsOut + x.out := sum_set Till.out s.tills t x

theorem bagValue_setBag (b : BagIx) (o : Option Bag) (s : State) :
    (s.setBag b o).bagValue + bagWorth (s.bag b) = s.bagValue + bagWorth o := sum_set bagWorth s.bags b o

theorem stockValue_moveIn (k : Comp) (s : State) : (s.moveIn k).stockValue = s.stockValue + valueOf s.denoms k := by
  unfold State.stockValue valueOf
  rw [← sumCodes_add]
  refine sumCodes_congr fun c => ?_
  simp only [State.moveIn, tab_get, Counts.add]
  ring

theorem stockLacks_spec (s : State) (k : Comp) (h : stockLacks s k = false) (c : Code) :
    k[c].fit ≤ s.stock[c].counts.fit ∧ k[c].unfit ≤ s.stock[c].counts.unfit ∧
      k[c].suspect ≤ s.stock[c].counts.suspect := by
  have := List.any_eq_false.mp h c (mem_codes c)
  simp only [Bool.or_eq_true, decide_eq_true_eq, not_or, Nat.not_lt] at this
  exact ⟨this.1.1, this.1.2, this.2⟩

theorem outRefusal_none (s : State) (k : Comp) (h : outRefusal s k = none) : stockLacks s k = false := by
  unfold outRefusal at h
  cases hl : stockLacks s k
  · rfl
  · rw [hl] at h
    split at h <;> simp at h

theorem stockValue_moveOut (k : Comp) (s : State)
    (h : ∀ c : Code, k[c].fit ≤ s.stock[c].counts.fit ∧ k[c].unfit ≤ s.stock[c].counts.unfit) :
    (s.moveOut k).stockValue + valueOf s.denoms k = s.stockValue := by
  unfold State.stockValue valueOf
  show sumCodes _ + sumCodes _ = _
  rw [← sumCodes_add]
  refine sumCodes_congr fun c => ?_
  simp only [State.moveOut, tab_get, Counts.sub]
  rw [← Nat.add_mul]
  congr 1
  have := h c
  omega

theorem post_balance (d : Int) (s : State) (h : postRefused s d = false) :
    ((s.post d).balance : Int) = s.balance + d := by
  unfold postRefused at h
  rw [Bool.or_eq_false_iff] at h
  have h2 := of_decide_eq_false h.2
  show (((s.balance : Int) + d).toNat : Int) = _
  omega

theorem fitValue_ofFit (d : Vector Denom 12) (v : Vector Nat 12) : valueOf d (Comp.ofFit v) = fitValue d v := by
  unfold valueOf fitValue Comp.ofFit
  refine sumCodes_congr fun c => ?_
  rw [tab_get]
  rfl

theorem fitValue_zero (d : Vector Denom 12) : fitValue d (Vector.replicate 12 0) = 0 := by
  have : ∀ c : Code, (Vector.replicate 12 0)[c] * d[c].face = 0 := by
    intro c
    have : (Vector.replicate 12 (0 : Nat))[c] = 0 := by simp
    rw [this, Nat.zero_mul]
  exact (sumCodes_congr this).trans sumCodes_zero

/-! ### The value of a bag's lines (R4, R105) -/

/-- What a line adds to the value: its count at face, nothing for suspect (R4, R105). -/
def BagLine.worth (d : Vector Denom 12) (x : BagLine) : Nat :=
  if x.cls = .suspect then 0 else x.count * d[x.code].face

theorem sumCodes_single (c : Code) (n : Nat) : sumCodes (fun x => if c = x then n else 0) = n := by
  revert c
  intro c
  fin_cases c <;> simp [sumCodes, codes]

theorem valueOf_add (d : Vector Denom 12) (k m : Code → Counts) :
    valueOf d (tab fun c => (k c).add (m c)) = valueOf d (tab k) + valueOf d (tab m) := by
  unfold valueOf
  rw [← sumCodes_add]
  refine sumCodes_congr fun c => ?_
  simp only [tab_get, Counts.add]
  ring

theorem valueOf_only (d : Vector Denom 12) (c : Code) (k : CashClass) (n : Nat) :
    valueOf d (Comp.only c k n) = BagLine.worth d ⟨c, k, n⟩ := by
  unfold valueOf Comp.only
  rw [← sumCodes_single c (BagLine.worth d ⟨c, k, n⟩)]
  refine sumCodes_congr fun x => ?_
  rw [tab_get]
  by_cases h : x = c
  · subst h
    rw [if_pos rfl, if_pos rfl]
    cases k <;> simp [Counts.only, BagLine.worth]
  · rw [if_neg h, if_neg (Ne.symm h)]
    simp [Counts.zero]

theorem valueOf_lines (d : Vector Denom 12) (l : List BagLine) :
    valueOf d (linesComp l) = (l.map (BagLine.worth d)).sum := by
  induction l with
  | nil =>
    refine (sumCodes_congr fun c => ?_).trans sumCodes_zero
    rw [linesComp, tab_get]
    simp [Counts.zero]
  | cons x r ih =>
    rw [List.map_cons, List.sum_cons, ← ih, ← valueOf_only]
    unfold valueOf
    rw [← sumCodes_add]
    refine sumCodes_congr fun c => ?_
    unfold linesComp Comp.only
    simp only [tab_get, List.foldr_cons]
    by_cases h : x.code = c
    · rw [if_pos h, if_pos h.symm]
      simp only [Counts.add]
      ring
    · rw [if_neg h, if_neg (Ne.symm h)]
      simp [Counts.zero]

theorem worth_of (d : Vector Denom 12) (c : Code) (k : CashClass) (x : BagLine) (h : x.isFor c k = true) (n : Nat) :
    BagLine.worth d { x with count := n } = BagLine.worth d ⟨c, k, n⟩ := by
  obtain ⟨h1, h2⟩ := (isFor_iff c k x).mp h
  subst h1
  subst h2
  rfl

theorem worth_split (d : Vector Denom 12) (c : Code) (k : CashClass) (m n : Nat) :
    BagLine.worth d ⟨c, k, m + n⟩ = BagLine.worth d ⟨c, k, m⟩ + BagLine.worth d ⟨c, k, n⟩ := by
  unfold BagLine.worth
  dsimp only
  split
  · rfl
  · ring

/-- Lines of other pairs are the same under a change of the lines of one pair. -/
theorem map_others (c : Code) (k : CashClass) (f : BagLine → BagLine) (l : List BagLine)
    (h : ∀ x ∈ l, ¬x.isFor c k = true) : l.map (fun x => if x.isFor c k then f x else x) = l := by
  refine (List.map_congr_left fun x hx => ?_).trans (List.map_id l)
  rw [if_neg (h x hx)]
  rfl

/-- The one line of a pair changes its count: so does the value. -/
theorem worth_change (d : Vector Denom 12) (c : Code) (k : CashClass) (f : Nat → Nat) (l : List BagLine)
    (h : linesApart l) (x : BagLine) (hx : l.find? (BagLine.isFor c k) = some x) :
    ((l.map fun x => if x.isFor c k then { x with count := f x.count } else x).map (BagLine.worth d)).sum +
      BagLine.worth d ⟨c, k, x.count⟩ = (l.map (BagLine.worth d)).sum + BagLine.worth d ⟨c, k, f x.count⟩ := by
  induction l with
  | nil => exact absurd hx (by simp)
  | cons y r ih =>
    obtain ⟨hy, hr⟩ := List.pairwise_cons.mp h
    rw [List.find?_cons] at hx
    by_cases hf : y.isFor c k = true
    · rw [hf] at hx
      injection hx with hx
      subst hx
      have hn : ∀ z ∈ r, ¬z.isFor c k = true := by
        intro z hz e
        obtain ⟨e1, e2⟩ := (isFor_iff c k z).mp e
        obtain ⟨e3, e4⟩ := (isFor_iff c k y).mp hf
        exact hy z hz ⟨e3.trans e1.symm, e4.trans e2.symm⟩
      rw [List.map_cons, List.map_cons, List.sum_cons, if_pos hf, map_others c k _ r hn, worth_of d c k y hf,
        List.map_cons, List.sum_cons]
      have := worth_of d c k y hf y.count
      have e : BagLine.worth d y = BagLine.worth d ⟨c, k, y.count⟩ := this
      omega
    · rw [Bool.not_eq_true _ |>.mp hf] at hx
      have := ih hr hx
      rw [List.map_cons, List.map_cons, List.sum_cons, if_neg hf, List.map_cons, List.sum_cons]
      omega

theorem value_addLine (d : Vector Denom 12) (c : Code) (k : CashClass) (n : Nat) (l : List BagLine)
    (h : linesApart l) :
    valueOf d (linesComp (addLine c k n l)) = valueOf d (linesComp l) + valueOf d (Comp.only c k n) := by
  rw [valueOf_lines, valueOf_lines, valueOf_only]
  unfold addLine
  split
  · next ha =>
    obtain ⟨x, hx⟩ := Option.isSome_iff_exists.mp ((List.find?_isSome).mpr (List.any_eq_true.mp ha))
    have := worth_change d c k (fun m => m + n) l h x hx
    rw [worth_split] at this
    omega
  · rw [List.map_append, List.sum_append, List.map_singleton, List.sum_singleton]

theorem value_takeLine (d : Vector Denom 12) (c : Code) (k : CashClass) (n : Nat) (l : List BagLine)
    (h : linesApart l) (hn : n ≤ lineHeld l c k) :
    valueOf d (linesComp (takeLine c k n l)) + valueOf d (Comp.only c k n) = valueOf d (linesComp l) := by
  have drop : ∀ m : List BagLine, ((m.filter fun x => x.count != 0).map (BagLine.worth d)).sum =
      (m.map (BagLine.worth d)).sum := by
    intro m
    induction m with
    | nil => rfl
    | cons x r ih =>
      by_cases hx : x.count = 0
      · rw [List.filter_cons_of_neg (by simp [hx]), ih, List.map_cons, List.sum_cons]
        have : BagLine.worth d x = 0 := by simp [BagLine.worth, hx]
        omega
      · rw [List.filter_cons_of_pos (by simp [hx]), List.map_cons, List.sum_cons, ih, List.map_cons, List.sum_cons]
  rw [valueOf_lines, valueOf_lines, valueOf_only]
  unfold takeLine
  rw [drop]
  unfold lineHeld at hn
  cases hf : l.find? (BagLine.isFor c k) with
  | none =>
    rw [hf] at hn
    have hn0 : n = 0 := Nat.le_zero.mp hn
    subst hn0
    rw [map_others c k _ l fun x hx => by simpa using List.find?_eq_none.mp hf x hx]
    simp [BagLine.worth]
  | some x =>
    rw [hf] at hn
    have hn : n ≤ x.count := hn
    have := worth_change d c k (fun m => m - n) l h x hf
    have hs := worth_split d c k (x.count - n) n
    rw [Nat.sub_add_cancel hn] at hs
    omega

/-! ### The figures that the law rests on -/

/-- The rule of a bag's value under a denomination table (R105). -/
def lineFigures (d : Vector Denom 12) (l : List BagLine) (v : Nat) : Prop :=
  linesApart l ∧ v = valueOf d (linesComp l)

theorem figuresLaw_iff (s : State) : s.figuresLaw ↔ s.bagsAll (lineFigures s.denoms) := Iff.rfl

/-- The rule of a till's float and counted value under a denomination table (R27, R87, R91). -/
def Till.figures (d : Vector Denom 12) (t : Till) : Prop :=
  t.f = fitValue d t.issue ∧ (t.state = .counted → ∀ r, t.result = some r → r.c = valueOf d r.comp)

/-- Every till meets the rule. -/
def State.tillsOk (d : Vector Denom 12) (s : State) : Prop := ∀ t, (s.till t).figures d

theorem tillsOk_iff (s : State) : s.tillsOk s.denoms ↔ s.floatsLaw ∧ s.countedLaw :=
  ⟨fun h => ⟨fun t => (h t).1, fun t r hs hr => (h t).2 hs r hr⟩, fun h t => ⟨h.1 t, fun hs r hr => h.2 t r hs hr⟩⟩

theorem tillsOk_congr (d : Vector Denom 12) (s t : State) (h : t.tills = s.tills) (hs : s.tillsOk d) : t.tillsOk d := by
  unfold State.tillsOk State.till at *
  rw [h]
  exact hs

theorem tillsOk_setTill (d : Vector Denom 12) (t : TillIx) (x : Till) (s : State) (h : s.tillsOk d)
    (hx : x.figures d) : (s.setTill t x).tillsOk d := by
  intro u
  rw [till_setTill]
  split
  · exact hx
  · exact h u

theorem retire_figures (d : Vector Denom 12) (t : Till) : t.retire.figures d :=
  ⟨(fitValue_zero d).symm, fun h => absurd h (by show TillState.closed ≠ _; decide)⟩

theorem afterPosting_figures (d : Vector Denom 12) (l : Limits) (t : Till) (h : t.figures d) :
    (t.afterPosting l).figures d := by
  unfold Till.afterPosting
  split
  · next r hs hr =>
    dsimp only
    split
    · exact retire_figures d _
    · refine ⟨h.1, fun _ q hq => ?_⟩
      injection hq with hq
      rw [← hq]
      exact h.2 hs r hr
  · exact h

theorem afterClose_figures (d : Vector Denom 12) (r : LastResult) (t : Till) (h : t.figures d)
    (hr : r.c = valueOf d r.comp) : (t.afterClose r).figures d := by
  unfold Till.afterClose
  split
  · exact retire_figures d _
  · refine ⟨h.1, fun _ q hq => ?_⟩
    injection hq with hq
    rw [← hq]
    exact hr

/-- A till with the same issue list, float, result and counted state. -/
theorem figures_same (d : Vector Denom 12) (t u : Till) (h : t.figures d) (hf : u.f = t.f) (hi : u.issue = t.issue)
    (hr : u.result = t.result) (hs : u.state = .counted → t.state = .counted) : u.figures d := by
  refine ⟨?_, fun hc r e => h.2 (hs hc) r (hr ▸ e)⟩
  rw [hf, hi]
  exact h.1

/-- A till outside COUNTED with the same issue list and float. -/
theorem figures_uncounted (d : Vector Denom 12) (t u : Till) (h : t.figures d) (hf : u.f = t.f)
    (hi : u.issue = t.issue) (hs : u.state ≠ .counted) : u.figures d := by
  refine ⟨?_, fun hc => absurd hc hs⟩
  rw [hf, hi]
  exact h.1

theorem tillsOk_release (d : Vector Denom 12) (p : Purpose) (s : State) (h : s.tillsOk d) : (s.release p).tillsOk d := by
  intro t
  rw [release_till]
  split
  · exact figures_uncounted d _ _ (h t) rfl rfl (by simp)
  · exact figures_same d _ _ (h t) rfl rfl rfl fun e => e

theorem tillsOk_releaseLane (d : Vector Denom 12) (i : LaneIx) (s : State) (h : s.tillsOk d) :
    (s.releaseLane i).tillsOk d := by
  unfold State.releaseLane
  split
  · exact h
  · exact tillsOk_release d _ s h

theorem tillsOk_lanesDown (d : Vector Denom 12) (s : State) (h : s.tillsOk d) : s.lanesDown.tillsOk d := by
  have key : ∀ (l : List LaneIx) (t : State), t.tillsOk d → (l.foldl State.releaseLane t).tillsOk d := by
    intro l
    induction l with
    | nil => exact fun _ ht => ht
    | cons i r ih => exact fun t ht => ih _ (tillsOk_releaseLane d i t ht)
  exact tillsOk_congr d _ _ rfl (key lanesAll s h)

theorem fitValue_add (d : Vector Denom 12) (v w : Vector Nat 12) :
    fitValue d (tab fun c => v[c] + w[c]) = fitValue d v + fitValue d w := by
  unfold fitValue
  rw [← sumCodes_add]
  refine sumCodes_congr fun c => ?_
  rw [tab_get, Nat.add_mul]

theorem tillsOk_wrongOverride (d : Vector Denom 12) (s : State) (h : s.tillsOk d) : s.wrongOverride.tillsOk d := by
  unfold State.wrongOverride
  split <;> exact h

theorem reevaluateSkim_tills (t : TillIx) (s : State) : (s.reevaluateSkim t).tills = s.tills := by
  rw [reevaluateSkim_eq]

theorem tillsOk_commit (i : LaneIx) (x : Session) (s : State) (h : s.tillsOk s.denoms) :
    (commitSession i x s).state.tillsOk s.denoms := by
  unfold commitSession
  split
  · next t _ =>
    unfold commitTillClose
    dsimp only
    repeat' split
    all_goals try exact h
    refine tillsOk_congr _ (State.setTill t ((s.till t).afterClose (closeResult s t x.comp)) s) _ rfl ?_
    exact tillsOk_setTill _ t _ s h (afterClose_figures _ _ _ (h t) rfl)
  · next t _ =>
    unfold commitPickup
    dsimp only
    split
    · exact h
    split
    · exact h
    split
    · exact h
    split
    · exact h
    refine tillsOk_congr _ _ _ (reevaluateSkim_tills _ _) ?_
    refine tillsOk_congr _ (State.setTill t { s.till t with
      p := (s.till t).p + valueOf s.denoms x.comp, pickups := (s.till t).pickups + 1, lane := none } s) _ rfl ?_
    exact tillsOk_setTill _ t _ s h (figures_same _ _ _ (h t) rfl rfl rfl fun e => e)
  · unfold commitDelivery
    split
    · exact h
    split
    · split
      · unfold commitDeliveryTo
        dsimp only
        split
        · exact h
        split
        · exact h
        split
        · exact h
        · exact tillsOk_congr _ s _ rfl h
      · exact h
    · exact h
  · exact tillsOk_congr _ s _ rfl h

theorem effect_tillsOk (c : Cmd) (a : List Byte) (s : State) (h : s.tillsOk s.denoms) :
    (effect c a s).state.tillsOk s.denoms := by
  by_cases hc : c ∈ Cmd.tillsWriters
  · cases c <;> first | exact absurd hc (by decide) | skip
    case recordsClear =>
      show (recordsClearEffect a s).state.tillsOk s.denoms
      unfold recordsClearEffect
      split
      · exact h
      apply withAuthority_state (State.tillsOk s.denoms)
      · exact h
      · exact tillsOk_wrongOverride _ s h
      split
      · exact h
      · intro t
        have : (State.clearRecords { s with auth := { s.auth with failures := 0 } }).till t = (s.till t).retire :=
          mapT_get Till.retire s.tills t
        rw [Answer.state, this]
        exact retire_figures _ _
    case tillSetup =>
      refine withTill_state (State.tillsOk s.denoms) _ _ _ _ h fun t => ?_
      dsimp only
      repeat' split
      all_goals try exact h
      exact tillsOk_setTill _ t _ s h (figures_same _ _ _ (h t) rfl rfl rfl fun e => e)
    case floatIssue =>
      refine withTill_state (State.tillsOk s.denoms) _ _ _ _ h fun t => ?_
      dsimp only
      repeat' split
      all_goals try exact h
      exact tillsOk_setTill _ t _ (s.moveOut _) h ⟨rfl, fun e => absurd e (by simp)⟩
    case floatCancel =>
      refine withTill_state (State.tillsOk s.denoms) _ _ _ _ h fun t => ?_
      dsimp only
      repeat' split
      all_goals try exact h
      exact tillsOk_setTill _ t _ (s.moveIn _) h (retire_figures _ _)
    case tillOpen =>
      refine withTill_state (State.tillsOk s.denoms) _ _ _ _ h fun t => ?_
      dsimp only
      repeat' split
      all_goals try exact h
      exact tillsOk_setTill _ t _ s h (figures_uncounted _ _ _ (h t) rfl rfl (by simp))
    case topupIssue =>
      show (topupIssueEffect a s).state.tillsOk s.denoms
      unfold topupIssueEffect
      dsimp only
      repeat' split
      all_goals try exact h
      next t _ _ l _ _ _ hs _ _ _ _ =>
      refine tillsOk_congr _ _ _ rfl (tillsOk_setTill _ t _ (s.moveOut (Comp.ofFit (lineCounts l))) h ⟨?_, fun e => ?_⟩)
      · rw [fitValue_add, ← (h t).1]
      · have e : (s.till t).state = .counted := e
        exact absurd e (by rw [not_not.mp hs]; decide)
    case posCash =>
      refine withTill_state (State.tillsOk s.denoms) _ _ _ _ h fun t => ?_
      dsimp only
      repeat' split
      all_goals try exact h
      exact tillsOk_setTill _ t _ s h
        (afterPosting_figures _ _ _ (figures_same _ _ _ (h t) rfl rfl rfl fun e => e))
    case tillClose =>
      refine withTill_state (State.tillsOk s.denoms) _ _ _ _ h fun t => ?_
      dsimp only
      split
      · exact h
      have h1 := tillsOk_setTill _ t _ s h (figures_uncounted _ _ { s.till t with state := .closing } (h t) rfl rfl
        (by simp))
      dsimp only [Answer.state]
      split
      · rw [raiseCall_eq]
        exact h1
      · rw [raiseCall_eq]
        exact h1
    case varianceAccept =>
      refine withTill_state (State.tillsOk s.denoms) _ _ _ _ h fun t => ?_
      apply withAuthority_state (State.tillsOk s.denoms)
      · exact h
      · exact tillsOk_wrongOverride _ s h
      split
      · exact tillsOk_setTill _ t _ { s with auth := { s.auth with failures := 0 } } h (retire_figures _ _)
      · exact h
    case recount =>
      refine withTill_state (State.tillsOk s.denoms) _ _ _ _ h fun t => ?_
      apply withAuthority_state (State.tillsOk s.denoms)
      · exact h
      · exact tillsOk_wrongOverride _ s h
      dsimp only
      split
      · split
        · exact h
        split
        · exact h
        · exact tillsOk_setTill _ t _ ((State.moveOut _ { s with auth := { s.auth with failures := 0 } }).post _) h
            (figures_uncounted _ _ _ (h t) rfl rfl (by simp))
      · exact h
    case laneReset =>
      refine withLane_state (State.tillsOk s.denoms) _ _ _ _ h fun i => ?_
      exact tillsOk_releaseLane _ i s h
    case countAbort =>
      refine withProfiled_state (State.tillsOk s.denoms) _ _ _ _ h fun i _ => ?_
      dsimp only
      split
      · exact h
      · exact tillsOk_releaseLane _ i s h
    case countOpen =>
      show (countOpenEffect a s).state.tillsOk s.denoms
      unfold countOpenEffect
      dsimp only
      repeat' split
      all_goals try exact h
      dsimp only [Answer.state]
      generalize hu : State.setLane _ _ s = u
      have h' : u.tillsOk s.denoms := by
        rw [← hu]
        exact h
      unfold State.bindSession
      split
      · next t _ =>
        exact tillsOk_setTill _ t _ u h' (figures_uncounted _ _ _ (h' t) rfl rfl (by simp))
      · next t _ =>
        exact tillsOk_setTill _ t _ u h' (figures_same _ _ _ (h' t) rfl rfl rfl fun e => e)
      · split
        · exact h'
        · exact h'
      · exact h'
    case countCommit =>
      refine withProfiled_state (State.tillsOk s.denoms) _ _ _ _ h fun i _ => ?_
      split
      · exact h
      · exact tillsOk_commit i _ s h
      · exact tillsOk_commit i _ s h
      · exact h
  · exact tillsOk_congr _ s _ ((effect_same c a s).2.2.2.1 hc) h

theorem lineFigures_empty (d : Vector Denom 12) : lineFigures d [] 0 := by
  refine ⟨List.Pairwise.nil, ?_⟩
  rw [valueOf_lines]
  rfl

theorem lineFigures_with (d : Vector Denom 12) (l : List BagLine) (x : Bag) (h : linesApart l) :
    lineFigures d (x.withLines d l).lines (x.withLines d l).value := ⟨h, rfl⟩

theorem effect_lineFigures (c : Cmd) (a : List Byte) (s : State) (h : s.bagsAll (lineFigures s.denoms)) :
    (effect c a s).state.bagsAll (lineFigures s.denoms) := by
  by_cases hc : c ∈ [Cmd.bagOpen, .bagAdd, .bagReturn]
  · cases c <;> first | exact absurd hc (by decide) | skip
    case bagOpen =>
      show (bagOpenEffect a s).state.bagsAll _
      unfold bagOpenEffect
      dsimp only
      repeat' split
      all_goals try dsimp only [Answer.state]
      all_goals first
        | with_reducible exact h
        | exact bagsAll_setBag _ _ s h fun x hx => by
            injection hx with hx
            rw [← hx]
            exact lineFigures_empty _
    case bagAdd =>
      refine withBag_state (State.bagsAll (lineFigures s.denoms)) _ _ _ _ h fun b x hx => ?_
      dsimp only
      repeat' split
      all_goals try dsimp only [Answer.state]
      all_goals first
        | with_reducible exact h
        | exact bagsAll_setBag _ _ (s.moveOut _) h fun y hy => by
            injection hy with hy
            rw [← hy]
            exact lineFigures_with _ _ _ (linesApart_add _ _ _ _ (h b x hx).1)
    case bagReturn =>
      refine withBag_state (State.bagsAll (lineFigures s.denoms)) _ _ _ _ h fun b x hx => ?_
      dsimp only
      repeat' split
      all_goals try dsimp only [Answer.state]
      all_goals first
        | with_reducible exact h
        | exact bagsAll_setBag _ _ (s.moveIn _) h fun y hy => by
            injection hy with hy
            rw [← hy]
            exact lineFigures_with _ _ _ (linesApart_take _ _ _ _ (h b x hx).1)
  · exact effect_bagsAll c a s h hc

/-! ### Sessions and their tills -/

/-- The tills that a purpose names (R73). -/
def Purpose.till : Purpose → Option TillIx
  | .tillClose t | .pickup t => some t
  | .delivery _ | .audit _ => none

/-- A till as a session of a purpose on a lane binds it (R28, R73). -/
def Till.boundBy (i : LaneIx) (p : Purpose) (t : Till) : Prop :=
  t.lane = some i ∧ match p with
    | .tillClose _ => t.state = .inCount
    | .pickup _ => t.state = .trading ∨ t.state = .closing
    | .delivery _ | .audit _ => False

theorem boundLaw_iff (s : State) : s.boundLaw ↔
    ∀ i x t, (s.lane i).session = some x → x.purpose.till = some t → (s.till t).boundBy i x.purpose := by
  constructor
  · intro h i x t hx ht
    obtain ⟨h1, h2⟩ := h i x hx
    unfold Till.boundBy
    cases hp : x.purpose with
    | tillClose u =>
      rw [hp] at ht
      injection ht with ht
      subst ht
      exact ⟨(h1 u hp).2, (h1 u hp).1⟩
    | pickup u =>
      rw [hp] at ht
      injection ht with ht
      subst ht
      exact ⟨(h2 u hp).2, (h2 u hp).1⟩
    | delivery n => rw [hp] at ht; exact absurd ht (by simp [Purpose.till])
    | audit m => rw [hp] at ht; exact absurd ht (by simp [Purpose.till])
  · intro h i x hx
    refine ⟨fun t ht => ?_, fun t ht => ?_⟩
    · have := h i x t hx (by rw [ht]; rfl)
      rw [ht] at this
      exact ⟨this.2, this.1⟩
    · have := h i x t hx (by rw [ht]; rfl)
      rw [ht] at this
      exact ⟨this.2, this.1⟩

/-- Sessions that keep their purposes, tills that stay bound. -/
theorem boundLaw_keep (s u : State) (h : s.boundLaw)
    (hl : ∀ j x, (u.lane j).session = some x → ∃ y, (s.lane j).session = some y ∧ y.purpose = x.purpose)
    (ht : ∀ v i p, (s.till v).boundBy i p → (u.till v).boundBy i p) : u.boundLaw := by
  rw [boundLaw_iff] at *
  intro j x v hx hv
  obtain ⟨y, hy, hp⟩ := hl j x hx
  rw [← hp] at hv ⊢
  exact ht v j _ (h j y v hy hv)

/-- The session of one lane leaves, with the till it names: the others stand. -/
theorem boundLaw_leave (i : LaneIx) (s u : State) (h : s.boundLaw)
    (hl : ∀ j x, (u.lane j).session = some x → j ≠ i ∧ (s.lane j).session = some x)
    (ht : ∀ v, (∀ x, (s.lane i).session = some x → x.purpose.till ≠ some v) → u.till v = s.till v) :
    u.boundLaw := by
  rw [boundLaw_iff] at *
  intro j x v hx hv
  obtain ⟨hj, hs⟩ := hl j x hx
  have hb := h j x v hs hv
  rw [ht v fun y hy e => ?_]
  · exact hb
  · have := (h i y v hy e).1
    rw [hb.1] at this
    injection this with this
    exact hj this

theorem boundLaw_setTill (t : TillIx) (u : Till) (s : State) (h : s.boundLaw)
    (hu : ∀ i p, (s.till t).boundBy i p → u.boundBy i p) : (s.setTill t u).boundLaw := by
  refine boundLaw_keep s _ h (fun j x hx => ⟨x, hx, rfl⟩) fun v i p hb => ?_
  rw [till_setTill]
  split
  · next e =>
    subst e
    exact hu i p hb
  · exact hb

theorem boundLaw_congr (s u : State) (hl : u.lanes = s.lanes) (ht : u.tills = s.tills) (h : s.boundLaw) :
    u.boundLaw := by
  refine boundLaw_keep s u h (fun j x hx => ⟨x, ?_, rfl⟩) fun v i p hb => ?_
  · unfold State.lane at *
    rw [← hl]
    exact hx
  · unfold State.till at *
    rw [ht]
    exact hb

theorem boundLaw_setLane (i : LaneIx) (l : Lane) (s : State) (h : s.boundLaw)
    (hl : l.session.map Session.purpose = (s.lane i).session.map Session.purpose ∨ l.session = none) :
    (s.setLane i l).boundLaw := by
  refine boundLaw_keep s _ h (fun j x hx => ?_) fun v i p hb => hb
  rw [lane_setLane] at hx
  split at hx
  · next e =>
    subst e
    rcases hl with hl | hl
    · rw [hx] at hl
      obtain ⟨y, hy, hp⟩ := Option.map_eq_some_iff.mp hl.symm
      exact ⟨y, hy, hp⟩
    · rw [hl] at hx
      exact absurd hx (by simp)
  · exact ⟨x, hx, rfl⟩

theorem boundLaw_unprofiled (s : State) (h : s.lanes = Vector.replicate 4 Lane.unprofiled) : s.boundLaw := by
  intro i x hx
  unfold State.lane at hx
  rw [h] at hx
  exact absurd hx (by simp [Lane.unprofiled])

/-- A till that no session can hold. -/
theorem unbound (t : Till) (h : t.state = .closed ∨ t.state = .issued ∨ t.state = .counted) (i : LaneIx) (p : Purpose) :
    ¬t.boundBy i p := by
  rintro ⟨_, hb⟩
  cases p <;> rcases h with h | h | h <;> simp [h] at hb

theorem boundLaw_releaseLane (i : LaneIx) (l : Lane) (s : State) (h : s.boundLaw) (hl : l.session = none) :
    ((s.releaseLane i).setLane i l).boundLaw := by
  refine boundLaw_leave i s _ h (fun j x hx => ?_) fun v hv => ?_
  · rw [lane_setLane] at hx
    split at hx
    · rw [hl] at hx
      exact absurd hx (by simp)
    · next hj =>
      refine ⟨hj, ?_⟩
      unfold State.lane at *
      rw [← releaseLane_lanes i s]
      exact hx
  · show (s.releaseLane i).till v = s.till v
    unfold State.releaseLane
    split
    · rfl
    · next x hx =>
      rw [release_till]
      have := hv x hx
      have h1 : x.purpose ≠ .tillClose v := fun e => this (by rw [e]; rfl)
      have h2 : x.purpose ≠ .pickup v := fun e => this (by rw [e]; rfl)
      simp [h1, h2]

theorem boundLaw_endSession (i : LaneIx) (t : TillIx) (u : Till) (x : Session) (s : State) (h : s.boundLaw)
    (hx : (s.lane i).session = some x) (ht : x.purpose.till = some t) : ((s.setTill t u).endSession i).boundLaw := by
  refine boundLaw_leave i s _ h (fun j y hy => ?_) fun v hv => ?_
  · unfold State.endSession at hy
    rw [lane_setLane] at hy
    split at hy
    · exact absurd hy (by simp)
    · next hj => exact ⟨hj, hy⟩
  · have hvt : v ≠ t := fun e => hv x hx (e ▸ ht)
    show (s.setTill t u).till v = s.till v
    rw [till_setTill, if_neg hvt]

theorem boundLaw_wrongOverride (s : State) (h : s.boundLaw) : s.wrongOverride.boundLaw := by
  unfold State.wrongOverride
  split <;> exact h

theorem afterPosting_bound (l : Limits) (t : Till) (i : LaneIx) (p : Purpose) (h : t.boundBy i p) :
    (t.afterPosting l).boundBy i p := by
  unfold Till.afterPosting
  split
  · next hs _ => exact absurd h (unbound t (.inr (.inr hs)) i p)
  · exact h

theorem bindCheck_bound (s : State) (o : OpenTarget) (p : Purpose) (h : bindCheck s o = .ok p) (t : TillIx)
    (ht : p.till = some t) : (s.till t).lane = none ∧
      ((p = .tillClose t ∧ (s.till t).state = .closing) ∨ (p = .pickup t ∧ (s.till t).state = .trading)) := by
  unfold bindCheck at h
  repeat' split at h
  all_goals cases h
  all_goals simp only [Purpose.till, Option.some.injEq, reduceCtorEq] at ht
  all_goals
    subst ht
    simp_all

theorem boundLaw_bindSession (i : LaneIx) (l : Lane) (p : Purpose) (x : Session) (s : State) (o : OpenTarget)
    (h : s.boundLaw) (hc : bindCheck s o = .ok p) (hn : (s.lane i).session = none) (hl : l.session = some x)
    (hp : x.purpose = p) : ((s.setLane i l).bindSession i p).boundLaw := by
  have tills : ∀ t u, (s.till t).lane = none → u.boundBy i p → p.till = some t →
      ((s.setLane i l).setTill t u).boundLaw := by
    intro t u hlane hu hpt
    rw [boundLaw_iff] at *
    intro j y v hy hv
    rw [till_setTill]
    replace hy : ((s.setLane i l).lane j).session = some y := hy
    rw [lane_setLane] at hy
    split at hy
    · next e =>
      subst e
      rw [hl] at hy
      injection hy with hy
      subst hy
      rw [hp, hpt] at hv
      injection hv with hv
      rw [if_pos hv.symm, hp]
      exact hu
    · have hb := h j y v hy hv
      split
      · next e =>
        subst e
        have := hb.1
        rw [hlane] at this
        exact absurd this (by simp)
      · exact hb
  have others : p.till = none → ((s.setLane i l)).boundLaw := by
    intro hpt
    rw [boundLaw_iff] at *
    intro j y v hy hv
    rw [lane_setLane] at hy
    split at hy
    · rw [hl] at hy
      injection hy with hy
      subst hy
      rw [hp, hpt] at hv
      exact absurd hv (by simp)
    · exact h j y v hy hv
  unfold State.bindSession
  split
  · next t =>
    have hlane := (bindCheck_bound s o _ hc t rfl).1
    exact boundLaw_congr _ _ rfl rfl (tills t { s.till t with lane := some i, state := .inCount } hlane ⟨rfl, rfl⟩ rfl)
  · next t =>
    obtain ⟨hlane, hst⟩ := bindCheck_bound s o _ hc t rfl
    have hst := hst.resolve_left (fun e => absurd e.1 (by simp))
    exact tills t { s.till t with lane := some i } hlane ⟨rfl, .inl hst.2⟩ rfl
  · split
    · exact others rfl
    · exact boundLaw_congr _ _ rfl rfl (others rfl)
  · exact boundLaw_congr _ _ rfl rfl (others rfl)

theorem boundLaw_commit (i : LaneIx) (x : Session) (s : State) (hx : (s.lane i).session = some x) (h : s.boundLaw) :
    (commitSession i x s).state.boundLaw := by
  have ends : ∀ t u, x.purpose.till = some t → ((s.setTill t u).endSession i).boundLaw :=
    fun t u ht => boundLaw_endSession i t u x s h hx ht
  have leaves : (s.endSession i).boundLaw := boundLaw_setLane i _ s h (.inr rfl)
  unfold commitSession
  split
  · next t hp =>
    unfold commitTillClose
    dsimp only
    split
    · exact h
    split
    · exact h
    split
    · exact h
    · exact boundLaw_congr _ _ rfl rfl (ends t ((s.till t).afterClose (closeResult s t x.comp)) (by rw [hp]; rfl))
  · next t hp =>
    unfold commitPickup
    dsimp only
    split
    · exact h
    split
    · exact h
    split
    · exact h
    split
    · exact h
    · refine boundLaw_congr ((s.setTill t { s.till t with
        p := (s.till t).p + valueOf s.denoms x.comp, pickups := (s.till t).pickups + 1, lane := none }).endSession i)
        _ ?_ ?_ (ends t _ (by rw [hp]; rfl))
      · dsimp only [Answer.state]
        rw [reevaluateSkim_eq]
        rfl
      · exact reevaluateSkim_tills _ _
  · unfold commitDelivery
    split
    · exact h
    split
    · split
      · unfold commitDeliveryTo
        dsimp only
        split
        · exact h
        split
        · exact h
        split
        · exact h
        · exact boundLaw_congr _ _ rfl rfl leaves
      · exact h
    · exact h
  · exact boundLaw_congr _ _ rfl rfl leaves

theorem anySession_none (s : State) (h : s.anySession = false) (i : LaneIx) : (s.lane i).session = none := by
  have := List.any_eq_false.mp h i (mem_lanesAll i)
  simpa using this

/-- The commands that write tills and no lane. -/
theorem effect_boundTills (c : Cmd) (a : List Byte) (s : State) (h : s.boundLaw) (hc : c ∉ Cmd.lanesWriters) :
    (effect c a s).state.boundLaw := by
  by_cases ht : c ∈ Cmd.tillsWriters
  · cases c <;> first | exact absurd ht (by decide) | exact absurd (by decide) hc | skip
    case recordsClear =>
      show (recordsClearEffect a s).state.boundLaw
      unfold recordsClearEffect
      split
      · exact h
      apply withAuthority_state State.boundLaw
      · exact h
      · exact boundLaw_wrongOverride s h
      split
      · exact h
      · next hn =>
        rw [not_or] at hn
        intro i x hx
        have := anySession_none s (by simpa [State.anySession, State.lane] using hn.1) i
        exact absurd (this.symm.trans hx) (by simp)
    case tillSetup =>
      refine withTill_state State.boundLaw _ _ _ _ h fun t => ?_
      dsimp only
      repeat' split
      all_goals try exact h
      exact boundLaw_setTill t _ s h fun i p hb => hb
    case floatIssue =>
      refine withTill_state State.boundLaw _ _ _ _ h fun t => ?_
      dsimp only
      split
      · exact h
      next hs =>
      repeat' split
      all_goals try exact h
      rw [not_or, not_not] at hs
      refine boundLaw_congr (s.setTill t { s.till t with
        issue := _, f := _, state := .issued }) _ rfl rfl (boundLaw_setTill t _ s h fun i p hb => ?_)
      exact absurd hb (unbound _ (.inl hs.2) i p)
    case floatCancel =>
      refine withTill_state State.boundLaw _ _ _ _ h fun t => ?_
      dsimp only
      split
      · exact h
      next hs =>
      split
      · exact h
      · refine boundLaw_congr (s.setTill t (s.till t).retire) _ rfl rfl (boundLaw_setTill t _ s h fun i p hb => ?_)
        exact absurd hb (unbound _ (.inr (.inl (not_not.mp hs))) i p)
    case tillOpen =>
      refine withTill_state State.boundLaw _ _ _ _ h fun t => ?_
      dsimp only
      split
      · exact h
      · next hs =>
        refine boundLaw_setTill t _ s h fun i p hb => ?_
        exact absurd hb (unbound _ (.inr (.inl (not_not.mp hs))) i p)
    case topupIssue =>
      show (topupIssueEffect a s).state.boundLaw
      unfold topupIssueEffect
      dsimp only
      repeat' split
      all_goals try exact h
      next t _ _ l _ _ _ hs _ _ _ _ =>
      exact boundLaw_congr (s.setTill t { s.till t with issue := _, f := _ }) _ rfl rfl
        (boundLaw_setTill t _ s h fun i p hb => hb)
    case posCash =>
      refine withTill_state State.boundLaw _ _ _ _ h fun t => ?_
      dsimp only
      repeat' split
      all_goals try exact h
      exact boundLaw_setTill t _ s h fun i p hb => afterPosting_bound _ _ i p hb
    case tillClose =>
      refine withTill_state State.boundLaw _ _ _ _ h fun t => ?_
      dsimp only
      split
      · exact h
      next hs =>
      have h1 : (s.setTill t { s.till t with state := .closing }).boundLaw :=
        boundLaw_setTill t _ s h fun i p hb => by
          obtain ⟨hl, hp⟩ := hb
          refine ⟨hl, ?_⟩
          rw [not_not.mp hs] at hp
          cases p <;> simp_all
      dsimp only [Answer.state]
      split
      · rw [raiseCall_eq]
        exact h1
      · rw [raiseCall_eq]
        exact h1
    case varianceAccept =>
      refine withTill_state State.boundLaw _ _ _ _ h fun t => ?_
      apply withAuthority_state State.boundLaw
      · exact h
      · exact boundLaw_wrongOverride s h
      split
      · next hs _ =>
        exact boundLaw_setTill t _ { s with auth := { s.auth with failures := 0 } } h fun i p hb =>
          absurd hb (unbound _ (.inr (.inr hs)) i p)
      · exact h
    case recount =>
      refine withTill_state State.boundLaw _ _ _ _ h fun t => ?_
      apply withAuthority_state State.boundLaw
      · exact h
      · exact boundLaw_wrongOverride s h
      dsimp only
      split
      · next hs _ =>
        split
        · exact h
        split
        · exact h
        · refine boundLaw_congr (s.setTill t { s.till t with state := .closing, lane := none }) _ rfl rfl
            (boundLaw_setTill t _ s h fun i p hb => absurd hb (unbound _ (.inr (.inr hs)) i p))
      · exact h
  · exact boundLaw_congr s _ ((effect_same c a s).2.2.2.2.1 hc) ((effect_same c a s).2.2.2.1 ht) h

theorem effect_boundLaw (c : Cmd) (a : List Byte) (s : State) (h : s.boundLaw) : (effect c a s).state.boundLaw := by
  have same : ∀ (i : LaneIx) (l : Lane), l.session.map Session.purpose = (s.lane i).session.map Session.purpose →
      (s.setLane i l).boundLaw := fun i l e => boundLaw_setLane i l s h (.inl e)
  by_cases hc : c ∈ Cmd.lanesWriters
  · cases c <;> first | exact absurd hc (by decide) | skip
    case retain =>
      show (retainEffect a s).state.boundLaw
      unfold retainEffect
      repeat' split
      all_goals try exact h
      refine boundLaw_unprofiled _ ?_
      dsimp only [Answer.state, State.enterRetention]
      rw [recomputeDoor_eq]
    case laneProfile =>
      refine withLane_state State.boundLaw _ _ _ _ h fun i => ?_
      dsimp only
      repeat' split
      all_goals try exact h
      exact same i _ rfl
    case laneReset =>
      refine withLane_state State.boundLaw _ _ _ _ h fun i => ?_
      exact boundLaw_releaseLane i _ s h rfl
    case laneClear =>
      refine withProfiled_state State.boundLaw _ _ _ _ h fun i _ => ?_
      exact same i _ rfl
    case countOpen =>
      show (countOpenEffect a s).state.boundLaw
      unfold countOpenEffect
      dsimp only
      repeat' split
      all_goals try exact h
      next o i _ _ _ _ _ hn _ _ p hc =>
      exact boundLaw_bindSession i _ p _ s o h hc (by simpa using hn) rfl rfl
    case countHold =>
      refine withProfiled_state State.boundLaw _ _ _ _ h fun i _ => ?_
      dsimp only
      split
      all_goals try exact h
      exact same i _ rfl
    case countResume =>
      refine withProfiled_state State.boundLaw _ _ _ _ h fun i _ => ?_
      dsimp only
      split
      all_goals try exact h
      all_goals exact same i _ rfl
    case countVoid =>
      refine withProfiled_state State.boundLaw _ _ _ _ h fun i _ => ?_
      dsimp only
      split
      all_goals try exact h
      all_goals
        next hx =>
        split
        · exact h
        · exact same i _ (by rw [hx]; rfl)
    case countRolls =>
      refine withProfiled_state State.boundLaw _ _ _ _ h fun i _ => ?_
      dsimp only
      repeat' split
      all_goals try exact h
      next hx _ => exact same i _ (by rw [hx]; rfl)
    case countAbort =>
      refine withProfiled_state State.boundLaw _ _ _ _ h fun i _ => ?_
      dsimp only
      split
      · exact h
      · exact boundLaw_releaseLane i _ s h rfl
    case countCommit =>
      refine withProfiled_state State.boundLaw _ _ _ _ h fun i _ => ?_
      split
      · exact h
      · next hx => exact boundLaw_commit i _ s hx h
      · next hx => exact boundLaw_commit i _ s hx h
      · exact h
  · exact effect_boundTills c a s h hc

/-! ### The balance -/

/-- The parts of the law, each as it was. -/
theorem balanceLaw_same (s u : State) (h : s.balanceLaw) (hd : u.denoms = s.denoms)
    (hs : ∀ c : Code, u.stock[c].counts = s.stock[c].counts) (ht : ∀ t, (u.till t).out = (s.till t).out)
    (hb : u.bags = s.bags) (hB : u.balance = s.balance) : u.balanceLaw := by
  unfold State.balanceLaw
  have e1 : u.stockValue = s.stockValue := by
    unfold State.stockValue
    rw [hd]
    exact sumCodes_congr fun c => by rw [hs c]
  have e2 : u.floatsOut = s.floatsOut := by
    have : u.tills.toList.map Till.out = s.tills.toList.map Till.out := by
      refine List.ext_getElem (by simp) fun n h1 h2 => ?_
      have hn : n < 96 := by simpa using h1
      simpa [State.till] using ht ⟨n, hn⟩
    show (u.tills.toList.map Till.out).sum = (s.tills.toList.map Till.out).sum
    rw [this]
  have e3 : u.bagValue = s.bagValue := by
    unfold State.bagValue
    rw [hb]
  rw [e1, e2, e3, hB]
  exact h

/-- Nothing of the law is written. -/
theorem balanceLaw_congr (s u : State) (h1 : u.denoms = s.denoms) (h2 : u.stock = s.stock) (h3 : u.tills = s.tills)
    (h4 : u.bags = s.bags) (h5 : u.balance = s.balance) (h : s.balanceLaw) : u.balanceLaw :=
  balanceLaw_same s u h h1 (fun c => by rw [h2]) (fun t => by unfold State.till; rw [h3]) h4 h5

/-- What a code that nothing refers to leaves untouched (R7). -/
theorem unreferenced (s : State) (c : Code) (h : ¬s.referenced c = true) :
    s.stock[c].counts = Counts.zero ∧
    (∀ t, (s.till t).issue[c] = 0) ∧
    (∀ t r, (s.till t).state = .counted → (s.till t).result = some r → r.comp[c] = Counts.zero) ∧
    ∀ b x, s.bag b = some x → ∀ l ∈ x.lines, l.code ≠ c := by
  unfold State.referenced at h
  simp only [Bool.or_eq_true, not_or, bne_iff_ne, ne_eq, not_not] at h
  obtain ⟨⟨⟨⟨⟨⟨⟨h1, _⟩, _⟩, h2⟩, h3⟩, _⟩, _⟩, _⟩ := h
  have till : ∀ t : TillIx, ¬(s.till t).refers c = true := by
    intro t ht
    refine h2 (List.any_eq_true.mpr ⟨s.till t, ?_, ht⟩)
    exact (Vector.mem_toList_iff).mpr (Vector.getElem_mem t.isLt)
  refine ⟨h1, fun t => ?_, fun t r hs hr => ?_, fun b x hx l hl e => ?_⟩
  · have := till t
    unfold Till.refers at this
    simp only [Bool.or_eq_true, not_or, bne_iff_ne, ne_eq, not_not] at this
    exact this.1
  · have := till t
    unfold Till.refers at this
    rw [hs, hr] at this
    simp only [Bool.or_eq_true, not_or, Bool.and_eq_true, beq_self_eq_true, true_and, Option.any_some,
      bne_iff_ne, ne_eq, not_not] at this
    exact this.2
  · refine h3 (List.any_eq_true.mpr ⟨s.bag b, (Vector.mem_toList_iff).mpr (Vector.getElem_mem b.isLt), ?_⟩)
    rw [hx]
    exact List.any_eq_true.mpr ⟨l, hl, by simpa using e⟩

/-- A code without a count adds nothing, whatever its face. -/
theorem sum_face (d : Vector Denom 12) (c : Code) (x : Denom) (f : Code → Nat) (h : f c = 0) :
    sumCodes (fun k => f k * (d.set c x)[k].face) = sumCodes fun k => f k * d[k].face := by
  refine sumCodes_congr fun k => ?_
  by_cases hk : k = c
  · subst hk
    rw [h, Nat.zero_mul, Nat.zero_mul]
  · have : (d.set c x)[k] = d[k] := by
      simp only [Fin.getElem_fin]
      exact Vector.getElem_set_ne _ _ (fun e => hk (Fin.ext e.symm))
    rw [this]

theorem linesComp_absent (c : Code) (l : List BagLine) (h : ∀ x ∈ l, x.code ≠ c) : (linesComp l)[c] = Counts.zero := by
  unfold linesComp
  rw [tab_get]
  induction l with
  | nil => rfl
  | cons x r ih =>
    rw [List.foldr_cons, if_neg (h x List.mem_cons_self)]
    exact ih fun y hy => h y (List.mem_cons_of_mem _ hy)

theorem denomSet_laws (c : Code) (x : Denom) (s : State) (hr : ¬s.referenced c = true) (hB : s.balanceLaw)
    (hT : s.tillsOk s.denoms) (hF : s.bagsAll (lineFigures s.denoms)) :
    let d := s.denoms.set c x
    State.balanceLaw { s with denoms := d } ∧ s.tillsOk d ∧ s.bagsAll (lineFigures d) := by
  obtain ⟨h1, h2, h3, h4⟩ := unreferenced s c hr
  refine ⟨?_, fun t => ⟨?_, fun hs r e => ?_⟩, fun b y hy => ⟨(hF b y hy).1, ?_⟩⟩
  · have e : State.stockValue { s with denoms := s.denoms.set c x } = s.stockValue :=
      sum_face s.denoms c x (fun k => s.stock[k].counts.fit + s.stock[k].counts.unfit) (by
        simp only [Fin.getElem_fin] at h1 ⊢
        rw [h1]
        rfl)
    show State.stockValue { s with denoms := s.denoms.set c x } + s.floatsOut + s.bagValue = s.balance
    rw [e]
    exact hB
  · rw [(hT t).1]
    exact (sum_face s.denoms c x (fun k => (s.till t).issue[k]) (h2 t)).symm
  · rw [(hT t).2 hs r e]
    exact (sum_face s.denoms c x (fun k => r.comp[k].fit + r.comp[k].unfit) (by rw [h3 t r hs e]; rfl)).symm
  · rw [(hF b y hy).2]
    exact (sum_face s.denoms c x (fun k => (linesComp y.lines)[k].fit + (linesComp y.lines)[k].unfit)
      (by rw [linesComp_absent c y.lines (h4 b y hy)]; rfl)).symm

/-- Changes of the three parts and of B that cancel (R15, R16). -/
theorem balance_shift {s u : State} (h : s.balanceLaw) {a b c d e f : Nat} {x : Int}
    (h1 : u.stockValue + a = s.stockValue + b) (h2 : u.floatsOut + c = s.floatsOut + d)
    (h3 : u.bagValue + e = s.bagValue + f) (h4 : (u.balance : Int) = s.balance + x)
    (hx : (b : Int) + d + f - a - c - e = x) : u.balanceLaw := by
  unfold State.balanceLaw at *
  omega

/-- Cash moves between the stock and a till's float. -/
theorem balance_till {s v : State} (t : TillIx) (u : Till) (h : s.balanceLaw) {a b : Nat} {x : Int}
    (hs : v.stockValue + a = s.stockValue + b) (ht : v.tills = s.tills) (hb : v.bags = s.bags)
    (hB : (v.balance : Int) = s.balance + x) (hx : (b : Int) + u.out - a - (s.till t).out = x) :
    (v.setTill t u).balanceLaw := by
  have h2 := floatsOut_setTill t u v
  have e1 : v.floatsOut = s.floatsOut := by
    unfold State.floatsOut
    rw [ht]
  have e2 : v.till t = s.till t := by
    unfold State.till
    rw [ht]
  have e3 : (v.setTill t u).bagValue = s.bagValue := by
    unfold State.bagValue State.setTill
    rw [hb]
  have e4 : (v.setTill t u).stockValue = v.stockValue := rfl
  have e5 : (v.setTill t u).balance = v.balance := rfl
  rw [e1, e2] at h2
  unfold State.balanceLaw at *
  omega

theorem floatBuild_within (s : State) (t : Template) (c : Code) :
    (floatBuild s t).takes[c] ≤ s.stock[c].counts.fit := by
  have step : ∀ (l : List Code) (b : Build), (∀ c : Code, b.takes[c] ≤ s.stock[c].counts.fit) →
      ∀ c : Code, (l.foldl (buildStep s t) b).takes[c] ≤ s.stock[c].counts.fit := by
    intro l
    induction l with
    | nil => exact fun _ hb => hb
    | cons x r ih =>
      intro b hb
      refine ih _ fun c => ?_
      unfold buildStep
      dsimp only
      by_cases hc : c = x
      · subst hc
        have : buildAvailable s c ≤ s.stock[c].counts.fit := by
          unfold buildAvailable
          split
          · exact Nat.zero_le _
          · exact Nat.le_refl _
        simp only [Fin.getElem_fin, Vector.getElem_set_self] at this ⊢
        exact (Nat.min_le_right _ _).trans this
      · have : (b.takes.set x (min (min maxCount ((t.targets[x] * s.denoms[x].face + b.carry) / s.denoms[x].face))
            (buildAvailable s x)))[c] = b.takes[c] := by
          simp only [Fin.getElem_fin]
          exact Vector.getElem_set_ne _ _ (fun e => hc (Fin.ext e.symm))
        rw [this]
        exact hb c
  refine step _ _ (fun c => ?_) c
  have : (Vector.replicate 12 (0 : Nat))[c] = 0 := by simp
  rw [this]
  exact Nat.zero_le _

theorem fit_within (v : Vector Nat 12) (s : State) (h : ∀ c : Code, v[c] ≤ s.stock[c].counts.fit) (c : Code) :
    (Comp.ofFit v)[c].fit ≤ s.stock[c].counts.fit ∧ (Comp.ofFit v)[c].unfit ≤ s.stock[c].counts.unfit := by
  unfold Comp.ofFit
  rw [tab_get]
  exact ⟨h c, Nat.zero_le _⟩

theorem out_of (t : Till) (k : TillState) (h : t.state = k) : t.out = if k.floatOut then t.f else 0 := by
  rw [← h]
  rfl

/-- The cash of a movement out of the stock. -/
theorem moveOut_value (k : Comp) (s : State) (h : outRefusal s k = none) :
    (s.moveOut k).stockValue + valueOf s.denoms k = s.stockValue := by
  refine stockValue_moveOut k s fun c => ?_
  have := stockLacks_spec s k (outRefusal_none s k h) c
  exact ⟨this.1, this.2.1⟩

theorem balance_wrongOverride (s : State) (h : s.balanceLaw) : s.wrongOverride.balanceLaw := by
  unfold State.wrongOverride
  split <;> exact h

theorem post_stockValue (d : Int) (s : State) : (s.post d).stockValue = s.stockValue := rfl

theorem retire_out (t : Till) : t.retire.out = 0 := rfl

theorem afterPosting_out (l : Limits) (t : Till) : (t.afterPosting l).out = t.out := by
  unfold Till.afterPosting
  split
  · next hs _ =>
    have : t.out = 0 := out_of t _ hs
    dsimp only
    split
    · exact this.symm
    · rfl
  · rfl

theorem topup_balance (a : List Byte) (s : State) (h : s.balanceLaw) : (topupIssueEffect a s).state.balanceLaw := by
  unfold topupIssueEffect
  split
  · exact h
  split
  · exact h
  next t _ =>
  split
  · exact h
  next l _ =>
  dsimp only
  split
  · exact h
  split
  · exact h
  split
  · exact h
  next hs =>
  split
  · exact h
  next ho =>
  split
  · exact h
  split
  · exact h
  have e1 : (s.till t).out = (s.till t).f := out_of (s.till t) _ (not_not.mp hs)
  have e2 := out_of { s.till t with
      issue := tab fun c => (s.till t).issue[c] + (lineCounts l)[c]
      f := (s.till t).f + fitValue s.denoms (lineCounts l) } .trading (not_not.mp hs)
  refine balanceLaw_congr _ _ rfl rfl rfl rfl rfl
    (balance_till (v := s.moveOut (Comp.ofFit (lineCounts l))) t { s.till t with
      issue := tab fun c => (s.till t).issue[c] + (lineCounts l)[c]
      f := (s.till t).f + fitValue s.denoms (lineCounts l) } h (b := 0)
      (moveOut_value _ s ho) rfl rfl (Int.add_zero _).symm ?_)
  rw [e1, e2, fitValue_ofFit]
  simp only [TillState.floatOut, if_true]
  omega

/-- The till commands and the decisions on a till keep the law (R31 to R37, R96, R98). -/
theorem effect_balanceTills (c : Cmd) (a : List Byte) (s : State) (h : s.balanceLaw) (hT : s.tillsOk s.denoms)
    (hc : c ∈ [Cmd.tillSetup, .floatIssue, .floatCancel, .tillOpen, .topupIssue, .posCash, .tillClose, .varianceAccept,
      .recount]) : (effect c a s).state.balanceLaw := by
  have sameOut : ∀ (t : TillIx) (u : Till), u.out = (s.till t).out → (s.setTill t u).balanceLaw := by
    intro t u hu
    refine balanceLaw_same s _ h rfl (fun _ => rfl) (fun v => ?_) rfl rfl
    rw [till_setTill]
    split
    · next e => rw [e, hu]
    · rfl
  cases c <;> first | exact absurd hc (by decide) | skip
  case tillSetup =>
    refine withTill_state State.balanceLaw _ _ _ _ h fun t => ?_
    dsimp only
    repeat' split
    all_goals try exact h
    exact sameOut t _ rfl
  case floatIssue =>
    refine withTill_state State.balanceLaw _ _ _ _ h fun t => ?_
    dsimp only
    split
    · exact h
    next hs =>
    rw [not_or, not_not] at hs
    split
    · exact h
    split
    · exact h
    split
    · exact h
    · generalize hb : floatBuild s s.templates[(s.till t).template] = b
      have hw : ∀ c : Code, b.takes[c] ≤ s.stock[c].counts.fit := hb ▸ floatBuild_within s _
      refine balance_till (v := s.moveOut (Comp.ofFit b.takes)) t _ h (b := 0)
        (stockValue_moveOut (Comp.ofFit b.takes) s (fit_within b.takes s hw)) rfl rfl (Int.add_zero _).symm ?_
      rw [out_of (s.till t) _ hs.2, fitValue_ofFit]
      show (0 : Int) + ((fitValue s.denoms b.takes : Nat) : Int) - _ - (0 : Nat) = 0
      omega
  case floatCancel =>
    refine withTill_state State.balanceLaw _ _ _ _ h fun t => ?_
    dsimp only
    split
    · exact h
    next hs =>
    split
    · exact h
    · refine balance_till (v := s.moveIn (Comp.ofFit (s.till t).issue)) t _ h (a := 0)
        ((Nat.add_zero _).trans (stockValue_moveIn (Comp.ofFit (s.till t).issue) s)) rfl rfl (Int.add_zero _).symm ?_
      have e1 : (s.till t).out = (s.till t).f := out_of (s.till t) _ (not_not.mp hs)
      rw [e1, fitValue_ofFit, ← (hT t).1, retire_out]
      omega
  case tillOpen =>
    refine withTill_state State.balanceLaw _ _ _ _ h fun t => ?_
    dsimp only
    split
    · exact h
    · next hs => exact sameOut t _ (out_of (s.till t) _ (not_not.mp hs)).symm
  case topupIssue => exact topup_balance a s h
  case posCash =>
    refine withTill_state State.balanceLaw _ _ _ _ h fun t => ?_
    dsimp only
    repeat' split
    all_goals try exact h
    exact sameOut t _ (afterPosting_out _ _)
  case tillClose =>
    refine withTill_state State.balanceLaw _ _ _ _ h fun t => ?_
    dsimp only
    split
    · exact h
    next hs =>
    have h1 := sameOut t { s.till t with state := .closing } (out_of (s.till t) _ (not_not.mp hs)).symm
    dsimp only [Answer.state]
    split
    · rw [raiseCall_eq]
      exact h1
    · rw [raiseCall_eq]
      exact h1
  case varianceAccept =>
    refine withTill_state State.balanceLaw _ _ _ _ h fun t => ?_
    apply withAuthority_state State.balanceLaw
    · exact h
    · exact balance_wrongOverride s h
    split
    · next hs _ => exact sameOut t _ (out_of (s.till t) _ hs).symm
    · exact h
  case recount =>
    refine withTill_state State.balanceLaw _ _ _ _ h fun t => ?_
    apply withAuthority_state State.balanceLaw
    · exact h
    · exact balance_wrongOverride s h
    generalize hu : ({ s with auth := { s.auth with failures := 0 } } : State) = u
    have hB : u.balanceLaw := hu ▸ h
    have hT' : u.tillsOk u.denoms := hu ▸ hT
    dsimp only
    split
    swap
    · exact hB
    next r hs hr =>
    split
    · exact hB
    next ho =>
    split
    · exact hB
    next hp =>
    have e1 : (u.till t).out = 0 := out_of (u.till t) _ hs
    have e2 := out_of { u.till t with state := .closing, lane := none } .closing rfl
    have hv : (State.post (((u.till t).f : Int) - r.c) (u.moveOut r.comp)).stockValue + valueOf u.denoms r.comp =
        u.stockValue + 0 := by
      rw [post_stockValue, Nat.add_zero]
      exact moveOut_value _ u ho
    refine balance_till t _ hB hv rfl rfl (post_balance _ u (eq_false_of_ne_true hp)) ?_
    rw [e1, e2, ← (hT' t).2 hs r hr]
    simp only [TillState.floatOut, if_true]
    omega

/-! ### The bag value -/

/-- Every bag number is worth what it was. -/
def State.sameWorth (s u : State) : Prop := ∀ b, bagWorth (u.bag b) = bagWorth (s.bag b)

theorem sameWorth_value (s u : State) (h : s.sameWorth u) : u.bagValue = s.bagValue := by
  have : u.bags.toList.map bagWorth = s.bags.toList.map bagWorth := by
    refine List.ext_getElem (by simp) fun n h1 h2 => ?_
    have hn : n < 48 := by simpa using h1
    simpa [State.bag] using h ⟨n, hn⟩
  show (u.bags.toList.map bagWorth).sum = (s.bags.toList.map bagWorth).sum
  rw [this]

theorem sameWorth_mapBag (b : BagIx) (f : Bag → Bag) (s u : State) (h : s.sameWorth u) (hf : ∀ x, (f x).value = x.value) :
    s.sameWorth (u.setBag b ((u.bag b).map f)) := by
  intro d
  rw [bag_setBag]
  split
  · next e =>
    subst e
    rw [← h]
    cases u.bag d with
    | none => rfl
    | some x => exact hf x
  · exact h d

theorem sameWorth_markBags (l : List BagIx) (k : BagState) (s u : State) (h : s.sameWorth u) :
    s.sameWorth (l.foldl (fun s b => s.markBag b k) u) := by
  induction l generalizing u with
  | nil => exact h
  | cons b r ih => exact ih _ (sameWorth_mapBag b _ s u h fun _ => rfl)

theorem sameWorth_placeOne (b : BagIx) (s u : State) (h : s.sameWorth u) : s.sameWorth (u.placeOne b) := by
  have he : s.sameWorth (u.entered b) :=
    sameWorth_mapBag b (fun x => { x with state := .placed, comp := some u.rack.ptr }) s u h fun _ => rfl
  obtain ⟨c1, c2, c3⟩ := placeOne_cases b u
  by_cases hr : (u.rack.comps[u.rack.ptr] ++ [b]).length < u.rack.k
  · rw [c1 hr]
    exact he
  · by_cases hc : (u.entered b).rack.comps[u.rack.ptr + 1] = []
    · rw [c2 hr hc]
      exact he
    · rw [c3 hr hc]
      exact he

theorem sameWorth_placeFrom (l : List BagIx) (s u : State) (h : s.sameWorth u) : s.sameWorth (State.placeFrom l u) := by
  induction l generalizing u with
  | nil => exact h
  | cons b r ih =>
    by_cases ht : u.rack.halt = true
    · rw [placeFrom_halted b r u ht]
      exact h
    · rw [placeFrom_free b r u ht]
      exact ih _ (sameWorth_placeOne b s u h)

theorem sameWorth_liftHalt (s u : State) (h : s.sameWorth u) : s.sameWorth u.liftHalt := by
  unfold State.liftHalt
  split
  · exact sameWorth_placeFrom _ s _ h
  · exact h

theorem effect_sameWorth (c : Cmd) (a : List Byte) (s : State)
    (hc : c ∈ [Cmd.bagShut, .manAdd, .manRemove, .manCancel, .bagScan, .manResume]) :
    s.sameWorth (effect c a s).state := by
  have h : s.sameWorth s := fun _ => rfl
  have mark : ∀ (b : BagIx) (k : BagState) (u : State), s.sameWorth u → s.sameWorth (u.markBag b k) :=
    fun b k u hu => sameWorth_mapBag b _ s u hu fun _ => rfl
  have wrong : s.sameWorth s.wrongOverride := by
    unfold State.wrongOverride
    split <;> exact h
  cases c <;> first | exact absurd hc (by decide) | skip
  case bagShut =>
    refine withBag_state (State.sameWorth s) _ _ _ _ h fun b x hx => ?_
    dsimp only
    split
    · exact h
    split
    · exact h
    · refine sameWorth_placeFrom _ s _ fun d => ?_
      show bagWorth ((s.setBag b _).bag d) = _
      rw [bag_setBag]
      split
      · next e => rw [e, hx]; rfl
      · rfl
  case manAdd =>
    refine withMan_state (State.sameWorth s) _ _ _ _ h fun i m _ hm => ?_
    dsimp only
    repeat' split
    all_goals try dsimp only [Answer.state]
    all_goals first
      | with_reducible exact h
      | exact mark _ _ (s.setMan i _) h
  case manRemove =>
    refine withMan_state (State.sameWorth s) _ _ _ _ h fun i m _ hm => ?_
    dsimp only
    repeat' split
    all_goals try dsimp only [Answer.state]
    all_goals first
      | with_reducible exact h
      | exact mark _ _ (s.setMan i _) h
  case manCancel =>
    refine withMan_state (State.sameWorth s) _ _ _ _ h fun i m _ hm => ?_
    dsimp only
    split
    · exact h
    · exact sameWorth_markBags _ _ s (s.setMan i none) h
  case bagScan =>
    refine withMan_state (State.sameWorth s) _ _ _ _ h fun i m _ hm => ?_
    repeat' split
    all_goals try exact h
    unfold scanEntry
    split
    · dsimp only [Answer.state]
      rw [recomputeDoor_eq]
      exact h
    · dsimp only [Answer.state]
      repeat' split
      all_goals first
        | exact mark _ _ (s.setMan i _) h
        | exact h
  case manResume =>
    refine withMan_state (State.sameWorth s) _ _ _ _ h fun i m _ hm => ?_
    apply withAuthority_state (State.sameWorth s)
    · exact h
    · exact wrong
    generalize hu : ({ s with auth := { s.auth with failures := 0 } } : State) = u
    have h' : s.sameWorth u := by
      rw [← hu]
      exact h
    repeat' split
    all_goals try exact h'
    dsimp only [Answer.state]
    rw [recomputeDoor_eq]
    exact mark _ _ (u.setMan i _) h'

theorem retireBag_value (b : BagIx) (s : State) : (s.retireBag b).bagValue + bagWorth (s.bag b) = s.bagValue := by
  have := bagValue_setBag b none s
  exact this

/-- Cash moves between the stock and a bag. -/
theorem balance_bag {s v : State} (b : BagIx) (o : Option Bag) (h : s.balanceLaw) {c d : Nat}
    (hs : v.stockValue + c = s.stockValue + d) (ht : v.tills = s.tills) (hb : v.bags = s.bags)
    (hB : v.balance = s.balance) (hx : d + bagWorth o = c + bagWorth (s.bag b)) : (v.setBag b o).balanceLaw := by
  have h3 := bagValue_setBag b o v
  have e1 : (v.setBag b o).floatsOut = s.floatsOut := by
    unfold State.floatsOut State.setBag
    rw [ht]
  have e2 : v.bagValue = s.bagValue := by
    unfold State.bagValue
    rw [hb]
  have e3 : v.bag b = s.bag b := by
    unfold State.bag
    rw [hb]
  have e4 : (v.setBag b o).stockValue = v.stockValue := rfl
  have e5 : (v.setBag b o).balance = v.balance := rfl
  rw [e2, e3] at h3
  unfold State.balanceLaw at *
  omega

theorem retireEntry_value (e : Entry) (s : State) :
    (s.retireEntry e).bagValue + s.entryValue e = s.bagValue := by
  unfold State.retireEntry State.entryValue
  split
  · exact retireBag_value e.bag s
  · rfl

theorem entryValue_retire (e f : Entry) (s : State) (h : e.bag ≠ f.bag) :
    (s.retireEntry e).entryValue f = s.entryValue f := by
  have hb : (s.retireEntry e).bag f.bag = s.bag f.bag := by
    unfold State.retireEntry
    split
    · show (s.setBag e.bag none).bag f.bag = _
      rw [bag_setBag, if_neg (Ne.symm h)]
    · rfl
  unfold State.entryValue State.entryPresent
  rw [hb]

/-- Entries of distinct bags retire: the bag value falls by theirs (R136). -/
theorem retireEntries_value (l : List Entry) (s : State) (h : l.Pairwise fun e f => e.bag ≠ f.bag) :
    (l.foldl State.retireEntry s).bagValue + (l.map s.entryValue).sum = s.bagValue := by
  induction l generalizing s with
  | nil => rfl
  | cons e r ih =>
    obtain ⟨he, hr⟩ := List.pairwise_cons.mp h
    have h1 := ih (s.retireEntry e) hr
    have h2 := retireEntry_value e s
    have h3 : r.map (s.retireEntry e).entryValue = r.map s.entryValue :=
      List.map_congr_left fun f hf => entryValue_retire e f s (he f hf)
    rw [h3] at h1
    rw [List.foldl_cons, List.map_cons, List.sum_cons]
    omega

/-- A lift of the halt leaves the law. -/
theorem balance_liftHalt (s : State) (h : s.balanceLaw) : s.liftHalt.balanceLaw := by
  have e3 : s.liftHalt.bagValue = s.bagValue := sameWorth_value s _ (sameWorth_liftHalt s s fun _ => rfl)
  have e1 : s.liftHalt.stockValue = s.stockValue := by
    rw [liftHalt_eq]
    rfl
  have e2 : s.liftHalt.floatsOut = s.floatsOut := by
    rw [liftHalt_eq]
    rfl
  have e4 : s.liftHalt.balance = s.balance := by rw [liftHalt_eq]
  unfold State.balanceLaw
  rw [e1, e2, e3, e4]
  exact h

/-- BAG-OPEN, BAG-ADD, BAG-RETURN, BAG-BREAK and COURIER-SIGN keep the law (R108 to R112, R136). -/
theorem effect_balanceBags (c : Cmd) (a : List Byte) (s : State) (h : s.balanceLaw)
    (hF : s.bagsAll (lineFigures s.denoms)) (hL : s.rackLaw)
    (hc : c ∈ [Cmd.bagOpen, .bagAdd, .bagReturn, .bagBreak, .courierSign]) : (effect c a s).state.balanceLaw := by
  cases c <;> first | exact absurd hc (by decide) | skip
  case bagOpen =>
    show (bagOpenEffect a s).state.balanceLaw
    unfold bagOpenEffect
    dsimp only
    split
    · exact h
    split
    · exact h
    split
    · exact h
    split
    · exact h
    split
    · exact h
    next b hb =>
    refine balance_bag b _ h (c := 0) (d := 0) rfl rfl rfl rfl ?_
    rw [freeBag_none s b hb]
    rfl
  case bagAdd =>
    refine withBag_state State.balanceLaw _ _ _ _ h fun b x hx => ?_
    dsimp only
    split
    · exact h
    next c k n _ =>
    split
    · exact h
    split
    · exact h
    next ho =>
    split
    · exact h
    split
    · exact h
    refine balance_bag (s := s) (v := s.moveOut (Comp.only c k n)) b _ h (d := 0) (moveOut_value _ s ho) rfl rfl rfl ?_
    have hw := value_addLine s.denoms c k n x.lines (hF b x hx).1
    have hv := (hF b x hx).2
    rw [hx]
    show 0 + valueOf s.denoms (linesComp (addLine c k n x.lines)) = _ + x.value
    omega
  case bagReturn =>
    refine withBag_state State.balanceLaw _ _ _ _ h fun b x hx => ?_
    dsimp only
    split
    · exact h
    next c k n _ =>
    split
    · exact h
    split
    · exact h
    next hn =>
    split
    · exact h
    have hs : (s.moveIn (Comp.only c k n)).stockValue + 0 = s.stockValue + valueOf s.denoms (Comp.only c k n) :=
      (Nat.add_zero _).trans (stockValue_moveIn _ s)
    refine balance_bag b _ h hs rfl rfl rfl ?_
    have hw := value_takeLine s.denoms c k n x.lines (hF b x hx).1 (Nat.not_lt.mp hn)
    have hv := (hF b x hx).2
    rw [hx]
    show _ + valueOf s.denoms (linesComp (takeLine c k n x.lines)) = 0 + x.value
    omega
  case bagBreak =>
    refine withBag_state State.balanceLaw _ _ _ _ h fun b x hx => ?_
    apply withAuthority_state State.balanceLaw
    · exact h
    · exact balance_wrongOverride s h
    generalize hu : ({ s with auth := { s.auth with failures := 0 } } : State) = u
    have hB : u.balanceLaw := hu ▸ h
    have hv : x.value = valueOf u.denoms (linesComp x.lines) := hu ▸ (hF b x hx).2
    have hx' : u.bag b = some x := hu ▸ hx
    dsimp only
    split
    · exact hB
    split
    · exact hB
    refine balance_liftHalt _ ?_
    have hs : (u.moveIn (linesComp x.lines)).stockValue + 0 = u.stockValue + valueOf u.denoms (linesComp x.lines) :=
      (Nat.add_zero _).trans (stockValue_moveIn _ u)
    refine balanceLaw_congr _ _ rfl rfl rfl rfl rfl (balance_bag b none hB hs rfl rfl rfl ?_)
    rw [hx', ← hv]
    show _ = 0 + x.value
    show x.value + 0 = 0 + x.value
    omega
  case courierSign =>
    refine withMan_state State.balanceLaw _ _ _ _ h fun i m hi hm => ?_
    split
    swap
    · unfold signDelivery
      split <;> exact h
    next c hb =>
    unfold signCollection
    dsimp only
    split
    · exact h
    split
    · exact h
    next hlt =>
    refine balance_liftHalt _ ?_
    generalize hl : c.entries.filter (fun e => e.status == .accepted) = l
    have hd : l.Pairwise fun e f => e.bag ≠ f.bag := by
      rw [← hl]
      refine List.Pairwise.imp_of_mem ?_ (List.Pairwise.filter _ (hL.2.2.2 i m c hm hb).1)
      intro e f he hf hef
      have he2 := (List.mem_filter.mp he).2
      have hf2 := (List.mem_filter.mp hf).2
      exact hef (by rw [eq_of_beq he2]; decide) (by rw [eq_of_beq hf2]; decide)
    have hv := retireEntries_value l s hd
    have hval : s.valueAccepted c = (l.map s.entryValue).sum := by
      rw [← hl]
      rfl
    rw [hval] at hlt ⊢
    rw [recomputeDoor_eq]
    have e1 : (l.foldl State.retireEntry s).stockValue = s.stockValue := by
      rw [retireEntries_eq]
      rfl
    have e2 : (l.foldl State.retireEntry s).floatsOut = s.floatsOut := by
      rw [retireEntries_eq]
      rfl
    have e3 : (l.foldl State.retireEntry s).balance = s.balance := by rw [retireEntries_eq]
    show (l.foldl State.retireEntry s).stockValue + (l.foldl State.retireEntry s).floatsOut +
      (l.foldl State.retireEntry s).bagValue = (((l.foldl State.retireEntry s).balance : Int) + _).toNat
    rw [e1, e2, e3]
    unfold State.balanceLaw at h
    omega

/-! ### Sessions -/

theorem out_closing (t u : Till) (h : t.state = .inCount) (hu : u.state = .closing) (hf : u.f = t.f) :
    u.out = t.out := by
  rw [out_of t _ h, out_of u _ hu, hf]
  rfl

theorem balance_release (i : LaneIx) (s : State) (h : s.balanceLaw) (hb : s.boundLaw) :
    (s.releaseLane i).balanceLaw := by
  have e := releaseLane_eq i s
  refine balanceLaw_same s _ h (by rw [e]) (fun c => ?_) (fun t => ?_) (by rw [e]) (by rw [e])
  · unfold State.releaseLane
    split
    · rfl
    · rw [release_stock]
  · unfold State.releaseLane
    split
    · rfl
    · next x hx =>
      rw [release_till]
      by_cases ht : x.purpose = .tillClose t
      · exact out_closing _ _ ((hb i x hx).1 t ht).1 (if_pos ht) rfl
      · exact out_of _ _ (if_neg ht)

theorem balance_lanesDown (s : State) (h : s.balanceLaw) (hb : s.boundLaw) : s.lanesDown.balanceLaw := by
  have e := lanesDown_eq s
  refine balanceLaw_same s _ h (by rw [e]) (fun c => ?_) (fun t => ?_) (by rw [e]) (by rw [e])
  · rw [lanesDown_stock, releases_stock]
  · rw [lanesDown_till, releases_till]
    by_cases ht : s.heldBy lanesAll (fun p => decide (p = .tillClose t)) = true
    · obtain ⟨q, hq, i, x, hx, hp⟩ := (heldBy_iff s _).mp ht
      have hq : q = .tillClose t := of_decide_eq_true hq
      exact out_closing _ _ ((hb i x hx).1 t (hp.trans hq)).1 (if_pos ht) rfl
    · exact out_of _ _ (if_neg ht)

theorem balance_bind (i : LaneIx) (l : Lane) (p : Purpose) (s : State) (o : OpenTarget) (h : s.balanceLaw)
    (hc : bindCheck s o = .ok p) : ((s.setLane i l).bindSession i p).balanceLaw := by
  have e := bindSession_eq i p (s.setLane i l)
  refine balanceLaw_same s _ h (by rw [e]; rfl) (fun c => ?_) (fun t => ?_) (by rw [e]; rfl) (by rw [e]; rfl)
  · unfold State.bindSession
    split
    · rfl
    · rfl
    · split <;> rfl
    · simp only [State.freeze, tab_get]
      split <;> rfl
  · unfold State.bindSession
    split
    · next u =>
      have hb := (bindCheck_bound s o _ hc u rfl).2.resolve_right fun e => absurd e.1 (by simp)
      show Till.out (((s.setLane i l).setTill u _).till t) = _
      rw [till_setTill]
      split
      · next ht =>
        subst ht
        exact (out_of (s.till t) _ hb.2).symm
      · rfl
    · next u =>
      rw [till_setTill]
      split
      · next ht =>
        subst ht
        rfl
      · rfl
    · split <;> rfl
    · rfl

theorem afterClose_out (r : LastResult) (t : Till) : (t.afterClose r).out = 0 := by
  unfold Till.afterClose
  split <;> rfl

theorem inRefusal_value (k : Comp) (d : Int) (s : State) :
    ((s.moveIn k).post d).stockValue + 0 = s.stockValue + valueOf s.denoms k :=
  (Nat.add_zero _).trans (stockValue_moveIn k s)

theorem pickup_out (t u : Till) (b : Nat) (x : Int) (hu : u.out = t.out) (hx : (b : Int) = x) :
    (b : Int) + u.out - (0 : Nat) - t.out = x := by
  rw [hu]
  omega

theorem balance_skim (t : TillIx) (s : State) (h : s.balanceLaw) : (s.reevaluateSkim t).balanceLaw := by
  obtain ⟨_, e⟩ := reevaluateSkim_frame t s
  rw [e]
  exact h

/-- Every commit keeps the law (R90, R93, R100, R140). -/
theorem balance_commit (i : LaneIx) (x : Session) (s : State) (hx : (s.lane i).session = some x) (h : s.balanceLaw)
    (hb : s.boundLaw) : (commitSession i x s).state.balanceLaw := by
  unfold commitSession
  split
  · next t hp =>
    have hs := ((hb i x hx).1 t hp).1
    unfold commitTillClose
    dsimp only
    split
    · exact h
    split
    · exact h
    split
    · exact h
    next hr =>
    refine balanceLaw_congr _ _ rfl rfl rfl rfl rfl
      (balance_till t ((s.till t).afterClose (closeResult s t x.comp)) h (inRefusal_value x.comp _ s) rfl rfl
        (post_balance _ s (eq_false_of_ne_true hr)) ?_)
    rw [afterClose_out, out_of (s.till t) _ hs]
    simp only [TillState.floatOut, if_true]
    omega
  · next t hp =>
    unfold commitPickup
    dsimp only
    split
    · exact h
    split
    · exact h
    split
    · exact h
    split
    · exact h
    next hr =>
    have hu := balance_till t { s.till t with
        p := (s.till t).p + valueOf s.denoms x.comp, pickups := (s.till t).pickups + 1, lane := none } h
        (inRefusal_value x.comp _ s) rfl rfl (post_balance _ s (eq_false_of_ne_true hr))
        (pickup_out (s.till t) _ _ _ rfl rfl)
    exact balance_skim t _ (balanceLaw_congr _ _ rfl rfl rfl rfl rfl hu)
  · unfold commitDelivery
    split
    · exact h
    split
    · split
      · unfold commitDeliveryTo
        dsimp only
        split
        · exact h
        split
        · exact h
        split
        · exact h
        next hr =>
        have hp := post_balance _ s (eq_false_of_ne_true hr)
        have hv := inRefusal_value x.comp (valueOf s.denoms x.comp) s
        have : ((s.moveIn x.comp).post (valueOf s.denoms x.comp)).balanceLaw :=
          balance_shift (c := 0) (d := 0) (e := 0) (f := 0) h hv rfl rfl hp (by omega)
        exact balanceLaw_congr _ _ rfl rfl rfl rfl rfl this
      · exact h
    · exact h
  · refine balanceLaw_same s _ h rfl (fun c => ?_) (fun _ => rfl) rfl rfl
    show (State.freeze _ false s).stock[c].counts = _
    simp only [State.freeze, tab_get]
    split <;> rfl

/-! ### The audit and the clearing -/

theorem sumOver_eq (m : CodeSet) (f : Code → Int) (g h : Code → Nat)
    (hf : ∀ c, has m c = true → f c = (g c : Int) - h c) (hn : ∀ c, ¬has m c = true → g c = h c) :
    sumOver m f = (sumCodes g : Int) - sumCodes h := by
  unfold sumOver sumCodes
  generalize codes = l
  induction l with
  | nil => rfl
  | cons c r ih =>
    rw [List.filter_cons]
    by_cases hc : has m c = true
    · rw [if_pos hc, List.map_cons, List.sum_cons, ih, hf c hc, List.map_cons, List.sum_cons, List.map_cons,
        List.sum_cons]
      push_cast
      omega
    · rw [if_neg hc, ih, List.map_cons, List.sum_cons, List.map_cons, List.sum_cons, hn c hc]
      push_cast
      omega

/-- An acceptance on a result that is not stale moves the valued stock by the difference it posts (R101). -/
theorem setAudited_value (r : AuditResult) (s : State) (h : ∀ c, ¬r.stale s c = true) :
    ((s.setAudited r).stockValue : Int) = s.stockValue + sumOver r.codes (exactDiff s.denoms r.counted r.stock) := by
  have e := sumOver_eq r.codes (exactDiff s.denoms r.counted r.stock)
    (fun c => ((s.setAudited r).stock[c].counts.fit + (s.setAudited r).stock[c].counts.unfit) * s.denoms[c].face)
    (fun c => (s.stock[c].counts.fit + s.stock[c].counts.unfit) * s.denoms[c].face) (fun c hc => ?_) (fun c hc => ?_)
  · rw [e]
    show _ = (s.stockValue : Int) + (((s.setAudited r).stockValue : Int) - s.stockValue)
    omega
  · have hs := h c
    unfold AuditResult.stale at hs
    rw [hc] at hs
    simp only [Bool.true_and, bne_iff_ne, ne_eq, not_not] at hs
    unfold exactDiff State.setAudited
    simp only [tab_get, if_pos hc, hs]
  · unfold State.setAudited
    simp only [tab_get, if_neg hc]

theorem auditAccept_balance (a : List Byte) (s : State) (h : s.balanceLaw) : (auditAcceptEffect a s).state.balanceLaw := by
  unfold auditAcceptEffect
  split
  · exact h
  apply withAuthority_state State.balanceLaw
  · exact h
  · exact balance_wrongOverride s h
  generalize hu : ({ s with auth := { s.auth with failures := 0 } } : State) = u
  have hB : u.balanceLaw := hu ▸ h
  split
  · exact hB
  next r _ =>
  dsimp only
  split
  · exact hB
  next hst =>
  split
  · exact hB
  next hr =>
  have hv := setAudited_value r u fun c => by
    simpa using List.any_eq_false.mp (eq_false_of_ne_true hst) c (mem_codes c)
  have hp := post_balance _ u (eq_false_of_ne_true hr)
  show (u.setAudited r).stockValue + u.floatsOut + u.bagValue =
    (State.post (sumOver r.codes (exactDiff u.denoms r.counted r.stock)) u).balance
  unfold State.balanceLaw at hB
  omega

theorem cleared_balance (s : State) : s.clearRecords.balanceLaw := by
  have e1 : s.clearRecords.stockValue = 0 := by
    refine (sumCodes_congr fun c => ?_).trans sumCodes_zero
    unfold State.clearRecords
    simp only [tab_get]
    exact Nat.zero_mul _
  have e2 : s.clearRecords.floatsOut = 0 := by
    show (s.clearRecords.tills.toList.map Till.out).sum = 0
    have : ∀ n ∈ s.clearRecords.tills.toList.map Till.out, n = 0 := by
      intro n hn
      obtain ⟨t, ht, rfl⟩ := List.mem_map.mp hn
      have : t ∈ (mapT Till.retire s.tills).toList := ht
      unfold mapT at this
      obtain ⟨u, _, rfl⟩ : ∃ u ∈ s.tills, u.retire = t := by simpa using this
      rfl
    exact List.sum_eq_zero this
  have e3 : s.clearRecords.bagValue = 0 := by
    show ((Vector.replicate 48 (none : Option Bag)).toList.map bagWorth).sum = 0
    decide
  unfold State.balanceLaw
  rw [e1, e2, e3]
  rfl

/-! ### Every command -/

/-- The bag and manifest commands that leave every bag its value keep the law (R111, R127 to R135). -/
theorem effect_balanceMarks (c : Cmd) (a : List Byte) (s : State) (h : s.balanceLaw)
    (hc : c ∈ [Cmd.bagShut, .manAdd, .manRemove, .manCancel, .bagScan, .manResume]) :
    (effect c a s).state.balanceLaw := by
  have hv := sameWorth_value s _ (effect_sameWorth c a s hc)
  have hs := effect_same c a s
  have w : ∀ d ∈ [Cmd.bagShut, .manAdd, .manRemove, .manCancel, .bagScan, .manResume],
      d ∉ Cmd.denomsWriters ∧ d ∉ Cmd.stockWriters ∧ d ∉ Cmd.balanceWriters ∧ d ∉ Cmd.tillsWriters := by decide
  obtain ⟨w1, w2, w3, w4⟩ := w c hc
  have h1 := hs.1 w1
  have h2 := hs.2.1 w2
  have h3 := hs.2.2.1 w3
  have h4 := hs.2.2.2.1 w4
  generalize (effect c a s).state = u at hv h1 h2 h3 h4
  unfold State.balanceLaw State.stockValue State.floatsOut at *
  rw [h1, h2, h3, h4, hv]
  exact h

theorem denomSet_office (a : List Byte) (s : State) (hB : s.balanceLaw) (hT : s.tillsOk s.denoms)
    (hF : s.bagsAll (lineFigures s.denoms)) :
    let t := (denomSetEffect a s).state
    t.balanceLaw ∧ t.tillsOk t.denoms ∧ t.bagsAll (lineFigures t.denoms) := by
  have same : s.balanceLaw ∧ s.tillsOk s.denoms ∧ s.bagsAll (lineFigures s.denoms) := ⟨hB, hT, hF⟩
  unfold denomSetEffect
  split
  · exact same
  split
  · dsimp only
    split
    · exact same
    split
    · exact same
    split
    · exact same
    next hr => exact denomSet_laws _ _ s hr hB hT hF
  · exact same

theorem countOpen_balance (a : List Byte) (s : State) (h : s.balanceLaw) : (countOpenEffect a s).state.balanceLaw := by
  unfold countOpenEffect
  split
  · exact h
  split
  · dsimp only
    split
    · exact h
    split
    · exact h
    split
    · exact h
    split
    · exact h
    split
    · exact h
    split
    · exact h
    next hc => exact balance_bind _ _ _ s _ h hc
  · exact h

/-- The session and clearing commands keep the law (R73, R84, R85, R168). -/
theorem effect_balanceSessions (c : Cmd) (a : List Byte) (s : State) (h : s.balanceLaw) (hb : s.boundLaw)
    (hc : c ∈ [Cmd.recordsClear, .laneReset, .countOpen, .countCommit, .countAbort]) :
    (effect c a s).state.balanceLaw := by
  cases c <;> first | exact absurd hc (by decide) | skip
  case recordsClear =>
    show (recordsClearEffect a s).state.balanceLaw
    unfold recordsClearEffect
    split
    · exact h
    apply withAuthority_state State.balanceLaw
    · exact h
    · exact balance_wrongOverride s h
    split
    · exact h
    · exact cleared_balance _
  case laneReset =>
    refine withLane_state State.balanceLaw _ _ _ _ h fun i => ?_
    exact balanceLaw_congr _ _ rfl rfl rfl rfl rfl (balance_release i s h hb)
  case countAbort =>
    refine withProfiled_state State.balanceLaw _ _ _ _ h fun i _ => ?_
    dsimp only
    split
    · exact h
    · exact balanceLaw_congr _ _ rfl rfl rfl rfl rfl (balance_release i s h hb)
  case countOpen => exact countOpen_balance a s h
  case countCommit =>
    refine withProfiled_state State.balanceLaw _ _ _ _ h fun i _ => ?_
    split
    · exact h
    · next hx => exact balance_commit i _ s hx h hb
    · next hx => exact balance_commit i _ s hx h hb
    · exact h

/-- Every command keeps the law of the office balance, with the laws it rests on (R16). -/
theorem effect_officeLaw (c : Cmd) (a : List Byte) (s : State) (h : s.officeLaw) :
    (effect c a s).state.officeLaw := by
  obtain ⟨hB, hf, hk, hF, hb, hL⟩ := h
  have hT : s.tillsOk s.denoms := (tillsOk_iff s).mpr ⟨hf, hk⟩
  have hb' := effect_boundLaw c a s hb
  have hL' := effect_rackLaw c a s hL
  by_cases hd : c = .denomSet
  · subst hd
    obtain ⟨h1, h2, h3⟩ := denomSet_office a s hB hT hF
    obtain ⟨h4, h5⟩ := (tillsOk_iff _).mp h2
    exact ⟨h1, h4, h5, h3, hb', hL'⟩
  have hs := effect_same c a s
  have e : (effect c a s).state.denoms = s.denoms := hs.1 fun hm => hd (List.mem_singleton.mp hm)
  have h2 := effect_tillsOk c a s hT
  have h3 := effect_lineFigures c a s hF
  rw [← e] at h2 h3
  obtain ⟨h4, h5⟩ := (tillsOk_iff _).mp h2
  refine ⟨?_, h4, h5, h3, hb', hL'⟩
  by_cases c1 : c ∈ [Cmd.tillSetup, .floatIssue, .floatCancel, .tillOpen, .topupIssue, .posCash, .tillClose,
    .varianceAccept, .recount]
  · exact effect_balanceTills c a s hB hT c1
  by_cases c2 : c ∈ [Cmd.bagOpen, .bagAdd, .bagReturn, .bagBreak, .courierSign]
  · exact effect_balanceBags c a s hB hF hL c2
  by_cases c3 : c ∈ [Cmd.bagShut, .manAdd, .manRemove, .manCancel, .bagScan, .manResume]
  · exact effect_balanceMarks c a s hB c3
  by_cases c4 : c ∈ [Cmd.recordsClear, .laneReset, .countOpen, .countCommit, .countAbort]
  · exact effect_balanceSessions c a s hB hb c4
  by_cases c5 : c = .auditAccept
  · subst c5
    exact auditAccept_balance a s hB
  have none : c ∉ Cmd.stockWriters ∧ c ∉ Cmd.balanceWriters ∧ c ∉ Cmd.tillsWriters ∧ c ∉ Cmd.bagsWriters := by
    clear hb' hL' hs e h2 h3 h4 h5
    cases c <;> first
      | decide
      | exact absurd (by decide) c1
      | exact absurd (by decide) c2
      | exact absurd (by decide) c3
      | exact absurd (by decide) c4
      | exact absurd rfl c5
  exact balanceLaw_congr s _ e (hs.2.1 none.1) (hs.2.2.2.1 none.2.2.1) (hs.2.2.2.2.2.1 none.2.2.2)
    (hs.2.2.1 none.2.1) hB

end Sys2Proof.Machine
end

