-- ==== Sys2Proof/Laws/Events.lean ====
section
/-! SUPPORT. The events keep the law of the office balance: the frames of a counter keep the purpose of a session,
and the end of all work releases every till (R16, R71, R84, R86). -/

namespace Sys2Proof.Machine

/-! ### The frames of a counter -/

theorem boundLaw_laneError (e : LaneError) (i : LaneIx) (s : State) (h : s.boundLaw) : (s.laneError e i).boundLaw := by
  unfold State.laneError
  dsimp only
  split
  · exact h
  all_goals exact boundLaw_setLane i _ s h (.inl rfl)

theorem push_purpose (b : Batch) (x : Session) : (x.push b).purpose = x.purpose := by
  unfold Session.push
  split
  · rfl
  · split <;> rfl

theorem boundLaw_takeBatch (i : LaneIx) (q c : Byte) (k : Counts) (s : State) (h : s.boundLaw) :
    (takeBatch i q c k s).boundLaw := by
  unfold takeBatch
  dsimp only
  split
  · exact h
  · exact boundLaw_laneError _ _ _ (boundLaw_setLane i _ s h (.inl rfl))
  all_goals
    split
    · exact h
    · next x hx =>
      split
      · refine boundLaw_setLane i _ s h (.inl ?_)
        rw [hx]
        exact congrArg some (push_purpose _ _)
      · exact boundLaw_laneError _ _ _ (boundLaw_setLane i _ s h (.inl rfl))
      · exact h

theorem boundLaw_takeHello (i : LaneIx) (m : Byte) (z : BitVec 32) (s : State) (h : s.boundLaw) :
    (takeHello i m z s).boundLaw := by
  have h1 : ∀ l : Lane, l.session = (s.lane i).session → (s.setLane i l).boundLaw := fun l e =>
    boundLaw_setLane i l s h (.inl (congrArg _ e))
  unfold takeHello
  dsimp only
  split
  · exact h
  · exact h1 _ rfl
  all_goals exact boundLaw_laneError _ _ _ (h1 _ rfl)

theorem boundLaw_takeEndFeed (i : LaneIx) (q : Byte) (s : State) (h : s.boundLaw) : (takeEndFeed i q s).boundLaw := by
  have he : (s.laneError .sequence i).boundLaw := boundLaw_laneError _ i s h
  have h1 : ∀ l : Lane, l.session = (s.lane i).session → (s.setLane i l).boundLaw := fun l e =>
    boundLaw_setLane i l s h (.inl (congrArg _ e))
  unfold takeEndFeed
  dsimp only
  repeat' split
  all_goals first
    | exact h
    | exact he
    | exact boundLaw_laneError _ i s h
    | exact h1 _ rfl

theorem boundLaw_takeHoldAck (i : LaneIx) (s : State) (h : s.boundLaw) : (takeHoldAck i s).boundLaw := by
  unfold takeHoldAck
  dsimp only
  split
  · exact boundLaw_setLane i _ s h (.inl rfl)
  · exact boundLaw_laneError _ i s h
  · exact boundLaw_laneError _ i s h
  all_goals exact h

theorem boundLaw_takeJam (i : LaneIx) (j : Byte) (s : State) (h : s.boundLaw) : (takeJam i j s).boundLaw := by
  unfold takeJam
  dsimp only
  split
  · exact h
  all_goals exact boundLaw_laneError _ _ _ (boundLaw_setLane i _ s h (.inl rfl))

theorem boundLaw_second (s : State) (h : s.boundLaw) : s.secondNow.boundLaw := by
  refine boundLaw_keep s _ h (fun j x hx => ⟨x, ?_, rfl⟩) fun v i p hb => hb
  have e : s.secondNow.lane j = (s.lane j).second := mapT_get ..
  rw [e] at hx
  exact hx

/-! ### The law of the office balance -/

/-- What the law rests on, but for the sessions, stands. -/
theorem officeLaw_congr (s u : State) (h : s.officeLaw) (hb : u.boundLaw) (h1 : u.denoms = s.denoms)
    (h2 : u.stock = s.stock) (h3 : u.tills = s.tills) (h4 : u.bags = s.bags) (h5 : u.balance = s.balance)
    (h6 : u.rack = s.rack) (h7 : u.mans = s.mans) : u.officeLaw := by
  obtain ⟨hB, hf, hk, hF, _, hL⟩ := h
  refine ⟨balanceLaw_congr s u h1 h2 h3 h4 h5 hB, ?_, ?_, ?_, hb, rackLaw_congr s u h4 h6 h7 hL⟩
  · unfold State.floatsLaw State.till at *
    rw [h1, h3]
    exact hf
  · unfold State.countedLaw State.till at *
    rw [h1, h3]
    exact hk
  · unfold State.figuresLaw State.bag at *
    rw [h1, h4]
    exact hF

/-- Every session released, every handover back to READY: the law stands (R84, R86, R144). -/
theorem officeLaw_down (s u : State) (h : s.officeLaw) (hl : u.lanes = Vector.replicate 4 Lane.unprofiled)
    (h1 : u.denoms = s.denoms) (h2 : u.stock = s.lanesDown.stock) (h3 : u.tills = s.lanesDown.tills)
    (h4 : u.bags = s.bags) (h5 : u.balance = s.balance) (hL : u.rackLaw) : u.officeLaw := by
  obtain ⟨hB, hf, hk, hF, hb, _⟩ := h
  have hB' := balance_lanesDown s hB hb
  have hT := tillsOk_lanesDown s.denoms s ((tillsOk_iff s).mpr ⟨hf, hk⟩)
  have e := lanesDown_eq s
  have d1 : s.lanesDown.denoms = s.denoms := by rw [e]
  have d4 : s.lanesDown.bags = s.bags := by rw [e]
  have d5 : s.lanesDown.balance = s.balance := by rw [e]
  have hT' : u.tillsOk u.denoms := by
    rw [h1]
    exact tillsOk_congr _ s.lanesDown u h3 hT
  obtain ⟨f1, f2⟩ := (tillsOk_iff u).mp hT'
  refine ⟨balanceLaw_congr s.lanesDown u (h1.trans d1.symm) h2 h3 (h4.trans d4.symm) (h5.trans d5.symm) hB', f1, f2, ?_,
    boundLaw_unprofiled u hl, hL⟩
  unfold State.figuresLaw State.bag at *
  rw [h1, h4]
  exact hF

theorem supplyEffects_fields (s : State) :
    s.supplyEffects.lanes = s.lanesDown.lanes ∧ s.supplyEffects.denoms = s.lanesDown.denoms ∧
    s.supplyEffects.stock = s.lanesDown.stock ∧ s.supplyEffects.tills = s.lanesDown.tills ∧
    s.supplyEffects.bags = s.lanesDown.bags ∧ s.supplyEffects.balance = s.lanesDown.balance := by
  unfold State.supplyEffects
  generalize s.lanesDown = v
  dsimp only
  rw [recomputeDoor_eq, abortRound_eq]
  exact ⟨rfl, rfl, rfl, rfl, rfl, rfl⟩

theorem pinReset_fields (s : State) :
    s.pinReset.lanes = s.endWork.lanes ∧ s.pinReset.denoms = s.endWork.denoms ∧
    s.pinReset.stock = s.endWork.stock ∧ s.pinReset.tills = s.endWork.tills ∧
    s.pinReset.bags = s.endWork.bags ∧ s.pinReset.balance = s.endWork.balance := by
  unfold State.pinReset
  generalize s.endWork = v
  dsimp only
  rw [recomputeDoor_eq]
  split <;> exact ⟨rfl, rfl, rfl, rfl, rfl, rfl⟩

theorem officeLaw_supplyEffects (s : State) (h : s.officeLaw) : s.supplyEffects.officeLaw := by
  obtain ⟨a1, a2, a3, a4, a5, a6⟩ := supplyEffects_fields s
  have e := lanesDown_eq s
  refine officeLaw_down s _ h a1 ?_ a3 a4 ?_ ?_ (rackLaw_supplyEffects s h.2.2.2.2.2)
  · rw [a2, e]
  · rw [a5, e]
  · rw [a6, e]

theorem officeLaw_pinReset (s : State) (h : s.officeLaw) : s.pinReset.officeLaw := by
  obtain ⟨a1, a2, a3, a4, a5, a6⟩ := pinReset_fields s
  have e := endWork_fields s
  refine officeLaw_down s _ h ?_ ?_ ?_ ?_ ?_ ?_ (rackLaw_pinReset s h.2.2.2.2.2)
  · rw [a1, e]
    rfl
  · rw [a2, e]
  · rw [a3, e]
  · rw [a4, e]
  · rw [a5, e]
  · rw [a6, e]

theorem officeLaw_startIntact (s : State) (h : s.officeLaw) : s.startIntact.officeLaw := by
  have hc : State.officeLaw { s with clock := Clock.unset } := h
  have e := endWork_fields { s with clock := Clock.unset }
  refine officeLaw_down { s with clock := Clock.unset } _ hc ?_ ?_ ?_ ?_ ?_ ?_ (rackLaw_startIntact s h.2.2.2.2.2)
  all_goals
    unfold State.startIntact
    dsimp only
    rw [e]
  rfl

end Sys2Proof.Machine
end

