-- ==== Sys2Proof/Laws/Lanes.lean ====
section
/-! SUPPORT. The receiver on whole frames: what a frame's characters come to (R61). -/

namespace Sys2Proof.Machine

theorem charSum_foldl (l : List Byte) (a : Byte) : l.foldl (fun a b => a + b) a = a + charSum l := by
  induction l generalizing a with
  | nil => simp [charSum]
  | cons b r ih =>
    simp only [charSum, List.foldl_cons] at *
    rw [ih, ih (0 + b)]
    simp [BitVec.add_assoc]

theorem charSum_append (l r : List Byte) : charSum (l ++ r) = charSum l + charSum r := by
  rw [charSum, List.foldl_append, charSum_foldl]
  rfl

theorem charSum_single (b : Byte) : charSum [b] = b := by simp [charSum]

/-- A character with its stop bit. -/
def goodChar (b : Byte) : RxChar := ⟨b, true⟩

/-- Characters while more are to come: they are collected, with no event. -/
theorem run_collecting (got body rest : List Byte)
    (h : ∀ n, n ≤ body.length → 0 < n →
      collect (got ++ body.take n) = (.collecting (got ++ body.take n), none)) :
    Receiver.run (body.map goodChar ++ rest.map goodChar) (.collecting got) =
      Receiver.run (rest.map goodChar) (.collecting (got ++ body)) := by
  induction body generalizing got with
  | nil => simp
  | cons b r ih =>
    have h1 := h 1 (by simp) (by simp)
    simp only [List.take_succ_cons, List.take_zero] at h1
    have h2 : ∀ n, n ≤ r.length → 0 < n →
        collect ((got ++ [b]) ++ r.take n) = (.collecting ((got ++ [b]) ++ r.take n), none) := by
      intro n hn h0
      have := h (n + 1) (by simp; omega) (by omega)
      simpa using this
    have step : Receiver.take (goodChar b) (.collecting got) = (.collecting (got ++ [b]), none) := by
      simp only [Receiver.take, goodChar, if_true, h1]
    simp only [List.map_cons, List.cons_append, Receiver.run, step, Option.toList, List.nil_append]
    rw [ih (got ++ [b]) h2]
    simp

theorem dropLast_append_single (l : List Byte) (b : Byte) : (l ++ [b]).dropLast = l := by simp

/-- The characters of a frame at a hunting receiver: the frame is judged by its CHECK sum, and the receiver
hunts again with the skip mark clear (R61). -/
theorem run_frame (kind check : Byte) (body : List Byte) (skip : Bool) (hl : body.length ≤ 12) :
    Receiver.run (frameCharsWith kind body check) (.hunting skip) =
      (.hunting false,
        [if charSum ([kind, BitVec.ofNat 8 body.length] ++ body ++ [check]) = 0 then .frame kind body
         else .error .check]) := by
  have hlen : (BitVec.ofNat 8 body.length).toNat = body.length := by simp; omega
  have key : ∀ x : List Byte, x.length ≤ body.length →
      collect (kind :: BitVec.ofNat 8 body.length :: x) =
        (.collecting (kind :: BitVec.ofNat 8 body.length :: x), none) := by
    intro x hx
    simp only [collect, hlen]
    rw [if_neg (by omega), if_neg (by omega)]
  have e : frameCharsWith kind body check =
      goodChar 0xC3 :: goodChar kind :: goodChar (BitVec.ofNat 8 body.length) ::
        (body.map goodChar ++ [check].map goodChar) := by
    simp [frameCharsWith, goodChar]
  rw [e]
  have c1 : collect [kind] = (.collecting [kind], none) := rfl
  have c2 := key [] (by simp)
  have r1 : Receiver.run (goodChar 0xC3 :: goodChar kind :: goodChar (BitVec.ofNat 8 body.length) ::
      (body.map goodChar ++ [check].map goodChar)) (.hunting skip) =
      Receiver.run (body.map goodChar ++ [check].map goodChar)
        (.collecting [kind, BitVec.ofNat 8 body.length]) := by
    simp only [Receiver.run, Receiver.take, and_self, if_true, goodChar, List.nil_append, c1,
      List.cons_append, c2, Option.toList]
  rw [r1, run_collecting _ _ _ (by
    intro n hn h0
    simpa using key (body.take n) (by simp))]
  simp only [List.map_cons, List.map_nil, Receiver.run, Receiver.take, goodChar, if_true]
  have c3 : collect ([kind, BitVec.ofNat 8 body.length] ++ body ++ [check]) =
      (.hunting false, some (judgeFrame ([kind, BitVec.ofNat 8 body.length] ++ body ++ [check]))) := by
    simp only [List.cons_append, List.nil_append, collect, hlen]
    rw [if_neg (by omega), if_pos (by simp)]
  rw [c3]
  have j : judgeFrame ([kind, BitVec.ofNat 8 body.length] ++ body ++ [check]) =
      if charSum ([kind, BitVec.ofNat 8 body.length] ++ body ++ [check]) = 0 then .frame kind body
      else .error .check := by
    simp only [List.cons_append, List.nil_append, judgeFrame, dropLast_append_single]
  rw [j]
  rfl

/-- A frame sent with its right CHECK is received (R61). -/
theorem run_frameChars (kind : Byte) (body : List Byte) (skip : Bool) (hl : body.length ≤ 12) :
    Receiver.run (frameChars kind body) (.hunting skip) = (.hunting false, [.frame kind body]) := by
  unfold frameChars
  rw [run_frame _ _ _ _ hl, charSum_append, charSum_single]
  simp

/-- The characters of a frame with its right CHECK, at a hunting lane of a supplied part (R61, R62). -/
theorem receive_frame (i : LaneIx) (kind : Byte) (body : List Byte) (skip : Bool) (s : State)
    (hl : body.length ≤ 12) (hp : s.powered = true) (hu : (s.lane i).state ≠ .unprofiled)
    (hr : (s.lane i).rx = .hunting skip) :
    receive i (frameChars kind body) s =
      takeFrame i kind body (s.setLane i { s.lane i with rx := .hunting false }) := by
  unfold receive
  rw [if_neg (by simp [hp, hu]), hr, run_frameChars _ _ _ hl]
  rfl

/-! ### Lane records and lane errors -/

theorem setLane_setLane (i : LaneIx) (s : State) (u v : Lane) : (s.setLane i u).setLane i v = s.setLane i v := by
  simp only [State.setLane]
  congr 1
  simp

theorem lane_setLane_self (i : LaneIx) (s : State) (u : Lane) : (s.setLane i u).lane i = u := by
  rw [lane_setLane, if_pos rfl]

/-- A lane error on a lane record just written (R65): the record with the error latched, and LANE. -/
theorem laneError_setLane (e : LaneError) (i : LaneIx) (s : State) (u : Lane) (h : u.state ≠ .unprofiled) :
    (s.setLane i u).laneError e i = State.raise .lane (s.setLane i (u.erring e)) := by
  unfold State.laneError
  rw [lane_setLane_self]
  cases hst : u.state
  case unprofiled => exact absurd hst h
  all_goals simp [Lane.erring, hst, setLane_setLane]

/-- A frame with its right CHECK, at a listening lane (R61, R62). -/
theorem receive_listens (i : LaneIx) (kind : Byte) (body : List Byte) (s : State) (hl : body.length ≤ 12)
    (h : s.listens i) :
    receive i (frameChars kind body) s = takeFrame i kind body (s.setLane i (s.lane i).heard) := by
  obtain ⟨h1, h2, sk, h3⟩ := h
  simp only [State.live, Bool.and_eq_true] at h1
  exact receive_frame i kind body sk s hl h1.1.1 h2 h3

theorem toNat_append8 {w : Nat} (a : BitVec w) (b : Byte) : (a ++ b).toNat = a.toNat * 256 + b.toNat := by
  rw [BitVec.toNat_append, ← Nat.shiftLeft_add_eq_or_of_lt b.isLt, Nat.shiftLeft_eq]

/-- The serial number that the 4 bytes of a HELLO body carry (section 11.4). -/
theorem serial_bytes (z : BitVec 32) :
    byte (z.toNat / 256 / 256 / 256) ++ byte (z.toNat / 256 / 256) ++ byte (z.toNat / 256) ++ byte z.toNat = z := by
  apply BitVec.eq_of_toNat_eq
  rw [toNat_append8, toNat_append8, toNat_append8]
  simp only [byte, BitVec.toNat_ofNat]
  omega

/-- A count that the 2 bytes of a BATCH body carry (section 11.4). -/
theorem count16_bytes (z : BitVec 16) : count16 (byte z.toNat) (byte (z.toNat / 256)) = z.toNat := by
  simp only [count16, leNat, byte, BitVec.toNat_ofNat]
  omega

/-! ### The lane rows at a listening lane -/

theorem settle_live (s : State) (h : s.live = true) : s.settle = s := by
  simp only [State.live, Bool.and_eq_true, List.isEmpty_iff] at h
  exact settle_of_nothing_due s h.2

theorem takeFrame_hello (i : LaneIx) (m : Byte) (z : BitVec 32) (s : State) :
    takeFrame i 0x01 (m :: serialBytes z) s = takeHello i m z s := by
  have e : takeFrame i 0x01 (m :: serialBytes z) s =
      takeHello i m (byte (z.toNat / 256 / 256 / 256) ++ byte (z.toNat / 256 / 256) ++ byte (z.toNat / 256) ++
        byte z.toNat) s := rfl
  rw [e, serial_bytes]

theorem takeFrame_batch (i : LaneIx) (q c : Byte) (f u z : BitVec 16) (s : State) :
    takeFrame i 0x02 ([q, c] ++ wordBytes f ++ wordBytes u ++ wordBytes z) s =
      takeBatch i q c ⟨f.toNat, u.toNat, z.toNat⟩ s := by
  have e : takeFrame i 0x02 ([q, c] ++ wordBytes f ++ wordBytes u ++ wordBytes z) s =
      takeBatch i q c ⟨count16 (byte f.toNat) (byte (f.toNat / 256)),
        count16 (byte u.toNat) (byte (u.toNat / 256)), count16 (byte z.toNat) (byte (z.toNat / 256))⟩ s := rfl
  rw [e, count16_bytes, count16_bytes, count16_bytes]

theorem exec_hello (i : LaneIx) (m : Byte) (z : BitVec 32) (s : State) (h : s.listens i) :
    exec (.hello i m z) s = .next (takeHello i m z (s.setLane i (s.lane i).heard)) := by
  have e : exec (.hello i m z) s = execHello i m z s := rfl
  rw [e, execHello, settle_live s h.1, receive_listens i _ _ s (by simp [serialBytes, le]) h, takeFrame_hello]

theorem exec_batch (i : LaneIx) (q c : Byte) (f u z : BitVec 16) (s : State) (h : s.listens i) :
    exec (.batch i q c f u z) s =
      .next (takeBatch i q c ⟨f.toNat, u.toNat, z.toNat⟩ (s.setLane i (s.lane i).heard)) := by
  have e : exec (.batch i q c f u z) s = execBatch i q c f u z s := rfl
  rw [e, execBatch, settle_live s h.1, receive_listens i _ _ s (by simp [wordBytes, le]) h, takeFrame_batch]

theorem exec_endFeed (i : LaneIx) (q : Byte) (s : State) (h : s.listens i) :
    exec (.endFeed i q) s = .next (takeEndFeed i q (s.setLane i (s.lane i).heard)) := by
  have e : exec (.endFeed i q) s = .next (receive i (frameChars 0x03 [q]) s.settle) := by
    unfold exec execEndFeed
    rfl
  rw [e, settle_live s h.1, receive_listens i _ _ s (by simp) h]
  rfl

theorem exec_holdAck (i : LaneIx) (s : State) (h : s.listens i) :
    exec (.holdAck i) s = .next (takeHoldAck i (s.setLane i (s.lane i).heard)) := by
  have e : exec (.holdAck i) s = .next (receive i (frameChars 0x04 []) s.settle) := by
    unfold exec execHoldAck
    rfl
  rw [e, settle_live s h.1, receive_listens i _ _ s (by simp) h]
  rfl

theorem exec_jam (i : LaneIx) (j : Byte) (s : State) (h : s.listens i) :
    exec (.jam i j) s = .next (takeJam i j (s.setLane i (s.lane i).heard)) := by
  have e : exec (.jam i j) s = .next (receive i (frameChars 0x05 [j]) s.settle) := by
    unfold exec execJam
    rfl
  rw [e, settle_live s h.1, receive_listens i _ _ s (by simp) h]
  rfl

/-- A lane row at an UNPROFILED lane: its characters are discarded (R60). -/
theorem receive_unprofiled (i : LaneIx) (l : List RxChar) (s : State) (h : (s.lane i).state = .unprofiled) :
    receive i l s = s := by
  unfold receive
  rw [if_pos (Or.inr h)]

end Sys2Proof.Machine
end

