-- ==== Sys2Proof/Laws/PerInstr.lean ====
section
/-! SUPPORT. What the byte of each command row says: its low seven bits name the command again and its top bit is
the NOTIFY operand (R172). One lemma per constructor. -/

namespace Sys2Proof.Laws.CommandByte

open Sys2Proof.Machine

/-- A command row writes a byte whose code names its command and whose bit 7 is its NOTIFY operand (R172). -/
def Statement (i : Instr) : Prop :=
  ∀ (c : Cmd) (w : CmdWrite), i = cmdInstr c w →
    Cmd.ofCode ((c.byte w.notify).toNat % 128) = some c ∧ (c.byte w.notify).getLsbD 7 = w.notify

theorem byte_names (c : Cmd) (n : Bool) :
    Cmd.ofCode ((c.byte n).toNat % 128) = some c ∧ (c.byte n).getLsbD 7 = n := by
  exact ⟨Cmd.ofCode_byte c n, by cases n <;> cases c <;> decide⟩

theorem every (i : Instr) : Statement i := fun c w _ => byte_names c w.notify

theorem argumentWrite (b : Byte) : Statement (.argumentWrite b) := every _
theorem replyRead : Statement .replyRead := every _
theorem statusByteRead : Statement .statusByteRead := every _
theorem doneAcknowledge : Statement .doneAcknowledge := every _
theorem unknownCommand (k : BitVec 7) (w : CmdWrite) : Statement (.unknownCommand k w) := every _
theorem nop (w : CmdWrite) : Statement (.nop w) := every _
theorem statusRead (w : CmdWrite) : Statement (.statusRead w) := every _
theorem attnRead (w : CmdWrite) : Statement (.attnRead w) := every _
theorem attnEnable (w : CmdWrite) : Statement (.attnEnable w) := every _
theorem attnClear (w : CmdWrite) : Statement (.attnClear w) := every _
theorem clockSet (w : CmdWrite) : Statement (.clockSet w) := every _
theorem clockRead (w : CmdWrite) : Statement (.clockRead w) := every _
theorem retain (w : CmdWrite) : Statement (.retain w) := every _
theorem release (w : CmdWrite) : Statement (.release w) := every _
theorem recordsClear (w : CmdWrite) : Statement (.recordsClear w) := every _
theorem overrideSet (w : CmdWrite) : Statement (.overrideSet w) := every _
theorem doorOpen (w : CmdWrite) : Statement (.doorOpen w) := every _
theorem doorLock (w : CmdWrite) : Statement (.doorLock w) := every _
theorem doorRead (w : CmdWrite) : Statement (.doorRead w) := every _
theorem denomSet (w : CmdWrite) : Statement (.denomSet w) := every _
theorem denomRead (w : CmdWrite) : Statement (.denomRead w) := every _
theorem stockRead (w : CmdWrite) : Statement (.stockRead w) := every _
theorem officeRead (w : CmdWrite) : Statement (.officeRead w) := every _
theorem limitsSet (w : CmdWrite) : Statement (.limitsSet w) := every _
theorem limitsRead (w : CmdWrite) : Statement (.limitsRead w) := every _
theorem templateSet (w : CmdWrite) : Statement (.templateSet w) := every _
theorem templateRead (w : CmdWrite) : Statement (.templateRead w) := every _
theorem tillSetup (w : CmdWrite) : Statement (.tillSetup w) := every _
theorem floatIssue (w : CmdWrite) : Statement (.floatIssue w) := every _
theorem floatCancel (w : CmdWrite) : Statement (.floatCancel w) := every _
theorem tillOpen (w : CmdWrite) : Statement (.tillOpen w) := every _
theorem topupIssue (w : CmdWrite) : Statement (.topupIssue w) := every _
theorem posCash (w : CmdWrite) : Statement (.posCash w) := every _
theorem tillClose (w : CmdWrite) : Statement (.tillClose w) := every _
theorem tillRead (w : CmdWrite) : Statement (.tillRead w) := every _
theorem varianceAccept (w : CmdWrite) : Statement (.varianceAccept w) := every _
theorem recount (w : CmdWrite) : Statement (.recount w) := every _
theorem callPost (w : CmdWrite) : Statement (.callPost w) := every _
theorem callTake (w : CmdWrite) : Statement (.callTake w) := every _
theorem callCancel (w : CmdWrite) : Statement (.callCancel w) := every _
theorem callRead (w : CmdWrite) : Statement (.callRead w) := every _
theorem roundSet (w : CmdWrite) : Statement (.roundSet w) := every _
theorem roundTimer (w : CmdWrite) : Statement (.roundTimer w) := every _
theorem roundNow (w : CmdWrite) : Statement (.roundNow w) := every _
theorem roundRead (w : CmdWrite) : Statement (.roundRead w) := every _
theorem laneProfile (w : CmdWrite) : Statement (.laneProfile w) := every _
theorem laneReset (w : CmdWrite) : Statement (.laneReset w) := every _
theorem laneClear (w : CmdWrite) : Statement (.laneClear w) := every _
theorem laneRead (w : CmdWrite) : Statement (.laneRead w) := every _
theorem countOpen (w : CmdWrite) : Statement (.countOpen w) := every _
theorem countHold (w : CmdWrite) : Statement (.countHold w) := every _
theorem countResume (w : CmdWrite) : Statement (.countResume w) := every _
theorem countVoid (w : CmdWrite) : Statement (.countVoid w) := every _
theorem countRolls (w : CmdWrite) : Statement (.countRolls w) := every _
theorem countCommit (w : CmdWrite) : Statement (.countCommit w) := every _
theorem countAbort (w : CmdWrite) : Statement (.countAbort w) := every _
theorem auditRead (w : CmdWrite) : Statement (.auditRead w) := every _
theorem auditAccept (w : CmdWrite) : Statement (.auditAccept w) := every _
theorem auditDiscard (w : CmdWrite) : Statement (.auditDiscard w) := every _
theorem bagOpen (w : CmdWrite) : Statement (.bagOpen w) := every _
theorem bagAdd (w : CmdWrite) : Statement (.bagAdd w) := every _
theorem bagReturn (w : CmdWrite) : Statement (.bagReturn w) := every _
theorem bagShut (w : CmdWrite) : Statement (.bagShut w) := every _
theorem bagBreak (w : CmdWrite) : Statement (.bagBreak w) := every _
theorem bagRead (w : CmdWrite) : Statement (.bagRead w) := every _
theorem rackSet (w : CmdWrite) : Statement (.rackSet w) := every _
theorem rackRead (w : CmdWrite) : Statement (.rackRead w) := every _
theorem manCreate (w : CmdWrite) : Statement (.manCreate w) := every _
theorem manAdd (w : CmdWrite) : Statement (.manAdd w) := every _
theorem manRemove (w : CmdWrite) : Statement (.manRemove w) := every _
theorem manClose (w : CmdWrite) : Statement (.manClose w) := every _
theorem manCancel (w : CmdWrite) : Statement (.manCancel w) := every _
theorem courierArrive (w : CmdWrite) : Statement (.courierArrive w) := every _
theorem bagScan (w : CmdWrite) : Statement (.bagScan w) := every _
theorem manResume (w : CmdWrite) : Statement (.manResume w) := every _
theorem courierSign (w : CmdWrite) : Statement (.courierSign w) := every _
theorem manReopen (w : CmdWrite) : Statement (.manReopen w) := every _
theorem manRead (w : CmdWrite) : Statement (.manRead w) := every _
theorem pinReset : Statement .pinReset := every _
theorem resetDeassert : Statement .resetDeassert := every _
theorem coldPowerUp (b : Bool) : Statement (.coldPowerUp b) := every _
theorem supplyWarning (b : Bool) : Statement (.supplyWarning b) := every _
theorem courierCall (b : Bool) : Statement (.courierCall b) := every _
theorem roundInPulse (b : Bool) : Statement (.roundInPulse b) := every _
theorem doorSenseChange (b : Bool) : Statement (.doorSenseChange b) := every _
theorem secondTick : Statement .secondTick := every _
theorem minuteTick : Statement .minuteTick := every _
theorem holdTimeout (l : LaneIx) : Statement (.holdTimeout l) := every _
theorem intervalEnd : Statement .intervalEnd := every _
theorem lockoutEnd : Statement .lockoutEnd := every _
theorem timerExpiry : Statement .timerExpiry := every _
theorem windowExpiry (j : SlotIx) : Statement (.windowExpiry j) := every _
theorem roundEvaluation : Statement .roundEvaluation := every _
theorem frameSent (l : LaneIx) : Statement (.frameSent l) := every _
theorem hello (l : LaneIx) (m : Byte) (z : BitVec 32) : Statement (.hello l m z) := every _
theorem batch (l : LaneIx) (q k : Byte) (f u z : BitVec 16) : Statement (.batch l q k f u z) := every _
theorem endFeed (l : LaneIx) (q : Byte) : Statement (.endFeed l q) := every _
theorem holdAck (l : LaneIx) : Statement (.holdAck l) := every _
theorem jam (l : LaneIx) (j : Byte) : Statement (.jam l j) := every _
theorem protocolFrame (l : LaneIx) (k : Byte) (b : List Byte) : Statement (.protocolFrame l k b) := every _
theorem framingError (l : LaneIx) (b : List RxChar) : Statement (.framingError l b) := every _
theorem checkError (l : LaneIx) (k : Byte) (b : List Byte) (x : Byte) : Statement (.checkError l k b x) := every _
theorem commandCompletion : Statement .commandCompletion := every _
theorem supplyLost : Statement .supplyLost := every _

end Sys2Proof.Laws.CommandByte
end

