-- ==== Sys2Proof/Laws/Replies.lean ====
section
/-! SUPPORT. The length of every reply: no command answers with more than the 192 bytes of the reply buffer
(R174). -/

namespace Sys2Proof.Machine

/-- A taken command's reply fits the reply buffer (R174). -/
def Answer.fits : Answer → Prop
  | .taken r _ => r.length ≤ 192
  | .refused _ _ => True

theorem refused_fits (r : PortCode) (s : State) : (Answer.refused r s).fits := trivial

@[simp] theorem le_length (w n : Nat) : (le w n).length = w := by
  induction w generalizing n with
  | zero => rfl
  | succ w ih => exact congrArg Nat.succ (ih _)

@[simp] theorem leInt_length (w : Nat) (n : Int) : (leInt w n).length = w := le_length w _

@[simp] theorem stampBytes_length (o : Option Stamp) : (stampBytes o).length = 4 := by cases o <;> rfl

/-- Codes that each give the same number of bytes. -/
theorem overCodes_length (f : Code → List Byte) (n : Nat) (l : List Code) (h : ∀ c, (f c).length = n) :
    (l.flatMap f).length = n * l.length := by
  induction l with
  | nil => rfl
  | cons c r ih => rw [List.flatMap_cons, List.length_append, h, ih, List.length_cons, Nat.mul_succ, Nat.add_comm]

/-- Members that each give the same number of bytes. -/
theorem members_length {α : Type} (f : α → List Byte) (n : Nat) (l : List α) (h : ∀ x ∈ l, (f x).length = n) :
    (l.flatMap f).length = n * l.length := by
  induction l with
  | nil => rfl
  | cons x r ih =>
    rw [List.flatMap_cons, List.length_append, h x List.mem_cons_self, ih fun y hy => h y (List.mem_cons_of_mem _ hy),
      List.length_cons, Nat.mul_succ, Nat.add_comm]

@[simp] theorem countBytes_length (v : Vector Nat 12) : (countBytes v).length = 24 :=
  overCodes_length _ 2 codes fun _ => le_length 2 _

@[simp] theorem compBytes_length (k : Comp) : (compBytes k).length = 72 :=
  overCodes_length _ 6 codes fun _ => by simp

@[simp] theorem judgeBytes_length (r : LastResult) : r.judgeBytes.length = 14 := by simp [LastResult.judgeBytes]

@[simp] theorem resultBytes_length (o : Option LastResult) : (resultBytes o).length = 100 := by
  cases o <;> simp [resultBytes]

@[simp] theorem commitHead_length (s : State) (i : LaneIx) (x : Session) (v : Nat) :
    (commitHead s i x v).length = 15 := by simp [commitHead]

@[simp] theorem batchRecord_length (b : Batch) : b.bytes.length = 8 := by simp [Batch.bytes, batchBytes]

@[simp] theorem expectBytes_length (e : Expect) : e.bytes.length = 2 := by cases e <;> rfl

@[simp] theorem callBytes_length (e : CallEntry) (n : Nat) : (e.bytes n).length = 11 := by simp [CallEntry.bytes]

@[simp] theorem recomputedBytes_length (l : Limits) (t : Till) : (recomputedBytes l t).length = 15 := by
  unfold recomputedBytes
  split <;> simp

@[simp] theorem listedBytes_length (s : State) (b : ManBody) : (s.listedBytes b).length = 5 := by cases b <;> rfl

@[simp] theorem reopenBytes_length (b : ManBody) : b.reopenBytes.length = 2 := by cases b <;> rfl

@[simp] theorem doorEventBytes_length (o : Option DoorEvent) : (doorEventBytes o).length = 8 := by
  cases o <;> simp [doorEventBytes]

@[simp] theorem summaryBytes_length (o : Option RoundSummary) : (summaryBytes o).length = 10 := by
  cases o <;> simp [summaryBytes]

@[simp] theorem runBytes_length (o : Option RoundRun) : (runBytes o).length = 5 := by cases o <;> rfl

@[simp] theorem slotBytes_length (o : Option Manifest) : (slotBytes o).length = 5 := by cases o <;> rfl

@[simp] theorem countedBytes_length (o : Option DeliveryCount) : (countedBytes o).length = 9 := by
  cases o <;> simp [countedBytes]

@[simp] theorem denomBytes_length (d : Denom) : d.bytes.length = 6 := by simp [Denom.bytes]

@[simp] theorem stockBytes_length (k : Counts) : (stockBytes k).length = 9 := by simp [stockBytes]

@[simp] theorem varLine_length (l : VarLine) : l.bytes.length = 13 := by simp [VarLine.bytes]

/-- Codes of a set are 12 at most. -/
theorem codesIn_length (p : Code → Bool) : (codes.filter p).length ≤ 12 := List.length_filter_le p codes

/-! ### The checks of an operand -/

theorem withBag_fits (len : Nat) (a : List Byte) (s : State) (next : BagIx → Bag → Answer)
    (hn : ∀ b x, s.bag b = some x → (next b x).fits) : (withBag len a s next).fits := by
  unfold withBag
  repeat' split
  all_goals first
    | exact trivial
    | exact hn _ _ ‹_›

theorem withMan_fits (len : Nat) (a : List Byte) (s : State) (next : SlotIx → Manifest → Answer)
    (hn : ∀ i m, s.man i = some m → (next i m).fits) : (withMan len a s next).fits := by
  unfold withMan
  repeat' split
  all_goals first
    | exact trivial
    | exact hn _ _ ‹_›

theorem withAuthority_fits (code : Nat) (s : State) (next : State → Answer)
    (hn : (next { s with auth := { s.auth with failures := 0 } }).fits) : (withAuthority code s next).fits := by
  unfold withAuthority
  repeat' split
  all_goals first
    | exact trivial
    | exact hn

/-! ### The lists that a reply may carry -/

theorem bagLines_length (l : List BagLine) (h : linesApart l) : (linesBytes l).length ≤ 145 := by
  have hp : (l.map fun x => (x.code, x.cls)).Nodup := List.pairwise_map.mpr
    (h.imp fun {x y} hxy e => hxy ⟨(Prod.mk.inj e).1, (Prod.mk.inj e).2⟩)
  have hle : ∀ q ∈ l.map fun x => (x.code, x.cls),
      q ∈ codes.flatMap fun c => [(c, CashClass.fit), (c, .unfit), (c, .suspect)] := by
    intro q _
    have hk : ∀ (c : Code) (k : CashClass),
        (c, k) ∈ codes.flatMap fun c => [(c, CashClass.fit), (c, .unfit), (c, .suspect)] := by
      intro c k
      cases k <;> revert c <;> decide
    exact hk q.1 q.2
  have hl := (List.subperm_of_subset hp hle).length_le
  rw [List.length_map] at hl
  have hm := members_length BagLine.bytes 4 l fun x _ => by simp [BagLine.bytes]
  unfold linesBytes
  rw [List.length_cons, hm]
  have : (codes.flatMap fun c => [(c, CashClass.fit), (c, CashClass.unfit), (c, CashClass.suspect)]).length = 36 := rfl
  omega

theorem nodup_bags (l : List BagIx) (h : l.Nodup) : l.length ≤ 48 := by
  have := List.Nodup.length_le_card h
  simpa using this

theorem placeRecords_length (room : Nat) (l : List (List Byte)) : (placeRecords room l).flatten.length ≤ room := by
  induction l generalizing room with
  | nil => exact Nat.zero_le _
  | cons x r ih =>
    unfold placeRecords
    split
    · next h =>
      have := ih (room - x.length)
      rw [List.flatten_cons, List.length_append]
      omega
    · exact Nat.zero_le _

theorem entriesFrom_length (n : Nat) (l : List CallEntry) : (entriesFrom n l).length = 11 * l.length := by
  induction l generalizing n with
  | nil => rfl
  | cons e r ih =>
    unfold entriesFrom
    rw [List.length_append, ih, List.length_cons]
    simp [CallEntry.bytes]
    omega

/-- The port, clock, door and supply commands answer within the reply buffer. -/
theorem effect_fits_upkeep (c : Cmd) (a : List Byte) (s : State)
    (hc : c ∈ [Cmd.nop, .statusRead, .attnRead, .attnEnable, .attnClear, .clockSet, .clockRead, .retain,
      .release, .recordsClear, .overrideSet, .doorOpen, .doorLock, .doorRead, .denomSet]) :
    (effect c a s).fits := by
  cases c <;> first | exact absurd hc (by decide) | skip
  case' nop => show (nopEffect a s).fits; unfold nopEffect
  case' statusRead => show (statusReadEffect a s).fits; unfold statusReadEffect
  case' attnRead => show (attnReadEffect a s).fits; unfold attnReadEffect
  case' attnEnable => show (attnEnableEffect a s).fits; unfold attnEnableEffect
  case' attnClear => show (attnClearEffect a s).fits; unfold attnClearEffect
  case' clockSet => show (clockSetEffect a s).fits; unfold clockSetEffect
  case' clockRead => show (clockReadEffect a s).fits; unfold clockReadEffect
  case' retain => show (retainEffect a s).fits; unfold retainEffect
  case' release => show (releaseEffect a s).fits; unfold releaseEffect
  case' recordsClear => show (recordsClearEffect a s).fits; unfold recordsClearEffect
  case' overrideSet => show (overrideSetEffect a s).fits; unfold overrideSetEffect
  case' doorOpen => show (doorOpenEffect a s).fits; unfold doorOpenEffect
  case' doorLock => show (doorLockEffect a s).fits; unfold doorLockEffect
  case' doorRead => show (doorReadEffect a s).fits; unfold doorReadEffect
  case' denomSet => show (denomSetEffect a s).fits; unfold denomSetEffect
  all_goals try unfold noArgs
  all_goals try unfold withAuthority
  all_goals try dsimp only
  all_goals repeat' split
  all_goals first
    | exact trivial
    | simp [Answer.fits]

/-- The money and till commands answer within the reply buffer. -/
theorem effect_fits_cash (c : Cmd) (a : List Byte) (s : State)
    (hc : c ∈ [Cmd.officeRead, .limitsSet, .limitsRead, .templateSet, .templateRead, .tillSetup, .floatIssue,
      .floatCancel, .tillOpen, .topupIssue, .posCash, .tillClose]) :
    (effect c a s).fits := by
  cases c <;> first | exact absurd hc (by decide) | skip
  case' officeRead => show (officeReadEffect a s).fits; unfold officeReadEffect
  case' limitsSet => show (limitsSetEffect a s).fits; unfold limitsSetEffect
  case' limitsRead => show (limitsReadEffect a s).fits; unfold limitsReadEffect
  case' templateSet => show (templateSetEffect a s).fits; unfold templateSetEffect
  case' templateRead => show (templateReadEffect a s).fits; unfold templateReadEffect
  case' tillSetup => show (tillSetupEffect a s).fits; unfold tillSetupEffect
  case' floatIssue => show (floatIssueEffect a s).fits; unfold floatIssueEffect
  case' floatCancel => show (floatCancelEffect a s).fits; unfold floatCancelEffect
  case' tillOpen => show (tillOpenEffect a s).fits; unfold tillOpenEffect
  case' topupIssue => show (topupIssueEffect a s).fits; unfold topupIssueEffect
  case' posCash => show (posCashEffect a s).fits; unfold posCashEffect
  case' tillClose => show (tillCloseEffect a s).fits; unfold tillCloseEffect
  all_goals try unfold noArgs
  all_goals try unfold withTill
  all_goals try dsimp only
  all_goals repeat' split
  all_goals first
    | exact trivial
    | simp [Answer.fits, Limits.bytes, templateReply]

/-- The call, round, lane and session commands answer within the reply buffer. -/
theorem effect_fits_counting (c : Cmd) (a : List Byte) (s : State)
    (hc : c ∈ [Cmd.tillRead, .varianceAccept, .recount, .callPost, .callTake, .callCancel, .roundSet,
      .roundTimer, .roundNow, .laneProfile, .laneReset, .laneClear]) :
    (effect c a s).fits := by
  cases c <;> first | exact absurd hc (by decide) | skip
  case' tillRead => show (tillReadEffect a s).fits; unfold tillReadEffect
  case' varianceAccept => show (varianceAcceptEffect a s).fits; unfold varianceAcceptEffect
  case' recount => show (recountEffect a s).fits; unfold recountEffect
  case' callPost => show (callPostEffect a s).fits; unfold callPostEffect
  case' callTake => show (callTakeEffect a s).fits; unfold callTakeEffect
  case' callCancel => show (callCancelEffect a s).fits; unfold callCancelEffect
  case' roundSet => show (roundSetEffect a s).fits; unfold roundSetEffect
  case' roundTimer => show (roundTimerEffect a s).fits; unfold roundTimerEffect
  case' roundNow => show (roundNowEffect a s).fits; unfold roundNowEffect
  case' laneProfile => show (laneProfileEffect a s).fits; unfold laneProfileEffect
  case' laneReset => show (laneResetEffect a s).fits; unfold laneResetEffect
  case' laneClear => show (laneClearEffect a s).fits; unfold laneClearEffect
  all_goals try unfold noArgs
  all_goals try unfold withTill
  all_goals try unfold withProfiled
  all_goals try unfold withLane
  all_goals try unfold withAuthority
  all_goals try dsimp only
  all_goals repeat' split
  all_goals first
    | exact trivial
    | simp [Answer.fits]

/-- The bag and manifest commands answer within the reply buffer. -/
theorem effect_fits_handover (c : Cmd) (a : List Byte) (s : State)
    (hc : c ∈ [Cmd.countOpen, .countHold, .countResume, .countVoid, .countRolls, .countAbort, .auditDiscard,
      .bagOpen, .bagAdd, .bagReturn, .rackSet, .manCreate, .manAdd, .manRemove, .manClose, .manCancel,
      .courierArrive, .manResume, .manReopen]) :
    (effect c a s).fits := by
  cases c <;> first | exact absurd hc (by decide) | skip
  case' countOpen => show (countOpenEffect a s).fits; unfold countOpenEffect
  case' countHold => show (countHoldEffect a s).fits; unfold countHoldEffect
  case' countResume => show (countResumeEffect a s).fits; unfold countResumeEffect
  case' countVoid => show (countVoidEffect a s).fits; unfold countVoidEffect
  case' countRolls => show (countRollsEffect a s).fits; unfold countRollsEffect
  case' countAbort => show (countAbortEffect a s).fits; unfold countAbortEffect
  case' auditDiscard => show (auditDiscardEffect a s).fits; unfold auditDiscardEffect
  case' bagOpen => show (bagOpenEffect a s).fits; unfold bagOpenEffect
  case' bagAdd => show (bagAddEffect a s).fits; unfold bagAddEffect
  case' bagReturn => show (bagReturnEffect a s).fits; unfold bagReturnEffect
  case' rackSet => show (rackSetEffect a s).fits; unfold rackSetEffect
  case' manCreate => show (manCreateEffect a s).fits; unfold manCreateEffect
  case' manAdd => show (manAddEffect a s).fits; unfold manAddEffect
  case' manRemove => show (manRemoveEffect a s).fits; unfold manRemoveEffect
  case' manClose => show (manCloseEffect a s).fits; unfold manCloseEffect
  case' manCancel => show (manCancelEffect a s).fits; unfold manCancelEffect
  case' courierArrive => show (courierArriveEffect a s).fits; unfold courierArriveEffect
  case' manResume => show (manResumeEffect a s).fits; unfold manResumeEffect
  case' manReopen => show (manReopenEffect a s).fits; unfold manReopenEffect
  all_goals try unfold noArgs
  all_goals try unfold withProfiled
  all_goals try unfold withLane
  all_goals try unfold withMan
  all_goals try unfold withBag
  all_goals try unfold withAuthority
  all_goals try dsimp only
  all_goals repeat' split
  all_goals first
    | exact trivial
    | (simp [Answer.fits, tagBytes, bagLineReply])

theorem commitDeliveryTo_fits (i : LaneIx) (x : Session) (j : SlotIx) (m : Manifest) (d : Delivery) (s : State)
    (h : d.lines.Pairwise fun x y => x.code ≠ y.code) : (commitDeliveryTo i x j m d s).fits := by
  have := variance_bound s.denoms d.lines x.comp h
  unfold commitDeliveryTo
  dsimp only
  split
  · exact refused_fits _ _
  split
  · exact refused_fits _ _
  split
  · exact refused_fits _ _
  show List.length _ ≤ 192
  have e : (deliveryCount s d x.comp).variance = varianceLines s.denoms d.lines x.comp := rfl
  rw [List.length_append, List.length_cons, members_length VarLine.bytes 13 _ fun l _ => varLine_length l, e]
  simp
  omega

theorem commitSession_fits (i : LaneIx) (x : Session) (s : State) (hl : s.listsLaw) : (commitSession i x s).fits := by
  unfold commitSession
  split
  · unfold commitTillClose
    dsimp only
    repeat' split
    all_goals first
      | exact trivial
      | (simp [Answer.fits])
  · unfold commitPickup
    dsimp only
    split
    · exact trivial
    split
    · exact trivial
    split
    · exact trivial
    split
    · exact trivial
    · generalize State.skimOutcome _ _ = o
      cases o <;> simp [Answer.fits, SkimOutcome.bytes]
  · unfold commitDelivery
    repeat' split
    all_goals try with_reducible exact refused_fits _ _
    next m hm _ _ d hb _ =>
    exact commitDeliveryTo_fits _ _ _ _ _ s (hl.2.2.1 _ m d hm hb).1
  · next m _ =>
    have := codesIn_length (has m)
    unfold commitAudit
    show List.length _ ≤ 192
    rw [List.length_append, List.length_append, List.length_cons, commitHead_length, leInt_length,
      overCodes_length _ 5 _ fun c => by simp]
    omega

theorem countCommit_fits (a : List Byte) (s : State) (hl : s.listsLaw) : (countCommitEffect a s).fits := by
  unfold countCommitEffect withProfiled withLane
  dsimp only
  repeat' split
  all_goals first
    | with_reducible exact refused_fits _ _
    | exact commitSession_fits _ _ s hl

/-- The commands whose reply carries a list or a table answer within the reply buffer. -/
theorem effect_fits_lists (c : Cmd) (a : List Byte) (s : State) (hr : s.rackLaw) (hl : s.listsLaw)
    (hc : c ∈ [Cmd.callRead, .roundRead, .laneRead, .auditRead, .auditAccept, .bagShut, .bagBreak, .bagRead,
      .rackRead, .manRead, .courierSign, .denomRead, .stockRead, .bagScan]) : (effect c a s).fits := by
  cases c <;> first | exact absurd hc (by decide) | skip
  case callRead =>
    show (callReadEffect a s).fits
    unfold callReadEffect
    split
    · exact trivial
    split
    · exact trivial
    · have : ((s.calls.drop (arg a 0 1)).take 16).length ≤ 16 := List.length_take_le ..
      simp only [Answer.fits, List.length_append, List.length_cons, List.length_nil, entriesFrom_length]
      omega
  case roundRead =>
    show (roundReadEffect a s).fits
    unfold roundReadEffect noArgs
    split
    · exact trivial
    · have := hl.1
      simp [Answer.fits]
      omega
  case laneRead =>
    show (laneReadEffect a s).fits
    unfold laneReadEffect withLane
    split
    · exact trivial
    split
    · exact trivial
    next i _ =>
    have hs := hl.2.2.2.2 i
    split
    · simp only [Answer.fits, lanePage0]
      cases (s.lane i).identity <;> cases (s.lane i).jam <;> cases (s.lane i).discarded <;>
        cases (s.lane i).session <;> simp [discardedBytes, sessionBytes, batchBytes]
    · have h1 := fun k => compBytes_length k
      simp only [Answer.fits]
      cases (s.lane i).session with
      | none => decide
      | some x =>
        have h2 := overCodes_length (fun c => le 2 x.rolls[c]) 2 codes fun _ => le_length 2 _
        have h3 : (lanePage1.compBytes12 (tab x.total)).length = 72 := compBytes_length _
        unfold lanePage1
        rw [List.length_append, h2, h3]
        decide
    · simp only [Answer.fits]
      cases h : (s.lane i).session with
      | none => decide
      | some x =>
        have h2 := members_length Batch.bytes 8 x.stack fun b _ => batchRecord_length b
        have h3 : (lanePage1.compBytes12 x.folded).length = 72 := compBytes_length _
        have := hs x h
        unfold lanePage2
        rw [List.length_cons, List.length_append, h2, h3]
        omega
    · exact trivial
  case auditRead =>
    show (auditReadEffect a s).fits
    unfold auditReadEffect noArgs
    split
    · exact trivial
    split
    · exact Nat.le_of_ble_eq_true rfl
    · next r _ =>
      have := placeRecords_length (replyRoom - auditPrefixLen) ((codes.filter (has r.codes)).map (r.record s))
      have e : replyRoom - auditPrefixLen = 182 := rfl
      rw [e] at this ⊢
      simp only [Answer.fits, List.length_cons, List.length_append, le_length, leInt_length]
      omega
  case auditAccept =>
    show (auditAcceptEffect a s).fits
    unfold auditAcceptEffect
    split
    · exact trivial
    refine withAuthority_fits _ _ _ ?_
    split
    · exact trivial
    next r _ =>
    dsimp only
    split
    · exact trivial
    split
    · exact trivial
    · have := codesIn_length (has r.codes)
      rw [Answer.fits, List.length_append, overCodes_length _ 15 _ fun c => by simp]
      simp only [List.length_append, le_length, leInt_length]
      omega
  case bagShut =>
    show (bagShutEffect a s).fits
    refine withBag_fits _ _ _ _ fun b x _ => ?_
    dsimp only
    repeat' split
    all_goals first
      | exact trivial
      | (unfold shutReply
         split <;> simp [Answer.fits])
  case bagBreak =>
    show (bagBreakEffect a s).fits
    refine withBag_fits _ _ _ _ fun b x hx => ?_
    refine withAuthority_fits _ _ _ ?_
    have := bagLines_length x.lines (hl.2.2.2.1 b x hx)
    dsimp only
    repeat' split
    all_goals first
      | exact trivial
      | (simp [Answer.fits]
         omega)
  case bagRead =>
    show (bagReadEffect a s).fits
    have key : ∀ b x, s.bag b = some x → (bagRecord s b x).length ≤ 192 := by
      intro b x hx
      have := bagLines_length x.lines (hl.2.2.2.1 b x hx)
      simp [bagRecord]
      omega
    unfold bagReadEffect
    split
    · have : (s.bags.toList.map bagStateByte).length = 48 := by simp
      exact this.trans_le (by decide)
    · exact withBag_fits _ _ _ _ fun b x hx => key b x hx
    · repeat' split
      all_goals first
        | exact trivial
        | exact key _ _ ‹_›
    · exact trivial
  case rackRead =>
    show (rackReadEffect a s).fits
    unfold rackReadEffect noArgs
    split
    · exact trivial
    obtain ⟨_, _, _, hq, _, _, hk, hc, _⟩ := hr.1
    have hq := nodup_bags _ hq
    have hb : ∀ c : CompIx, (s.rack.comps[c].flatMap fun b => [byte (b.val + 1), bagStateByte (s.bag b)]).length ≤ 24 := by
      intro c
      rw [members_length _ 2 _ fun _ _ => rfl]
      have := hc c
      omega
    have h0 := hb 0
    have h1 := hb 1
    have h2 := hb 2
    have h3 := hb 3
    simp only [Answer.fits, lanesAll, List.flatMap_cons, List.flatMap_nil, List.length_append, List.length_cons,
      List.length_nil, List.length_map]
    omega
  case manRead =>
    show (manReadEffect a s).fits
    unfold manReadEffect
    split
    · simp [Answer.fits]
    refine withMan_fits _ _ _ _ fun i m hm => ?_
    have entries : ∀ l : List Entry, l.length ≤ 12 → (counted (entryBytes s) l).length ≤ 192 := by
      intro l h
      unfold counted
      rw [List.length_cons, members_length _ 9 _ fun e _ => by simp [entryBytes, tagBytes]]
      omega
    split
    · simp only [Answer.fits, manPage0]
      cases m.body <;> simp
    · simp only [Answer.fits, manPage]
      cases hb : m.body with
      | collection c => exact entries _ (List.length_take_le ..)
      | delivery d =>
        have := lines_bound _ (hl.2.2.1 i m d hm hb).1
        show (counted declBytes d.lines).length ≤ 192
        unfold counted
        rw [List.length_cons, members_length _ 3 _ fun e _ => by simp [declBytes]]
        omega
    · simp only [Answer.fits, manPage]
      cases hb : m.body with
      | collection c =>
        have := hl.2.1 i m c hm hb
        exact entries _ (by rw [if_pos trivial, List.length_drop]; omega)
      | delivery d =>
        show (counted VarLine.bytes ((d.count.map DeliveryCount.variance).getD [])).length ≤ 192
        unfold counted
        rw [List.length_cons, members_length _ 13 _ fun e _ => varLine_length e]
        cases hn : d.count with
        | none => decide
        | some n =>
          have := (hl.2.2.1 i m d hm hb).2 n hn
          show 13 * n.variance.length + 1 ≤ 192
          omega
    · exact trivial
  case courierSign =>
    show (courierSignEffect a s).fits
    refine withMan_fits _ _ _ _ fun i m hm => ?_
    split
    · next c hb =>
      unfold signCollection
      dsimp only
      split
      · exact trivial
      split
      · exact trivial
      · have h1 := hl.2.1 i m c hm hb
        have h2 := List.length_filter_le (fun e : Entry => e.status == .accepted) c.entries
        simp only [Answer.fits, List.length_append, members_length (fun e : Entry => tagBytes e.tag) 5 _ fun e _ => le_length 5 _,
          le_length, List.length_cons, List.length_nil]
        omega
    · unfold signDelivery
      split
      · simp [Answer.fits]
      · exact trivial
  case denomRead =>
    show (denomReadEffect a s).fits
    unfold denomReadEffect noArgs
    split
    · exact trivial
    · rw [Answer.fits, overCodes_length _ 8 _ fun c => by simp]
      decide
  case stockRead =>
    show (stockReadEffect a s).fits
    unfold stockReadEffect noArgs
    split
    · exact trivial
    · rw [Answer.fits, overCodes_length _ 10 _ fun c => by simp]
      decide
  case bagScan =>
    show (bagScanEffect a s).fits
    refine withMan_fits _ _ _ _ fun i m _ => ?_
    repeat' split
    all_goals try with_reducible exact refused_fits _ _
    unfold scanEntry scanReply
    split <;> simp [Answer.fits]

/-- Every reply fits the reply buffer (R174). -/
theorem effect_fits (c : Cmd) (a : List Byte) (s : State) (hr : s.rackLaw) (hl : s.listsLaw) : (effect c a s).fits := by
  cases c
  case countCommit => exact countCommit_fits a s hl
  all_goals first
    | exact effect_fits_upkeep _ a s (by decide)
    | exact effect_fits_cash _ a s (by decide)
    | exact effect_fits_counting _ a s (by decide)
    | exact effect_fits_handover _ a s (by decide)
    | exact effect_fits_lists _ a s hr hl (by decide)

/-! ### The bounds of the lists -/

theorem listsLaw_iff (s : State) : s.listsLaw ↔
    s.round.list.length ≤ 96 ∧ s.mansOk ∧ (s.bagsAll fun l _ => linesApart l) ∧ s.stackLaw :=
  ⟨fun ⟨h1, h2, h3, h4, h5⟩ => ⟨h1, fun i m hm => ⟨fun c hc => h2 i m c hm hc, fun d hd => h3 i m d hm hd⟩, h4, h5⟩,
    fun ⟨h1, h2, h4, h5⟩ => ⟨h1, fun i m c hm hc => (h2 i m hm).1 c hc, fun i m d hm hd => (h2 i m hm).2 d hd, h4, h5⟩⟩

theorem readTills_length (l : List Byte) (r : List TillIx) (h : readTills l = some r) : r.length = l.length := by
  induction l generalizing r with
  | nil =>
    injection h with h
    rw [← h]
    rfl
  | cons b q ih =>
    unfold readTills at h
    split at h
    · next t m _ ht =>
      split at h
      · exact absurd h (by simp)
      · injection h with h
        rw [← h, List.length_cons, List.length_cons, ih m ht]
    · exact absurd h (by simp)

theorem effect_roundList (c : Cmd) (a : List Byte) (s : State) (h : s.round.list.length ≤ 96) :
    (effect c a s).state.round.list.length ≤ 96 := by
  by_cases hc : c ∈ Cmd.roundWriters
  · cases c <;> first | exact absurd hc (by decide) | skip
    case release =>
      show (releaseEffect a s).state.round.list.length ≤ 96
      unfold releaseEffect noArgs
      repeat' split
      all_goals try exact h
      dsimp only [Answer.state, State.leaveRetention]
      rw [recomputeDoor_eq]
      exact h
    case roundSet =>
      show (roundSetEffect a s).state.round.list.length ≤ 96
      unfold roundSetEffect
      split
      · exact h
      next hn =>
      split
      · exact h
      next l hl =>
      split
      · exact h
      · have := readTills_length _ l hl
        rw [List.length_drop] at this
        show l.length ≤ 96
        omega
    case roundTimer =>
      show (roundTimerEffect a s).state.round.list.length ≤ 96
      unfold roundTimerEffect
      repeat' split
      all_goals exact h
    case roundNow =>
      show (roundNowEffect a s).state.round.list.length ≤ 96
      unfold roundNowEffect noArgs
      repeat' split
      all_goals try exact h
      show (State.startRound s).round.list.length ≤ 96
      unfold State.startRound
      dsimp only
      split
      · exact h
      · exact h
  · rw [(effect_same c a s).2.2.2.2.2.2.2.2.1 hc]
    exact h

theorem effect_listsLaw (c : Cmd) (a : List Byte) (s : State) (h : s.listsLaw) : (effect c a s).state.listsLaw := by
  obtain ⟨h1, h2, h3, h4⟩ := (listsLaw_iff s).mp h
  exact (listsLaw_iff _).mpr
    ⟨effect_roundList c a s h1, effect_mansOk c a s h2, effect_bagsApart c a s h3, effect_stackLaw c a s h4⟩

end Sys2Proof.Machine
end

