-- ==== Sys2Proof/WellFormed.lean ====
section
/-! DEFINITION. Which commands are well formed: the few operand conditions a row states that the types do
not. The machine gives every command a meaning, well formed or not. -/

namespace Sys2Proof

/-- A row of the table with operands that fit its own words:
UNKNOWN_COMMAND carries a code that names no command (R172); PROTOCOL_FRAME a frame of unknown kind or
wrong length whose body fits a LEN of at most 12 (R61, R62); CHECK_ERROR a frame whose CHECK sum is not 0
(R61); FRAMING_ERROR at least one character (R61). -/
def Instr.wellFormed : Instr → Bool
  | .unknownCommand code _ => (Cmd.ofCode code.toNat).isNone
  | .protocolFrame _ kind body => decide (body.length ≤ 12) && (frameLen kind != some body.length)
  | .checkError _ kind body check =>
    decide (body.length ≤ 12) &&
      (charSum ([kind, BitVec.ofNat 8 body.length] ++ body ++ [check]) != 0)
  | .framingError _ chars => !chars.isEmpty
  | .argumentWrite _ | .replyRead | .statusByteRead | .doneAcknowledge | .nop _
  | .statusRead _ | .attnRead _ | .attnEnable _ | .attnClear _ | .clockSet _
  | .clockRead _ | .retain _ | .release _ | .recordsClear _ | .overrideSet _
  | .doorOpen _ | .doorLock _ | .doorRead _ | .denomSet _ | .denomRead _
  | .stockRead _ | .officeRead _ | .limitsSet _ | .limitsRead _ | .templateSet _
  | .templateRead _ | .tillSetup _ | .floatIssue _ | .floatCancel _ | .tillOpen _
  | .topupIssue _ | .posCash _ | .tillClose _ | .tillRead _ | .varianceAccept _
  | .recount _ | .callPost _ | .callTake _ | .callCancel _ | .callRead _
  | .roundSet _ | .roundTimer _ | .roundNow _ | .roundRead _ | .laneProfile _
  | .laneReset _ | .laneClear _ | .laneRead _ | .countOpen _ | .countHold _
  | .countResume _ | .countVoid _ | .countRolls _ | .countCommit _ | .countAbort _
  | .auditRead _ | .auditAccept _ | .auditDiscard _ | .bagOpen _ | .bagAdd _
  | .bagReturn _ | .bagShut _ | .bagBreak _ | .bagRead _ | .rackSet _
  | .rackRead _ | .manCreate _ | .manAdd _ | .manRemove _ | .manClose _
  | .manCancel _ | .courierArrive _ | .bagScan _ | .manResume _ | .courierSign _
  | .manReopen _ | .manRead _ | .pinReset | .resetDeassert | .coldPowerUp _
  | .supplyWarning _ | .courierCall _ | .roundInPulse _ | .doorSenseChange _ | .secondTick
  | .minuteTick | .holdTimeout _ | .intervalEnd | .lockoutEnd | .timerExpiry
  | .windowExpiry _ | .roundEvaluation | .frameSent _ | .hello _ _ _ | .batch _ _ _ _ _ _
  | .endFeed _ _ | .holdAck _ | .jam _ _ | .commandCompletion | .supplyLost => true

end Sys2Proof
end

