-- ==== Sys2Proof/Tests/Slice0.lean ====
section
/-! SUPPORT. The model's own tests: the ill-formed terms that the well-formedness check turns away, worked cases of
the manual, and for each statement a state and operands that meet its hypotheses. -/

namespace Sys2Proof.Tests

/- One theorem at a time: kernel evaluations side by side would each hold a thread. -/
set_option Elab.async false

open Sys2Proof.Machine

/-! ### Well-formedness: one ill-formed term for each check -/

/-- A code that names a command (NOP) is no unknown command. -/
theorem test_wf_unknown_command_named : (Instr.unknownCommand 0x00 (whole false)).wellFormed = false := by decide

theorem test_wf_unknown_command : (Instr.unknownCommand 0x7F (whole false)).wellFormed = true := by decide

/-- END-FEED with its own length is no protocol fault. -/
theorem test_wf_protocol_frame_known : (Instr.protocolFrame 0 0x03 [9]).wellFormed = false := by decide

theorem test_wf_protocol_frame_long :
    (Instr.protocolFrame 0 0x07 (List.replicate 13 0)).wellFormed = false := by decide

theorem test_wf_protocol_frame_wrong_length : (Instr.protocolFrame 0 0x03 [9, 9]).wellFormed = true := by decide

/-- A frame whose characters sum to 0 has no CHECK error. -/
theorem test_wf_check_error_sound : (Instr.checkError 0 0x04 [] 0xFC).wellFormed = false := by decide

theorem test_wf_check_error_long :
    (Instr.checkError 0 0x04 (List.replicate 13 0) 0xFF).wellFormed = false := by decide

theorem test_wf_check_error : (Instr.checkError 0 0x04 [] 0xFD).wellFormed = true := by decide

theorem test_wf_framing_error_empty : (Instr.framingError 0 []).wellFormed = false := by decide

theorem test_wf_framing_error : (Instr.framingError 0 [⟨0, false⟩]).wellFormed = true := by decide

theorem test_no_word_is_a_command : decodeTableWord 16 0 = none := by decide

/-! ### The office of the worked cases -/

/-- The example denomination set of the opening file. -/
def notes : Vector Denom 12 :=
  ⟨#[⟨.note, 100000, false⟩, ⟨.note, 50000, true⟩, ⟨.note, 20000, true⟩, ⟨.note, 10000, true⟩, ⟨.note, 5000, true⟩,
     ⟨.note, 2000, true⟩, ⟨.roll, 2500, true⟩, ⟨.roll, 1000, true⟩, ⟨.roll, 500, true⟩, Denom.unusedEntry,
     Denom.unusedEntry, Denom.unusedEntry], rfl⟩

/-- The stock of the first worked build (section 2.4.2). -/
def buildStock (code5 : Nat) : Vector StockEntry 12 :=
  tab fun c => ⟨⟨[0, 40, 3, 200, 9, code5, 0, 0, 0, 0, 0, 0].getD c.val 0, 0, 0⟩, false⟩

/-- Template A of the worked builds. -/
def templateA : Template := ⟨tab fun c => [0, 1, 5, 5, 6, 10, 0, 0, 0, 0, 0, 0].getD c.val 0, 5000⟩

/-- The office of the worked cases, running, with the clock at day 10, 10:00, and code 481205. -/
def office : State :=
  { State.reset with
    denoms := notes
    stock := buildStock 500
    balance := 5105000
    templates := State.reset.templates.set 0 templateA
    auth := ⟨481205, 0, 0⟩
    clock := ⟨true, 10, 600, 0⟩
    ret := { State.reset.ret with latch := false } }

/-- The office with bytes in its argument buffer. -/
def withArgs (a : List Byte) (s : State) : State := { s with port := { s.port with args := a } }

/-- The state a row leaves. -/
def after (i : Instr) (s : State) : State :=
  match exec i s with
  | .next t => t
  | .fault _ | .refused _ => s

/-- A command written and completed with its arguments. -/
def run (c : Cmd) (a : List Byte) (s : State) : State := after (cmdInstr c (whole false)) (withArgs a s)

/-- Till 37 in service with template A and threshold 2,000,000. -/
def till37 : Till := { Till.cold with inService := true, threshold := 2000000 }

/-- The office with till 37 as given. -/
def withTill37 (t : Till) : State := office.setTill 36 t

/-- Till 37 TRADING with a float of 250,000. -/
def trading37 : State := withTill37 { till37 with state := .trading, f := 250000 }

/-! ### Worked cases -/

/-- Case 1 of section 2.4.2: a full build. -/
theorem test_build_full :
    floatBuild office templateA = ⟨tab fun c => [0, 1, 3, 9, 6, 10, 0, 0, 0, 0, 0, 0].getD c.val 0, 0⟩ := by
  decide +kernel

/-- Case 2: a short build, code 5 at 8. -/
theorem test_build_short :
    (floatBuild { office with stock := buildStock 8 } templateA).carry = 4000 := by decide +kernel

/-- Case 3: a refused build, code 5 at 7. -/
theorem test_build_refused :
    let s := run .floatIssue [37] { withTill37 till37 with stock := buildStock 7 }
    s.port.code = .stock ∧ s.port.reply = [] ∧ s.till 36 = till37 ∧ s.stock = buildStock 7 := by decide +kernel

/-- Case 4: code 3 frozen. -/
theorem test_build_frozen :
    floatBuild (office.freeze 8 true) templateA =
      ⟨tab fun c => [0, 1, 3, 0, 9, 47, 0, 0, 0, 0, 0, 0].getD c.val 0, 1000⟩ := by decide +kernel

/-- Event 1 of section 1.4.2: the issue moves 250,000 from the stock to the floats; B stands. -/
theorem test_issue_keeps_balance :
    let s := run .floatIssue [37] (withTill37 till37)
    s.stockValue = 4855000 ∧ s.floatsOut = 250000 ∧ s.balance = 5105000 ∧ (s.till 36).state = .issued := by
  decide +kernel

/-- Section 3.5.1: the suggested amount, at two skim units, and nothing for an F above D. -/
theorem test_suggested_amount :
    let t : Till := { till37 with f := 300000, s := 2130000 }
    skimDue t 100000 = 2100000 ∧ skimDue t 10000 = 2130000 ∧
      skimDue { till37 with f := 2500000, r := 70000 } 100000 = 0 := by decide +kernel

/-- A last result with a counted value, for the computations of section 5.1. -/
def resultOf (c : Nat) : LastResult := ⟨c, 0, 0, 0, .balanced, false, 0, Comp.zero, none⟩

/-- The figures of section 5.1.1 and 5.2.1 for a till and a counted value. -/
def figures (l : Limits) (f s r p c : Nat) : Int × Int × Nat × ReconClass × Bool :=
  let q := (resultOf c).judge l { till37 with f := f, s := s, r := r, p := p }
  (q.e, q.v, q.tol, q.cls, q.negExpect)

theorem test_reconciliation_saturates :
    figures Limits.default 300000 2000000000 0 0 1999000000 =
      (2000000000, -1000000, 20000, .short, false) := by decide +kernel

theorem test_reconciliation_negative :
    figures Limits.default 250000 100000 50000 400000 0 = (-100000, 100000, 1000, .over, true) := by decide +kernel

theorem test_reconciliation_negative_saturates :
    figures Limits.default 200000 0 2000000000 1000000 500000 =
      (-2000000000, 2000000000, 1000, .over, true) := by decide +kernel

theorem test_reconciliation_zero :
    figures { Limits.default with basisPoints := 0, floor := 0 } 250000 900000 150000 0 1000000 =
      (1000000, 0, 0, .balanced, false) := by decide +kernel

theorem test_reconciliation_till37 :
    figures Limits.default 300000 4812350 96000 3500000 1514000 = (1516350, -2350, 1516, .short, false) := by
  decide +kernel

/-- The session of section 4.8 before its commit: batches 10 and 11 folded, 12 to 18 stacked, rolls declared. -/
def session37 : Session :=
  { purpose := .tillClose 36, accepted := 62
    folded := (Comp.zero.set 1 ⟨12, 0, 0⟩).set 2 ⟨20, 1, 0⟩
    stack := [⟨18, 5, ⟨3, 0, 0⟩⟩, ⟨17, 5, ⟨17, 2, 0⟩⟩, ⟨16, 4, ⟨4, 0, 0⟩⟩, ⟨15, 4, ⟨10, 0, 0⟩⟩,
              ⟨14, 3, ⟨8, 0, 0⟩⟩, ⟨13, 3, ⟨10, 0, 0⟩⟩, ⟨12, 2, ⟨8, 1, 1⟩⟩]
    rolls := ((Vector.replicate 12 0).set 6 6).set 7 5 }

theorem test_close_count_composition :
    valueOf notes session37.comp = 1514000 ∧ suspectOf notes session37.comp = 20000 ∧
      unitsOf session37.comp = 108 := by decide +kernel

/-- Till 37 as it came to the office (section 5.2.1), in a state. -/
def counting37 (st : TillState) : Till :=
  { till37 with state := st, f := 300000, s := 4812350, r := 96000, p := 3500000, pickups := 2 }

/-- Lane 2 of section 4.8, in a session state, with a session. -/
def lane2 (st : LaneState) (x : Option Session) : Lane :=
  { Lane.unprofiled with
    state := st, mask := 62, identity := some ⟨1, 7⟩, expect := .number 20, session := x, speed := 2 }

/-- Till 37 IN-COUNT on lane 2, the session ready to commit, B at 6,000,000. -/
def beforeCommit : State :=
  { (withTill37 { counting37 .inCount with lane := some 2 }).setLane 2 (lane2 .ended (some session37)) with
    balance := 6000000 }

/-- The commit of section 5.2.1. -/
theorem test_close_count_commit :
    let s := run .countCommit [2] beforeCommit
    s.balance = 7214000 ∧ (s.till 36).state = .counted ∧ (s.lane 2).state = .idle ∧
      s.stock[(2 : Code)].counts = ⟨31, 2, 1⟩ ∧ (s.till 36).lane = none := by decide +kernel

/-- Till 37 COUNTED, SHORT by 2,350 (section 5.5.3). -/
def counted37 : State := { run .countCommit [2] beforeCommit with pending := [] }

/-- Section 5.5.3, first row: a late refund balances the till. -/
theorem test_late_cash_balances :
    let s := run .posCash ([37] ++ le 4 0 ++ le 4 2500) counted37
    (s.till 36).state = .closed ∧ s.balance = 7214000 ∧
      ((s.till 36).result.map fun r => (r.e, r.v, r.tol, r.cls)) = some (1513850, 150, 1514, .balanced) := by
  decide +kernel

/-- Second row: the variance is accepted. -/
theorem test_variance_accepted :
    let s := run .varianceAccept ([37] ++ le 3 481205) counted37
    (s.till 36).state = .closed ∧ s.balance = 7214000 ∧
      ((s.till 36).result.map fun r => (r.v, r.cls)) = some (-2350, .short) := by decide +kernel

/-- Third row: the recount takes the composition out again. -/
theorem test_recount :
    let s := run .recount ([37] ++ le 3 481205) counted37
    (s.till 36).state = .closing ∧ s.balance = 6000000 ∧ s.stock = buildStock 500 := by decide +kernel

/-- A BAG record of a kind, FILLING, for the rack. -/
def bagOf1 (tag : Nat) : Bag := ⟨tag, .takings, .filling, [⟨1, .fit, 20⟩], 20, 1000000, 0, none, none⟩

/-- Event 2 of section 6.6 at a limit of 2,000,000: 100 notes of code 3 pass the limit of a bag of 1,140,000,
80 do not. -/
theorem test_bag_limit :
    let s := { office with limits := { Limits.default with bagLimit := 2000000 } }.setBag 2
      (some ⟨4810377215, .takings, .filling, [⟨1, .fit, 20⟩, ⟨2, .unfit, 2⟩, ⟨6, .fit, 40⟩], 62, 1140000, 0,
        none, none⟩)
    (run .bagAdd ([3, 3, 0] ++ le 2 100) s).port.code = .limit ∧
      ((run .bagAdd ([3, 3, 0] ++ le 2 80) s).bag 2).map Bag.value = some 1940000 := by decide +kernel

/-- Section 6.7 at BAG-SHUT 8: the pointer turns to a compartment that holds bags; halt and SAFE. -/
theorem test_rack_halts :
    let s := { office.setBag 7 (some (bagOf1 8)) with
      rack := ⟨⟨#[[0, 1], [2, 3], [4, 5], [6]], rfl⟩, 2, 3, false, []⟩ }
    let t := run .bagShut [8] s
    t.rack = ⟨⟨#[[0, 1], [2, 3], [4, 5], [6, 7]], rfl⟩, 2, 0, true, []⟩ ∧
      t.port.attnPending.getLsbD 5 = true := by decide +kernel

/-- Section 6.7 at the break of bag 2: the halt lifts and bags 9 and 10 are placed. -/
theorem test_halt_lifts :
    let s := { ((office.setBag 1 (some { bagOf1 2 with state := .heldBack, comp := some 0 })).setBag 8
        (some { bagOf1 9 with state := .shut })).setBag 9 (some { bagOf1 10 with state := .shut }) with
      rack := ⟨⟨#[[1], [], [4, 5], [6, 7]], rfl⟩, 2, 0, true, [8, 9]⟩ }
    (run .bagBreak ([2] ++ le 3 481205) s).rack = ⟨⟨#[[8, 9], [], [4, 5], [6, 7]], rfl⟩, 2, 1, false, []⟩ := by
  decide +kernel

/-- Section 5.6.4: the audit of codes 3 and 7. -/
theorem test_audit_commit :
    let x : Session := ⟨.audit 136, 8, Comp.zero, [⟨19, 3, ⟨298, 4, 1⟩⟩], (Vector.replicate 12 0).set 7 41⟩
    let s := { office.setLane 0 (lane2 .held (some x)) with
      stock := (office.stock.set 3 ⟨⟨300, 4, 0⟩, true⟩).set 7 ⟨⟨40, 0, 0⟩, true⟩ }
    let t := run .countCommit [0] s
    (t.audit.map fun r => (r.diff[(3 : Code)], r.diff[(7 : Code)], r.total)) = some (-20000, 1000, -19000) ∧
      t.port.reply.take 15 = [0, 4] ++ le 2 136 ++ le 4 3061000 ++ le 4 10000 ++ le 3 344 ∧
      t.stock[(3 : Code)] = ⟨⟨300, 4, 0⟩, false⟩ ∧ t.balance = office.balance := by decide +kernel

/-- Section 8.2.1: a matching code that its command refuses clears the count; the third wrong code in a row starts
the lockout. -/
theorem test_lockout_rows :
    let two := { office with auth := ⟨481205, 2, 0⟩ }
    (run .varianceAccept ([37] ++ le 3 481205) two).port.code = .state ∧
      (run .varianceAccept ([37] ++ le 3 481205) two).auth = ⟨481205, 0, 0⟩ ∧
      (run .doorOpen (le 3 481520 ++ [10]) two).auth = ⟨481205, 0, 15⟩ ∧
      (run .doorOpen (le 3 481520 ++ [10]) two).port.attnPending.getLsbD 5 = true := by decide +kernel

/-- A delivery manifest, as in the cases of chapters 7 and 9. -/
def delivery4 (st : ManState) : Manifest :=
  ⟨4, st, 123456, ⟨10, 540⟩, ⟨10, 660⟩, 0, .delivery ⟨[⟨3, 5⟩], 50000, none, none⟩⟩

/-- A collection manifest with one entry for bag 1 at the status given, in a window that is open. -/
def collection2 (st : ManState) (p : Policy) (e : EntryStatus) : Manifest :=
  ⟨2, st, 123456, ⟨10, 540⟩, ⟨10, 660⟩, 0,
    .collection ⟨p, 1, [⟨0, 11, e, 0⟩], if st = .suspended then some 0 else none⟩⟩

/-- The office with a manifest in slot 0, and its bag 1 MANIFESTED in compartment 0. -/
def withMan0 (m : Manifest) : State :=
  { (office.setMan 0 (some m)).setBag 0 (some { bagOf1 11 with state := .manifested, comp := some 0 }) with
    rack := { office.rack with comps := office.rack.comps.set 0 [0] } }

/-- Section 9.9: the courier call wakes the part from WATCH, with COURIER and SAFE. -/
theorem test_watch_wakes :
    let s := { office with ret := { office.ret with latch := true, kind := .watch } }
    let t := after (.courierCall true) s
    t.ret.kind = .none ∧ t.ret.latch = true ∧ t.port.attnPending = 48 := by decide +kernel

/-- Section 9.10: the supply warning during a close count and a handover at the door. -/
def night : State :=
  { ((withMan0 (collection2 .bags .halt .accepted)).setTill 36
      { counting37 .inCount with lane := some 2 }).setLane 2 (lane2 .held (some session37)) with
    balance := 9000000, door := ⟨true, some 300, false, none⟩ }

theorem test_supply_warning_undoes_work :
    let t := after (.supplyWarning true) night
    t.lane 2 = Lane.unprofiled ∧ (t.till 36).state = .closing ∧
      t.man 0 = some (collection2 .ready .halt .pending) ∧ t.door.unlocked = false ∧ t.ret.kind = .deep ∧
      t.ret.latch = true ∧ t.balance = 9000000 := by decide +kernel

theorem test_supply_wake :
    let t := after .pinReset (after (.supplyWarning true) night)
    t.ret.kind = .none ∧ t.ret.latch = true ∧ t.ret.cause = .supply ∧ t.clock.isSet = false ∧
      t.port.attnPending = Source.safe.weight := by decide +kernel

/-! ### The hypotheses of the statements are met -/

/-- The office in a retention kind. -/
def retained (k : RetKind) : State := { office with ret := { office.ret with latch := true, kind := k } }

/-- The office with a command in progress and transfers held. -/
def busyWith (b : Byte) (h : List Held) : State :=
  { office with port := { office.port with inProgress := some b, held := h } }

theorem test_witness_StepRunsFrontCommand :
    State.reset.pending = [] ∧ step { office with pending := [.nop (whole false)] } = exec (.nop (whole false)) office :=
  ⟨by decide, rfl⟩

theorem test_witness_TransfersAtTheBuffers :
    let full (n : Nat) := withArgs (List.replicate n 0) office
    let reading (n : Nat) := { office with port := { office.port with reply := [7], readPos := n } }
    ((full 127).live = true ∧ (full 127).port.inProgress = none ∧ (full 127).ret.kind ≠ .deep ∧
      (full 127).port.args.length < 128) ∧
    ((full 128).live = true ∧ (full 128).ret.kind ≠ .deep ∧ 128 ≤ (full 128).port.args.length) ∧
    ((retained .deep).live = true ∧ (retained .deep).port.inProgress = none ∧ (retained .deep).ret.kind = .deep) ∧
    ((reading 0).live = true ∧ (reading 0).port.reply[(reading 0).port.readPos]? = some 7) ∧
    ((reading 1).live = true ∧ (reading 1).port.reply.length ≤ (reading 1).port.readPos) := by decide +kernel

theorem test_witness_StatusReadAndAcknowledge :
    office.live = true ∧ office.powered = true ∧ office.due = [] := by decide +kernel

theorem test_witness_CommandByteJudged :
    (office.idle = true ∧ Cmd.ofCode (0x7F : BitVec 7).toNat = none ∧ Cmd.ofCode (0x05 : BitVec 7).toNat = none) ∧
    (let s := { office with port := { office.port with overflow := true } }
     s.idle = true ∧ s.port.overflow = true) ∧
    ((retained .watch).live = true ∧ (retained .watch).port.inProgress = none ∧
      (retained .watch).port.held = [] ∧ (retained .watch).ret.kind = .watch) ∧
    ((retained .deep).live = true ∧ (retained .deep).port.inProgress = none ∧ (retained .deep).port.held = [] ∧
      (retained .deep).ret.kind = .deep) := by decide +kernel

/-- For WriteThenCompletion and CompletionAtThePort. -/
theorem test_witness_ready : office.ready = true ∧ State.reset.ready = true := by decide +kernel

theorem test_witness_TransfersHeldThroughBusy :
    let b := Cmd.nop.byte false
    let t (h : List Held) := finish b (effect .nop (busyWith b h).port.args (busyWith b h))
    ((busyWith b []).live = true ∧ (busyWith b []).port.inProgress = some b) ∧
    ((busyWith b [.argument 5]).live = true ∧ (busyWith b [.argument 5]).port.overflow = false ∧
      (busyWith b [.argument 5]).port.held = [.argument 5] ∧ (t [.argument 5]).ret.kind ≠ .deep) ∧
    (busyWith b [.reply]).port.held = [.reply] ∧
    ((busyWith b [.command (Cmd.stockRead.byte true)]).port.held = [.command (Cmd.stockRead.byte true)] ∧
      (t [.command (Cmd.stockRead.byte true)]).ret.kind = .none) := by decide +kernel

/-- For RefusalKeepsRecords: a refusal of each sort. -/
theorem test_witness_RefusalKeepsRecords :
    ((run .nop [1] office).port.code ≠ .ok) ∧
    ((run .doorOpen (le 3 1 ++ [10]) office).port.code ≠ .ok ∧
      (run .doorOpen (le 3 1 ++ [10]) office).auth ≠ office.auth) ∧
    ((run .courierArrive (le 2 2 ++ le 3 1) (withMan0 (collection2 .ready .halt .pending))).port.code ≠ .ok ∧
      (run .courierArrive (le 2 2 ++ le 3 1) (withMan0 (collection2 .ready .halt .pending))).mans ≠
        (withMan0 (collection2 .ready .halt .pending)).mans) ∧
    (let s := { trading37 with calls := List.replicate 32 ⟨0, .skim, none, none⟩ }
     (run .callPost [37, 2] s).port.code ≠ .ok ∧ (run .callPost [37, 2] s).callOverflow ≠ s.callOverflow) := by
  decide +kernel

theorem test_witness_LengthJudgedFirst :
    ((Cmd.nop, 0) ∈ [(Cmd.nop, 0)] ∧ (withArgs [0] office).ready = true ∧ (withArgs [0] office).port.args.length ≠ 0) ∧
    ((withArgs (List.replicate 8 0) office).ready = true ∧
      (withArgs (List.replicate 8 0) office).port.args.length ≠ 9) := by decide +kernel

theorem test_witness_NopCompletes :
    (office.live = true ∧ office.ret.kind ≠ .deep ∧ office.port.inProgress = none ∧ office.port.held = [] ∧
      office.port.args = [] ∧ office.port.overflow = false) ∧
    (withArgs [0] office).port.args ≠ [] ∧ (retained .watch).ret.kind ≠ .deep := by decide +kernel

theorem test_witness_AttentionCommands :
    (withArgs [63] office).ready = true ∧ (63 : Byte).toNat < 64 ∧ (withArgs [64] office).ready = true ∧
      64 ≤ (64 : Byte).toNat := by decide +kernel

/-- For LimitsReadReply and StockReadReply. -/
theorem test_witness_accepts :
    office.accepts = true ∧ (retained .watch).accepts = true ∧ office.port.args = [] ∧
      (withArgs [0] office).accepts = true ∧ (withArgs [0] office).port.args ≠ [] := by decide +kernel

/-- An audit result over code 3, not stale in the office. -/
def audited : AuditResult :=
  ⟨8, Comp.zero.set 3 ⟨200, 0, 0⟩, Comp.zero.set 3 ⟨198, 1, 0⟩, (Vector.replicate 12 0).set 3 (-10000), -10000⟩

theorem test_witness_TableReads :
    office.ready = true ∧ office.port.args = [] ∧ office.audit = none ∧
      ({ office with audit := some audited }).ready = true ∧
      ({ office with audit := some audited }).audit = some audited := by decide +kernel

theorem test_witness_RecordReads :
    ((withArgs [96] office).ready = true ∧ tillOf (arg [96] 0 1) = some 95 ∧ tillOf (arg [1] 0 1) = some 0) ∧
    (withArgs [3] office).port.args = [byte (3 : TemplateIx).val] ∧
    ((withArgs [3, 2] office).port.args = [byte (3 : LaneIx).val, 2] ∧ (2 : Byte).toNat < 3) ∧
    (let s := office.setBag 47 (some (bagOf1 11))
     bagOf (arg [48] 0 1) = some 47 ∧ s.bag 47 = some (bagOf1 11)) ∧
    (withMan0 (delivery4 .ready)).findMan (arg [4, 0, 2] 0 2) = some 0 ∧
      (withMan0 (delivery4 .ready)).man 0 = some (delivery4 .ready) ∧ arg [4, 0, 2] 2 1 < 3 := by decide +kernel

theorem test_witness_RecordReads_tag :
    let s := office.setBag 47 (some (bagOf1 11))
    ((le 5 11).length = 5 ∧ arg (le 5 11) 0 5 = (bagOf1 11).tag ∧ 1 ≤ (bagOf1 11).tag ∧
      (bagOf1 11).tag ≤ 9999999999 ∧ s.bag 47 = some (bagOf1 11) ∧ ∀ c, c < 47 → s.bag c = none) ∧
    (∀ c, office.bag c = none) ∧ arg (le 5 0) 0 5 = 0 ∧ (9999999999 : Nat) < arg (le 5 10000000000) 0 5 ∧
    office.port.args = [] := by decide +kernel

theorem test_witness_AuthorityCheck :
    let a (n : Nat) := withArgs (le 3 n ++ [10]) office
    let fails (n : Nat) := { a 5 with auth := ⟨481205, n, 0⟩ }
    ((a 999999).ready = true ∧ overrideCode .doorOpen (a 999999).port.args (a 999999) = some 999999 ∧
      (999999 : Nat) ≠ (a 999999).auth.code ∧ (a 999999).auth.lockout = 0) ∧
    (0 < ({ a 5 with auth := ⟨481205, 0, 1⟩ }).auth.lockout) ∧
    (overrideCode .doorOpen (a 1000000).port.args (a 1000000) = some 1000000 ∧ (999999 : Nat) < 1000000) ∧
    (fails 1).auth.failures < 2 ∧ 2 ≤ (fails 2).auth.failures ∧
    overrideCode .doorOpen (a 481205).port.args (a 481205) = some office.auth.code := by decide +kernel

theorem test_witness_DoorCommands :
    ((le 3 481205 ++ le 3 999999).length = 6 ∧ office.auth.lockout = 0 ∧
      arg (le 3 481205 ++ le 3 999999) 0 3 = office.auth.code ∧ office.auth.code ≤ 999999 ∧
      arg (le 3 481205 ++ le 3 999999) 3 3 ≤ 999999) ∧
    ((le 3 481205 ++ [31]).length = 4 ∧ arg (le 3 481205 ++ [31]) 0 3 = office.auth.code ∧
      office.ret.latch = false) ∧
    ({ office with ret := { office.ret with latch := true } }).ret.latch = true ∧ office.ready = true := by
  decide +kernel

/-- For OutputRecomputed: the output unlocked with nothing to hold it, and the door open. -/
theorem test_witness_OutputRecomputed :
    let s := { office with door := ⟨true, none, false, none⟩, taken := { office.taken with doorOpen := true } }
    (s.door.unlocked = true ∧ s.shouldUnlock = false ∧ s.taken.doorOpen = true) ∧
    ¬(office.door.unlocked = true ∧ office.shouldUnlock = false ∧ office.taken.doorOpen = true) := by
  decide +kernel

theorem test_witness_SetupCommands :
    (let a := [11, 1] ++ le 4 1000000 ++ [1]
     a.length = 7 ∧ codeOf (arg a 0 1) = some 11 ∧ denomKindOf (arg a 1 1) = some .note ∧
       boolOf (arg a 6 1) = some true ∧ 1 ≤ arg a 2 4 ∧ arg a 2 4 ≤ 1000000 ∧
       faceTaken office 11 (arg a 2 4) = false ∧ office.referenced 11 = false) ∧
    (let a := [3, 1] ++ le 4 7 ++ [1]
     codeOf (arg a 0 1) = some 3 ∧ faceTaken office 3 (arg a 2 4) = false ∧ office.referenced 3 = true) ∧
    (let a := [9, 0] ++ le 4 0 ++ [0]
     a.length = 7 ∧ codeOf (arg a 0 1) = some 9 ∧ arg a 1 1 = 0 ∧ arg a 6 1 ≤ 1 ∧ office.referenced 9 = false) ∧
    (List.replicate 22 (0 : Byte)).length = 22 ∧
    (let a := [3, 0, 0, 255, 255] ++ List.replicate 20 0 ++ le 2 50000
     a.length = 27 ∧ arg a 0 1 = (3 : TemplateIx).val ∧ arg a 25 2 ≤ 50000 ∧
       ∀ c : Code, arg a (1 + 2 * c.val) 2 ≠ 0 →
         office.denoms[c].kind ≠ .unused ∧ office.denoms[c].eligible = true) ∧
    (let a := [96, 1, 3] ++ le 4 2000000000
     a.length = 7 ∧ tillOf (arg a 0 1) = some 95 ∧ boolOf (arg a 1 1) = some true ∧
       arg a 2 1 = (3 : TemplateIx).val ∧ arg a 3 4 ≤ 2000000000 ∧ (office.till 95).state = .closed ∧
       (trading37.till 36).state ≠ .closed) := by decide +kernel

theorem test_witness_FloatCommands :
    (let s := withArgs [37] (withTill37 till37)
     let tpl := s.templates[(s.till 36).template]
     let b := floatBuild s tpl
     s.ready = true ∧ tillOf (arg s.port.args 0 1) = some 36 ∧ (s.till 36).inService = true ∧
       (s.till 36).state = .closed ∧ (sumCodes fun c => tpl.targets[c] * s.denoms[c].face) ≠ 0 ∧
       (sumCodes fun c => tpl.targets[c] * s.denoms[c].face) ≤ s.limits.ceiling ∧ b.carry ≤ tpl.slack ∧
       (sumCodes fun c => b.takes[c] * s.denoms[c].face) ≠ 0) ∧
    (let s := withArgs [37] (run .floatIssue [37] (withTill37 till37))
     (s.till 36).state = .issued ∧ inRefusal s (Comp.ofFit (s.till 36).issue) = none) := by decide +kernel

theorem test_witness_FloatCommands_refusals :
    let s := withTill37 till37
    let tpl := s.templates[(s.till 36).template]
    let target := sumCodes fun c => tpl.targets[c] * s.denoms[c].face
    let short := { s with stock := buildStock 7 }
    let out := run .floatIssue [37] s
    ((Comp.only 3 .fit 1)[(3 : Code)] ≠ ⟨0, 0, 0⟩ ∧ (office.freeze 8 true).stock[(3 : Code)].frozen = true) ∧
    office.stock[(2 : Code)].counts.fit < (Comp.only 2 .fit 4)[(2 : Code)].fit ∧
    999999 < office.stock[(1 : Code)].counts.fit + (Comp.only 1 .fit 999960)[(1 : Code)].fit ∧
    (trading37.till 36).state ≠ .closed ∧ (trading37.till 36).state ≠ .issued ∧
    (sumCodes fun c => s.templates[(1 : TemplateIx)].targets[c] * s.denoms[c].face) = 0 ∧
    (target ≠ 0 ∧ ({ s.limits with ceiling := 1 } : Limits).ceiling < target) ∧
    tpl.slack < (floatBuild short tpl).carry ∧
    (out.till 36).state = .issued ∧
    inRefusal { out with stock := tab fun _ => ⟨⟨999999, 0, 0⟩, false⟩ } (Comp.ofFit (out.till 36).issue) =
      some .limit := by decide +kernel

/-- For FloatBuildStep: a face that is not 0, and a want at the top of a count. -/
theorem test_witness_FloatBuildStep :
    0 < office.denoms[(1 : Code)].face ∧ (2 : Code) ≠ 1 := by decide +kernel

theorem test_witness_TradingCommands :
    (let s := withTill37 { till37 with state := .issued }
     s.ready = true ∧ tillOf (arg [37] 0 1) = some 36 ∧ (s.till 36).state = .issued) ∧
    (trading37.till 36).state ≠ .issued ∧
    (let a := [37, 1, 4] ++ le 2 9
     let l := [⟨4, 9⟩]
     1 ≤ arg a 1 1 ∧ arg a 1 1 ≤ 12 ∧ a.length = 2 + 3 * arg a 1 1 ∧
       readLines trading37.denoms (linePairs (a.drop 2)) = some l ∧
       (∀ x ∈ l, trading37.denoms[x.code].eligible = true) ∧ (∃ x ∈ l, x.count ≠ 0) ∧
       (trading37.till 36).state = .trading ∧ outRefusal trading37 (Comp.ofFit (lineCounts l)) = none ∧
       (∀ c : Code, (trading37.till 36).issue[c] + (lineCounts l)[c] ≤ 65535) ∧
       (trading37.till 36).f + (sumCodes fun c => (lineCounts l)[c] * trading37.denoms[c].face) ≤
         trading37.limits.ceiling) ∧
    (let s := { trading37 with calls := List.replicate 31 ⟨0, .skim, none, none⟩ }
     (s.till 36).state = .trading ∧ s.calls.length < 32 ∧ s.hasCall 36 .collect = false) := by decide +kernel

/-- TILL-CLOSE with the queue full, with a COLLECT entry queued, and a TOPUP-ISSUE at a CLOSED till. -/
theorem test_witness_TradingCommands_edges :
    let full := { trading37 with calls := List.replicate 32 ⟨0, .skim, none, none⟩ }
    ((full.till 36).state = .trading ∧ full.hasCall 36 .collect = false ∧
      32 ≤ (full.calls.filter fun e =>
        !(decide (e.till = 36) && (decide (e.kind = .skim) || decide (e.kind = .topup)))).length) ∧
    ({ trading37 with calls := [⟨36, .collect, none, none⟩] }).hasCall 36 .collect = true ∧
    ((withTill37 till37).till 36).state ≠ .trading ∧
    (let s := run .tillClose [37] full
     s.port.code = .ok ∧ (s.till 36).state = .closing ∧ s.callOverflow = true ∧ s.calls = full.calls ∧
       s.port.attnPending = Source.call.weight) := by decide +kernel

theorem test_witness_ReconciliationArithmetic : Limits.default.floor ≤ Limits.default.cap := by decide

theorem test_witness_PosCashPosts :
    let a := [37] ++ le 4 1000 ++ le 4 2000000000
    a.length = 9 ∧ tillOf (arg a 0 1) = some 36 ∧ arg a 1 4 ≤ 2000000000 ∧ arg a 5 4 ≤ 2000000000 ∧
    (office.till 36).state = .closed ∧
    ((trading37.till 36).state ≠ .closed ∧ (trading37.till 36).state ≠ .issued ∧
      2000000000 < ((counting37 .closing).r) + arg a 5 4) ∧
    ((trading37.till 36).s + arg a 1 4 ≤ 2000000000 ∧ (trading37.till 36).r + arg a 5 4 ≤ 2000000000 ∧
      (trading37.till 36).state = .trading) ∧
    (let b := [37] ++ le 4 0 ++ le 4 2500
     counted37.ready = true ∧ (counted37.till 36).state = .counted ∧ (counted37.till 36).result.isSome = true ∧
       (counted37.till 36).r + arg b 5 4 ≤ 2000000000) := by decide +kernel

theorem test_witness_VarianceDecisions :
    let a := [37] ++ le 3 481205
    a.length = 4 ∧ tillOf (arg a 0 1) = some 36 ∧ office.auth.lockout = 0 ∧ arg a 1 3 = office.auth.code ∧
    office.auth.code ≤ 999999 ∧ (office.till 36).state ≠ .counted ∧ counted37.auth = office.auth ∧
    (counted37.till 36).state = .counted ∧
    (counted37.till 36).result.isSome = true ∧
    ∀ r ∈ (counted37.till 36).result, outRefusal counted37 r.comp = none ∧
      (counted37.balance : Int) + (counted37.till 36).f - r.c ≤ 2000000000 ∧
      0 ≤ (counted37.balance : Int) + (counted37.till 36).f - r.c := by
  decide +kernel

/-- For FloatsKeepBalanceLaw: the law holds of the office with a till ready for its float, and after the issue the
float's value is that of its list. -/
theorem test_witness_FloatsKeepBalanceLaw :
    (withTill37 till37).balanceLaw ∧
    (∀ u : TillIx, ((withTill37 till37).till u).state ≠ .issued) ∧
    (run .floatIssue [37] (withTill37 till37)).balanceLaw ∧
    (let s := run .floatIssue [37] (withTill37 till37)
     ∀ u : TillIx, (s.till u).state = .issued →
       (s.till u).f = sumCodes fun d => (s.till u).issue[d] * s.denoms[d].face) := by
  unfold State.balanceLaw
  decide +kernel

theorem test_witness_CallCommands :
    let queued := { trading37 with calls := [⟨36, .topup, none, none⟩] }
    (tillOf (arg [37, 2] 0 1) = some 36 ∧ arg [37, 2] 1 1 = 2 ∧ (trading37.till 36).state = .trading ∧
      trading37.callPos 36 .topup = none ∧ trading37.calls.length < 32) ∧
    (let s := withTill37 { till37 with state := .closing }
     arg [37, 3] 1 1 = 3 ∧ (s.till 36).state = .closing) ∧
    queued.callPos 36 .topup = some 0 ∧
    (let s := { trading37 with calls := List.replicate 32 ⟨0, .skim, none, none⟩ }
     s.callPos 36 .topup = none ∧ 32 ≤ s.calls.length) ∧
    (arg [3] 0 1 ≤ 3 ∧ queued.calls.findIdx? (fun e => arg [0] 0 1 == 0 || e.kind.value == arg [0] 0 1) = some 0 ∧
      queued.calls[0]? = some ⟨36, .topup, none, none⟩ ∧
      queued.calls.findIdx? (fun e => arg [3] 0 1 == 0 || e.kind.value == arg [3] 0 1) = none) ∧
    (callKindOf (arg [37, 2] 1 1) = some .topup ∧ arg [31] 0 1 ≤ 31) := by decide +kernel

theorem test_witness_RoundCommands :
    let running := { office with round := { office.round with list := [36], run := some ⟨0, 0, 0, 0⟩ } }
    (1 ≤ [(1 : Byte), 37].length ∧ arg [1, 37] 0 1 ≤ 96 ∧ [(1 : Byte), 37].length = 1 + arg [1, 37] 0 1 ∧
      readTills ([1, 37].drop 1) = some [36] ∧ office.round.run = none ∧ running.round.run ≠ none) ∧
    (boolOf (arg [1, 255, 1] 0 1) = some true ∧ boolOf (arg [1, 255, 1] 2 1) = some true) ∧
    (let s := { office with round := { office.round with list := [36] } }
     s.round.run = none ∧ s.round.resume < s.round.list.length) ∧
    office.round.list.length ≤ office.round.resume := by decide +kernel

/-- Till 37 as section 3.5.1 gives it, under a running round. -/
def rounding (calls : List CallEntry) : State :=
  { withTill37 { till37 with state := .trading, f := 300000, s := 2130000 } with
    calls := calls, round := { office.round with list := [36], run := some ⟨0, 0, 0, 0⟩ } }

theorem test_witness_RoundEvaluates :
    let s := rounding []
    let till := s.till 36
    (s.live = true ∧ s.round.run = some ⟨0, 0, 0, 0⟩ ∧ s.round.list[0]? = some 36) ∧
    (till.inService = true ∧ till.state = .trading ∧ till.lane = none ∧ till.threshold ≠ 0 ∧
      (till.threshold : Int) ≤ till.drawer ∧
      ((till.drawer - till.f).toNat / s.limits.skimUnit) * s.limits.skimUnit ≠ 0) ∧
    s.hasCall 36 .skim = false ∧ s.calls.length < 32 ∧
    (rounding [⟨36, .skim, none, none⟩]).hasCall 36 .skim = true ∧
    ((rounding (List.replicate 32 ⟨0, .collect, none, none⟩)).hasCall 36 .skim = false) ∧
    ((rounding []).setTill 36 till37).live = true ∧ till37.state ≠ .trading := by decide +kernel

theorem test_witness_LaneLinkCommands :
    let a := [2] ++ le 2 62 ++ [3]
    let fresh := office.setLane 2 (lane2 .idle none)
    let bound := office.setLane 2 (lane2 .fault (some session37))
    (laneOf (arg a 0 1) = some 2 ∧ a.length = 4 ∧ maskOf (arg a 1 2) = some 62 ∧ asFin 4 (arg a 3 1) = some 3 ∧
      (∀ c : Code, has 62 c = true → office.denoms[c].kind = .note) ∧ office.ret.latch = false) ∧
    (office.lane 2).session = none ∧ (bound.lane 2).session ≠ none ∧
    ((fresh.lane 2).state ≠ .unprofiled ∧ (fresh.lane 2).state ≠ .fault) ∧ (bound.lane 2).state = .fault ∧
    (office.lane 2).state = .unprofiled ∧ (bound.lane 2).session = some session37 := by decide +kernel

theorem test_witness_CountOpenBinds :
    let idle := office.setLane 2 (lane2 .idle none)
    ((idle.lane 2).state ≠ .unprofiled ∧ (idle.lane 2).identity ≠ none ∧ (idle.lane 2).session = none ∧
      (idle.lane 2).errors = 0 ∧ laneOf (arg [2, 1, 37] 0 1) = some 2 ∧ office.ret.latch = false) ∧
    (tillOf (arg [2, 1, 37] 2 1) = some 36 ∧ arg [2, 1, 37] 1 1 = 1 ∧ (counting37 .closing).lane = none ∧
      (counting37 .closing).state = .closing ∧ arg [2, 2, 37] 1 1 = 2 ∧ (trading37.till 36).lane = none ∧
      (trading37.till 36).state = .trading) ∧
    (let a := [2, 3] ++ le 2 4
     let s := withMan0 (delivery4 .receiving)
     a.length = 4 ∧ arg a 1 1 = 3 ∧ s.findMan (arg a 2 2) = some 0 ∧
       s.man 0 = some (delivery4 .receiving)) ∧
    (let a := [2, 4] ++ le 2 136
     a.length = 4 ∧ arg a 1 1 = 4 ∧ maskOf (arg a 2 2) = some 136 ∧ (136 : CodeSet) ≠ 0 ∧
       (∀ c : Code, has 136 c = true → office.denoms[c].kind ≠ .unused) ∧
       (∀ c : Code, has 136 c = true → office.denoms[c].kind = .note → has (idle.lane 2).mask c = true) ∧
       (∀ j : LaneIx, (idle.lane j).session = none) ∧ idle.audit = none) := by decide +kernel

theorem test_witness_CountOpenBinds_refusals :
    let idle := office.setLane 2 (lane2 .idle none)
    let bound (m : Manifest) := withMan0 m
    let engaged : Manifest :=
      { delivery4 .receiving with body := .delivery ⟨[⟨3, 5⟩], 50000, some 1, none⟩ }
    let audits := office.setLane 3 (lane2 .held (some { session37 with purpose := .audit 136 }))
    laneOf (arg [4, 1, 37] 0 1) = none ∧ (retained .none).ret.latch = true ∧
    (office.lane 2).state = .unprofiled ∧ ({ lane2 .idle none with identity := none }).identity = none ∧
    ((arg ([2, 4] ++ le 2 1) 2 2).testBit (0 : Code).val = true ∧ office.denoms[(0 : Code)].kind = .note ∧
      has (idle.lane 2).mask 0 = false) ∧
    (lane2 .opened (some session37)).session ≠ none ∧ ({ lane2 .idle none with errors := 1 }).errors ≠ 0 ∧
    tillOf (arg [2, 1, 97] 2 1) = none ∧ (trading37.till 36).state ≠ .closing ∧
    ((counting37 .closing).state = .closing ∧ ({ counting37 .closing with lane := some 1 }).lane ≠ none) ∧
    office.findMan (arg ([2, 3] ++ le 2 4) 2 2) = none ∧
    (delivery4 .ready).state ≠ .receiving ∧
    ((bound engaged).findMan 4 = some 0 ∧ (bound engaged).man 0 = some engaged ∧ engaged.state = .receiving) ∧
    (audits.lane 3).session = some { session37 with purpose := .audit 136 } ∧
    ({ office with audit := some audited }).audit ≠ none := by decide +kernel

/-- An audit session of codes 3 and 7, with one batch. -/
def sessionAudit : Session := ⟨.audit 136, 8, Comp.zero, [⟨19, 3, ⟨298, 4, 1⟩⟩], Vector.replicate 12 0⟩

theorem test_witness_SessionCommands :
    let at2 (st : LaneState) (x : Session) := office.setLane 2 (lane2 st (some x))
    let empty : Session := { session37 with stack := [] }
    (laneOf (arg [2] 0 1) = some 2 ∧ ((at2 .opened session37).lane 2).session = some session37 ∧
      ((at2 .opened session37).lane 2).state = .opened) ∧
    ((at2 .holding session37).lane 2).state = .holding ∧ ((at2 .fault session37).lane 2).state = .fault ∧
    (((at2 .held session37).lane 2).state = .held ∧ session37.stack = ⟨18, 5, ⟨3, 0, 0⟩⟩ :: session37.stack.tail) ∧
    (((at2 .held empty).lane 2).state = .held ∧ empty.stack = []) ∧ ((at2 .ended empty).lane 2).state = .ended ∧
    (let a := [2, 7] ++ le 2 5
     a.length = 4 ∧ arg a 1 1 = (7 : Code).val ∧ office.denoms[(7 : Code)].kind = .roll ∧
       sessionAudit.purpose = .audit 136 ∧ has 136 7 = true) ∧
    session37.purpose = .tillClose 36 ∧
    (let s := withMan0 (delivery4 .receiving)
     s.findMan 4 = some 0 ∧ s.man 0 = some (delivery4 .receiving)) := by decide +kernel

theorem test_witness_SessionCommands_states :
    let idle := office.setLane 2 (lane2 .idle none)
    (idle.ready = true ∧ (idle.lane 2).state = .idle ∧ (idle.lane 2).session = none) ∧
    (office.lane 2).state = .unprofiled ∧
    (let a := [2, 7] ++ le 2 5
     a.length = 4 ∧ arg a 1 1 = (7 : Code).val ∧ office.denoms[(7 : Code)].kind = .roll) ∧
    ((lane2 .ended (some { session37 with stack := [] })).state = .ended ∧
      ({ session37 with stack := [] }).stack = []) := by decide +kernel

/-- Till 41 in its pickup on lane 2, in a state where its SKIM entry stands. -/
def pickup41 (threshold : Nat) (calls : List CallEntry) : State :=
  { (office.setTill 40 { till37 with
      state := .trading, f := 200000, s := 2050000, threshold := threshold, lane := some 2 }).setLane 2
        (lane2 .ended (some { session37 with purpose := .pickup 40 })) with calls := calls }

theorem test_witness_CommitOfTills :
    let x := session37
    (beforeCommit.ready = true ∧ laneOf (arg [2] 0 1) = some 2 ∧ (beforeCommit.lane 2).session = some x ∧
      (beforeCommit.lane 2).state = .ended ∧ inRefusal beforeCommit x.comp = none ∧
      (0 : Int) ≤ (beforeCommit.balance : Int) + 1514000 - (beforeCommit.till 36).f ∧
      (beforeCommit.balance : Int) + 1514000 - (beforeCommit.till 36).f ≤ 2000000000) ∧
    (let s := pickup41 100000 [⟨40, .skim, some 5, none⟩]
     s.ready = true ∧ inRefusal s x.comp = none ∧ s.balance + 1514000 ≤ 2000000000 ∧
       (s.till 40).p + 1514000 ≤ 2000000000 ∧ (s.till 40).pickups < 65535 ∧ s.hasCall 40 .skim = true ∧
       skimDue { s.till 40 with p := 1514000 } s.limits.skimUnit ≠ 0) ∧
    (pickup41 100000 []).hasCall 40 .skim = false ∧
    skimDue { (pickup41 2000000000 []).till 40 with p := 1514000 } 10000 = 0 := by decide +kernel

theorem test_witness_CommitOfDeliveryAndAudit :
    (let x := { session37 with purpose := .delivery 4 }
     let s := (withMan0 (delivery4 .receiving)).setLane 2 (lane2 .held (some x))
     s.ready = true ∧ (s.lane 2).session = some x ∧ (s.lane 2).state = .held ∧
       s.findMan (delivery4 .receiving).number = some 0 ∧ s.man 0 = some (delivery4 .receiving) ∧
       inRefusal s x.comp = none ∧ valueOf s.denoms x.comp ≤ 2000000000 ∧
       s.balance + valueOf s.denoms x.comp ≤ 2000000000) ∧
    (sessionAudit.purpose = .audit 136 ∧ valueOf notes sessionAudit.comp ≤ 2000000000) := by decide +kernel

/-- For CommitOfTills and CommitOfDeliveryAndAudit: the refusals of a commit. -/
theorem test_witness_commit_refusals :
    let frozen := { beforeCommit with stock := beforeCommit.stock.set 2 ⟨⟨0, 0, 0⟩, true⟩ }
    let s := pickup41 100000 []
    (office.lane 2).state = .unprofiled ∧ (lane2 .fault (some session37)).state = .fault ∧
    (lane2 .opened (some session37)).state ∈ [LaneState.idle, .opened, .holding] ∧
    (inRefusal frozen session37.comp = some .inUse ∧ (frozen.lane 2).session = some session37) ∧
    (inRefusal { beforeCommit with balance := 2000000000 } session37.comp = none ∧
      2000000000 < (2000000000 : Int) + 1514000 - (beforeCommit.till 36).f) ∧
    (inRefusal s session37.comp = none ∧ 65535 ≤ ({ s.till 40 with pickups := 65535 }).pickups) ∧
    2000000000 < (2000000000 : Nat) + valueOf notes session37.comp := by decide +kernel

theorem test_witness_AuditDecisions :
    let s := { office with audit := some audited }
    let a := le 3 481205
    s.ready = true ∧ a.length = 3 ∧ arg a 0 3 = s.auth.code ∧ s.audit = some audited ∧
    (∀ c : Code, has audited.codes c = true → s.stock[c].counts = audited.stock[c]) ∧
    (0 : Int) ≤ (s.balance : Int) + (-10000) ∧
    (let t := { s with stock := s.stock.set 3 ⟨⟨199, 0, 0⟩, false⟩ }
     ∃ c : Code, has audited.codes c = true ∧ t.stock[c].counts ≠ audited.stock[c]) ∧ office.audit = none := by
  decide +kernel

theorem test_witness_BagFilling :
    (let a := le 5 9999999999 ++ [3]
     a.length = 6 ∧ bagKindOf (arg a 5 1) = some .suspect ∧ 1 ≤ arg a 0 5 ∧ arg a 0 5 ≤ 9999999999 ∧
       (∀ c : BagIx, office.bag c = none)) ∧
    (let a := [48, 3, 0] ++ le 2 200
     let s := office.setBag 47 (some (bagOf1 11))
     a.length = 5 ∧ bagOf (arg a 0 1) = some 47 ∧ s.bag 47 = some (bagOf1 11) ∧ arg a 1 1 = (3 : Code).val ∧
       classOf (arg a 2 1) = some .fit ∧ s.denoms[(3 : Code)].kind ≠ .unused ∧
       (bagOf1 11).kind.takes .fit = true ∧ 1 ≤ arg a 3 2 ∧ arg a 3 2 ≤ 3000 ∧ (bagOf1 11).state = .filling ∧
       outRefusal s (Comp.only 3 .fit 200) = none ∧ (bagOf1 11).units + 200 ≤ 3000) ∧
    (let s := office.setBag 47 (some (bagOf1 11))
     (20 : Nat) ≤ lineHeld (bagOf1 11).lines 1 .fit ∧ inRefusal s (Comp.only 1 .fit 20) = none ∧
       lineHeld (bagOf1 11).lines 1 .fit < 21) := by decide +kernel

theorem test_witness_PlacementRotates :
    let at0 (k : Nat) (next : List BagIx) : State :=
      { office with rack := ⟨⟨#[[], next, [], []], rfl⟩, k, 0, false, []⟩ }
    ({ office with rack := { office.rack with halt := true } }).rack.halt = true ∧
    (at0 2 []).rack.halt = false ∧ ((at0 2 []).rack.comps[(0 : CompIx)] ++ [5]).length < (at0 2 []).rack.k ∧
    ((at0 1 []).rack.k ≤ ((at0 1 []).rack.comps[(0 : CompIx)] ++ [5]).length ∧
      (at0 1 []).rack.comps[(1 : CompIx)] = []) ∧
    (at0 1 [7]).rack.comps[(1 : CompIx)] ≠ [] := by decide +kernel

theorem test_witness_BagsShutAndBroken :
    let s := office.setBag 0 (some (bagOf1 11))
    let held := { office.setBag 0 (some { bagOf1 11 with state := .heldBack, comp := some 0 }) with
      rack := ⟨⟨#[[0], [], [], [3]], rfl⟩, 1, 0, true, []⟩ }
    (bagOf (arg [1] 0 1) = some 0 ∧ s.bag 0 = some (bagOf1 11) ∧ (bagOf1 11).state = .filling ∧
      (bagOf1 11).lines ≠ []) ∧ ({ bagOf1 11 with lines := [] }).lines = [] ∧
    (let a := [1] ++ le 3 481205
     a.length = 4 ∧ bagOf (arg a 0 1) = some 0 ∧ arg a 1 3 = office.auth.code) ∧
    ((withMan0 (collection2 .ready .halt .pending)).bag 0).map Bag.state = some .manifested ∧
    (inRefusal s (linesComp (bagOf1 11).lines) = none ∧ s.rack.halt = false) ∧
    (held.rack.halt = true ∧ (held.rack.comps[held.rack.ptr].filter fun c => c != 0) = []) ∧
    ((∀ c : CompIx, office.rack.comps[c] = []) ∧ office.rack.queue = [] ∧ (12 : Byte).toNat ≤ 12) ∧
    (∃ c : CompIx, held.rack.comps[c] ≠ []) := by decide +kernel

/-- The head of a MAN-CREATE: kind, number, courier code, window. -/
def createHead (kind : Byte) : List Byte :=
  [kind] ++ le 2 7 ++ le 3 999999 ++ le 2 10 ++ le 2 540 ++ le 2 10 ++ le 2 1439

theorem test_witness_ManifestsCreated :
    (let a := createHead 1 ++ [3, 4]
     arg a 1 2 ≠ 0 ∧ arg a 3 3 ≤ 999999 ∧ arg a 8 2 ≤ 1439 ∧ arg a 12 2 ≤ 1439 ∧
       arg a 6 2 * 1440 + arg a 8 2 < arg a 10 2 * 1440 + arg a 12 2 ∧ (∀ j : SlotIx, office.man j = none) ∧
       a.length = 16 ∧ arg a 0 1 = 1 ∧ policyOf (arg a 14 1) = some .rescan) ∧
    (let a := createHead 2 ++ [1, 0] ++ le 2 20000
     let l : List DeclLine := [⟨0, 20000⟩]
     arg a 0 1 = 2 ∧ 1 ≤ arg a 14 1 ∧ arg a 14 1 ≤ 12 ∧ a.length = 15 + 3 * arg a 14 1 ∧
       readLines office.denoms (linePairs (a.drop 15)) = some l ∧ (∀ x ∈ l, x.count ≠ 0) ∧
       (sumCodes fun c => lineCount l c * office.denoms[c].face) ≤ 2000000000 ∧
       2000000000 < sumCodes fun c => lineCount [⟨0, 20001⟩] c * office.denoms[c].face) := by decide +kernel

theorem test_witness_ManifestsPrepared :
    let m := collection2 .draft .halt .pending
    let s := withMan0 m
    let two := s.setBag 1 (some { bagOf1 12 with state := .placed, comp := some 0 })
    (s.ready = true ∧ s.findMan (arg [2, 0, 2] 0 2) = some 0 ∧ s.man 0 = some m ∧ m.state = .draft) ∧
    (bagOf (arg [2, 0, 2] 2 1) = some 1 ∧ (two.bag 1).map Bag.state = some .placed) ∧
    (bagOf (arg [2, 0, 1] 2 1) = some 0 ∧ (s.bag 0).isSome = true ∧
      (⟨0, 11, .pending, 0⟩ : Entry) ∈ [(⟨0, 11, .pending, 0⟩ : Entry)]) ∧
    24 ≤ (List.replicate 24 (⟨0, 11, .pending, 0⟩ : Entry)).length ∧
    (collection2 .ready .halt .pending).state ≠ .draft := by decide +kernel

theorem test_witness_ManifestsCancelled :
    (let s := withMan0 (collection2 .ready .halt .pending)
     s.ready = true ∧ s.findMan (arg [2, 0] 0 2) = some 0 ∧
       s.man 0 = some (collection2 .ready .halt .pending) ∧
       (collection2 .ready .halt .pending).state ∈
         [ManState.draft, .ready, .suspended, .expired, .locked]) ∧
    (collection2 .bags .halt .pending).state = .bags ∧
    (let s := withMan0 (delivery4 .receiving)
     s.findMan (arg [4, 0] 0 2) = some 0 ∧ s.man 0 = some (delivery4 .receiving)) ∧
    (delivery4 .counted).state = .counted := by decide +kernel

theorem test_witness_CourierArrives :
    let m := collection2 .ready .halt .pending
    let s := withMan0 m
    let a (code : Nat) := le 2 2 ++ le 3 code
    (s.ready = true ∧ (a 123456).length = 5 ∧ s.findMan (arg (a 123456) 0 2) = some 0 ∧ s.man 0 = some m ∧
      arg (a 999999) 2 3 ≤ 999999 ∧ m.state = .ready ∧ s.ret.latch = false ∧ s.clock.isSet = true) ∧
    (m.opens.day * 1440 + m.opens.minute ≤ s.clock.day * 1440 + s.clock.minute ∧
      s.clock.day * 1440 + s.clock.minute < m.closes.day * 1440 + m.closes.minute) ∧
    ¬({ s with clock := ⟨true, 10, 660, 0⟩ }).clock.minute < m.closes.minute ∧
    (let t := s.setMan 1 (some { m with number := 3, state := .bags })
     t.findMan 2 = some 0 ∧ (t.man 1).map Manifest.state = some .bags) ∧
    (∀ j, j ≠ 0 → s.man j = none) ∧ arg (a 5) 2 3 ≠ m.courier ∧ m.wrong < 2 ∧ 2 ≤ ({ m with wrong := 2 }).wrong ∧
    arg (a 123456) 2 3 = m.courier ∧ (withMan0 (delivery4 .ready)).doorLaw := by
  unfold State.doorLaw
  decide +kernel

theorem test_witness_BagsScanned :
    let m (p : Policy) := collection2 .bags p .pending
    let s (p : Policy) := withMan0 (m p)
    let a (bad : Byte) := le 2 2 ++ le 5 11 ++ [bad]
    let e : Entry := ⟨0, 11, .pending, 0⟩
    (∀ p ∈ [Policy.halt, .setAside, .rescan], (s p).ready = true ∧ (s p).findMan (arg (a 0) 0 2) = some 0 ∧
      (s p).man 0 = some (m p) ∧ (m p).state = .bags) ∧
    ((a 1).length = 8 ∧ 1 ≤ arg (a 1) 2 5 ∧ arg (a 1) 2 5 ≤ 9999999999 ∧
      [e].findIdx? (fun y => y.tag == arg (a 1) 2 5) = some 0 ∧ [e][0]? = some e ∧ e.status = .pending) ∧
    (arg (a 0) 7 1 = 0 ∧ arg (a 1) 7 1 = 1) ∧ (e.rescans + 1 ≤ 1 ∧ 1 < ({ e with rescans := 1 }).rescans + 1) := by
  decide +kernel

theorem test_witness_ManifestsResumedAndReopened :
    (let m := collection2 .suspended .halt .pending
     let s := withMan0 m
     let a := le 2 2 ++ le 3 481205
     s.ready = true ∧ a.length = 5 ∧ s.findMan (arg a 0 2) = some 0 ∧ s.man 0 = some m ∧ s.auth.lockout = 0 ∧
       arg a 2 3 = s.auth.code ∧ m.state = .suspended ∧ (s.bag 0).isSome = true ∧ s.ret.latch = false ∧
       (∀ j, j ≠ 0 → s.man j = none)) ∧
    (collection2 .ready .halt .pending).state ≠ .suspended ∧
    (let m := collection2 .expired .halt .pending
     let s := withMan0 m
     let a (minute : Nat) := le 2 2 ++ le 3 481205 ++ le 2 10 ++ le 2 minute
     (a 601).length = 9 ∧ arg (a 601) 7 2 ≤ 1439 ∧
       m.opens.day * 1440 + m.opens.minute < arg (a 601) 5 2 * 1440 + arg (a 601) 7 2 ∧ m.state = .expired ∧
       s.clock.day * 1440 + s.clock.minute < arg (a 601) 5 2 * 1440 + arg (a 601) 7 2 ∧ s.clock.isSet = true ∧
       arg (a 600) 5 2 * 1440 + arg (a 600) 7 2 ≤ s.clock.day * 1440 + s.clock.minute) := by decide +kernel

/-- A delivery COUNTED, as a commit leaves it. -/
def countedDelivery : Manifest :=
  { delivery4 .counted with body := .delivery ⟨[⟨3, 5⟩], 50000, none, some ⟨Comp.zero, 0, [], -50000⟩⟩ }

theorem test_witness_CourierSigns :
    let m := collection2 .bags .halt .accepted
    let s := withMan0 m
    let e : Entry := ⟨0, 11, .accepted, 0⟩
    (s.ready = true ∧ s.findMan (arg [2, 0] 0 2) = some 0 ∧ s.man 0 = some m ∧ m.state = .bags ∧
      e.status ≠ .pending ∧ s.entryPresent e = true ∧
      s.valueAccepted ⟨.halt, 1, [e], none⟩ = 1000000 ∧ 1000000 ≤ s.balance ∧ s.rack.halt = false) ∧
    ({ s with balance := 999999 }).balance < 1000000 ∧ (collection2 .ready .halt .accepted).state ≠ .bags ∧
    (countedDelivery.state = .counted ∧ (withMan0 countedDelivery).man 0 = some countedDelivery) ∧
    (delivery4 .receiving).state ≠ .counted := by decide +kernel

/-- For CourierSigns: the sign-off empties the compartment of a halt, and one that leaves a bag in it. -/
theorem test_witness_CourierSigns_halt :
    let m := collection2 .bags .halt .accepted
    let s := { (withMan0 m).setBag 8 (some { bagOf1 9 with state := .shut }) with
      rack := ⟨⟨#[[0], [], [], [3]], rfl⟩, 1, 0, true, [8]⟩, door := ⟨true, some 60, false, none⟩ }
    let two := { s with rack := { s.rack with comps := s.rack.comps.set 0 [0, 5] } }
    let t := run .courierSign (le 2 2) s
    (s.ready = true ∧ s.rack.halt = true) ∧
    (t.port.code = .ok ∧ t.rack = ⟨⟨#[[8], [], [], [3]], rfl⟩, 1, 1, false, []⟩ ∧ t.bag 0 = none ∧
      t.door = ⟨true, some 60, false, none⟩ ∧ t.balance = office.balance - 1000000) ∧
    (run .courierSign (le 2 2) two).rack = ⟨⟨#[[5], [], [], [3]], rfl⟩, 1, 0, true, [8]⟩ := by decide +kernel

theorem test_witness_ClockAndRetentionCommands :
    let latched := { office with ret := { office.ret with latch := true } }
    ((le 2 65535 ++ le 2 1439).length = 4 ∧ arg (le 2 65535 ++ le 2 1439) 2 2 ≤ 1439 ∧ office.anyAtDoor = false ∧
      (withMan0 (delivery4 .receiving)).anyAtDoor = true) ∧
    (arg [2] 0 1 = 2 ∧ office.anySession = false ∧ office.round.run = none ∧ (rounding []).round.run ≠ none) ∧
    (office.ret.latch = false ∧ latched.ret.latch = true ∧ latched.ready = true) ∧
    ((le 3 481205).length = 3 ∧ arg (le 3 481205) 0 3 = office.auth.code ∧ beforeCommit.anySession = true) ∧
    1439 < arg (le 2 0 ++ le 2 1440) 2 2 ∧ arg [3] 0 1 ≠ 1 ∧ arg [3] 0 1 ≠ 2 := by decide +kernel

theorem test_witness_LaneFramesAct :
    let s (st : LaneState) := office.setLane 2 (lane2 st (some session37))
    (office.live = true ∧ (office.lane 2).state = .unprofiled) ∧
    (∀ st ∈ [LaneState.idle, .opened, .holding, .held, .ended, .fault],
      (s st).live = true ∧ ((s st).lane 2).state ≠ .unprofiled ∧ ((s st).lane 2).rx = .hunting false ∧
        ((s st).lane 2).state = st ∧ ((s st).lane 2).expect = .number (19 + 1)) ∧
    ((lane2 .opened none).expect ≠ .any ∧ (lane2 .opened none).expect ≠ .number (18 + 1)) ∧
    frameLen 0x04 ≠ some [(1 : Byte)].length ∧
    charSum ([0x04, BitVec.ofNat 8 0] ++ [] ++ [0xFD]) ≠ 0 := by decide +kernel

theorem test_witness_FramingErrors :
    let at2 (r : Receiver) := office.setLane 2 { lane2 .idle none with rx := r }
    ((at2 (.hunting false)).live = true ∧ ((at2 (.hunting false)).lane 2).state ≠ .unprofiled ∧
      ((at2 (.hunting false)).lane 2).rx = .hunting false ∧ ¬((0x55 : Byte) = 0xC3)) ∧
    ((at2 (.hunting true)).lane 2).rx = .hunting true ∧ ((at2 (.collecting [])).lane 2).rx = .collecting [] ∧
    (((at2 (.collecting [2])).lane 2).rx = .collecting [2] ∧ 12 < (13 : Byte).toNat) := by decide +kernel

/-- A session with a full stack. -/
def fullStack : Session := { session37 with stack := ⟨19, 4, ⟨5, 0, 0⟩⟩ :: session37.stack }

theorem test_witness_BatchesTaken :
    let s (x : Session) := office.setLane 2 (lane2 .opened (some x))
    ((s session37).live = true ∧ ((s session37).lane 2).rx = .hunting false ∧
      ((s session37).lane 2).session = some session37 ∧ ((s session37).lane 2).expect = .number 20) ∧
    ((lane2 .idle none).state = .idle ∧ (lane2 .idle none).expect ≠ .absent) ∧ (20 : Byte) ≠ 21 ∧
    (12 : Nat) ≤ (12 : Byte).toNat ∧ (11 : Byte).toNat = (11 : Code).val ∧
    (has session37.accepted 5 = true ∧ (session37.total 5).fit + 999 ≤ 65535 ∧ session37.stack.length < 8) ∧
    has session37.accepted 6 = false ∧
    (let x := { session37 with folded := session37.folded.set 5 ⟨65000, 0, 0⟩ }
     ¬((x.total 5).fit + 999 ≤ 65535)) ∧
    (fullStack.stack.length = 8 ∧
      fullStack.stack = fullStack.stack.dropLast ++ [⟨12, 2, ⟨8, 1, 1⟩⟩]) := by decide +kernel

theorem test_witness_FrameSentBeginsNext :
    let s (t : Transmitter) := office.setLane 2 { lane2 .idle none with tx := t }
    ((s Transmitter.idle).powered = true ∧ (s Transmitter.idle).due = [] ∧
      ((s Transmitter.idle).lane 2).tx.sending = none) ∧
    ((s ⟨some ⟨.profile 62 3, 0⟩, [.start], 0, false⟩).lane 2).tx.sending = some ⟨.profile 62 3, 0⟩ ∧
    ((s ⟨some ⟨.hold, 0⟩, [], 0, false⟩).lane 2).tx.draining = false ∧
    ((s ⟨some ⟨.hold, 0⟩, [], 2, true⟩).lane 2).tx.waiting = [] ∧
    ((s ⟨some ⟨.start, 2⟩, [.hold], 2, true⟩).lane 2).tx.waiting = .hold :: [] ∧
    ((s ⟨some ⟨.hold, 2⟩, [.profile 62 3], 2, true⟩).lane 2).tx.waiting = .profile 62 3 :: [] := by decide +kernel

/-- For FrameSentBeginsNext: a HOLD issued behind a waiting PROFILE, and in the place of a waiting START. -/
theorem test_witness_Transmitter :
    let behind : Transmitter := ⟨some ⟨.start, 0⟩, [.profile 62 3], 0, false⟩
    let replaces : Transmitter := ⟨some ⟨.profile 62 3, 0⟩, [.start], 0, false⟩
    (behind.sending ≠ none ∧ (∀ g ∈ behind.waiting, (∃ m v, g = .profile m v) ↔ ¬∃ m v, TxFrame.hold = .profile m v)) ∧
    behind.issue .hold = { behind with waiting := [.profile 62 3, .hold] } ∧
    replaces.issue .hold = { replaces with waiting := [.hold] } := by
  refine ⟨⟨by decide, fun g h => ?_⟩, by decide, by decide⟩
  rw [List.mem_singleton.1 h]
  simp

theorem test_witness_TicksLowerCountdowns :
    (office.due = [] ∧ office.powered = true ∧ office.ret.kind ≠ .deep) ∧ (retained .deep).ret.kind = .deep ∧
      (after .supplyLost office).powered = false := by decide +kernel

theorem test_witness_TickEventsAct :
    (let s := { office.setLane 2 { lane2 .holding none with hold := some 0 } with due := [.holdTimeout 2] }
     TickEvent.holdTimeout 2 ∈ s.due ∧ (s.lane 2).hold = some 0 ∧ (s.lane 2).state ≠ .unprofiled) ∧
    (let s := { office with door := ⟨true, some 0, false, none⟩, due := [.intervalEnd, .lockoutEnd] }
     TickEvent.intervalEnd ∈ s.due ∧ s.door.interval = some 0 ∧ TickEvent.lockoutEnd ∈ s.due) ∧
    (let s := { office with
       due := [.timerExpiry]
       round := { office.round with list := [36], timerOn := true, countdown := some 0 } }
     TickEvent.timerExpiry ∈ s.due ∧ s.round.timerOn = true ∧ s.ret.latch = false ∧ s.round.countdown = some 0 ∧
       s.round.run = none ∧ s.round.resume < s.round.list.length) ∧
    (rounding []).round.run ≠ none ∧
    (let m := collection2 .bags .halt .accepted
     let s := { withMan0 m with clock := ⟨true, 10, 660, 0⟩, due := [.windowExpiry 0] }
     TickEvent.windowExpiry 0 ∈ s.due ∧ s.clock.isSet = true ∧ s.man 0 = some m ∧
       m.state ∈ [ManState.ready, .bags, .suspended, .locked] ∧
       m.closes.day * 1440 + m.closes.minute ≤ s.clock.day * 1440 + s.clock.minute) ∧ office.due = [] := by
  decide +kernel

theorem test_witness_LineInputsAct :
    let listed := { office with round := { office.round with list := [36], trigOn := true } }
    (office.live = true ∧ office.lines = office.taken ∧ office.taken.courierIn = false ∧ office.ret.kind = .none) ∧
    ((retained .watch).lines = (retained .watch).taken ∧ (retained .watch).ret.kind = .watch) ∧
    ((retained .deep).lines = (retained .deep).taken ∧ (retained .deep).ret.kind = .deep) ∧
    (listed.round.trigOn = true ∧ listed.taken.roundIn = false ∧ listed.round.run = none ∧
      listed.round.resume < listed.round.list.length) ∧ office.round.trigOn = false ∧
    (office.taken.doorOpen = false ∧ office.door.unlocked = false ∧ night.door.unlocked = true) ∧
    (after (.doorSenseChange true) office).taken.doorOpen = true ∧
    (let s := { retained .watch with door := ⟨true, none, false, none⟩ }
     s.live = true ∧ s.lines = s.taken ∧ s.ret.kind = .watch ∧ s.taken.doorOpen = false ∧ s.door.unlocked = true) ∧
    ((retained .watch).taken.doorOpen = false ∧ (retained .watch).door.unlocked = false ∧
      (retained .deep).taken.doorOpen ≠ true) := by decide +kernel

theorem test_witness_SupplyEventsAct :
    (night.live = true ∧ night.lines = night.taken ∧ night.taken.supplyWarn = false ∧
      night.port.inProgress = none ∧ night.ret.kind = .none) ∧
    ((retained .watch).taken.supplyWarn = false ∧ (retained .deep).taken.supplyWarn = false) ∧
    (rounding []).round.run = some ⟨0, 0, 0, 0⟩ := by decide +kernel

/-- For the state that is left of undone work: sessions of each purpose, and a part that holds none. -/
theorem test_witness_undone :
    night.holds (.tillClose 36) ∧ (pickup41 0 []).holds (.pickup 40) ∧
    (office.setLane 2 (lane2 .held (some sessionAudit))).holds (.audit 136) ∧
    (let s := (withMan0 (delivery4 .receiving)).setLane 2 (lane2 .held (some { session37 with purpose := .delivery 4 }))
     s.holds (.delivery 4) ∧ s.findMan 4 = some 0 ∧ s.man 0 = some (delivery4 .receiving)) ∧
    (∀ p, ¬office.holds p) := by
  refine ⟨⟨2, session37, ?_, rfl⟩, ⟨2, { session37 with purpose := .pickup 40 }, ?_, rfl⟩, ⟨2, sessionAudit, ?_, rfl⟩,
    ⟨⟨2, { session37 with purpose := .delivery 4 }, ?_, rfl⟩, ?_, ?_⟩, fun p => ?_⟩
  case refine_7 =>
    have idle : ∀ i : LaneIx, (office.lane i).session = none := by decide +kernel
    rintro ⟨i, x, h, _⟩
    rw [idle i] at h
    cases h
  all_goals decide +kernel

/-- For PinResetActs and ColdPowerUpActs. -/
theorem test_witness_resets :
    (night.powered = true ∧ night.due = [] ∧ night.resetLow = false ∧ night.ret.kind = .none ∧
      night.lines = night.taken ∧ night.ret.storeValid = true) ∧
    ((retained .deep).ret.kind = .deep ∧ (retained .watch).ret.kind ≠ .deep) ∧
    (rounding []).round.run = some ⟨0, 0, 0, 0⟩ ∧
    ({ office with ret := { office.ret with storeValid := false } }).ret.storeValid = false := by decide +kernel

/-- A start of the office with a command waiting. -/
def starting : State := { State.reset with pending := [.nop (whole false)] }

/-- For DoorLawKept, BoundsKept and FloatsKeepBalanceLaw: a command at the front, whose step answers next. -/
theorem test_witness_step :
    starting.pending = [.nop (whole false)] ∧ (∃ t, step starting = .next t) ∧
    ∃ t, step { night with pending := [.courierSign (whole false)] } = .next t :=
  ⟨rfl, ⟨_, rfl⟩, ⟨_, rfl⟩⟩

/-- For DoorLawKept and BoundsKept: an office with a handover at the door and a command at the front. -/
theorem test_witness_laws :
    let s := { night with pending := [.courierSign (whole false)] }
    s.doorLaw ∧ s.queueLaw ∧ s.port.bounded ∧ s.codeLaw ∧ s.stackLaw ∧ s.port.replyBounded := by
  have w : ∀ i : SlotIx, ∀ m ∈ night.man i, m.wrong ≤ 3 ∧ (m.wrong = 3 → m.state = .locked ∨ m.state = .expired) := by
    decide +kernel
  have k : ∀ i : LaneIx, ∀ x ∈ (night.lane i).session, x.stack.length ≤ 8 := by decide +kernel
  refine ⟨?_, ?_, ?_, ⟨?_, ?_, fun i m h => w i m h⟩, fun i x h => k i x h, ?_⟩
  · unfold State.doorLaw; decide +kernel
  · unfold State.queueLaw; decide +kernel
  · unfold Port.bounded; decide +kernel
  · decide +kernel
  · decide +kernel
  · unfold Port.replyBounded; decide +kernel

/-- For BoundsKept: the places of the bags and the lists, with a bag MANIFESTED in compartment 0 and a command at the
front. -/
theorem test_witness_rackLaw :
    let s := { night with pending := [.courierSign (whole false)] }
    s.rackLaw ∧ s.listsLaw := by
  have hm : ∀ i : SlotIx, ∀ m ∈ night.man i, i = 0 ∧ m = collection2 .bags .halt .accepted := by decide +kernel
  have hb : ∀ b : BagIx, ∀ x ∈ night.bag b, b = 0 ∧ x = { bagOf1 11 with state := .manifested, comp := some 0 } := by
    decide +kernel
  have b0 : night.bag 0 = some { bagOf1 11 with state := .manifested, comp := some 0 } := by decide +kernel
  have hl : ∀ i : LaneIx, ∀ x ∈ (night.lane i).session, x.stack.length ≤ 8 := by decide +kernel
  have hq : night.rack.queue = [] := by decide +kernel
  have hc : ∀ (b : BagIx) (c : CompIx), b ∈ night.rack.comps[c] ↔ b = 0 ∧ c = 0 := by decide +kernel
  refine ⟨⟨⟨fun b => ⟨fun h => ?_, ?_⟩, fun b c => (hc b c).trans ⟨?_, ?_⟩, ?_, ?_⟩, ?_, ?_, ?_⟩, ?_, ?_, ?_, ?_, ?_⟩
  · exact absurd (show b ∈ night.rack.queue from h) (by rw [hq]; exact List.not_mem_nil)
  · rintro ⟨x, h, e⟩
    rw [(hb b x h).2] at e
    cases e
  · rintro ⟨rfl, rfl⟩
    exact ⟨_, b0, rfl⟩
  · rintro ⟨x, h, e⟩
    obtain ⟨rfl, rfl⟩ := hb b x h
    exact ⟨rfl, (Option.some.inj e).symm⟩
  · intro b x h
    rw [(hb b x h).2]
    unfold BagState.inCompartment
    decide
  · decide +kernel
  · rintro i e ⟨m, c, h, hc, he, _⟩
    obtain ⟨rfl, rfl⟩ := hm i m h
    cases hc
    rw [List.mem_singleton.1 he]
    exact ⟨_, b0, rfl, rfl⟩
  · rintro i j e f ⟨m, _, h, _⟩ ⟨n, _, k, _⟩ _
    rw [(hm i m h).1, (hm j n k).1]
  · intro i m c h hc
    obtain ⟨rfl, rfl⟩ := hm i m h
    cases hc
    exact ⟨List.pairwise_singleton _ _, by decide, fun k e => by cases e⟩
  · decide +kernel
  · intro i m c h hc
    rw [(hm i m h).2] at hc
    cases hc
    decide
  · intro i m d h hd
    rw [(hm i m h).2] at hd
    cases hd
  · intro b x h
    rw [(hb b x h).2]
    exact List.pairwise_singleton _ _
  · exact fun i x h => hl i x h

/-- For FloatsKeepBalanceLaw and BoundsKept: the laws of the office at a start with a command waiting. -/
theorem test_witness_officeLaw : starting.officeLaw := by
  have hm : ∀ i : SlotIx, starting.man i = none := by decide +kernel
  have hb : ∀ b : BagIx, starting.bag b = none := by decide +kernel
  have hl : ∀ i : LaneIx, (starting.lane i).session = none := by decide +kernel
  have ht : ∀ t : TillIx, starting.till t = Till.cold := by decide +kernel
  have hc : ∀ c : CompIx, starting.rack.comps[c] = [] := by decide +kernel
  have hq : starting.rack.queue = [] := rfl
  refine ⟨?_, fun t => ?_, fun t r h => ?_, fun b x h => ?_, fun i x h => ?_,
    ⟨fun b => ?_, fun b c => ?_, fun b x h => ?_, ?_⟩, ?_, ?_, ?_⟩
  · unfold State.balanceLaw; decide +kernel
  · rw [ht]; decide +kernel
  · rw [ht] at h; cases h
  · rw [hb] at h; cases h
  · rw [hl] at h; cases h
  · simp [hq, hb]
  · simp [hc, hb]
  · rw [hb] at h; cases h
  · decide +kernel
  all_goals simp [State.lists, hm]

end Sys2Proof.Tests
end

namespace Sys2Proof.Machine

/-! ### The reads of the limits and of the stock -/

@[simp] theorem noArgs_nil (s : State) (next : Answer) : noArgs [] s next = next := rfl

theorem noArgs_of_ne_nil {a : List Byte} (h : a ≠ []) (s : State) (next : Answer) :
    noArgs a s next = .refused .argument s :=
  if_pos (mt List.length_eq_zero_iff.mp h)

@[simp] theorem State.awake_limits (s : State) : s.awake.limits = s.limits := by
  unfold State.awake
  split <;> rfl

@[simp] theorem State.awake_stock (s : State) : s.awake.stock = s.stock := by
  unfold State.awake
  split <;> rfl

/-- A command that takes no argument byte and only replies: with `reply` of the state it finds, which neither the
write of its command byte (R173) nor a wake from WATCH (R162) changes. -/
structure PlainRead (c : Cmd) (reply : State → List Byte) : Prop where
  effect_eq : ∀ a s, effect c a s = noArgs a s (.taken (reply s) s)
  reply_busyWith : ∀ b s, reply (s.busyWith b) = reply s
  reply_awake : ∀ s, reply s.awake = reply s

theorem PlainRead.exec_of_no_args {c : Cmd} {reply : State → List Byte} (r : PlainRead c reply) (n : Bool)
    (s : State) (h : s.accepts = true) (ha : s.port.args = []) :
    exec (cmdInstr c (whole n)) s = .next (completed c n (reply s) s.awake) := by
  obtain ⟨hready, hargs⟩ := accepts_awake s h
  rw [exec_accepts c n s h]
  refine exec_taken c n s.awake hready ?_
  rw [hargs, ha, r.effect_eq, noArgs_nil, r.reply_busyWith, r.reply_awake]

theorem PlainRead.exec_of_args {c : Cmd} {reply : State → List Byte} (r : PlainRead c reply) (n : Bool)
    (s : State) (h : s.accepts = true) (ha : s.port.args ≠ []) :
    exec (cmdInstr c (whole n)) s = .next (turnedAway c n .argument s.awake) := by
  obtain ⟨hready, hargs⟩ := accepts_awake s h
  rw [exec_accepts c n s h]
  refine exec_refused c n s.awake hready ?_
  rw [hargs, r.effect_eq, noArgs_of_ne_nil ha]

/-- LIMITS-READ replies with the limits in argument order (R20). -/
theorem limitsRead_plainRead : PlainRead .limitsRead fun s => s.limits.bytes where
  effect_eq _ _ := rfl
  reply_busyWith b s := by rw [busyWith_limits]
  reply_awake s := by rw [State.awake_limits]

/-- The three counts and the frozen mark of each code, in code order (R14). -/
def stockTableBytes (stock : Vector StockEntry 12) : List Byte :=
  codes.flatMap fun c =>
    le 3 stock[c].counts.fit ++ le 3 stock[c].counts.unfit ++ le 3 stock[c].counts.suspect ++
      [boolByte stock[c].frozen]

/-- STOCK-READ replies with the stock as it stands (R14). -/
theorem stockRead_plainRead : PlainRead .stockRead fun s => stockTableBytes s.stock where
  effect_eq _ _ := rfl
  reply_busyWith b s := by rw [busyWith_stock]
  reply_awake s := by rw [State.awake_stock]

/-- Settles O13: LIMITS-READ is a plain read of the limits. -/
theorem limitsReadReply : Obligations.LimitsReadReply := fun n s h =>
  ⟨limitsRead_plainRead.exec_of_no_args n s h, limitsRead_plainRead.exec_of_args n s h⟩

/-- Settles O14: STOCK-READ is a plain read of the stock. -/
theorem stockReadReply : Obligations.StockReadReply := fun n s h =>
  ⟨stockRead_plainRead.exec_of_no_args n s h, stockRead_plainRead.exec_of_args n s h⟩

end Sys2Proof.Machine

namespace Sys2Proof.Machine

/-! ### NOP in every state in which a command byte is judged -/

theorem accepts_iff (s : State) : s.accepts = true ↔
    s.live = true ∧ s.ret.kind ≠ .deep ∧ s.port.inProgress = none ∧ s.port.held = [] ∧
      s.port.overflow = false := by
  simp only [State.accepts, State.live, Bool.and_eq_true, Bool.not_eq_true', bne_iff_ne, ne_eq,
    Option.isNone_iff_eq_none, List.isEmpty_iff]
  tauto

@[simp] theorem State.awake_port_overflow (s : State) : s.awake.port.overflow = s.port.overflow := by
  unfold State.awake
  split <;> rfl

@[simp] theorem State.awake_port_held (s : State) : s.awake.port.held = s.port.held := by
  unfold State.awake
  split <;> rfl

/-- Out of DEEP a command write wakes a part in WATCH and then sets BUSY (R162, R173). -/
theorem startCommand_of_not_deep (b : Byte) (s : State) (hk : s.ret.kind ≠ .deep) :
    startCommand b s = s.awake.busyWith b := by
  cases h : s.ret.kind with
  | none => simp only [startCommand, State.awake, h]; rfl
  | watch => simp only [startCommand, State.awake, h]; rfl
  | deep => exact absurd h hk

/-- With nothing held, a completion is the judgement of the command in progress (R172, R173). -/
theorem complete_busyWith (b : Byte) (s : State) (hh : s.port.held = []) :
    (s.busyWith b).complete = finish b (judge b (s.busyWith b)) := by
  show takeHeld s.port.held _ = _
  rw [hh]
  rfl

/-- A command of the table at a part that is not in DEEP and whose port is free is judged on the part it woke,
an argument overflow standing or not (R162, R172, R173). -/
theorem exec_judged (c : Cmd) (n : Bool) (s : State) (hl : s.live = true) (hk : s.ret.kind ≠ .deep)
    (hb : s.port.inProgress = none) (hh : s.port.held = []) :
    exec (cmdInstr c (whole n)) s =
      .next (finish (c.byte n) (judge (c.byte n) (s.awake.busyWith (c.byte n)))) := by
  have hup : s.powered = true ∧ s.resetLow = false := by
    simp only [State.live, Bool.and_eq_true, Bool.not_eq_true'] at hl
    exact hl.1
  have hwrite : runCommand c (whole n) s = (startCommand (c.byte n) s).complete := by
    simp [runCommand, settle_live s hl, commandWrite, whole, hup, Port.busy, hb]
  rw [exec_cmdInstr, hwrite, startCommand_of_not_deep _ s hk, complete_busyWith _ s.awake (by simpa using hh)]

/-- An argument overflow refuses every command of the table, and wakes a part in WATCH all the same (R172). -/
theorem exec_of_overflow (c : Cmd) (n : Bool) (s : State) (hl : s.live = true) (hk : s.ret.kind ≠ .deep)
    (hb : s.port.inProgress = none) (hh : s.port.held = []) (ho : s.port.overflow = true) :
    exec (cmdInstr c (whole n)) s = .next (turnedAway c n .argument s.awake) := by
  rw [exec_judged c n s hl hk hb hh, judge_overflow c n _ (by simpa using ho), finish_refused,
    endCommand_busyWith]
  rfl

/-- NOP is a plain read of nothing (R181). -/
theorem nop_plainRead : PlainRead .nop fun _ => [] where
  effect_eq _ _ := rfl
  reply_busyWith _ _ := rfl
  reply_awake _ := rfl

/-- NOTIFY after a completion is bit 7 of the command byte (R178). -/
theorem notified_byte_notify (c : Cmd) (n : Bool) (pending : BitVec 6) :
    (notified (c.byte n) pending).getLsbD 0 = n := by
  have hbit : 128 ≤ (c.byte n).toNat ↔ n = true := by
    rw [← decide_eq_true_iff (p := 128 ≤ _), Cmd.byte_notify]
  cases n <;> simp [notified, hbit, Source.weight]

/-- Settles O11: without an overflow NOP is a plain read of nothing, and an overflow refuses it as it refuses
every command; what stands at the port then is what every completion writes there. -/
theorem nopCompletes : Obligations.NopCompletes := by
  intro n s hl hk hb hh
  have haccepts (ho : s.port.overflow = false) : s.accepts = true :=
    (accepts_iff s).mpr ⟨hl, hk, hb, hh, ho⟩
  refine ⟨fun ha ho => nop_plainRead.exec_of_no_args n s (haccepts ho) ha, fun hbad => ?_,
    rfl, rfl, rfl, rfl, rfl, notified_byte_notify .nop n s.port.attnPending⟩
  cases ho : s.port.overflow with
  | true => exact exec_of_overflow .nop n s hl hk hb hh ho
  | false => exact nop_plainRead.exec_of_args n s (haccepts ho) (by simpa [ho] using hbad)

end Sys2Proof.Machine


namespace Sys2Proof.Machine

/-! ### The law of the lock output (R148): what the output depends on -/

theorem inBags_eq (s : State) (i : SlotIx) : inBags s i = (s.man i).any fun m => m.state == .bags := by
  unfold inBags
  cases s.man i <;> rfl

/-- The law reads the output, the door interval, the latch and the manifests in BAGS, and nothing else. -/
theorem doorLaw_congr (s t : State) (h : s.doorLaw) (hd : t.door.unlocked = s.door.unlocked)
    (hi : t.door.interval.isSome = s.door.interval.isSome) (hl : t.ret.latch = s.ret.latch)
    (hm : ∀ i, inBags t i = inBags s i) : t.doorLaw := by
  unfold State.doorLaw State.shouldUnlock State.anyBags at *
  rw [hd, hi, hl, hm 0, hm 1]
  exact h

/-- With the door and the latch as they stood, the law reads the manifests alone. -/
theorem doorLaw_of_inBags (s t : State) (h : s.doorLaw) (hd : t.door = s.door) (hr : t.ret = s.ret)
    (hm : ∀ i, inBags t i = inBags s i) : t.doorLaw :=
  doorLaw_congr s t h (by rw [hd]) (by rw [hd]) (by rw [hr]) hm

theorem doorLaw_of_mans (s t : State) (h : s.doorLaw) (hd : t.door = s.door) (hr : t.ret = s.ret)
    (hm : t.mans = s.mans) : t.doorLaw :=
  doorLaw_of_inBags s t h hd hr fun i => by rw [inBags_eq, inBags_eq, State.man, State.man, hm]

/-- A recomputation of the output brings the law about, whatever stood before. -/
theorem doorLaw_recomputeDoor (k : LockCause) (s : State) : (s.recomputeDoor k).doorLaw := by
  unfold State.doorLaw
  rw [recomputeDoor_unlocked, recomputeDoor_shouldUnlock]

/-- A locked output is the law where no collection is in BAGS and no interval runs. -/
theorem doorLaw_of_locked (s : State) (hd : s.door.unlocked = false) (hi : s.door.interval = none)
    (hm : s.anyBags = false) : s.doorLaw := by
  unfold State.doorLaw State.shouldUnlock
  rw [hd, hi, hm]
  simp

theorem inBags_setMan (i j : SlotIx) (o : Option Manifest) (s : State) :
    inBags (s.setMan i o) j = if j = i then o.any fun m => m.state == .bags else inBags s j := by
  rw [inBags_eq, inBags_eq, man_setMan]
  split <;> rfl

/-- A slot that neither enters nor leaves BAGS keeps the law. -/
theorem doorLaw_setMan (i : SlotIx) (o : Option Manifest) (s : State) (h : s.doorLaw)
    (ho : (o.any fun m => m.state == .bags) = inBags s i) : (s.setMan i o).doorLaw :=
  doorLaw_of_inBags s _ h rfl rfl fun j => by
    rw [inBags_setMan]
    split
    · next hj => rw [ho, hj]
    · rfl

/-- A manifest that is in BAGS neither before nor after keeps the law. -/
theorem doorLaw_setMan_away (i : SlotIx) (m m' : Manifest) (s : State) (h : s.doorLaw)
    (hm : s.man i = some m) (hs : m.state ≠ .bags) (hs' : m'.state ≠ .bags) :
    (s.setMan i (some m')).doorLaw := by
  refine doorLaw_setMan i _ s h ?_
  rw [inBags_eq, hm, Option.any_some, Option.any_some, beq_false_of_ne hs, beq_false_of_ne hs']

/-- A manifest that is not in BAGS retires under the law. -/
theorem doorLaw_setMan_none (i : SlotIx) (m : Manifest) (s : State) (h : s.doorLaw)
    (hm : s.man i = some m) (hs : m.state ≠ .bags) : (s.setMan i none).doorLaw := by
  refine doorLaw_setMan i _ s h ?_
  rw [inBags_eq, hm, Option.any_some, Option.any_none, beq_false_of_ne hs]

theorem doorLaw_setMan_same (i : SlotIx) (m m' : Manifest) (s : State) (h : s.doorLaw)
    (hm : s.man i = some m) (hs : m'.state = m.state) : (s.setMan i (some m')).doorLaw := by
  refine doorLaw_setMan i _ s h ?_
  rw [inBags_eq, hm, Option.any_some, Option.any_some, hs]

/-- A change of manifests that keeps their states keeps the law. -/
theorem doorLaw_mapMan (f : Manifest → Manifest) (s t : State) (h : s.doorLaw) (hd : t.door = s.door)
    (hr : t.ret = s.ret) (hm : ∀ j, t.man j = s.man j ∨ t.man j = (s.man j).map f)
    (hf : ∀ m, (f m).state = m.state) : t.doorLaw :=
  doorLaw_of_inBags s t h hd hr fun j => by
    rw [inBags_eq, inBags_eq]
    rcases hm j with e | e
    · rw [e]
    · rw [e, Option.any_map]
      exact congrArg (fun p => Option.any p (s.man j)) (funext fun m => by rw [hf])

theorem manState_withLane (l : Option LaneIx) (m : Manifest) : (m.withLane l).state = m.state := by
  unfold Manifest.withLane
  split <;> rfl

theorem doorLaw_releaseLane (i : LaneIx) (s : State) (h : s.doorLaw) : (s.releaseLane i).doorLaw := by
  unfold State.releaseLane
  split
  · exact h
  · next x _ =>
    obtain ⟨_, _, _, e⟩ := release_frame x.purpose s
    refine doorLaw_mapMan (Manifest.withLane none) s _ h (by rw [e]) (by rw [e]) (fun j => ?_) (manState_withLane none)
    rw [release_man]
    split
    · exact .inr rfl
    · exact .inl rfl

/-- A session bound to its record leaves the states of the manifests. -/
theorem bindSession_man (i : LaneIx) (p : Purpose) (s : State) (j : SlotIx) :
    (s.bindSession i p).man j = s.man j ∨
      (s.bindSession i p).man j = (s.man j).map (Manifest.withLane (some i)) := by
  unfold State.bindSession
  split
  · exact .inl rfl
  · exact .inl rfl
  · split
    · exact .inl rfl
    · rw [man_setMan]
      split
      · next hj =>
        rw [hj]
        exact .inr rfl
      · exact .inl rfl
  · exact .inl rfl

theorem freeSlot_none (s : State) (i : SlotIx) (h : s.freeSlot = some i) : s.man i = none := by
  unfold State.freeSlot at h
  split at h
  · next h0 =>
    injection h with h
    rw [← h]
    exact Option.isNone_iff_eq_none.mp h0
  split at h
  · next h1 =>
    injection h with h
    rw [← h]
    exact Option.isNone_iff_eq_none.mp h1
  · exact absurd h (by simp)

theorem inBags_of_anyAtDoor {s : State} (h : s.anyAtDoor = false) (i : SlotIx) : inBags s i = false := by
  have away : ∀ o : Option Manifest, o.any Manifest.atDoor = false → (o.any fun m => m.state == .bags) = false := by
    intro o ho
    cases o with
    | none => rfl
    | some m => exact (Bool.or_eq_false_iff.mp ho).1
  have h2 : (s.man 0).any Manifest.atDoor = false ∧ (s.man 1).any Manifest.atDoor = false := Bool.or_eq_false_iff.mp h
  obtain ⟨h0, h1⟩ := h2
  rw [inBags_eq]
  match i with
  | 0 => exact away _ h0
  | 1 => exact away _ h1

theorem doorLaw_wrongOverride (s : State) (h : s.doorLaw) : s.wrongOverride.doorLaw := by
  unfold State.wrongOverride
  split <;> exact h

end Sys2Proof.Machine

namespace Sys2Proof.Machine

theorem doorLaw_endSession (i : LaneIx) (s : State) (h : s.doorLaw) : (s.endSession i).doorLaw := h

theorem doorLaw_commitSession (i : LaneIx) (x : Session) (s : State) (h : s.doorLaw) :
    (commitSession i x s).state.doorLaw := by
  unfold commitSession
  split
  · unfold commitTillClose
    dsimp only
    split
    · exact h
    split
    · exact h
    split
    · exact h
    · exact h
  · next t _ =>
    unfold commitPickup
    dsimp only
    split
    · exact h
    split
    · exact h
    split
    · exact h
    split
    · exact h
    dsimp only [Answer.state]
    obtain ⟨_, e⟩ := reevaluateSkim_frame t ((((s.moveIn x.comp).post _).setTill t _).endSession i)
    rw [e]
    exact h
  · unfold commitDelivery
    split
    · exact h
    next j _ =>
    split
    swap
    · exact h
    next m hm =>
    split
    swap
    · exact h
    next d _ hs =>
    unfold commitDeliveryTo
    dsimp only
    split
    · exact h
    split
    · exact h
    split
    · exact h
    have hp : ∀ d k, ((s.moveIn k).post d).doorLaw := fun _ _ => doorLaw_of_mans s _ h rfl rfl rfl
    have hq : ∀ d k, ((s.moveIn k).post d).man j = some m := fun _ _ => by simpa [State.man] using hm
    exact doorLaw_endSession i _ (doorLaw_setMan_away j m _ _ (hp _ _) (hq _ _) (by simp [hs]) (by simp))
  · exact h

/-- A collection at the door is not cancelled (R130). -/
theorem cancelRefusal_bags (m : Manifest) (hs : m.state = .bags) : m.cancelRefusal ≠ none := by
  unfold Manifest.cancelRefusal
  split <;> simp_all

/-- The commands that write a manifest without recomputing the output. -/
theorem effect_doorLaw_mans (c : Cmd) (a : List Byte) (s : State) (h : s.doorLaw)
    (hc : c ∈ [Cmd.recordsClear, .laneReset, .countOpen, .countCommit, .countAbort, .manCreate, .manAdd, .manRemove,
      .manClose, .manCancel, .manReopen]) : (effect c a s).state.doorLaw := by
  cases c <;> first | exact absurd hc (by decide) | skip
  case recordsClear =>
    show (recordsClearEffect a s).state.doorLaw
    unfold recordsClearEffect
    split
    · exact h
    refine withAuthority_state State.doorLaw _ s _ h (doorLaw_wrongOverride s h) ?_
    split
    · exact h
    · next hn =>
      have hd : s.anyAtDoor = false := Bool.eq_false_iff.mpr (not_or.mp hn).2
      refine doorLaw_of_inBags s _ h rfl rfl fun j => ?_
      rw [inBags_of_anyAtDoor hd, inBags_eq]
      have hj : (State.clearRecords s.matched).man j = none := by simp [State.clearRecords, State.man]
      exact congrArg (Option.any _) hj
  case laneReset =>
    refine withLane_state State.doorLaw _ _ _ _ h fun i => ?_
    exact doorLaw_of_mans _ _ (doorLaw_releaseLane i s h) rfl rfl rfl
  case countAbort =>
    refine withProfiled_state State.doorLaw _ _ _ _ h fun i _ => ?_
    dsimp only
    split
    · exact h
    · exact doorLaw_of_mans _ _ (doorLaw_releaseLane i s h) rfl rfl rfl
  case countOpen =>
    show (countOpenEffect a s).state.doorLaw
    unfold countOpenEffect
    dsimp only
    repeat' split
    all_goals try exact h
    next i _ _ _ _ _ _ _ _ p _ =>
    dsimp only [Answer.state]
    refine doorLaw_mapMan (Manifest.withLane (some i)) s _ h ?_ ?_ (fun j => bindSession_man i p _ j)
      (manState_withLane (some i))
    all_goals rw [bindSession_eq]; rfl
  case countCommit =>
    refine withProfiled_state State.doorLaw _ _ _ _ h fun i _ => ?_
    split
    · exact h
    · exact doorLaw_commitSession i _ s h
    · exact doorLaw_commitSession i _ s h
    · exact h
  case manCreate =>
    show (manCreateEffect a s).state.doorLaw
    unfold manCreateEffect
    split
    · exact h
    next body _ _ =>
    dsimp only
    repeat' split
    all_goals try exact h
    next i hi _ =>
    refine doorLaw_setMan i _ s h ?_
    have hn : s.man i = none := freeSlot_none s i hi
    rw [inBags_eq, hn]
    cases body <;> rfl
  case manAdd =>
    refine withMan_state State.doorLaw _ _ _ _ h fun i m _ hm => ?_
    dsimp only
    repeat' split
    all_goals try exact h
    dsimp only [Answer.state]
    refine doorLaw_of_mans (s.setMan i (some _)) _ ?_ rfl rfl rfl
    exact doorLaw_setMan_same i m _ s h hm rfl
  case manRemove =>
    refine withMan_state State.doorLaw _ _ _ _ h fun i m _ hm => ?_
    dsimp only
    repeat' split
    all_goals try exact h
    dsimp only [Answer.state]
    refine doorLaw_of_mans (s.setMan i (some _)) _ ?_ rfl rfl rfl
    exact doorLaw_setMan_same i m _ s h hm rfl
  case manClose =>
    refine withMan_state State.doorLaw _ _ _ _ h fun i m _ hm => ?_
    repeat' split
    all_goals try exact h
    next hs _ =>
    exact doorLaw_setMan_away i m _ s h hm (by simp [not_not.mp hs]) (by simp)
  case manCancel =>
    refine withMan_state State.doorLaw _ _ _ _ h fun i m _ hm => ?_
    dsimp only
    split
    · exact h
    · next hr =>
      dsimp only [Answer.state]
      rw [markBags_eq]
      refine doorLaw_of_mans (s.setMan i none) _ ?_ rfl rfl rfl
      exact doorLaw_setMan_none i m s h hm fun hs => cancelRefusal_bags m hs hr
  case manReopen =>
    refine withMan_state State.doorLaw _ _ _ _ h fun i m _ hm => ?_
    refine withAuthority_state State.doorLaw _ s _ h (doorLaw_wrongOverride s h) ?_
    dsimp only
    repeat' split
    all_goals try exact h
    next hs _ =>
    exact doorLaw_setMan_away i m _ s.matched h hm (fun hb => hs (by simp [hb])) (by simp)

/-- The commands that recompute the output, or lift a halt after it. -/
theorem effect_doorLaw_door (c : Cmd) (a : List Byte) (s : State) (h : s.doorLaw) (hc : c ∈ Cmd.doorWriters) :
    (effect c a s).state.doorLaw := by
  cases c <;> first | exact absurd hc (by decide) | skip
  case retain =>
    show (retainEffect a s).state.doorLaw
    unfold retainEffect
    repeat' split
    all_goals first
      | exact h
      | exact doorLaw_recomputeDoor _ _
  case release =>
    show (releaseEffect a s).state.doorLaw
    unfold releaseEffect noArgs
    repeat' split
    all_goals first
      | exact h
      | exact doorLaw_recomputeDoor _ _
  case doorOpen =>
    show (doorOpenEffect a s).state.doorLaw
    unfold doorOpenEffect
    split
    · exact h
    refine withAuthority_state State.doorLaw _ s _ h (doorLaw_wrongOverride s h) ?_
    split
    · exact h
    · exact doorLaw_recomputeDoor _ _
  case doorLock =>
    show (doorLockEffect a s).state.doorLaw
    unfold doorLockEffect noArgs
    split
    · exact h
    · exact doorLaw_recomputeDoor _ _
  case courierArrive =>
    refine withMan_state State.doorLaw _ _ _ _ h fun i m _ hm => ?_
    repeat' split
    all_goals try exact h
    · next hs _ _ _ _ _ =>
      have away (m' : Manifest) (hm' : m'.state ≠ .bags) : (s.setMan i (some m')).doorLaw :=
        doorLaw_setMan_away i m m' s h hm (by simp [not_not.mp hs]) hm'
      dsimp only [Answer.state]
      unfold State.wrongCourier
      split
      · exact doorLaw_of_mans _ _ (away { m with wrong := m.wrong + 1, state := .locked } (by simp)) rfl rfl rfl
      · exact away _ (by simp [not_not.mp hs])
    · exact doorLaw_recomputeDoor _ _
  case bagScan =>
    refine withMan_state State.doorLaw _ _ _ _ h fun i m _ hm => ?_
    repeat' split
    all_goals try exact h
    unfold scanEntry
    split
    · exact doorLaw_of_mans _ _ (doorLaw_recomputeDoor .handover _) rfl rfl rfl
    · dsimp only [Answer.state]
      repeat' split
      all_goals
        refine doorLaw_of_mans (s.setMan i (some _)) _ ?_ rfl rfl rfl
        exact doorLaw_setMan_same i m _ s h hm rfl
  case manResume =>
    refine withMan_state State.doorLaw _ _ _ _ h fun i m _ hm => ?_
    refine withAuthority_state State.doorLaw _ s _ h (doorLaw_wrongOverride s h) ?_
    repeat' split
    all_goals first
      | exact h
      | exact doorLaw_recomputeDoor _ _
  case courierSign =>
    refine withMan_state State.doorLaw _ _ _ _ h fun i m _ hm => ?_
    split
    · unfold signCollection
      dsimp only
      split
      · exact h
      split
      · exact h
      dsimp only [Answer.state]
      rw [liftHalt_eq]
      exact doorLaw_of_mans _ _ (doorLaw_recomputeDoor .handover _) rfl rfl rfl
    · unfold signDelivery
      split
      · next hs _ =>
        exact doorLaw_setMan_none i m s h hm (by simp [hs])
      · exact h

theorem effect_doorLaw (c : Cmd) (a : List Byte) (s : State) (h : s.doorLaw) : (effect c a s).state.doorLaw := by
  by_cases hm : c ∈ [Cmd.recordsClear, .laneReset, .countOpen, .countCommit, .countAbort, .manCreate, .manAdd,
      .manRemove, .manClose, .manCancel, .manReopen]
  · exact effect_doorLaw_mans c a s h hm
  by_cases hd : c ∈ Cmd.doorWriters
  · exact effect_doorLaw_door c a s h hd
  obtain ⟨_, _, _, _, _, _, _, mans, _, _, ret, door⟩ := effect_same c a s
  have others : c ∉ Cmd.mansWriters ∧ c ∉ Cmd.retWriters := by
    constructor
    · exact fun hw => by revert hm hd hw; cases c <;> decide
    · exact fun hw => by revert hm hd hw; cases c <;> decide
  exact doorLaw_of_mans s _ h (door hd) (ret others.2) (mans others.1)

end Sys2Proof.Machine

namespace Sys2Proof.Machine

/-! ### The events under the law of the lock output -/

/-- The end of all work leaves no collection in BAGS and no interval (R144, R149). -/
theorem endWork_away (s : State) : s.endWork.anyBags = false ∧ s.endWork.door.interval = none := by
  unfold State.endWork
  generalize (s.lanesDown.abortRound false) = u
  exact ⟨bagsToReady_anyBags u, rfl⟩

theorem anyBags_congr (s t : State) (h : t.mans = s.mans) : t.anyBags = s.anyBags := by
  unfold State.anyBags
  simp only [inBags_eq, State.man, h]

theorem doorLaw_pinReset (s : State) : s.pinReset.doorLaw := by
  obtain ⟨hb, hi⟩ := endWork_away s
  have hu : (s.endWork.recomputeDoor .reset).door.unlocked = false := by
    rw [recomputeDoor_unlocked]
    simp [State.shouldUnlock, hb, hi]
  have hn : (s.endWork.recomputeDoor .reset).door.interval = none := by rw [recomputeDoor_interval, hi]
  have hm : (s.endWork.recomputeDoor .reset).anyBags = false := by
    rw [anyBags_congr s.endWork _ (by rw [recomputeDoor_eq]), hb]
  unfold State.pinReset
  dsimp only
  split
  · exact doorLaw_of_locked _ hu hn hm
  · exact doorLaw_of_locked _ hu hn hm

theorem doorLaw_supplyEffects (s : State) : s.supplyEffects.doorLaw := doorLaw_recomputeDoor _ _

theorem doorLaw_coldPowerUp (b : Bool) (s : State) : (coldPowerUp b s).doorLaw := by
  unfold coldPowerUp
  split
  · obtain ⟨hb, hi⟩ := endWork_away { s with clock := Clock.unset }
    exact doorLaw_of_locked s.startIntact rfl hi hb
  · exact doorLaw_of_locked s.startBroken rfl rfl rfl

theorem doorLaw_judgeDoor (o : Bool) (s : State) (h : s.doorLaw) : (s.judgeDoor o).doorLaw := by
  unfold State.judgeDoor
  repeat' split
  all_goals exact h

theorem doorLaw_secondNow (s : State) (h : s.doorLaw) : s.secondNow.doorLaw :=
  doorLaw_congr s _ h rfl Option.isSome_map rfl fun _ => rfl

theorem doorLaw_minuteNow (s : State) (h : s.doorLaw) : s.minuteNow.doorLaw :=
  doorLaw_of_mans s _ h rfl rfl rfl

theorem doorLaw_expireSlot (i : SlotIx) (s : State) (h : s.doorLaw) : (s.expireSlot i).doorLaw := by
  unfold State.expireSlot
  split
  · exact h
  split
  · exact doorLaw_of_mans _ _ (doorLaw_recomputeDoor .handover _) rfl rfl rfl
  · exact h

/-- Every command and every event keeps the law of the lock output. -/
theorem doorLaw_kept : Kept State.doorLaw where
  port _ _ _ h := h
  own _ _ _ _ _ _ _ _ h := h
  awake _ h := h
  deep _ h := h
  command b c s h := by
    have he := effect_doorLaw c s.port.args s h
    generalize effect c s.port.args s = x at he
    cases x <;> exact he
  reset s _ := doorLaw_pinReset s
  supply s _ := doorLaw_supplyEffects s
  cold b s _ := doorLaw_coldPowerUp b s
  door := doorLaw_judgeDoor
  second := doorLaw_secondNow
  minute := doorLaw_minuteNow
  error e i s h := by
    obtain ⟨_, _, e⟩ := laneError_frame e i s
    rw [e]
    exact h
  hello i m z s h := by
    obtain ⟨_, _, e⟩ := takeHello_frame i m z s
    rw [e]
    exact h
  batch i q c n s h := by
    obtain ⟨_, _, e⟩ := takeBatch_frame i q c n s
    rw [e]
    exact h
  endFeed i q s h := by
    obtain ⟨_, _, e⟩ := takeEndFeed_frame i q s
    rw [e]
    exact h
  holdAck i s h := by
    obtain ⟨_, _, e⟩ := takeHoldAck_frame i s
    rw [e]
    exact h
  jam i j s h := by
    obtain ⟨_, _, e⟩ := takeJam_frame i j s
    rw [e]
    exact h
  receiver _ _ _ h := h
  sent _ _ h := h
  interval _ _ := doorLaw_recomputeDoor _ _
  timer _ h := h
  round s h := by
    obtain ⟨_, _, e⟩ := startRound_frame s
    rw [e]
    exact h
  evaluation s h := by
    obtain ⟨_, _, _, e⟩ := roundEvaluate_frame s
    rw [e]
    exact h
  expiry := doorLaw_expireSlot

/-- Settles O58: the law is kept by every effect and event, and so by every step. -/
theorem doorLawKept : Obligations.DoorLawKept := fun s t h e => doorLaw_kept.step s t h e

end Sys2Proof.Machine

namespace Sys2Proof.Machine

/-! ### The call queue and the authority unit: the commands that may write them -/

/-- The commands that may change the field `calls`. -/
def Cmd.callsWriters : List Cmd :=
  [.recordsClear, .topupIssue, .tillClose, .callPost, .callTake, .callCancel, .countOpen, .countCommit]

/-- The nine override commands: they alone may change the field `auth` (R145). -/
def Cmd.authWriters : List Cmd :=
  [.varianceAccept, .recount, .auditAccept, .bagBreak, .manResume, .manReopen, .doorOpen, .recordsClear, .overrideSet]

/-- A command leaves the call queue and the authority unit, but for their writers. -/
theorem effect_same_calls_auth (c : Cmd) (a : List Byte) (s : State) :
    let t := (effect c a s).state
    (c ∉ Cmd.callsWriters → t.calls = s.calls) ∧ (c ∉ Cmd.authWriters → t.auth = s.auth) := by
  dsimp only
  cases c
  case' nop => have e := nopEffect_frame a s
  case' statusRead => have e := statusReadEffect_frame a s
  case' attnRead => have e := attnReadEffect_frame a s
  case' attnEnable => obtain ⟨_, e⟩ := attnEnableEffect_frame a s
  case' attnClear => obtain ⟨_, e⟩ := attnClearEffect_frame a s
  case' clockSet => obtain ⟨_, e⟩ := clockSetEffect_frame a s
  case' clockRead => have e := clockReadEffect_frame a s
  case' retain => obtain ⟨_, _, _, _, e⟩ := retainEffect_frame a s
  case' release => obtain ⟨_, _, _, _, e⟩ := releaseEffect_frame a s
  case' recordsClear => obtain ⟨_, _, _, _, _, _, _, _, _, _, _, e⟩ := recordsClearEffect_frame a s
  case' overrideSet => obtain ⟨_, _, e⟩ := overrideSetEffect_frame a s
  case' doorOpen => obtain ⟨_, _, _, e⟩ := doorOpenEffect_frame a s
  case' doorLock => obtain ⟨_, _, e⟩ := doorLockEffect_frame a s
  case' doorRead => have e := doorReadEffect_frame a s
  case' denomSet => obtain ⟨_, e⟩ := denomSetEffect_frame a s
  case' denomRead => have e := denomReadEffect_frame a s
  case' stockRead => have e := stockReadEffect_frame a s
  case' officeRead => have e := officeReadEffect_frame a s
  case' limitsSet => obtain ⟨_, e⟩ := limitsSetEffect_frame a s
  case' limitsRead => have e := limitsReadEffect_frame a s
  case' templateSet => obtain ⟨_, e⟩ := templateSetEffect_frame a s
  case' templateRead => have e := templateReadEffect_frame a s
  case' tillSetup => obtain ⟨_, e⟩ := tillSetupEffect_frame a s
  case' floatIssue => obtain ⟨_, _, e⟩ := floatIssueEffect_frame a s
  case' floatCancel => obtain ⟨_, _, e⟩ := floatCancelEffect_frame a s
  case' tillOpen => obtain ⟨_, e⟩ := tillOpenEffect_frame a s
  case' topupIssue => obtain ⟨_, _, _, e⟩ := topupIssueEffect_frame a s
  case' posCash => obtain ⟨_, e⟩ := posCashEffect_frame a s
  case' tillClose => obtain ⟨_, _, _, _, e⟩ := tillCloseEffect_frame a s
  case' tillRead => have e := tillReadEffect_frame a s
  case' varianceAccept => obtain ⟨_, _, _, e⟩ := varianceAcceptEffect_frame a s
  case' recount => obtain ⟨_, _, _, _, _, e⟩ := recountEffect_frame a s
  case' callPost => obtain ⟨_, _, _, e⟩ := callPostEffect_frame a s
  case' callTake => obtain ⟨_, e⟩ := callTakeEffect_frame a s
  case' callCancel => obtain ⟨_, e⟩ := callCancelEffect_frame a s
  case' callRead => obtain ⟨_, e⟩ := callReadEffect_frame a s
  case' roundSet => obtain ⟨_, e⟩ := roundSetEffect_frame a s
  case' roundTimer => obtain ⟨_, e⟩ := roundTimerEffect_frame a s
  case' roundNow => obtain ⟨_, _, e⟩ := roundNowEffect_frame a s
  case' roundRead => have e := roundReadEffect_frame a s
  case' laneProfile => obtain ⟨_, e⟩ := laneProfileEffect_frame a s
  case' laneReset => obtain ⟨_, _, _, _, e⟩ := laneResetEffect_frame a s
  case' laneClear => obtain ⟨_, e⟩ := laneClearEffect_frame a s
  case' laneRead => have e := laneReadEffect_frame a s
  case' countOpen => obtain ⟨_, _, _, _, _, e⟩ := countOpenEffect_frame a s
  case' countHold => obtain ⟨_, e⟩ := countHoldEffect_frame a s
  case' countResume => obtain ⟨_, e⟩ := countResumeEffect_frame a s
  case' countVoid => obtain ⟨_, e⟩ := countVoidEffect_frame a s
  case' countRolls => obtain ⟨_, e⟩ := countRollsEffect_frame a s
  case' countCommit => obtain ⟨_, _, _, _, _, _, _, e⟩ := countCommitEffect_frame a s
  case' countAbort => obtain ⟨_, _, _, _, e⟩ := countAbortEffect_frame a s
  case' auditRead => have e := auditReadEffect_frame a s
  case' auditAccept => obtain ⟨_, _, _, _, _, e⟩ := auditAcceptEffect_frame a s
  case' auditDiscard => obtain ⟨_, e⟩ := auditDiscardEffect_frame a s
  case' bagOpen => obtain ⟨_, e⟩ := bagOpenEffect_frame a s
  case' bagAdd => obtain ⟨_, _, e⟩ := bagAddEffect_frame a s
  case' bagReturn => obtain ⟨_, _, e⟩ := bagReturnEffect_frame a s
  case' bagShut => obtain ⟨_, _, _, e⟩ := bagShutEffect_frame a s
  case' bagBreak => obtain ⟨_, _, _, _, _, e⟩ := bagBreakEffect_frame a s
  case' bagRead => have e := bagReadEffect_frame a s
  case' rackSet => obtain ⟨_, e⟩ := rackSetEffect_frame a s
  case' rackRead => have e := rackReadEffect_frame a s
  case' manCreate => obtain ⟨_, e⟩ := manCreateEffect_frame a s
  case' manAdd => obtain ⟨_, _, e⟩ := manAddEffect_frame a s
  case' manRemove => obtain ⟨_, _, e⟩ := manRemoveEffect_frame a s
  case' manClose => obtain ⟨_, e⟩ := manCloseEffect_frame a s
  case' manCancel => obtain ⟨_, _, e⟩ := manCancelEffect_frame a s
  case' courierArrive => obtain ⟨_, _, _, e⟩ := courierArriveEffect_frame a s
  case' bagScan => obtain ⟨_, _, _, _, e⟩ := bagScanEffect_frame a s
  case' manResume => obtain ⟨_, _, _, _, _, e⟩ := manResumeEffect_frame a s
  case' courierSign => obtain ⟨_, _, _, _, _, _, e⟩ := courierSignEffect_frame a s
  case' manReopen => obtain ⟨_, _, _, e⟩ := manReopenEffect_frame a s
  case' manRead => have e := manReadEffect_frame a s
  all_goals
    dsimp only [effect]
    rw [e]
    constructor <;> intro h
  all_goals first
    | rfl
    | exact absurd (by decide) h

/-! ### The call queue (R42) -/

theorem queueLaw_congr (s t : State) (h : s.queueLaw) (hc : t.calls = s.calls) : t.queueLaw := by
  unfold State.queueLaw
  rw [hc]
  exact h

/-- Entries taken out of the queue leave the rest in their order (R42, R45, R48, R49). -/
theorem queueLaw_sublist (s t : State) (h : s.queueLaw) (hc : t.calls.Sublist s.calls) : t.queueLaw :=
  ⟨hc.length_le.trans h.1, h.2.sublist hc⟩

theorem queueLaw_removeCall (t : TillIx) (k : CallKind) (s : State) (h : s.queueLaw) : (s.removeCall t k).queueLaw :=
  queueLaw_sublist s _ h List.filter_sublist

/-- A new amount of an entry keeps its till and kind (R46). -/
theorem queueLaw_mergeCall (t : TillIx) (k : CallKind) (n : Option Nat) (s : State) (h : s.queueLaw) :
    (s.mergeCall t k n).queueLaw := by
  refine ⟨(List.length_map ..).trans_le h.1, List.pairwise_map.mpr (h.2.imp fun hab => ?_)⟩
  split <;> split <;> exact hab

theorem hasCall_false_iff (s : State) (t : TillIx) (k : CallKind) :
    s.hasCall t k = false ↔ ∀ e ∈ s.calls, e.till = t → e.kind ≠ k := by
  simp [State.hasCall, CallEntry.isFor]

theorem raiseOutcome_added (s : State) (t : TillIx) (k : CallKind) (h : s.raiseOutcome t k = .added) :
    s.hasCall t k = false ∧ s.calls.length < 32 := by
  unfold State.raiseOutcome at h
  split at h
  · exact absurd h (by simp)
  next hn =>
  split at h
  · next hl => exact ⟨Bool.eq_false_iff.mpr hn, hl⟩
  · exact absurd h (by simp)

/-- A raise adds an entry only while the queue has room and holds none for its pair (R43). -/
theorem queueLaw_raiseCall (t : TillIx) (k : CallKind) (n : Option Nat) (s : State) (h : s.queueLaw) :
    (s.raiseCall t k n).queueLaw := by
  unfold State.raiseCall
  split
  · exact queueLaw_mergeCall t k n s h
  · next ha =>
    obtain ⟨hno, hlen⟩ := raiseOutcome_added s t k ha
    refine ⟨?_, List.pairwise_append.mpr ⟨h.2, List.pairwise_singleton .., fun a ha b hb => ?_⟩⟩
    · simpa [State.raise] using Nat.succ_le_of_lt hlen
    · obtain rfl := List.mem_singleton.mp hb
      exact (hasCall_false_iff s t k).mp hno a ha
  · exact h

theorem queueLaw_reevaluateSkim (t : TillIx) (s : State) (h : s.queueLaw) : (s.reevaluateSkim t).queueLaw := by
  unfold State.reevaluateSkim
  split
  · exact h
  · exact queueLaw_removeCall t .skim s h
  · exact queueLaw_mergeCall t .skim _ s h

theorem queueLaw_bindSession (i : LaneIx) (p : Purpose) (s : State) (h : s.queueLaw) :
    (s.bindSession i p).queueLaw := by
  unfold State.bindSession
  split
  · exact queueLaw_removeCall _ .collect (s.setTill _ _) h
  · exact h
  · split <;> exact h
  · exact h

theorem queueLaw_commitSession (i : LaneIx) (x : Session) (s : State) (h : s.queueLaw) :
    (commitSession i x s).state.queueLaw := by
  unfold commitSession
  split
  · unfold commitTillClose
    dsimp only
    repeat' split
    all_goals exact h
  · next t _ =>
    unfold commitPickup
    dsimp only
    repeat' split
    all_goals first
      | exact h
      | exact queueLaw_reevaluateSkim t _ h
  · unfold commitDelivery commitDeliveryTo
    dsimp only
    repeat' split
    all_goals exact h
  · exact h

theorem effect_queueLaw (c : Cmd) (a : List Byte) (s : State) (h : s.queueLaw) : (effect c a s).state.queueLaw := by
  by_cases hc : c ∉ Cmd.callsWriters
  · exact queueLaw_congr s _ h ((effect_same_calls_auth c a s).1 hc)
  have hc := not_not.mp hc
  cases c <;> first | exact absurd hc (by decide) | skip
  case recordsClear =>
    show (recordsClearEffect a s).state.queueLaw
    unfold recordsClearEffect
    split
    · exact h
    refine withAuthority_state State.queueLaw _ s _ h ?_ ?_
    · exact queueLaw_congr s _ h (by unfold State.wrongOverride; split <;> rfl)
    split
    · exact h
    · exact ⟨Nat.zero_le _, .nil⟩
  case topupIssue =>
    show (topupIssueEffect a s).state.queueLaw
    unfold topupIssueEffect
    dsimp only
    repeat' split
    all_goals first
      | exact h
      | exact queueLaw_removeCall _ .topup _ h
  case tillClose =>
    refine withTill_state State.queueLaw _ _ _ _ h fun t => ?_
    dsimp only
    split
    · exact h
    dsimp only [Answer.state]
    have raised := queueLaw_raiseCall t .collect none _
      (queueLaw_removeCall t .topup _ (queueLaw_removeCall t .skim (s.setTill t { s.till t with state := .closing }) h))
    split <;> exact raised
  case callPost =>
    refine withTill_state State.queueLaw _ _ _ _ h fun t => ?_
    dsimp only
    repeat' split
    all_goals first
      | exact h
      | exact queueLaw_raiseCall t _ none s h
  case callTake =>
    show (callTakeEffect a s).state.queueLaw
    unfold callTakeEffect
    repeat' split
    all_goals first
      | exact h
      | exact queueLaw_sublist s _ h (List.eraseIdx_sublist ..)
  case callCancel =>
    refine withTill_state State.queueLaw _ _ _ _ h fun t => ?_
    dsimp only
    repeat' split
    all_goals first
      | exact h
      | exact queueLaw_sublist s _ h (List.eraseIdx_sublist ..)
  case countOpen =>
    show (countOpenEffect a s).state.queueLaw
    unfold countOpenEffect
    dsimp only
    repeat' split
    all_goals first
      | exact h
      | exact queueLaw_bindSession _ _ _ h
  case countCommit =>
    refine withProfiled_state State.queueLaw _ _ _ _ h fun i _ => ?_
    split
    · exact h
    · exact queueLaw_commitSession i _ s h
    · exact queueLaw_commitSession i _ s h
    · exact h

theorem queueLaw_roundEvaluate (s : State) (h : s.queueLaw) : (roundEvaluate s).queueLaw := by
  have advance : ∀ r t, t.queueLaw → (State.roundAdvance r t).queueLaw := fun r t ht => by
    obtain ⟨_, _, e⟩ := roundAdvance_frame r t
    rw [e]
    exact ht
  have ends : ∀ k n b r, (s.endRound k n b r).queueLaw := fun k n b r => by
    obtain ⟨_, _, e⟩ := endRound_frame k n b r s
    rw [e]
    exact h
  unfold roundEvaluate
  split
  · exact h
  split
  · exact ends ..
  unfold evaluateTill
  dsimp only
  repeat' split
  · exact advance _ s h
  · exact advance _ _ (queueLaw_raiseCall _ .skim _ s h)
  · exact advance _ _ (queueLaw_raiseCall _ .skim _ s h)
  · exact ends ..

end Sys2Proof.Machine

namespace Sys2Proof.Machine

/-! ### The authority unit and the wrong-code counts (R132, R146) -/

/-- The counts of the authority unit in their ranges (R146). -/
def Authority.inRange (x : Authority) : Prop := x.failures ≤ 3 ∧ x.lockout ≤ 15

/-- Every manifest has its wrong-code count in its range (R122, R132). -/
def State.wrongsOk (s : State) : Prop := ∀ i m, s.man i = some m → m.wrongOk

theorem codeLaw_iff (s : State) : s.codeLaw ↔ s.auth.inRange ∧ s.wrongsOk :=
  and_assoc.symm

theorem inRange_wrongOverride (s : State) (h : s.auth.inRange) : s.wrongOverride.auth.inRange := by
  unfold State.wrongOverride
  split
  · exact ⟨Nat.zero_le _, Nat.le_refl _⟩
  · next hf => exact ⟨by dsimp only; omega, h.2⟩

/-- The authority check leaves the counts in their ranges when what follows a matching code leaves the unit. -/
theorem inRange_withAuthority (code : Nat) (s : State) (next : State → Answer) (h : s.auth.inRange)
    (hn : (next s.matched).state.auth.inRange) : (withAuthority code s next).state.auth.inRange :=
  withAuthority_state (fun t => t.auth.inRange) code s next h (inRange_wrongOverride s h) hn

theorem effect_inRange (c : Cmd) (a : List Byte) (s : State) (h : s.auth.inRange) :
    (effect c a s).state.auth.inRange := by
  have hm : s.matched.auth.inRange := ⟨Nat.zero_le _, h.2⟩
  by_cases hc : c ∉ Cmd.authWriters
  · rw [(effect_same_calls_auth c a s).2 hc]
    exact h
  have hc := not_not.mp hc
  cases c <;> first | exact absurd hc (by decide) | skip
  case varianceAccept =>
    refine withTill_state (fun t => t.auth.inRange) _ _ _ _ h fun t => inRange_withAuthority _ s _ h ?_
    split <;> exact hm
  case recount =>
    refine withTill_state (fun t => t.auth.inRange) _ _ _ _ h fun t => inRange_withAuthority _ s _ h ?_
    dsimp only
    repeat' split
    all_goals exact hm
  case auditAccept =>
    show (auditAcceptEffect a s).state.auth.inRange
    unfold auditAcceptEffect
    split
    · exact h
    refine inRange_withAuthority _ s _ h ?_
    dsimp only
    repeat' split
    all_goals exact hm
  case bagBreak =>
    refine withBag_state (fun t => t.auth.inRange) _ _ _ _ h fun b x _ => inRange_withAuthority _ s _ h ?_
    dsimp only
    repeat' split
    · exact hm
    · exact hm
    · dsimp only [Answer.state]
      rw [liftHalt_eq]
      exact hm
  case manResume =>
    refine withMan_state (fun t => t.auth.inRange) _ _ _ _ h fun i m _ _ => inRange_withAuthority _ s _ h ?_
    dsimp only
    repeat' split
    all_goals try exact hm
    dsimp only [Answer.state]
    rw [recomputeDoor_eq]
    exact hm
  case manReopen =>
    refine withMan_state (fun t => t.auth.inRange) _ _ _ _ h fun i m _ _ => inRange_withAuthority _ s _ h ?_
    dsimp only
    repeat' split
    all_goals exact hm
  case doorOpen =>
    show (doorOpenEffect a s).state.auth.inRange
    unfold doorOpenEffect
    split
    · exact h
    refine inRange_withAuthority _ s _ h ?_
    split
    · exact hm
    · dsimp only [Answer.state]
      unfold State.startInterval
      rw [recomputeDoor_eq]
      exact hm
  case recordsClear =>
    show (recordsClearEffect a s).state.auth.inRange
    unfold recordsClearEffect
    split
    · exact h
    refine inRange_withAuthority _ s _ h ?_
    split <;> exact hm
  case overrideSet =>
    show (overrideSetEffect a s).state.auth.inRange
    unfold overrideSetEffect
    split
    · exact h
    refine inRange_withAuthority _ s _ h ?_
    split <;> exact hm

/-! ### The wrong-code counts -/

theorem wrongsOk_congr (s t : State) (h : s.wrongsOk) (hm : t.mans = s.mans) : t.wrongsOk := by
  unfold State.wrongsOk State.man at *
  rw [hm]
  exact h

theorem wrongsOk_markBag (b : BagIx) (k : BagState) (s : State) (h : s.wrongsOk) : (s.markBag b k).wrongsOk := h

theorem wrongsOk_endSession (i : LaneIx) (s : State) (h : s.wrongsOk) : (s.endSession i).wrongsOk := h

theorem wrongsOk_raise (x : Source) (s : State) (h : s.wrongsOk) : (State.raise x s).wrongsOk := h

theorem wrongsOk_setMan (i : SlotIx) (o : Option Manifest) (s : State) (h : s.wrongsOk)
    (ho : ∀ m, o = some m → m.wrongOk) : (s.setMan i o).wrongsOk := by
  intro j m hm
  rw [man_setMan] at hm
  split at hm
  · exact ho m hm
  · exact h j m hm

theorem wrongsOk_setMan_some (i : SlotIx) (m : Manifest) (s : State) (h : s.wrongsOk) (hm : m.wrongOk) :
    (s.setMan i (some m)).wrongsOk :=
  wrongsOk_setMan i _ s h fun _ e => Option.some.inj e ▸ hm

theorem wrongsOk_setMan_none (i : SlotIx) (s : State) (h : s.wrongsOk) : (s.setMan i none).wrongsOk :=
  wrongsOk_setMan i none s h fun _ e => absurd e (by simp)

/-- The count of a manifest that is neither LOCKED nor EXPIRED is below 3, and may be carried to any state. -/
theorem wrongOk_carried {m m' : Manifest} (h : m.wrongOk) (hw : m'.wrong = m.wrong)
    (hs : m.state ≠ .locked ∧ m.state ≠ .expired ∨ m'.state = m.state ∨ m'.state = .expired) : m'.wrongOk := by
  unfold Manifest.wrongOk at *
  rw [hw]
  refine ⟨h.1, fun h3 => ?_⟩
  rcases hs with ⟨n1, n2⟩ | e | e
  · exact ((h.2 h3).elim n1 n2).elim
  · rw [e]
    exact h.2 h3
  · exact .inr e

theorem wrongOk_fresh {m : Manifest} (hw : m.wrong = 0) : m.wrongOk :=
  ⟨by omega, fun h => by omega⟩

theorem wrongsOk_mapMan (f : Manifest → Manifest) (s t : State) (h : s.wrongsOk)
    (hm : ∀ j, t.man j = s.man j ∨ t.man j = (s.man j).map f) (hf : ∀ m : Manifest, m.wrongOk → (f m).wrongOk) :
    t.wrongsOk := by
  intro j m hj
  rcases hm j with e | e
  · exact h j m (e ▸ hj)
  · rw [e, Option.map_eq_some_iff] at hj
    obtain ⟨n, hn, rfl⟩ := hj
    exact hf n (h j n hn)

theorem wrongOk_withLane (l : Option LaneIx) (m : Manifest) (h : m.wrongOk) : (m.withLane l).wrongOk := by
  refine wrongOk_carried h ?_ (.inr (.inl (manState_withLane l m)))
  unfold Manifest.withLane
  split <;> rfl

theorem wrongOk_leaveBags (m : Manifest) (h : m.wrongOk) : m.leaveBags.wrongOk := by
  unfold Manifest.leaveBags
  split
  · next hs => exact wrongOk_carried h rfl (.inl (by rw [hs]; decide))
  · exact h

theorem wrongsOk_releaseLane (i : LaneIx) (s : State) (h : s.wrongsOk) : (s.releaseLane i).wrongsOk := by
  unfold State.releaseLane
  split
  · exact h
  · refine wrongsOk_mapMan (Manifest.withLane none) s _ h (fun j => ?_) (wrongOk_withLane none)
    rw [release_man]
    split
    · exact .inr rfl
    · exact .inl rfl

theorem wrongsOk_lanesDown (s : State) (h : s.wrongsOk) : s.lanesDown.wrongsOk := by
  have released : ∀ (l : List LaneIx) (t : State), t.wrongsOk → (l.foldl State.releaseLane t).wrongsOk := by
    intro l
    induction l with
    | nil => exact fun _ ht => ht
    | cons i r ih => exact fun t ht => ih _ (wrongsOk_releaseLane i t ht)
  exact wrongsOk_congr _ _ (released lanesAll s h) rfl

theorem wrongsOk_bagsToReady (s : State) (h : s.wrongsOk) : s.bagsToReady.wrongsOk :=
  wrongsOk_mapMan Manifest.leaveBags s _ h (fun j => .inr (bagsToReady_man s j)) wrongOk_leaveBags

theorem wrongsOk_recomputeDoor (k : LockCause) (s : State) (h : s.wrongsOk) : (s.recomputeDoor k).wrongsOk :=
  wrongsOk_congr s _ h (by rw [recomputeDoor_eq])

/-- A wrong courier code adds 1; the count that comes to 3 locks the manifest (R132). -/
theorem wrongsOk_wrongCourier (i : SlotIx) (m : Manifest) (s : State) (h : s.wrongsOk) (hm : m.wrongOk)
    (hs : m.state = .ready) : (s.wrongCourier i m).wrongsOk := by
  have below : m.wrong < 3 := by
    refine lt_of_le_of_ne hm.1 fun h3 => ?_
    have hl := hm.2 h3
    rw [hs] at hl
    exact absurd hl (by decide)
  unfold State.wrongCourier
  split
  · exact wrongsOk_raise _ _ (wrongsOk_setMan_some i _ s h ⟨below, fun _ => .inl rfl⟩)
  · next hlt => exact wrongsOk_setMan_some i _ s h ⟨by dsimp only; omega, fun h3 => absurd h3 (by dsimp only; omega)⟩

theorem wrongsOk_commitSession (i : LaneIx) (x : Session) (s : State) (h : s.wrongsOk) :
    (commitSession i x s).state.wrongsOk := by
  have moved : ∀ k d, ((s.moveIn k).post d).wrongsOk := fun _ _ => wrongsOk_congr s _ h rfl
  unfold commitSession
  split
  · unfold commitTillClose
    dsimp only
    repeat' split
    all_goals exact h
  · next t _ =>
    unfold commitPickup
    dsimp only
    repeat' split
    all_goals try exact h
    dsimp only [Answer.state]
    rw [reevaluateSkim_eq]
    exact h
  · unfold commitDelivery
    split
    · exact h
    next j _ =>
    split
    swap
    · exact h
    next m hm =>
    split
    swap
    · exact h
    next hs =>
    unfold commitDeliveryTo
    dsimp only
    repeat' split
    all_goals try exact h
    exact wrongsOk_endSession i _ (wrongsOk_setMan_some j _ _ (moved _ _)
      (wrongOk_carried (h j m hm) rfl (.inl (by rw [hs]; decide))))
  · exact h

theorem effect_wrongsOk (c : Cmd) (a : List Byte) (s : State) (h : s.wrongsOk) : (effect c a s).state.wrongsOk := by
  have ho : s.wrongOverride.wrongsOk := wrongsOk_congr s _ h (by unfold State.wrongOverride; split <;> rfl)
  by_cases hc : c ∉ Cmd.mansWriters
  · exact wrongsOk_congr s _ h ((effect_same c a s).2.2.2.2.2.2.2.1 hc)
  have hc := not_not.mp hc
  cases c <;> first | exact absurd hc (by decide) | skip
  case recordsClear =>
    show (recordsClearEffect a s).state.wrongsOk
    unfold recordsClearEffect
    split
    · exact h
    refine withAuthority_state State.wrongsOk _ s _ h ho ?_
    split
    · exact h
    · intro j m hm
      have hn : (State.clearRecords s.matched).man j = none := by simp [State.clearRecords, State.man]
      exact absurd (hn.symm.trans hm) (by simp)
  case laneReset =>
    refine withLane_state State.wrongsOk _ _ _ _ h fun i => ?_
    exact wrongsOk_congr _ _ (wrongsOk_releaseLane i s h) rfl
  case countAbort =>
    refine withProfiled_state State.wrongsOk _ _ _ _ h fun i _ => ?_
    dsimp only
    split
    · exact h
    · exact wrongsOk_congr _ _ (wrongsOk_releaseLane i s h) rfl
  case countOpen =>
    show (countOpenEffect a s).state.wrongsOk
    unfold countOpenEffect
    dsimp only
    repeat' split
    all_goals try exact h
    next i _ _ _ _ _ _ _ _ p _ =>
    exact wrongsOk_mapMan (Manifest.withLane (some i)) s _ h (fun j => bindSession_man i p _ j)
      (wrongOk_withLane (some i))
  case countCommit =>
    refine withProfiled_state State.wrongsOk _ _ _ _ h fun i _ => ?_
    split
    · exact h
    · exact wrongsOk_commitSession i _ s h
    · exact wrongsOk_commitSession i _ s h
    · exact h
  case manCreate =>
    show (manCreateEffect a s).state.wrongsOk
    unfold manCreateEffect
    split
    · exact h
    dsimp only
    repeat' split
    all_goals try exact h
    exact wrongsOk_setMan_some _ _ s h (wrongOk_fresh rfl)
  case manAdd =>
    refine withMan_state State.wrongsOk _ _ _ _ h fun i m _ hm => ?_
    dsimp only
    repeat' split
    all_goals try exact h
    exact wrongsOk_markBag _ _ _ (wrongsOk_setMan_some i _ s h (wrongOk_carried (h i m hm) rfl (.inr (.inl rfl))))
  case manRemove =>
    refine withMan_state State.wrongsOk _ _ _ _ h fun i m _ hm => ?_
    dsimp only
    repeat' split
    all_goals try exact h
    exact wrongsOk_markBag _ _ _ (wrongsOk_setMan_some i _ s h (wrongOk_carried (h i m hm) rfl (.inr (.inl rfl))))
  case manClose =>
    refine withMan_state State.wrongsOk _ _ _ _ h fun i m _ hm => ?_
    repeat' split
    all_goals try exact h
    next hs _ =>
    exact wrongsOk_setMan_some i _ s h (wrongOk_carried (h i m hm) rfl (.inl (by rw [not_not.mp hs]; decide)))
  case manCancel =>
    refine withMan_state State.wrongsOk _ _ _ _ h fun i m _ hm => ?_
    dsimp only
    split
    · exact h
    · dsimp only [Answer.state]
      rw [markBags_eq]
      exact wrongsOk_congr _ _ (wrongsOk_setMan_none i s h) rfl
  case courierArrive =>
    refine withMan_state State.wrongsOk _ _ _ _ h fun i m _ hm => ?_
    repeat' split
    all_goals try exact h
    · next hs _ _ _ _ _ => exact wrongsOk_wrongCourier i m s h (h i m hm) (not_not.mp hs)
    · exact wrongsOk_recomputeDoor _ _ (wrongsOk_setMan_some i _ s h (wrongOk_fresh rfl))
  case bagScan =>
    refine withMan_state State.wrongsOk _ _ _ _ h fun i m _ hm => ?_
    repeat' split
    all_goals try exact h
    next hs _ _ _ _ _ _ _ =>
    have carried : ∀ (k : ManState) (b : ManBody), (s.setMan i (some { m with state := k, body := b })).wrongsOk :=
      fun k b => wrongsOk_setMan_some i _ s h
        (wrongOk_carried (h i m hm) rfl (.inl (by rw [not_not.mp hs]; decide)))
    unfold scanEntry
    split
    · exact wrongsOk_raise _ _ (wrongsOk_recomputeDoor .handover _ (carried .suspended _))
    · dsimp only [Answer.state]
      repeat' split
      all_goals first
        | exact wrongsOk_markBag _ _ _ (carried m.state _)
        | exact carried m.state _
  case manResume =>
    refine withMan_state State.wrongsOk _ _ _ _ h fun i m _ hm => ?_
    refine withAuthority_state State.wrongsOk _ s _ h ho ?_
    repeat' split
    all_goals try exact h
    next hs _ _ _ _ _ _ =>
    exact wrongsOk_recomputeDoor _ _ (wrongsOk_markBag _ _ _ (wrongsOk_setMan_some i _ s.matched h
      (wrongOk_carried (h i m hm) rfl (.inl (by rw [not_not.mp hs]; decide)))))
  case courierSign =>
    refine withMan_state State.wrongsOk _ _ _ _ h fun i m _ hm => ?_
    split
    · unfold signCollection
      dsimp only
      split
      · exact h
      split
      · exact h
      dsimp only [Answer.state]
      rw [liftHalt_eq, recomputeDoor_eq, retireEntries_eq]
      exact wrongsOk_congr _ _ (wrongsOk_setMan_none i s h) rfl
    · unfold signDelivery
      split
      · exact wrongsOk_setMan_none i s h
      · exact h
  case manReopen =>
    refine withMan_state State.wrongsOk _ _ _ _ h fun i m _ hm => ?_
    refine withAuthority_state State.wrongsOk _ s _ h ho ?_
    dsimp only
    repeat' split
    all_goals try exact h
    exact wrongsOk_setMan_some i _ s.matched h (wrongOk_fresh rfl)

theorem effect_codeLaw (c : Cmd) (a : List Byte) (s : State) (h : s.codeLaw) : (effect c a s).state.codeLaw := by
  obtain ⟨ha, hw⟩ := (codeLaw_iff s).mp h
  exact (codeLaw_iff _).mpr ⟨effect_inRange c a s ha, effect_wrongsOk c a s hw⟩

end Sys2Proof.Machine

namespace Sys2Proof.Machine

/-! ### Laws that do not read the port, the lanes and the round engine -/

/-- A law that reads neither the port, the lanes, the round engine, the lines, the supply nor the model's own
fields. -/
def QuietLaw (P : State → Prop) : Prop :=
  ∀ s p l r d f q i t x w, P s → P { s with
    port := p, lanes := l, round := r, due := d, freeCount := f, pending := q, lines := i, taken := t, resetLow := x
    powered := w }

/-- What is left to show of such a law for every step to keep it: no frame of a counter and no round event can
break it, but for the calls that an evaluation raises. -/
structure QuietKept (P : State → Prop) : Prop where
  quiet : QuietLaw P
  retention : ∀ s k p, P s → P { s with ret := { s.ret with kind := k, path := p } }
  command : ∀ c a s, P s → P (effect c a s).state
  reset : ∀ s, P s → P s.pinReset
  supply : ∀ s, P s → P s.supplyEffects
  cold : ∀ h s, P s → P (coldPowerUp h s)
  door : ∀ o s, P s → P (s.judgeDoor o)
  second : ∀ s, P s → P s.secondNow
  minute : ∀ s, P s → P s.minuteNow
  interval : ∀ s, P s → P (s.dropInterval .interval)
  evaluation : ∀ s, P s → P (roundEvaluate s)
  expiry : ∀ i s, P s → P (s.expireSlot i)

variable {P Q : State → Prop}

theorem QuietLaw.port (q : QuietLaw P) (s : State) (p : Port) (h : P s) : P { s with port := p } :=
  q s p s.lanes s.round s.due s.freeCount s.pending s.lines s.taken s.resetLow s.powered h

theorem QuietLaw.lanesPort (q : QuietLaw P) (s : State) (l : Vector Lane 4) (p : Port) (h : P s) :
    P { s with lanes := l, port := p } :=
  q s p l s.round s.due s.freeCount s.pending s.lines s.taken s.resetLow s.powered h

theorem QuietLaw.roundPort (q : QuietLaw P) (s : State) (r : RoundEngine) (p : Port) (h : P s) :
    P { s with round := r, port := p } :=
  q s p s.lanes r s.due s.freeCount s.pending s.lines s.taken s.resetLow s.powered h

/-- The completion of a command changes the port alone (R174 to R178). -/
theorem QuietLaw.finish (q : QuietLaw P) (b : Byte) (x : Answer) (h : P x.state) : P (finish b x) := by
  cases x <;> exact q.port _ _ h

theorem QuietKept.kept (k : QuietKept P) : Kept P where
  port s p _ h := k.quiet.port s p h
  own s d f q l t r w h := k.quiet s s.port s.lanes s.round d f q l t r w h
  awake s h := k.retention s .none s.ret.path h
  deep s h := k.retention s .deep (some .supply) h
  command b c s h := k.quiet.finish b _ (k.command c s.port.args s h)
  reset := k.reset
  supply := k.supply
  cold := k.cold
  door := k.door
  second := k.second
  minute := k.minute
  error e i s h := by
    obtain ⟨_, _, e⟩ := laneError_frame e i s
    rw [e]
    exact k.quiet.lanesPort s _ _ h
  hello i m z s h := by
    obtain ⟨_, _, e⟩ := takeHello_frame i m z s
    rw [e]
    exact k.quiet.lanesPort s _ _ h
  batch i q c n s h := by
    obtain ⟨_, _, e⟩ := takeBatch_frame i q c n s
    rw [e]
    exact k.quiet.lanesPort s _ _ h
  endFeed i q s h := by
    obtain ⟨_, _, e⟩ := takeEndFeed_frame i q s
    rw [e]
    exact k.quiet.lanesPort s _ _ h
  holdAck i s h := by
    obtain ⟨_, _, e⟩ := takeHoldAck_frame i s
    rw [e]
    exact k.quiet.lanesPort s _ _ h
  jam i j s h := by
    obtain ⟨_, _, e⟩ := takeJam_frame i j s
    rw [e]
    exact k.quiet.lanesPort s _ _ h
  receiver i r s h := k.quiet.lanesPort s _ s.port h
  sent i s h := k.quiet.lanesPort s _ s.port h
  interval := k.interval
  timer s h := k.quiet.roundPort s _ s.port h
  round s h := by
    obtain ⟨_, _, e⟩ := startRound_frame s
    rw [e]
    exact k.quiet.roundPort s _ _ h
  evaluation := k.evaluation
  expiry := k.expiry

/-- Two laws that every effect and event keeps are kept together. -/
theorem Kept.and (k : Kept P) (q : Kept Q) : Kept fun s => P s ∧ Q s where
  port s p hp h := ⟨k.port s p hp h.1, q.port s p hp h.2⟩
  own s d f n l t r w h := ⟨k.own s d f n l t r w h.1, q.own s d f n l t r w h.2⟩
  awake s h := ⟨k.awake s h.1, q.awake s h.2⟩
  deep s h := ⟨k.deep s h.1, q.deep s h.2⟩
  command b c s h := ⟨k.command b c s h.1, q.command b c s h.2⟩
  reset s h := ⟨k.reset s h.1, q.reset s h.2⟩
  supply s h := ⟨k.supply s h.1, q.supply s h.2⟩
  cold b s h := ⟨k.cold b s h.1, q.cold b s h.2⟩
  door o s h := ⟨k.door o s h.1, q.door o s h.2⟩
  second s h := ⟨k.second s h.1, q.second s h.2⟩
  minute s h := ⟨k.minute s h.1, q.minute s h.2⟩
  error e i s h := ⟨k.error e i s h.1, q.error e i s h.2⟩
  hello i m z s h := ⟨k.hello i m z s h.1, q.hello i m z s h.2⟩
  batch i n c x s h := ⟨k.batch i n c x s h.1, q.batch i n c x s h.2⟩
  endFeed i n s h := ⟨k.endFeed i n s h.1, q.endFeed i n s h.2⟩
  holdAck i s h := ⟨k.holdAck i s h.1, q.holdAck i s h.2⟩
  jam i j s h := ⟨k.jam i j s h.1, q.jam i j s h.2⟩
  receiver i r s h := ⟨k.receiver i r s h.1, q.receiver i r s h.2⟩
  sent i s h := ⟨k.sent i s h.1, q.sent i s h.2⟩
  interval s h := ⟨k.interval s h.1, q.interval s h.2⟩
  timer s h := ⟨k.timer s h.1, q.timer s h.2⟩
  round s h := ⟨k.round s h.1, q.round s h.2⟩
  evaluation s h := ⟨k.evaluation s h.1, q.evaluation s h.2⟩
  expiry i s h := ⟨k.expiry i s h.1, q.expiry i s h.2⟩

/-! ### What the events leave of the records -/

/-- The call queue, the authority unit, the bags and the rack: the records that no event of the part itself
touches, but for a cold power-up and an evaluation. -/
def sameQueueAndBags (s t : State) : Prop :=
  t.calls = s.calls ∧ t.auth = s.auth ∧ t.bags = s.bags ∧ t.rack = s.rack

theorem pinReset_sameQueueAndBags (s : State) : sameQueueAndBags s s.pinReset := by
  rw [pinReset_eq]
  exact ⟨rfl, rfl, rfl, rfl⟩

theorem supplyEffects_sameQueueAndBags (s : State) : sameQueueAndBags s s.supplyEffects := by
  obtain ⟨_, _, _, _, _, _, _, e⟩ := supplyEffects_frame s
  rw [e]
  exact ⟨rfl, rfl, rfl, rfl⟩

theorem startIntact_sameQueueAndBags (s : State) : sameQueueAndBags s s.startIntact := by
  obtain ⟨_, _, _, _, _, _, _, _, _, e⟩ := startIntact_frame s
  rw [e]
  exact ⟨rfl, rfl, rfl, rfl⟩

theorem expireSlot_sameQueueAndBags (i : SlotIx) (s : State) : sameQueueAndBags s (s.expireSlot i) := by
  obtain ⟨_, _, _, e⟩ := expireSlot_frame i s
  rw [e]
  exact ⟨rfl, rfl, rfl, rfl⟩

/-- A door event touches the door and the port (R149 to R152). -/
theorem judgeDoor_mans (o : Bool) (s : State) :
    (s.judgeDoor o).mans = s.mans ∧ sameQueueAndBags s (s.judgeDoor o) := by
  obtain ⟨_, _, e⟩ := judgeDoor_frame o s
  rw [e]
  exact ⟨rfl, rfl, rfl, rfl, rfl⟩

theorem dropInterval_mans (k : LockCause) (s : State) :
    (s.dropInterval k).mans = s.mans ∧ sameQueueAndBags s (s.dropInterval k) := by
  obtain ⟨_, _, e⟩ := dropInterval_frame k s
  rw [e]
  exact ⟨rfl, rfl, rfl, rfl, rfl⟩

theorem roundEvaluate_mans (s : State) :
    (roundEvaluate s).mans = s.mans ∧ (roundEvaluate s).auth = s.auth ∧ (roundEvaluate s).bags = s.bags ∧
      (roundEvaluate s).rack = s.rack := by
  obtain ⟨_, _, _, e⟩ := roundEvaluate_frame s
  rw [e]
  exact ⟨rfl, rfl, rfl, rfl⟩

/-- The end of all work at the manifests: lanes released, handovers back to READY (R84, R144). -/
theorem pinReset_mans (s : State) : s.pinReset.mans = s.lanesDown.bagsToReady.mans := by
  have e : s.pinReset.mans = s.endWork.mans := by
    unfold State.pinReset
    dsimp only
    rw [recomputeDoor_eq]
    split <;> rfl
  rw [e, endWork_fields]

theorem supplyEffects_mans (s : State) : s.supplyEffects.mans = s.lanesDown.bagsToReady.mans := by
  unfold State.supplyEffects
  dsimp only
  rw [recomputeDoor_eq, abortRound_eq]

theorem startIntact_mans (s : State) :
    s.startIntact.mans = State.mans (State.lanesDown { s with clock := Clock.unset }).bagsToReady := by
  unfold State.startIntact
  dsimp only
  rw [endWork_fields]

/-- A window's expiry at the manifests (R137). -/
theorem expireSlot_man (i : SlotIx) (s : State) (j : SlotIx) :
    (s.expireSlot i).man j = s.man j ∨ (s.expireSlot i).man j = (s.man j).map Manifest.expire := by
  unfold State.expireSlot
  split
  · exact .inl rfl
  next m hm =>
  split
  · have e : (State.raise .courier ((s.setMan i (some m.expire)).recomputeDoor .handover)).man j =
        (s.setMan i (some m.expire)).man j := by
      rw [recomputeDoor_eq]
      rfl
    rw [e, man_setMan]
    split
    · next hj =>
      rw [hj, hm]
      exact .inr rfl
    · exact .inl rfl
  · exact .inl rfl

/-! ### The laws of the queue, of the codes and of the places of the bags -/

theorem queueLaw_kept : Kept State.queueLaw := QuietKept.kept {
  quiet := fun _ _ _ _ _ _ _ _ _ _ _ h => h
  retention := fun _ _ _ h => h
  command := effect_queueLaw
  reset := fun s h => queueLaw_congr s _ h (pinReset_sameQueueAndBags s).1
  supply := fun s h => queueLaw_congr s _ h (supplyEffects_sameQueueAndBags s).1
  cold := fun b s h => by
    unfold coldPowerUp
    split
    · exact queueLaw_congr s _ h (startIntact_sameQueueAndBags s).1
    · exact ⟨Nat.zero_le _, .nil⟩
  door := fun o s h => queueLaw_congr s _ h (judgeDoor_mans o s).2.1
  second := fun _ h => h
  minute := fun _ h => h
  interval := fun s h => queueLaw_congr s _ h (dropInterval_mans _ s).2.1
  evaluation := queueLaw_roundEvaluate
  expiry := fun i s h => queueLaw_congr s _ h (expireSlot_sameQueueAndBags i s).1 }

theorem inRange_kept : Kept fun s => s.auth.inRange := by
  have same : ∀ {s t : State}, t.auth = s.auth → s.auth.inRange → t.auth.inRange := fun e h => e ▸ h
  exact QuietKept.kept {
    quiet := fun _ _ _ _ _ _ _ _ _ _ _ h => h
    retention := fun _ _ _ h => h
    command := effect_inRange
    reset := fun s => same (pinReset_sameQueueAndBags s).2.1
    supply := fun s => same (supplyEffects_sameQueueAndBags s).2.1
    cold := fun b s h => by
      unfold coldPowerUp
      split
      · exact same (startIntact_sameQueueAndBags s).2.1 h
      · exact ⟨Nat.zero_le _, Nat.zero_le _⟩
    door := fun o s => same (judgeDoor_mans o s).2.2.1
    second := fun _ h => h
    minute := fun s h => ⟨h.1, (Nat.sub_le ..).trans h.2⟩
    interval := fun s => same (dropInterval_mans _ s).2.2.1
    evaluation := fun s => same (roundEvaluate_mans s).2.1
    expiry := fun i s => same (expireSlot_sameQueueAndBags i s).2.1 }

theorem reset_man (i : SlotIx) : State.reset.man i = none := by
  simp [State.reset, State.man]

theorem wrongOk_expire (m : Manifest) (h : m.wrongOk) : m.expire.wrongOk := wrongOk_carried h rfl (.inr (.inr rfl))

theorem wrongsOk_kept : Kept State.wrongsOk := by
  have down (s : State) (h : s.wrongsOk) := wrongsOk_bagsToReady _ (wrongsOk_lanesDown s h)
  exact QuietKept.kept {
    quiet := fun _ _ _ _ _ _ _ _ _ _ _ h => h
    retention := fun _ _ _ h => h
    command := effect_wrongsOk
    reset := fun s h => wrongsOk_congr _ _ (down s h) (pinReset_mans s)
    supply := fun s h => wrongsOk_congr _ _ (down s h) (supplyEffects_mans s)
    cold := fun b s h => by
      unfold coldPowerUp
      split
      · exact wrongsOk_congr _ _ (down { s with clock := Clock.unset } h) (startIntact_mans s)
      · exact fun i m hm => absurd ((reset_man i).symm.trans hm) (by simp)
    door := fun o s h => wrongsOk_congr s _ h (judgeDoor_mans o s).1
    second := fun _ h => h
    minute := fun _ h => h
    interval := fun s h => wrongsOk_congr s _ h (dropInterval_mans _ s).1
    evaluation := fun s h => wrongsOk_congr s _ h (roundEvaluate_mans s).1
    expiry := fun i s h => wrongsOk_mapMan Manifest.expire s _ h (expireSlot_man i s) wrongOk_expire }

end Sys2Proof.Machine

namespace Sys2Proof.Machine

theorem reset_bag (b : BagIx) : State.reset.bag b = none := by
  simp [State.reset, State.bag]

theorem startBroken_placesLaw (s : State) : s.startBroken.placesLaw := by
  have hb : ∀ b, s.startBroken.bag b = none := reset_bag
  have hc : ∀ c : CompIx, s.startBroken.rack.comps[c] = [] := fun c => by
    show (Vector.replicate 4 ([] : List BagIx))[c] = []
    simp
  have hq : s.startBroken.rack.queue = [] := rfl
  have hk : s.startBroken.rack.k = 6 := rfl
  have hh : s.startBroken.rack.halt = false := rfl
  refine ⟨fun b => ?_, fun b c => ?_, fun b x h => ?_, ?_, fun c => ?_, ?_, ?_, fun c => ?_, fun _ => ⟨hq, ?_⟩, ?_⟩
  · simp [hq, hb]
  · simp [hc, hb]
  · exact absurd ((hb b).symm.trans h) (by simp)
  · rw [hq]
    exact .nil
  · rw [hc]
    exact .nil
  · rw [hk]
    decide
  · rw [hk]
    decide
  · rw [hc]
    exact Nat.zero_le _
  · rw [hc, hk]
    decide
  · rw [hh]
    exact fun h => absurd h (by decide)

theorem startBroken_rackLaw (s : State) : s.startBroken.rackLaw := by
  have hm : ∀ i, s.startBroken.man i = none := reset_man
  refine ⟨startBroken_placesLaw s, ?_, ?_, ?_⟩
  · rintro i e ⟨m, _, hi, _⟩
    exact absurd ((hm i).symm.trans hi) (by simp)
  · rintro i _ _ _ ⟨m, _, hi, _⟩
    exact absurd ((hm i).symm.trans hi) (by simp)
  · intro i m _ hi
    exact absurd ((hm i).symm.trans hi) (by simp)

/-- Every effect and event keeps the places of the bags with the manifests that list them. -/
theorem rackLaw_kept : Kept State.rackLaw := QuietKept.kept {
  quiet := fun _ _ _ _ _ _ _ _ _ _ _ h => h
  retention := fun _ _ _ h => h
  command := effect_rackLaw
  reset := rackLaw_pinReset
  supply := rackLaw_supplyEffects
  cold := fun b s h => by
    unfold coldPowerUp
    split
    · exact rackLaw_startIntact s h
    · exact startBroken_rackLaw s
  door := fun o s h => by
    obtain ⟨hm, _, _, hb, hr⟩ := judgeDoor_mans o s
    exact rackLaw_congr s _ hb hr hm h
  second := fun _ h => h
  minute := fun _ h => h
  interval := fun s h => by
    obtain ⟨hm, _, _, hb, hr⟩ := dropInterval_mans .interval s
    exact rackLaw_congr s _ hb hr hm h
  evaluation := fun s h => by
    obtain ⟨hm, _, hb, hr⟩ := roundEvaluate_mans s
    exact rackLaw_congr s _ hb hr hm h
  expiry := rackLaw_expireSlot }

/-! ### The lists of the manifests and the contents of the bags -/

theorem mansOk_kept : Kept State.mansOk := by
  have down (s : State) (h : s.mansOk) := mansOk_bagsToReady _ (mansOk_lanesDown s h)
  exact QuietKept.kept {
    quiet := fun _ _ _ _ _ _ _ _ _ _ _ h => h
    retention := fun _ _ _ h => h
    command := effect_mansOk
    reset := fun s h => mansOk_congr _ _ (pinReset_mans s) (down s h)
    supply := fun s h => mansOk_congr _ _ (supplyEffects_mans s) (down s h)
    cold := fun b s h => by
      unfold coldPowerUp
      split
      · exact mansOk_congr _ _ (startIntact_mans s) (down { s with clock := Clock.unset } h)
      · exact fun i m hm => absurd ((reset_man i).symm.trans hm) (by simp)
    door := fun o s => mansOk_congr s _ (judgeDoor_mans o s).1
    second := fun _ h => h
    minute := fun _ h => h
    interval := fun s => mansOk_congr s _ (dropInterval_mans _ s).1
    evaluation := fun s => mansOk_congr s _ (roundEvaluate_mans s).1
    expiry := fun i s h => mansOk_mapMan Manifest.expire s _ h (expireSlot_man i s) expire_listsOk }

theorem bagsApart_kept : Kept fun s => s.bagsAll fun l _ => linesApart l := QuietKept.kept {
  quiet := fun _ _ _ _ _ _ _ _ _ _ _ h => h
  retention := fun _ _ _ h => h
  command := effect_bagsApart
  reset := fun s => bagsAll_congr s _ (pinReset_sameQueueAndBags s).2.2.1
  supply := fun s => bagsAll_congr s _ (supplyEffects_sameQueueAndBags s).2.2.1
  cold := fun b s h => by
    unfold coldPowerUp
    split
    · exact bagsAll_congr s _ (startIntact_sameQueueAndBags s).2.2.1 h
    · exact fun b x hx => absurd ((reset_bag b).symm.trans hx) (by simp)
  door := fun o s => bagsAll_congr s _ (judgeDoor_mans o s).2.2.2.1
  second := fun _ h => h
  minute := fun _ h => h
  interval := fun s => bagsAll_congr s _ (dropInterval_mans _ s).2.2.2.1
  evaluation := fun s => bagsAll_congr s _ (roundEvaluate_mans s).2.2.1
  expiry := fun i s => bagsAll_congr s _ (expireSlot_sameQueueAndBags i s).2.2.1 }

/-! ### The batch stacks -/

/-- Every effect and event keeps the batch stacks at 8 batches at most (R76). -/
theorem stackLaw_kept : Kept State.stackLaw where
  port _ _ _ h := h
  own _ _ _ _ _ _ _ _ h := h
  awake _ h := h
  deep _ h := h
  command b c s h := by
    have he := effect_stackLaw c s.port.args s h
    generalize effect c s.port.args s = x at he
    cases x <;> exact he
  reset s _ := by
    obtain ⟨_, _, _, _, _, _, _, _, e⟩ := pinReset_frame s
    rw [e]
    exact stackLaw_unprofiled _ rfl
  supply s _ := by
    obtain ⟨_, _, _, _, _, _, _, e⟩ := supplyEffects_frame s
    rw [e]
    exact stackLaw_unprofiled _ rfl
  cold b s _ := by
    unfold coldPowerUp
    split
    · obtain ⟨_, _, _, _, _, _, _, _, _, e⟩ := startIntact_frame s
      rw [e]
      exact stackLaw_unprofiled _ rfl
    · exact stackLaw_unprofiled _ rfl
  door o s h := by
    obtain ⟨_, _, e⟩ := judgeDoor_frame o s
    rw [e]
    exact h
  second := stackLaw_second
  minute _ h := h
  error := stackLaw_laneError
  hello := stackLaw_takeHello
  batch := stackLaw_takeBatch
  endFeed := stackLaw_takeEndFeed
  holdAck := stackLaw_takeHoldAck
  jam := stackLaw_takeJam
  receiver i _ s h := stackLaw_sameSession i _ s h rfl
  sent i s h := stackLaw_sameSession i _ s h (frameEnd_session _)
  interval s h := by
    obtain ⟨_, _, e⟩ := dropInterval_frame .interval s
    rw [e]
    exact h
  timer _ h := h
  round s h := by
    obtain ⟨_, _, e⟩ := startRound_frame s
    rw [e]
    exact h
  evaluation s h := by
    obtain ⟨_, _, _, e⟩ := roundEvaluate_frame s
    rw [e]
    exact h
  expiry i s h := by
    obtain ⟨_, _, _, e⟩ := expireSlot_frame i s
    rw [e]
    exact h

/-! ### The round list and the buffers of the port -/

/-- The round list and the buffers of the port stand: what every event but a reset leaves. -/
def State.steady (s t : State) : Prop :=
  t.round.list = s.round.list ∧ t.port.args = s.port.args ∧ t.port.reply = s.port.reply ∧
    t.port.readPos = s.port.readPos

theorem State.steady_refl (s : State) : s.steady s := ⟨rfl, rfl, rfl, rfl⟩

theorem State.steady.trans {s t u : State} (h : s.steady t) (g : t.steady u) : s.steady u :=
  ⟨g.1.trans h.1, g.2.1.trans h.2.1, g.2.2.1.trans h.2.2.1, g.2.2.2.trans h.2.2.2⟩

theorem recomputeDoor_steady (k : LockCause) (s : State) : s.steady (s.recomputeDoor k) := by
  unfold State.recomputeDoor
  split <;> exact ⟨rfl, rfl, rfl, rfl⟩

theorem laneError_steady (e : LaneError) (i : LaneIx) (s : State) : s.steady (s.laneError e i) := by
  unfold State.laneError
  dsimp only
  split <;> exact ⟨rfl, rfl, rfl, rfl⟩

theorem endRound_steady (k : RoundEnd) (n : Nat) (b : Bool) (r : RoundRun) (s : State) :
    s.steady (s.endRound k n b r) := by
  unfold State.endRound
  dsimp only
  split <;> exact ⟨rfl, rfl, rfl, rfl⟩

theorem startRound_steady (s : State) : s.steady s.startRound := by
  unfold State.startRound
  dsimp only
  split
  · exact ⟨rfl, rfl, rfl, rfl⟩
  · exact endRound_steady ..

theorem abortRound_steady (b : Bool) (s : State) : s.steady (s.abortRound b) := by
  unfold State.abortRound
  split
  · exact s.steady_refl
  · exact endRound_steady ..

theorem raiseCall_steady (t : TillIx) (k : CallKind) (n : Option Nat) (s : State) : s.steady (s.raiseCall t k n) := by
  unfold State.raiseCall
  split <;> exact ⟨rfl, rfl, rfl, rfl⟩

theorem roundAdvance_steady (r : RoundRun) (s : State) : s.steady (s.roundAdvance r) := by
  unfold State.roundAdvance
  dsimp only
  split
  · exact endRound_steady ..
  · exact ⟨rfl, rfl, rfl, rfl⟩

theorem roundEvaluate_steady (s : State) : s.steady (roundEvaluate s) := by
  unfold roundEvaluate
  split
  · exact s.steady_refl
  split
  · exact endRound_steady ..
  unfold evaluateTill
  dsimp only
  repeat' split
  · exact roundAdvance_steady ..
  · exact (raiseCall_steady ..).trans (roundAdvance_steady ..)
  · exact (raiseCall_steady ..).trans (roundAdvance_steady ..)
  · exact endRound_steady ..

theorem judgeDoor_steady (o : Bool) (s : State) : s.steady (s.judgeDoor o) := by
  unfold State.judgeDoor
  repeat' split
  all_goals exact ⟨rfl, rfl, rfl, rfl⟩

theorem expireSlot_steady (i : SlotIx) (s : State) : s.steady (s.expireSlot i) := by
  unfold State.expireSlot
  split
  · exact s.steady_refl
  split
  · exact recomputeDoor_steady .handover (s.setMan i _)
  · exact s.steady_refl

theorem takeHello_steady (i : LaneIx) (m : Byte) (z : BitVec 32) (s : State) : s.steady (takeHello i m z s) := by
  unfold takeHello
  dsimp only
  split
  · exact s.steady_refl
  · exact ⟨rfl, rfl, rfl, rfl⟩
  all_goals exact laneError_steady .restart i (s.setLane i _)

theorem takeBatch_steady (i : LaneIx) (q c : Byte) (k : Counts) (s : State) : s.steady (takeBatch i q c k s) := by
  unfold takeBatch
  dsimp only
  split
  · exact s.steady_refl
  · exact laneError_steady .protocol i (s.setLane i _)
  all_goals
    split
    · exact s.steady_refl
    split
    · exact ⟨rfl, rfl, rfl, rfl⟩
    · exact laneError_steady _ i (s.setLane i _)
    · exact s.steady_refl

theorem takeEndFeed_steady (i : LaneIx) (q : Byte) (s : State) : s.steady (takeEndFeed i q s) := by
  unfold takeEndFeed
  dsimp only
  repeat' split
  all_goals first
    | exact ⟨rfl, rfl, rfl, rfl⟩
    | exact laneError_steady ..

theorem takeHoldAck_steady (i : LaneIx) (s : State) : s.steady (takeHoldAck i s) := by
  unfold takeHoldAck
  dsimp only
  split
  all_goals first
    | exact ⟨rfl, rfl, rfl, rfl⟩
    | exact laneError_steady ..

theorem takeJam_steady (i : LaneIx) (j : Byte) (s : State) : s.steady (takeJam i j s) := by
  unfold takeJam
  dsimp only
  split
  · exact s.steady_refl
  all_goals exact laneError_steady .jam i (s.setLane i _)

theorem lanesDown_steady (s : State) : s.steady s.lanesDown.bagsToReady := by
  obtain ⟨_, _, _, e⟩ := lanesDown_frame s
  rw [e]
  exact ⟨rfl, rfl, rfl, rfl⟩

theorem supplyEffects_steady (s : State) : s.steady s.supplyEffects := by
  have aborted := (lanesDown_steady s).trans (abortRound_steady true _)
  unfold State.supplyEffects
  generalize s.lanesDown.bagsToReady.abortRound true = u at aborted ⊢
  exact aborted.trans (recomputeDoor_steady .reset { u with door := _, ret := _ })

end Sys2Proof.Machine

namespace Sys2Proof.Machine

/-! ### The bounds of the round list and of the buffers -/

theorem pinReset_roundList (s : State) : s.pinReset.round.list = s.round.list := by
  have e : s.pinReset.round = s.endWork.round := by
    unfold State.pinReset
    dsimp only
    rw [recomputeDoor_eq]
    split <;> rfl
  rw [e, endWork_fields]
  unfold RoundEngine.cutShort
  split <;> rfl

theorem startIntact_roundList (s : State) : s.startIntact.round.list = s.round.list := by
  unfold State.startIntact
  dsimp only
  rw [endWork_fields]
  unfold RoundEngine.cutShort
  split <;> rfl

theorem roundList_kept : Kept fun s => s.round.list.length ≤ 96 := by
  have same {s t : State} (e : t.round.list = s.round.list) (h : s.round.list.length ≤ 96) :
      t.round.list.length ≤ 96 := e ▸ h
  exact {
    port := fun _ _ _ h => h
    own := fun _ _ _ _ _ _ _ _ h => h
    awake := fun _ h => h
    deep := fun _ h => h
    command := fun b c s h => by
      have he := effect_roundList c s.port.args s h
      generalize effect c s.port.args s = x at he
      cases x <;> exact he
    reset := fun s => same (pinReset_roundList s)
    supply := fun s => same (supplyEffects_steady s).1
    cold := fun b s h => by
      unfold coldPowerUp
      split
      · exact same (startIntact_roundList s) h
      · exact Nat.zero_le _
    door := fun o s => same (judgeDoor_steady o s).1
    second := fun _ h => h
    minute := fun s => same (by unfold State.minuteNow; dsimp only; split <;> rfl)
    error := fun e i s => same (laneError_steady e i s).1
    hello := fun i m z s => same (takeHello_steady i m z s).1
    batch := fun i q c n s => same (takeBatch_steady i q c n s).1
    endFeed := fun i q s => same (takeEndFeed_steady i q s).1
    holdAck := fun i s => same (takeHoldAck_steady i s).1
    jam := fun i j s => same (takeJam_steady i j s).1
    receiver := fun _ _ _ h => h
    sent := fun _ _ h => h
    interval := fun s => same (recomputeDoor_steady .interval _).1
    timer := fun _ h => h
    round := fun s => same (startRound_steady s).1
    evaluation := fun s => same (roundEvaluate_steady s).1
    expiry := fun i s => same (expireSlot_steady i s).1 }

theorem listsLaw_kept : Kept State.listsLaw := by
  have all := roundList_kept.and (mansOk_kept.and (bagsApart_kept.and stackLaw_kept))
  have e : State.listsLaw = _ := funext fun s => propext (listsLaw_iff s)
  rw [e]
  exact all

/-- A bound of the port's buffers: it reads the argument buffer, the reply and the read position alone. -/
structure BufferBound (B : Port → Prop) : Prop where
  same : ∀ p q : Port, q.args = p.args → q.reply = p.reply → q.readPos = p.readPos → B p → B q
  keeps : ∀ p q : Port, p.keeps q → B p → B q
  cleared : ∀ b, B (Port.cleared b)

/-- A bound of the buffers that every completion meets is kept, with a law that the completions may rest on. -/
theorem Kept.with_buffers {P : State → Prop} {B : Port → Prop} (k : Kept P) (b : BufferBound B)
    (completion : ∀ (x : Byte) (c : Cmd) (s : State), P s → B s.port →
      B (Sys2Proof.Machine.finish x (effect c s.port.args s)).port) :
    Kept fun s => P s ∧ B s.port := by
  have same {s t : State} (e : s.steady t) (h : B s.port) : B t.port := b.same _ _ e.2.1 e.2.2.1 e.2.2.2 h
  exact {
    port := fun s p hp h => ⟨k.port s p hp h.1, b.keeps _ _ hp h.2⟩
    own := fun s d f q l t r w h => ⟨k.own s d f q l t r w h.1, h.2⟩
    awake := fun s h => ⟨k.awake s h.1, h.2⟩
    deep := fun s h => ⟨k.deep s h.1, h.2⟩
    command := fun x c s h => ⟨k.command x c s h.1, completion x c s h.1 h.2⟩
    reset := fun s h => ⟨k.reset s h.1, by
      unfold State.pinReset
      dsimp only
      split
      · exact b.cleared _
      · exact b.same (Port.cleared 0) _ rfl rfl rfl (b.cleared 0)⟩
    supply := fun s h => ⟨k.supply s h.1, same (supplyEffects_steady s) h.2⟩
    cold := fun x s h => ⟨k.cold x s h.1, by
      unfold coldPowerUp
      split <;> exact b.cleared _⟩
    door := fun o s h => ⟨k.door o s h.1, same (judgeDoor_steady o s) h.2⟩
    second := fun s h => ⟨k.second s h.1, h.2⟩
    minute := fun s h => ⟨k.minute s h.1, h.2⟩
    error := fun e i s h => ⟨k.error e i s h.1, same (laneError_steady e i s) h.2⟩
    hello := fun i m z s h => ⟨k.hello i m z s h.1, same (takeHello_steady i m z s) h.2⟩
    batch := fun i q c n s h => ⟨k.batch i q c n s h.1, same (takeBatch_steady i q c n s) h.2⟩
    endFeed := fun i q s h => ⟨k.endFeed i q s h.1, same (takeEndFeed_steady i q s) h.2⟩
    holdAck := fun i s h => ⟨k.holdAck i s h.1, same (takeHoldAck_steady i s) h.2⟩
    jam := fun i j s h => ⟨k.jam i j s h.1, same (takeJam_steady i j s) h.2⟩
    receiver := fun i r s h => ⟨k.receiver i r s h.1, h.2⟩
    sent := fun i s h => ⟨k.sent i s h.1, h.2⟩
    interval := fun s h => ⟨k.interval s h.1,
      same (recomputeDoor_steady .interval { s with door := { s.door with interval := none } }) h.2⟩
    timer := fun s h => ⟨k.timer s h.1, h.2⟩
    round := fun s h => ⟨k.round s h.1, same (startRound_steady s) h.2⟩
    evaluation := fun s h => ⟨k.evaluation s h.1, same (roundEvaluate_steady s) h.2⟩
    expiry := fun i s h => ⟨k.expiry i s h.1, same (expireSlot_steady i s) h.2⟩ }

theorem bounded_bufferBound : BufferBound Port.bounded where
  same _ _ ha hr hp h := by
    unfold Port.bounded at *
    rw [ha, hr, hp]
    exact h
  keeps _ _ hk h := hk.2 h
  cleared _ := ⟨Nat.zero_le _, Nat.zero_le _⟩

theorem replyBounded_bufferBound : BufferBound Port.replyBounded where
  same _ _ _ hr _ h := by
    unfold Port.replyBounded at *
    rw [hr]
    exact h
  keeps _ _ hk h := by
    unfold Port.replyBounded at *
    rcases hk.1 with e | e
    · rw [e]
      exact h
    · rw [e]
      exact Nat.zero_le _
  cleared _ := Nat.zero_le _

/-- A completion leaves the argument buffer empty and the read position at 0. -/
theorem finish_bounded (b : Byte) (x : Answer) : (finish b x).port.bounded := by
  cases x <;> exact ⟨Nat.zero_le _, Nat.zero_le _⟩

/-- A reply that fits the reply buffer is within its bound after the completion. -/
theorem finish_replyBounded (b : Byte) (x : Answer) (h : x.fits) : (finish b x).port.replyBounded := by
  cases x with
  | taken l t => exact h
  | refused r t => exact Nat.zero_le _

/-- Every effect and event keeps the queue, the codes and the argument buffer in their bounds. -/
theorem queueCodesPort_kept : Kept fun s => (s.queueLaw ∧ s.codeLaw) ∧ s.port.bounded := by
  refine (queueLaw_kept.and ?_).with_buffers bounded_bufferBound fun b c s _ _ => finish_bounded b _
  have e : State.codeLaw = _ := funext fun s => propext (codeLaw_iff s)
  rw [e]
  exact inRange_kept.and wrongsOk_kept

/-- Every effect and event keeps the reply within its buffer, with the laws that bound the lists of a reply. -/
theorem replies_kept : Kept fun s => (s.rackLaw ∧ s.listsLaw) ∧ s.port.replyBounded :=
  (rackLaw_kept.and listsLaw_kept).with_buffers replyBounded_bufferBound fun b c s h _ =>
    finish_replyBounded b _ (effect_fits c _ s h.1 h.2)

/-- Settles O59: each group of bounds is kept by every effect and event, and so by every step. -/
theorem boundsKept : Obligations.BoundsKept := by
  refine ⟨fun s t hq hp hc e => ?_, stackLaw_kept.step, rackLaw_kept.step, fun s t hr hl hp e => ?_⟩
  · obtain ⟨⟨hq', hc'⟩, hp'⟩ := queueCodesPort_kept.step s t ⟨⟨hq, hc⟩, hp⟩ e
    exact ⟨hq', hp', hc'⟩
  · obtain ⟨⟨_, hl'⟩, hp'⟩ := replies_kept.step s t ⟨⟨hr, hl⟩, hp⟩ e
    exact ⟨hl', hp'⟩

end Sys2Proof.Machine

namespace Sys2Proof.Machine

/-! ### The transfers at the port (R170 to R178) -/

theorem live_iff (s : State) : s.live = true ↔ s.powered = true ∧ s.resetLow = false ∧ s.due = [] := by
  simp [State.live, and_assoc]

theorem live_of_idle (s : State) (h : s.idle = true) : s.live = true := by
  obtain ⟨hp, hr, -, hd, -, -⟩ := (idle_iff s).mp h
  exact (live_iff s).mpr ⟨hp, hr, hd⟩

/-- A transfer that is not held, at a live part, is taken: an argument write. -/
theorem exec_argumentWrite (b : Byte) (s : State) (h : s.live = true) :
    exec (.argumentWrite b) s = .next (if s.port.busy then s.hold (.argument b) else acceptArgument b s) := by
  obtain ⟨hp, hr, -⟩ := (live_iff s).mp h
  have e : exec (.argumentWrite b) s = .next (argumentWrite b s.settle) := rfl
  rw [e, settle_live s h, argumentWrite, if_neg (by simp [hp, hr])]

theorem exec_replyRead (s : State) (h : s.live = true) :
    exec .replyRead s = .next (if s.port.busy then s.hold .reply else readReply s) := by
  obtain ⟨hp, hr, -⟩ := (live_iff s).mp h
  have e : exec .replyRead s = .next (replyRead s.settle) := rfl
  rw [e, settle_live s h, replyRead, if_neg (by simp [hp]), if_neg (by simp [hr])]

theorem exec_statusByteRead (s : State) (h : s.live = true) :
    exec .statusByteRead s = .next { s with port := { s.access.port with dataOut := s.statusByte } } := by
  obtain ⟨hp, hr, -⟩ := (live_iff s).mp h
  have e : exec .statusByteRead s = .next (statusByteRead s.settle) := rfl
  rw [e, settle_live s h, statusByteRead, if_neg (by simp [hp]), if_neg (by simp [hr])]

theorem runCommand_live (c : Cmd) (w : CmdWrite) (s : State) (h : s.live = true) :
    runCommand c w s = commandWrite (c.byte w.notify) w.pace s := by
  rw [runCommand, settle_live s h]

theorem commandWrite_busy (b : Byte) (w : Pace) (s : State) (h : s.live = true) (hb : s.port.busy = true) :
    commandWrite b w s = s.hold (.command b) := by
  obtain ⟨hp, hr, -⟩ := (live_iff s).mp h
  unfold commandWrite
  rw [if_neg (by simp [hp, hr]), if_pos hb]

theorem commandWrite_whole (b : Byte) (s : State) (h : s.live = true) (hb : ¬ s.port.busy = true) :
    commandWrite b .whole s = (startCommand b s).complete := by
  obtain ⟨hp, hr, -⟩ := (live_iff s).mp h
  unfold commandWrite
  rw [if_neg (by simp [hp, hr]), if_neg hb]

theorem commandWrite_begun (b : Byte) (s : State) (h : s.live = true) (hb : ¬ s.port.busy = true) :
    commandWrite b .begun s = startCommand b s := by
  obtain ⟨hp, hr, -⟩ := (live_iff s).mp h
  unfold commandWrite
  rw [if_neg (by simp [hp, hr]), if_neg hb]

theorem exec_unknownCommand (code : BitVec 7) (n : Bool) (s : State) (h : s.live = true)
    (hb : s.port.inProgress = none) :
    exec (.unknownCommand code (whole n)) s = .next (startCommand (commandByte n code) s).complete := by
  have e : exec (.unknownCommand code (whole n)) s =
    .next (commandWrite (commandByte n code) .whole s.settle) := rfl
  rw [e, settle_live s h, commandWrite_whole _ s h (by simp [Port.busy, hb])]

/-- The code of a command byte is its low 7 bits (section 10.5). -/
theorem commandByte_code (n : Bool) (code : BitVec 7) : (commandByte n code).toNat % 128 = code.toNat := by
  have h := code.isLt
  have e : (commandByte n code).toNat = (BitVec.ofBool n).toNat * 128 + code.toNat := by
    rw [commandByte, BitVec.toNat_append, ← Nat.shiftLeft_add_eq_or_of_lt h, Nat.shiftLeft_eq]
  omega

theorem live_wakeWatch (s : State) : s.wakeWatch.live = s.live := rfl

theorem acceptArgument_awake (b : Byte) (s : State) (h : s.ret.kind ≠ .deep) :
    acceptArgument b s = { s.access with port := s.access.port.append b } := if_neg h

theorem readReply_eq (s : State) : readReply s = { s with port := { s.port with
    done := false
    dataOut := (s.port.reply[s.port.readPos]?).getD 0
    readPos := if s.port.readPos < s.port.reply.length then s.port.readPos + 1 else s.port.readPos } } := rfl

theorem acceptArgument_deep (b : Byte) (s : State) (h : s.ret.kind = .deep) : acceptArgument b s = s.access :=
  if_pos h

/-- Settles O3: an argument write at the buffer, and a reply read at the reply. -/
theorem transfersAtTheBuffers : Obligations.TransfersAtTheBuffers := by
  refine ⟨fun b s hl hb => ?_, fun s hl hb => ?_⟩
  · have hfree : ¬ s.port.busy = true := by simp [Port.busy, hb]
    rw [exec_argumentWrite b s hl, if_neg hfree]
    refine ⟨fun hk hroom => ?_, fun hk hfull => ?_, fun hk => ?_⟩
    · rw [acceptArgument_awake b s hk, Port.append, if_pos (show s.access.port.args.length < argRoom from hroom)]
      rfl
    · rw [acceptArgument_awake b s hk, Port.append,
        if_neg (show ¬ s.access.port.args.length < argRoom from Nat.not_lt.mpr hfull)]
      rfl
    · rw [acceptArgument_deep b s hk]
      rfl
  · have hfree : ¬ s.port.busy = true := by simp [Port.busy, hb]
    rw [exec_replyRead s hl, if_neg hfree]
    refine ⟨fun b hread => ?_, fun hend => ?_⟩
    · have hlt : s.port.readPos < s.port.reply.length := (List.getElem?_eq_some_iff.mp hread).1
      rw [readReply_eq, hread, if_pos hlt, Option.getD_some]
    · rw [readReply_eq, List.getElem?_eq_none hend, if_neg (Nat.not_lt.mpr hend), Option.getD_none]

theorem PortCode.value_lt (r : PortCode) : r.value < 16 := by
  cases r <;> decide

/-- The marks of the status byte stand at weights 16 to 128, its code below them (R175). -/
theorem statusMarks (a b c d : Bool) (k : Nat) (hk : k < 16) :
    let v : Byte := BitVec.ofNat 8 (mark 128 a + mark 64 b + mark 32 c + mark 16 d + k)
    v.getLsbD 7 = a ∧ v.getLsbD 6 = b ∧ v.getLsbD 5 = c ∧ v.getLsbD 4 = d ∧ v.toNat % 16 = k := by
  cases a <;> cases b <;> cases c <;> cases d <;> revert hk <;> revert k <;> decide

/-- Settles O4: the status byte is its marks and its code; DACK# is an access and nothing more. -/
theorem statusReadAndAcknowledge : Obligations.StatusReadAndAcknowledge := by
  refine ⟨fun s hl => ?_, fun s hp hd => ?_⟩
  · refine ⟨s.statusByte, exec_statusByteRead s hl, ?_⟩
    have hmarks := statusMarks s.port.busy (s.port.code != .ok) s.port.attn s.ret.latch s.port.code.value
      (PortCode.value_lt _)
    have herr : (s.port.code != .ok) = decide (s.port.code ≠ .ok) := by cases s.port.code <;> rfl
    have hattn : s.port.attn = decide (s.port.attnPending &&& s.port.attnEnable ≠ 0) := by
      unfold Port.attn
      exact Bool.eq_iff_iff.mpr (by simp)
    have hvalue : s.statusByte = BitVec.ofNat 8 (mark 128 s.port.busy + mark 64 (s.port.code != .ok) +
      mark 32 s.port.attn + mark 16 s.ret.latch + s.port.code.value) := rfl
    rw [hvalue, ← herr, ← hattn]
    exact hmarks
  · have e : exec .doneAcknowledge s = .next (doneAcknowledge s.settle) := rfl
    rw [e, settle_of_nothing_due s hd, doneAcknowledge, if_neg (by simp [hp])]
    rfl

/-- A command write in WATCH is the same write at the part it wakes (R162, R182). -/
theorem startCommand_watch (b : Byte) (s : State) (h : s.ret.kind = .watch) :
    startCommand b s = startCommand b s.wakeWatch := by
  have hwoken : s.wakeWatch.ret.kind = .none := rfl
  simp only [startCommand, h, hwoken]
  rfl

theorem startCommand_deep (b : Byte) (s : State) (h : s.ret.kind = .deep) : startCommand b s = s.access := by
  simp only [startCommand, h]

theorem complete_of_not_busy (s : State) (h : s.port.inProgress = none) : s.complete = s := by
  simp only [State.complete, h]

/-- Settles O5: the code first, then the overflow; WATCH wakes the part first, DEEP discards the byte. -/
theorem commandByteJudged : Obligations.CommandByteJudged := by
  refine ⟨fun code n s hi hcode => ?_, fun c n s hi ho => ?_, fun c n s hl hb hh => ?_,
    fun code n s hl hb hh => ?_⟩
  · obtain ⟨-, -, hk, -, hb, hh⟩ := (idle_iff s).mp hi
    have hnot : judge (commandByte n code) (s.busyWith (commandByte n code)) =
        .refused .command (s.busyWith (commandByte n code)) := by
      simp only [judge, commandByte_code, hcode]
    have hawake : s.awake = s := if_neg (by rw [hk]; decide)
    rw [exec_unknownCommand code n s (live_of_idle s hi) hb, startCommand_of_not_deep _ s (by rw [hk]; decide),
      hawake, complete_busyWith _ s hh, hnot]
    rfl
  · obtain ⟨-, -, hk, -, hb, hh⟩ := (idle_iff s).mp hi
    have hawake : s.awake = s := if_neg (by rw [hk]; decide)
    rw [exec_of_overflow c n s (live_of_idle s hi) (by rw [hk]; decide) hb hh ho, hawake]
  · have hfree : ¬ s.port.busy = true := by simp [Port.busy, hb]
    refine ⟨fun hk => ?_, fun hk => ?_⟩
    · have hfree' : ¬ s.wakeWatch.port.busy = true := hfree
      have hl' : s.wakeWatch.live = true := by rw [live_wakeWatch, hl]
      rw [exec_cmdInstr, exec_cmdInstr, runCommand_live c _ s hl, runCommand_live c _ s.wakeWatch hl']
      show Host.Outcome.next (commandWrite (c.byte n) .whole s) = .next (commandWrite (c.byte n) .whole s.wakeWatch)
      rw [commandWrite_whole _ s hl hfree, commandWrite_whole _ s.wakeWatch hl' hfree', startCommand_watch _ s hk]
    · rw [exec_cmdInstr, runCommand_live c _ s hl]
      show Host.Outcome.next (commandWrite (c.byte n) .whole s) = _
      rw [commandWrite_whole _ s hl hfree, startCommand_deep _ s hk, complete_of_not_busy s.access hb]
      rfl
  · refine ⟨fun hk => ?_, fun hk => ?_⟩
    · rw [exec_unknownCommand code n s hl hb,
        exec_unknownCommand code n s.wakeWatch (by rw [live_wakeWatch, hl]) hb, startCommand_watch _ s hk]
    · rw [exec_unknownCommand code n s hl hb, startCommand_deep _ s hk, complete_of_not_busy s.access hb]
      rfl

/-- A COMMAND_COMPLETION at a live part is the completion of the command in progress. -/
theorem exec_commandCompletion (s : State) (h : s.live = true) :
    exec .commandCompletion s = .next s.complete := by
  obtain ⟨hp, -, -⟩ := (live_iff s).mp h
  have e : exec .commandCompletion s = .next (if s.powered = false then s.settle else s.settle.complete) := rfl
  rw [e, if_neg (by simp [hp]), settle_live s h]

theorem startCommand_awake (b : Byte) (s : State) (h : s.ret.kind = .none) :
    startCommand b s = s.busyWith b := by
  simp only [startCommand, h]
  rfl

/-- Settles O6: the whole row is the write and then the completion. -/
theorem writeThenCompletion : Obligations.WriteThenCompletion := by
  intro c n s hs
  obtain ⟨hi, -⟩ := (ready_iff s).mp hs
  have hl := live_of_idle s hi
  obtain ⟨-, -, hk, -, hb, -⟩ := (idle_iff s).mp hi
  have hfree : ¬ s.port.busy = true := by simp [Port.busy, hb]
  constructor
  · rw [exec_cmdInstr, runCommand_live c _ s hl]
    exact congrArg _ ((commandWrite_begun (c.byte n) s hl hfree).trans (startCommand_awake (c.byte n) s hk))
  · rw [exec_cmdInstr, runCommand_live c _ s hl]
    show exec .commandCompletion (s.busyWith (c.byte n)) = .next (commandWrite (c.byte n) .whole s)
    rw [exec_commandCompletion (s.busyWith (c.byte n)) hl, commandWrite_whole _ s hl hfree,
      startCommand_awake (c.byte n) s hk]

/-- What every completion leaves at the port (R171 to R178). -/
theorem finish_port (b : Byte) (r : Answer) :
    (finish b r).port.args = [] ∧ (finish b r).port.overflow = false ∧ (finish b r).port.readPos = 0 ∧
      (finish b r).port.inProgress = none ∧ (finish b r).port.held = [] ∧ (finish b r).port.done = true ∧
      (∃ pending, (finish b r).port.attnPending = notified b pending) ∧
      ((finish b r).port.code ≠ .ok → (finish b r).port.reply = []) := by
  cases r with
  | taken l t => exact ⟨rfl, rfl, rfl, rfl, rfl, rfl, ⟨_, rfl⟩, fun h => absurd rfl h⟩
  | refused r t => exact ⟨rfl, rfl, rfl, rfl, rfl, rfl, ⟨_, rfl⟩, fun _ => rfl⟩

/-- A completion at a live part without an overflow: the command's effect, then the transfers held (R173). -/
theorem exec_commandCompletion_cmd (c : Cmd) (n : Bool) (s : State) (hl : s.live = true)
    (ho : s.port.overflow = false) (hb : s.port.inProgress = some (c.byte n)) :
    exec .commandCompletion s =
      .next (takeHeld s.port.held (finish (c.byte n) (effect c s.port.args s))) := by
  rw [exec_commandCompletion s hl]
  simp only [State.complete, hb, judge_cmd c n s ho]

/-- Settles O7: a busy port holds its transfers; the completion takes them on the state it leaves. -/
theorem transfersHeldThroughBusy : Obligations.TransfersHeldThroughBusy := by
  refine ⟨fun s x hl hb => ?_, fun c n s hl ho hb => ?_⟩
  · have hbusy : s.port.busy = true := by simp [Port.busy, hb]
    refine ⟨fun b => ?_, ?_, fun c w => ?_⟩
    · rw [exec_argumentWrite b s hl, if_pos hbusy]; rfl
    · rw [exec_replyRead s hl, if_pos hbusy]; rfl
    · rw [exec_cmdInstr, runCommand_live c w s hl, commandWrite_busy _ _ s hl hbusy]; rfl
  · intro t
    obtain ⟨hargs, -, hpos, hprog, hheld, -⟩ := finish_port (c.byte n) (effect c s.port.args s)
    change t.port.args = [] at hargs
    change t.port.readPos = 0 at hpos
    change t.port.inProgress = none at hprog
    change t.port.held = [] at hheld
    have hrun : exec .commandCompletion s = .next (takeHeld s.port.held t) :=
      exec_commandCompletion_cmd c n s hl ho hb
    refine ⟨hargs, hpos, fun b hq hk => ?_, fun hq => ?_, fun d w hq hk => ?_⟩
    · rw [hrun, hq]
      show Host.Outcome.next (acceptArgument b t) = _
      rw [acceptArgument_awake b t hk, Port.append, if_pos (show t.access.port.args.length < argRoom by
        rw [show t.access.port.args = [] from hargs]; decide), show t.access.port.args = [] from hargs]
      rfl
    · rw [hrun, hq]
      show Host.Outcome.next (readReply t) = _
      rw [readReply_eq, hpos]
      cases t.port.reply with
      | nil => rfl
      | cons b r => simp
    · rw [hrun, hq]
      have hstart : startCommand (d.byte w) t = t.busyWith (d.byte w) := startCommand_awake _ t hk
      simp only [takeHeld, hstart]
      rw [if_pos (show (t.busyWith (d.byte w)).port.busy = true from rfl), hheld]
      rfl

/-- Settles O8: a command byte at a ready part ends in its completion. -/
theorem completionAtThePort : Obligations.CompletionAtThePort := by
  intro c n s hs
  refine ⟨_, exec_ready c n s hs, ?_⟩
  obtain ⟨hargs, hover, hpos, hprog, -, hdone, ⟨pending, hpend⟩, hreply⟩ :=
    finish_port (c.byte n) (effect c s.port.args (s.busyWith (c.byte n)))
  refine ⟨hargs, hover, hpos, hprog, hdone, ?_, hreply⟩
  rw [hpend, notified_byte_notify]

/-- Settles O1: a step is the front command, and every command of the table is answered. -/
theorem stepRunsFrontCommand : Obligations.StepRunsFrontCommand := by
  refine ⟨fun c r s => rfl, fun s h => by simp only [step, h], fun c s => ?_⟩
  cases c <;> exact ⟨_, rfl⟩

end Sys2Proof.Machine

namespace Sys2Proof.Machine

/-! ### The length of the arguments, judged first (R172) -/

/-- The number of argument bytes of a command with one layout. -/
def oneLayout : Cmd → Option Nat
  | .nop | .statusRead | .attnRead | .clockRead | .release | .doorLock | .doorRead | .denomRead | .stockRead
  | .officeRead | .limitsRead | .roundNow | .roundRead | .auditRead | .auditDiscard | .rackRead => some 0
  | .attnEnable | .attnClear | .retain | .templateRead | .floatIssue | .floatCancel | .tillOpen | .tillClose
  | .tillRead | .callTake | .callRead | .laneReset | .laneClear | .countHold | .countResume | .countVoid
  | .countCommit | .countAbort | .bagShut | .rackSet => some 1
  | .callPost | .callCancel | .laneRead | .manClose | .manCancel | .courierSign => some 2
  | .recordsClear | .roundTimer | .auditAccept | .manAdd | .manRemove => some 3
  | .clockSet | .doorOpen | .varianceAccept | .recount | .laneProfile | .countRolls | .bagBreak => some 4
  | .bagAdd | .bagReturn | .courierArrive | .manResume => some 5
  | .overrideSet | .bagOpen => some 6
  | .denomSet | .tillSetup => some 7
  | .bagScan => some 8
  | .posCash | .manReopen => some 9
  | .limitsSet => some 22
  | .templateSet => some 27
  | .topupIssue | .roundSet | .countOpen | .bagRead | .manCreate | .manRead => none

/-- Every command with one layout begins with the check of its length. -/
theorem effect_of_wrong_length (c : Cmd) (len : Nat) (a : List Byte) (s : State) (hc : oneLayout c = some len)
    (h : a.length ≠ len) : effect c a s = .refused .argument s := by
  cases c <;> cases hc <;> exact if_pos h

/-- Settles O10: the table of lengths is the one the effects begin with. -/
theorem lengthJudgedFirst : Obligations.LengthJudgedFirst := by
  intro c len n s hmem hs hne
  have hlayout : oneLayout c = some len := by
    simp only [List.mem_cons, List.not_mem_nil, or_false, Prod.mk.injEq] at hmem
    revert hmem
    cases c <;> simp [oneLayout, eq_comm]
  exact exec_refused c n s hs (effect_of_wrong_length c len _ _ hlayout hne)

/-! ### What a refusal changes (R176) -/

/-- What holds of a refusal: of its code and of the state it leaves. -/
def Answer.refuses (P : PortCode → State → Prop) : Answer → Prop
  | .taken _ _ => True
  | .refused r t => P r t

theorem Answer.refuses_mono {P Q : PortCode → State → Prop} (x : Answer) (h : x.refuses P)
    (i : ∀ r t, P r t → Q r t) : x.refuses Q := by
  cases x with
  | taken => trivial
  | refused r t => exact i r t h

/-- An override command refuses on the state it found, but for its authority unit and the SAFE of a lockout. -/
def overrideRefusal (s : State) (_ : PortCode) (t : State) : Prop := ∃ p x, t = { s with port := p, auth := x }

theorem withAuthority_refuses (code : Nat) (s : State) (next : State → Answer)
    (h : (next s.matched).refuses fun _ t => t = s.matched) :
    (withAuthority code s next).refuses (overrideRefusal s) := by
  unfold withAuthority
  split
  · exact ⟨_, _, rfl⟩
  split
  · exact ⟨_, _, rfl⟩
  split
  · unfold State.wrongOverride
    split <;> exact ⟨_, _, rfl⟩
  · exact Answer.refuses_mono _ h fun r t e => ⟨_, _, e⟩

theorem Answer.taken_refuses (P : PortCode → State → Prop) (l : List Byte) (t : State) :
    (Answer.taken l t).refuses P := trivial

theorem Answer.refused_same (r : PortCode) (s : State) : (Answer.refused r s).refuses fun _ t => t = s := rfl

/-- Commands of the port, the timebase, the door and the money. -/
def timeAndMoneyCmds : List Cmd :=
  [.nop, .statusRead, .attnRead, .attnEnable, .attnClear, .clockSet, .clockRead, .retain, .release, .doorLock,
   .doorRead, .denomSet, .denomRead, .stockRead, .officeRead, .limitsSet, .limitsRead, .templateSet,
   .templateRead]

theorem timeAndMoney_refuse (c : Cmd) (a : List Byte) (s : State) (h : c ∈ timeAndMoneyCmds) :
    (effect c a s).refuses fun _ t => t = s := by
  fin_cases h
  all_goals
    simp only [effect, nopEffect, statusReadEffect, attnReadEffect, attnEnableEffect, attnClearEffect, clockSetEffect,
      clockReadEffect, retainEffect, releaseEffect, doorLockEffect, doorReadEffect, denomSetEffect,
      denomReadEffect, stockReadEffect, officeReadEffect, limitsSetEffect, limitsReadEffect,
      templateSetEffect, templateReadEffect, noArgs]
    repeat' first
      | with_reducible exact Answer.taken_refuses _ _ _
      | with_reducible exact Answer.refused_same _ _
      | split

/-- Commands of the tills, the calls and the rounds. -/
def tillsAndCallsCmds : List Cmd :=
  [.tillSetup, .floatIssue, .floatCancel, .tillOpen, .topupIssue, .posCash, .tillClose, .tillRead, .callTake,
   .callCancel, .callRead, .roundSet, .roundTimer, .roundNow, .roundRead]

theorem tillsAndCalls_refuse (c : Cmd) (a : List Byte) (s : State) (h : c ∈ tillsAndCallsCmds) :
    (effect c a s).refuses fun _ t => t = s := by
  fin_cases h
  all_goals
    simp only [effect, tillSetupEffect, floatIssueEffect, floatCancelEffect, tillOpenEffect, topupIssueEffect,
      posCashEffect, tillCloseEffect, tillReadEffect, callTakeEffect, callCancelEffect, callReadEffect,
      roundSetEffect, roundTimerEffect, roundNowEffect, roundReadEffect, noArgs, withTill]
    repeat' first
      | with_reducible exact Answer.taken_refuses _ _ _
      | with_reducible exact Answer.refused_same _ _
      | split

/-- Commands of the lanes and the audit result. -/
def lanesCmds : List Cmd :=
  [.laneProfile, .laneReset, .laneClear, .laneRead, .countOpen, .countHold, .countResume, .countVoid,
   .countRolls, .countAbort, .auditRead, .auditDiscard]

theorem lanes_refuse (c : Cmd) (a : List Byte) (s : State) (h : c ∈ lanesCmds) :
    (effect c a s).refuses fun _ t => t = s := by
  fin_cases h
  all_goals
    simp only [effect, laneProfileEffect, laneResetEffect, laneClearEffect, laneReadEffect, countOpenEffect,
      countHoldEffect, countResumeEffect, countVoidEffect, countRollsEffect, countAbortEffect,
      auditReadEffect, auditDiscardEffect, noArgs, withLane, withProfiled]
    repeat' first
      | with_reducible exact Answer.taken_refuses _ _ _
      | with_reducible exact Answer.refused_same _ _
      | split

/-- Commands of the bags, the rack and the manifests. -/
def bagsAndManifestsCmds : List Cmd :=
  [.bagOpen, .bagAdd, .bagReturn, .bagShut, .bagRead, .rackSet, .rackRead, .manCreate, .manAdd, .manRemove,
   .manClose, .manCancel, .bagScan, .courierSign, .manRead]

theorem bagsAndManifests_refuse (c : Cmd) (a : List Byte) (s : State) (h : c ∈ bagsAndManifestsCmds) :
    (effect c a s).refuses fun _ t => t = s := by
  fin_cases h
  all_goals
    simp only [effect, bagOpenEffect, bagAddEffect, bagReturnEffect, bagShutEffect, bagReadEffect, rackSetEffect,
      rackReadEffect, manCreateEffect, manAddEffect, manRemoveEffect, manCloseEffect, manCancelEffect,
      bagScanEffect, courierSignEffect, manReadEffect, noArgs, withBag, withMan, scanEntry,
      signCollection, signDelivery]
    repeat' first
      | with_reducible exact Answer.taken_refuses _ _ _
      | with_reducible exact Answer.refused_same _ _
      | split

theorem Answer.ite_refuses (P : PortCode → State → Prop) (p : Prop) [Decidable p] (x y : Answer)
    (hx : x.refuses P) (hy : y.refuses P) : (if p then x else y).refuses P := by
  split
  · exact hx
  · exact hy

theorem commitTillClose_refuse (i : LaneIx) (x : Session) (t : TillIx) (s : State) :
    (commitTillClose i x t s).refuses fun _ t => t = s := by
  unfold commitTillClose
  dsimp only
  cases inRefusal s x.comp with
  | some r => exact Answer.refused_same r s
  | none =>
    repeat' first
      | with_reducible exact Answer.taken_refuses _ _ _
      | with_reducible exact Answer.refused_same _ _
      | with_reducible refine Answer.ite_refuses _ _ _ _ ?_ ?_

theorem commitPickup_refuse (i : LaneIx) (x : Session) (t : TillIx) (s : State) :
    (commitPickup i x t s).refuses fun _ t => t = s := by
  unfold commitPickup
  dsimp only
  cases inRefusal s x.comp with
  | some r => exact Answer.refused_same r s
  | none =>
    repeat' first
      | with_reducible exact Answer.taken_refuses _ _ _
      | with_reducible exact Answer.refused_same _ _
      | with_reducible refine Answer.ite_refuses _ _ _ _ ?_ ?_

theorem commitDeliveryTo_refuse (i : LaneIx) (x : Session) (j : SlotIx) (m : Manifest) (d : Delivery) (s : State) :
    (commitDeliveryTo i x j m d s).refuses fun _ t => t = s := by
  unfold commitDeliveryTo
  dsimp only
  cases inRefusal s x.comp with
  | some r => exact Answer.refused_same r s
  | none =>
    repeat' first
      | with_reducible exact Answer.taken_refuses _ _ _
      | with_reducible exact Answer.refused_same _ _
      | with_reducible refine Answer.ite_refuses _ _ _ _ ?_ ?_

/-- A refused commit changes nothing: the session stays open (R85, R90, R93, R140). -/
theorem commitSession_refuse (i : LaneIx) (x : Session) (s : State) :
    (commitSession i x s).refuses fun _ t => t = s := by
  unfold commitSession
  split
  case h_1 => exact commitTillClose_refuse _ _ _ _
  case h_2 => exact commitPickup_refuse _ _ _ _
  case h_3 =>
    unfold commitDelivery
    repeat' first
      | with_reducible exact Answer.refused_same _ _
      | with_reducible exact commitDeliveryTo_refuse _ _ _ _ _ _
      | split
  case h_4 => exact Answer.taken_refuses _ _ _
theorem countCommit_refuse (a : List Byte) (s : State) : (countCommitEffect a s).refuses fun _ t => t = s := by
  simp only [countCommitEffect, withProfiled, withLane]
  repeat' first
    | with_reducible exact Answer.refused_same _ _
    | with_reducible exact commitSession_refuse _ _ _
    | split

/-- A refused command that is none of the eleven with an effect of their own leaves the state as it stood. -/
theorem effect_refuses_plain (c : Cmd) (a : List Byte) (s : State)
    (h : c ∉ Cmd.callPost :: Cmd.courierArrive :: Cmd.authWriters) :
    (effect c a s).refuses fun _ t => t = s := by
  have hplace : c ∈ timeAndMoneyCmds ∨ c ∈ tillsAndCallsCmds ∨ c ∈ lanesCmds ∨ c ∈ bagsAndManifestsCmds ∨
      c = .countCommit := by
    revert h
    cases c <;> decide
  obtain h | h | h | h | rfl := hplace
  · exact timeAndMoney_refuse c a s h
  · exact tillsAndCalls_refuse c a s h
  · exact lanes_refuse c a s h
  · exact bagsAndManifests_refuse c a s h
  · exact countCommit_refuse a s

/-- A refused override command changes at most its authority unit, with the SAFE of a lockout (R145, R146). -/
theorem effect_refuses_override (c : Cmd) (a : List Byte) (s : State) (h : c ∈ Cmd.authWriters) :
    (effect c a s).refuses (overrideRefusal s) := by
  have hsame (r : PortCode) : (Answer.refused r s).refuses (overrideRefusal s) := ⟨_, _, rfl⟩
  fin_cases h
  all_goals
    simp only [effect, varianceAcceptEffect, recountEffect, auditAcceptEffect, bagBreakEffect, manResumeEffect,
      manReopenEffect, doorOpenEffect, recordsClearEffect, overrideSetEffect, withTill, withBag, withMan]
    repeat' first
      | with_reducible exact hsame _
      | with_reducible refine withAuthority_refuses _ _ _ ?_
      | with_reducible exact Answer.taken_refuses _ _ _
      | with_reducible exact Answer.refused_same _ _
      | split

/-- A refused COURIER-ARRIVE changes at most the manifest of a wrong code (R132). -/
theorem courierArrive_refuses (a : List Byte) (s : State) : (courierArriveEffect a s).refuses fun r t =>
    t = s ∨ r = .code ∧ ∃ p x, t = { s with port := p, mans := x } := by
  simp only [courierArriveEffect, withMan, State.wrongCourier]
  repeat' split
  all_goals first
    | exact trivial
    | exact Or.inl rfl
    | exact Or.inr ⟨rfl, _, _, rfl⟩

/-- A refused CALL-POST changes at most the overflow flag, with CALL (R44, R47). -/
theorem callPost_refuses (a : List Byte) (s : State) : (callPostEffect a s).refuses fun r t =>
    t = s ∨ r = .full ∧ ∃ p x, t = { s with port := p, callOverflow := x } := by
  simp only [callPostEffect, withTill, State.loseCall]
  repeat' split
  all_goals first
    | exact trivial
    | exact Or.inl rfl
    | exact Or.inr ⟨rfl, _, _, rfl⟩

/-- What a refused command may change, by its sort (R176). -/
theorem effect_refuses (c : Cmd) (a : List Byte) (s : State) : (effect c a s).refuses fun r t =>
    (∃ p, t = { s with port := p }) ∨ (c ∈ Cmd.authWriters ∧ ∃ p x, t = { s with port := p, auth := x }) ∨
    (c = .courierArrive ∧ r = .code ∧ ∃ p x, t = { s with port := p, mans := x }) ∨
    (c = .callPost ∧ r = .full ∧ ∃ p x, t = { s with port := p, callOverflow := x }) := by
  by_cases hauth : c ∈ Cmd.authWriters
  · exact Answer.refuses_mono _ (effect_refuses_override c a s hauth) fun r t e => .inr (.inl ⟨hauth, e⟩)
  by_cases hplain : c ∈ Cmd.callPost :: Cmd.courierArrive :: Cmd.authWriters
  · obtain rfl | rfl : c = .callPost ∨ c = .courierArrive := by
      simpa [hauth] using hplain
    · refine Answer.refuses_mono _ (callPost_refuses a s) fun r t e => ?_
      obtain rfl | ⟨hr, e⟩ := e
      · exact .inl ⟨_, rfl⟩
      · exact .inr (.inr (.inr ⟨rfl, hr, e⟩))
    · refine Answer.refuses_mono _ (courierArrive_refuses a s) fun r t e => ?_
      obtain rfl | ⟨hr, e⟩ := e
      · exact .inl ⟨_, rfl⟩
      · exact .inr (.inr (.inl ⟨rfl, hr, e⟩))
  · refine Answer.refuses_mono _ (effect_refuses_plain c a s hplain) fun r t e => ?_
    subst e
    exact .inl ⟨_, rfl⟩

/-- Settles O9: a refusal changes what its sort of command may change, and the port. -/
theorem refusalKeepsRecords : Obligations.RefusalKeepsRecords := by
  intro c n s t hs hexec hcode
  rw [exec_ready c n s hs] at hexec
  have hkept := effect_refuses c s.port.args (s.busyWith (c.byte n))
  cases hanswer : effect c s.port.args (s.busyWith (c.byte n)) with
  | taken l u =>
    rw [hanswer] at hexec
    cases hexec
    exact absurd rfl hcode
  | refused r u =>
    rw [hanswer] at hexec hkept
    cases hexec
    obtain ⟨p, rfl⟩ | ⟨hc, p, x, rfl⟩ | ⟨hc, rfl, p, x, rfl⟩ | ⟨hc, rfl, p, x, rfl⟩ := hkept
    · exact ⟨rfl, fun h => absurd rfl h, fun h => absurd rfl h, fun h => absurd rfl h⟩
    · exact ⟨rfl, fun _ => hc, fun h => absurd rfl h, fun h => absurd rfl h⟩
    · exact ⟨rfl, fun h => absurd rfl h, fun _ => ⟨hc, rfl⟩, fun h => absurd rfl h⟩
    · exact ⟨rfl, fun h => absurd rfl h, fun h => absurd rfl h, fun _ => ⟨hc, rfl⟩⟩

end Sys2Proof.Machine

namespace Sys2Proof.Machine

/-! ### The first checks of a command, passed -/

theorem withTill_of {a : List Byte} {len : Nat} {t : TillIx} (hlen : a.length = len)
    (ht : tillOf (arg a 0 1) = some t) (s : State) (next : TillIx → Answer) : withTill len a s next = next t := by
  simp only [withTill, hlen, ht, ne_eq, not_true_eq_false, if_false]

theorem withLane_of {a : List Byte} {len : Nat} {i : LaneIx} (hlen : a.length = len)
    (hi : laneOf (arg a 0 1) = some i) (s : State) (next : LaneIx → Answer) : withLane len a s next = next i := by
  simp only [withLane, hlen, hi, ne_eq, not_true_eq_false, if_false]

theorem withProfiled_of {a : List Byte} {len : Nat} {i : LaneIx} (hlen : a.length = len)
    (hi : laneOf (arg a 0 1) = some i) {s : State} (hp : (s.lane i).state ≠ .unprofiled) (next : LaneIx → Answer) :
    withProfiled len a s next = next i := by
  rw [withProfiled, withLane_of hlen hi, if_neg hp]

theorem withBag_of {a : List Byte} {len : Nat} {b : BagIx} {x : Bag} (hlen : a.length = len)
    (hb : bagOf (arg a 0 1) = some b) {s : State} (hx : s.bag b = some x) (next : BagIx → Bag → Answer) :
    withBag len a s next = next b x := by
  simp only [withBag, hlen, hb, hx, ne_eq, not_true_eq_false, if_false]

theorem withMan_of {a : List Byte} {len : Nat} {i : SlotIx} {s : State} {m : Manifest} (hlen : a.length = len)
    (hi : s.findMan (arg a 0 2) = some i) (hm : s.man i = some m) (next : SlotIx → Manifest → Answer) :
    withMan len a s next = next i m := by
  simp only [withMan, hlen, hi, hm, ne_eq, not_true_eq_false, if_false]

theorem asFin_val {n : Nat} (i : Fin n) : asFin n i.val = some i := dif_pos i.isLt

theorem arg_single (b : Byte) : arg [b] 0 1 = b.toNat := by simp [arg, leNat]

/-- A command taken, or refused, on the argument bytes it finds. -/
theorem exec_takes (c : Cmd) (n : Bool) (s : State) (hs : s.ready = true) {a l : List Byte} {t : State}
    (ha : s.port.args = a) (e : effect c a (s.busyWith (c.byte n)) = .taken l (t.busyWith (c.byte n))) :
    exec (cmdInstr c (whole n)) s = .next (completed c n l t) :=
  exec_taken c n s hs (ha ▸ e)

theorem exec_refuses (c : Cmd) (n : Bool) (s : State) (hs : s.ready = true) {a : List Byte} {r : PortCode}
    {t : State} (ha : s.port.args = a)
    (e : effect c a (s.busyWith (c.byte n)) = .refused r (t.busyWith (c.byte n))) :
    exec (cmdInstr c (whole n)) s = .next (turnedAway c n r t) :=
  exec_refused c n s hs (ha ▸ e)

/-! ### The attention commands (R179, R180) -/

theorem sourcesOf_of_lt {b : Byte} (h : b.toNat < 64) : sourcesOf b.toNat = some (b.setWidth 6) := by
  rw [sourcesOf, if_pos h]
  exact congrArg some (BitVec.eq_of_toNat_eq (by simp))

theorem sourcesByte_setWidth {b : Byte} (h : b.toNat < 64) : sourcesByte (b.setWidth 6) = b :=
  BitVec.eq_of_toNat_eq (by simp [sourcesByte]; omega)

theorem attnEnable_of_lt {b : Byte} (h : b.toNat < 64) (s : State) : attnEnableEffect [b] s =
    .taken [b, s.port.attnPending.setWidth 8] { s with port := { s.port with attnEnable := b.setWidth 6 } } := by
  simp only [attnEnableEffect, arg_single, sourcesOf_of_lt h, sourcesByte_setWidth h]
  rfl

theorem attnClear_of_lt {b : Byte} (h : b.toNat < 64) (s : State) : attnClearEffect [b] s =
    .taken [s.port.attnPending.setWidth 8, (s.port.attnPending &&& ~~~(b.setWidth 6)).setWidth 8]
      { s with port := { s.port with attnPending := s.port.attnPending &&& ~~~(b.setWidth 6) } } := by
  simp only [attnClearEffect, arg_single, sourcesOf_of_lt h]
  rfl

theorem attnMask_of_ge {b : Byte} (h : 64 ≤ b.toNat) (s : State) :
    attnEnableEffect [b] s = .refused .argument s ∧ attnClearEffect [b] s = .refused .argument s := by
  simp only [attnEnableEffect, attnClearEffect, arg_single, sourcesOf, if_neg (Nat.not_lt.mpr h)]
  exact ⟨rfl, rfl⟩

/-- Settles O12: the mask is its byte below 64, and nothing above. -/
theorem attentionCommands : Obligations.AttentionCommands := fun n s _b hs ha =>
  ⟨fun hb => ⟨exec_takes .attnEnable n s hs ha (attnEnable_of_lt hb _),
      exec_takes .attnClear n s hs ha (attnClear_of_lt hb _)⟩,
    fun hb => ⟨exec_refuses .attnEnable n s hs ha (attnMask_of_ge hb _).1,
      exec_refuses .attnClear n s hs ha (attnMask_of_ge hb _).2⟩⟩

/-! ### The reads (R8, R14, R17, R39, R58, R70, R103, R113, R120, R143, R153, R158, R167, R179) -/

/-- A command without arguments that is taken with a reply of the state it finds, and changes nothing. -/
theorem exec_read (c : Cmd) (n : Bool) (s : State) (hs : s.ready = true) {a l : List Byte} (ha : s.port.args = a)
    (e : effect c a (s.busyWith (c.byte n)) = .taken l (s.busyWith (c.byte n))) :
    exec (cmdInstr c (whole n)) s = .next (completed c n l s) :=
  exec_taken c n s hs (by rw [ha, e])

theorem auditRead_none (s : State) (h : s.audit = none) : auditReadEffect [] s = .taken [0] s := by
  simp only [auditReadEffect, noArgs_nil, h]

theorem auditRead_some (s : State) (r : AuditResult) (h : s.audit = some r) : auditReadEffect [] s =
    .taken (let l := placeRecords 182 ((codes.filter (has r.codes)).map (r.record s))
      [1] ++ le 2 r.codes.toNat ++ le 2 (r.staleMask s) ++ leInt 4 r.total ++ [byte l.length] ++ l.flatten) s := by
  simp only [auditReadEffect, noArgs_nil, h]
  simp only [replyRoom, auditPrefixLen, List.append_assoc, List.cons_append, List.nil_append]

theorem roundRead_eq (s : State) : roundReadEffect [] s =
    .taken ([byte s.round.list.length] ++ (s.round.list.map fun t => byte (t.val + 1)) ++
      runBytes s.round.run ++
      [byte s.round.resume, boolByte s.round.timerOn, byte s.round.interval,
       byte (s.round.countdown.getD 0), boolByte s.ret.latch, boolByte s.round.trigOn] ++
      summaryBytes s.round.summary) s := by
  simp only [roundReadEffect, noArgs_nil, List.append_assoc, List.cons_append, List.nil_append]

theorem rackRead_eq (s : State) : rackReadEffect [] s =
    .taken ([byte s.rack.k, byte s.rack.ptr.val, boolByte s.rack.halt] ++
      (lanesAll.flatMap fun c =>
        [byte s.rack.comps[c].length] ++
          s.rack.comps[c].flatMap fun b => [byte (b.val + 1), bagStateByte (s.bag b)]) ++
      [byte s.rack.queue.length] ++ s.rack.queue.map fun b => byte (b.val + 1)) s := by
  simp only [rackReadEffect, noArgs_nil, List.append_assoc, List.cons_append, List.nil_append]

theorem denomRead_eq (s : State) : denomReadEffect [] s =
    .taken (codes.flatMap fun c =>
      [byte c.val, byte s.denoms[c].kind.value] ++ le 4 s.denoms[c].face ++
        [boolByte s.denoms[c].eligible, boolByte (s.referenced c)]) s := by
  simp only [denomReadEffect, noArgs_nil, Denom.bytes, List.append_assoc, List.cons_append, List.nil_append]

theorem clockRead_eq (s : State) : clockReadEffect [] s =
    .taken ([boolByte s.clock.isSet] ++ le 2 s.clock.day ++ le 2 s.clock.minute ++ [byte s.clock.sub]) s := rfl

/-- Settles O15: each read without arguments is its reply. -/
theorem tableReads : Obligations.TableReads := by
  intro n s hs ha
  refine ⟨exec_read .statusRead n s hs ha rfl, exec_read .attnRead n s hs ha rfl,
    exec_read .clockRead n s hs ha (clockRead_eq _), exec_read .doorRead n s hs ha rfl,
    exec_read .denomRead n s hs ha (denomRead_eq _), exec_read .officeRead n s hs ha rfl,
    exec_read .roundRead n s hs ha (roundRead_eq _), exec_read .rackRead n s hs ha (rackRead_eq _),
    fun h => exec_read .auditRead n s hs ha (auditRead_none _ h),
    fun r h => exec_read .auditRead n s hs ha (auditRead_some _ r h)⟩

/-! ### The reads of one record -/

theorem finRange_find?_eq_some {k : Nat} {p : Fin k → Bool} {b : Fin k} (hb : p b = true)
    (hlow : ∀ c, c < b → p c = false) : (List.finRange k).find? p = some b := by
  rw [← Fin.find?_eq_find?_finRange]
  exact Fin.find?_eq_some_iff.mpr ⟨hb, hlow⟩

theorem finRange_find?_eq_none {k : Nat} {p : Fin k → Bool} (h : ∀ c, p c = false) :
    (List.finRange k).find? p = none := by
  rw [← Fin.find?_eq_find?_finRange]
  exact Fin.find?_eq_none_iff.mpr h

theorem bears_tag_iff (o : Option Bag) (tag : Nat) :
    (o.any fun x => x.tag == tag) = true ↔ ∃ x, o = some x ∧ x.tag = tag := by
  cases o <;> simp

/-- The lowest bag that bears a tag number (R105). -/
theorem tagBag_of_lowest (s : State) {tag : Nat} {b : BagIx} {x : Bag} (hx : s.bag b = some x) (ht : x.tag = tag)
    (hlow : ∀ c y, c < b → s.bag c = some y → y.tag ≠ tag) : s.tagBag tag = some b := by
  refine finRange_find?_eq_some ((bears_tag_iff _ _).mpr ⟨x, hx, ht⟩) fun c hc => ?_
  rw [← Bool.not_eq_true, bears_tag_iff]
  rintro ⟨y, hy, e⟩
  exact hlow c y hc hy e

theorem tagBag_of_absent (s : State) {tag : Nat} (h : ∀ c y, s.bag c = some y → y.tag ≠ tag) :
    s.tagBag tag = none := by
  refine finRange_find?_eq_none fun c => ?_
  rw [← Bool.not_eq_true, bears_tag_iff]
  rintro ⟨y, hy, e⟩
  exact h c y hy e

theorem tagOk_iff (tag : Nat) : tagOk tag = true ↔ 1 ≤ tag ∧ tag ≤ 9999999999 := by
  simp [tagOk]

theorem tillRead_eq {a : List Byte} {t : TillIx} (hlen : a.length = 1) (ht : tillOf (arg a 0 1) = some t)
    (s : State) : tillReadEffect a s = .taken
      (let x := s.till t
       [boolByte x.inService, byte x.template.val] ++ le 4 x.threshold ++ [byte x.state.value] ++
            le 4 x.f ++ le 4 x.s ++ le 4 x.r ++ le 4 x.p ++ le 2 x.pickups ++
            leInt 4 (saturate ((x.f : Int) + x.s - x.r - x.p)) ++
            [indexByte (x.lane.map Fin.val),
             byte (mark 1 (s.hasCall t .skim) + mark 2 (s.hasCall t .topup) +
               mark 4 (s.hasCall t .collect))] ++
            (codes.flatMap fun c => le 2 x.issue[c]) ++ resultBytes x.result) s := by
  rw [tillReadEffect, withTill_of hlen ht]
  rfl

theorem resultBytes_some (r : LastResult) : resultBytes (some r) =
    [1] ++ le 4 r.c ++ leInt 4 r.e ++ leInt 4 r.v ++ le 4 r.tol ++
      [byte r.cls.value, byte (resultFlags r.negExpect r.v)] ++ le 4 r.sv ++
      (codes.flatMap fun c => le 2 r.comp[c].fit ++ le 2 r.comp[c].unfit ++ le 2 r.comp[c].suspect) ++
      [boolByte r.time.isSome] ++ stampBytes r.time := by
  simp only [resultBytes, LastResult.judgeBytes, compBytes, List.append_assoc, List.cons_append,
    List.nil_append]

theorem templateRead_eq (k : TemplateIx) (s : State) : templateReadEffect [byte k.val] s =
    .taken ([byte k.val] ++ (codes.flatMap fun c => le 2 s.templates[k].targets[c]) ++
            le 2 s.templates[k].slack ++
            le 5 (sumCodes fun c => s.templates[k].targets[c] * s.denoms[c].face)) s := by
  have hk : asFin 4 (arg [byte k.val] 0 1) = some k := by
    rw [arg_single, show (byte k.val).toNat = k.val by simp [byte]; omega, asFin_val]
  simp only [templateReadEffect, List.length_singleton, ne_eq, not_true_eq_false, if_false, hk, templateReply,
    countBytes, targetValue, fitValue, List.append_assoc, List.cons_append, List.nil_append]

theorem laneRead_eq (i : LaneIx) (p : Byte) (hp : p.toNat < 3) (s : State) : laneReadEffect [byte i.val, p] s =
    .taken (if p = 0 then lanePage0 s.denoms (s.lane i)
      else if p = 1 then lanePage1 (s.lane i).session else lanePage2 (s.lane i).session) s := by
  have hi : laneOf (arg [byte i.val, p] 0 1) = some i := by
    have e : arg [byte i.val, p] 0 1 = i.val := by simp [arg, leNat, byte]; omega
    rw [e]
    exact asFin_val i
  have hpage : arg [byte i.val, p] 1 1 = p.toNat := by simp [arg, leNat]
  rw [laneReadEffect, withLane_of (len := 2) rfl hi, hpage]
  obtain hp | hp | hp : p = 0 ∨ p = 1 ∨ p = 2 := by
    rw [← BitVec.toNat_inj, ← BitVec.toNat_inj, ← BitVec.toNat_inj]
    simp
    omega
  all_goals subst hp; rfl

theorem bagRead_number {a : List Byte} {b : BagIx} {s : State} {x : Bag} (hlen : a.length = 1)
    (hb : bagOf (arg a 0 1) = some b) (hx : s.bag b = some x) : bagReadEffect a s = .taken (bagRecord s b x) s := by
  simp only [bagReadEffect, hlen]
  exact withBag_of hlen hb hx _

theorem bagRead_tag {a : List Byte} {b : BagIx} {s : State} {x : Bag} (hlen : a.length = 5)
    (hok : tagOk (arg a 0 5) = true) (hb : s.tagBag (arg a 0 5) = some b) (hx : s.bag b = some x) :
    bagReadEffect a s = .taken (bagRecord s b x) s := by
  simp only [bagReadEffect, hlen, hok, hb, hx, Bool.true_eq_false, if_false]

theorem bagRead_unknown {a : List Byte} {s : State} (hlen : a.length = 5)
    (hok : tagOk (arg a 0 5) = true) (hb : s.tagBag (arg a 0 5) = none) :
    bagReadEffect a s = .refused .unknown s := by
  simp only [bagReadEffect, hlen, hok, hb, Bool.true_eq_false, if_false]

theorem bagRead_badTag {a : List Byte} (s : State) (hlen : a.length = 5) (hbad : tagOk (arg a 0 5) = false) :
    bagReadEffect a s = .refused .argument s := by
  simp only [bagReadEffect, hlen, hbad, if_true]

theorem manRead_page {a : List Byte} {i : SlotIx} {s : State} {m : Manifest} (hlen : a.length = 3)
    (hi : s.findMan (arg a 0 2) = some i) (hm : s.man i = some m) (hp : arg a 2 1 < 3) :
    manReadEffect a s =
      .taken (if arg a 2 1 = 0 then manPage0 s i m else manPage (arg a 2 1 == 2) s m) s := by
  rw [manReadEffect, if_neg (by omega), withMan_of hlen hi hm]
  obtain h | h | h : arg a 2 1 = 0 ∨ arg a 2 1 = 1 ∨ arg a 2 1 = 2 := by omega
  all_goals simp only [h]; rfl

/-- Settles O16: each read of a record is its reply. -/
theorem recordReads : Obligations.RecordReads := by
  intro n s a hs ha
  refine ⟨fun t hlen ht => exec_read .tillRead n s hs ha ?_, fun k hk => ?_, fun i p hp hlt => ?_,
    fun b x hlen hb hx => exec_read .bagRead n s hs ha (bagRead_number hlen hb hx), fun hlen => ?_, fun h0 => ?_,
    fun i m hlen hi hm hp => exec_read .manRead n s hs ha (manRead_page hlen hi hm hp)⟩
  · refine (tillRead_eq hlen ht _).trans ?_
    cases hr : (s.till t).result with
    | none => simp only [busyWith_till, hr]; rfl
    | some r => simp only [busyWith_till, hr, resultBytes_some]; rfl
  · subst hk
    exact exec_read .templateRead n s hs ha (templateRead_eq k _)
  · subst hp
    exact exec_read .laneRead n s hs ha (laneRead_eq i p hlt _)
  · refine ⟨fun b x h1 h2 hx ht hlow => exec_read .bagRead n s hs ha ?_,
      fun h1 h2 habs => exec_refuses .bagRead n s hs ha ?_, fun hbad => exec_refuses .bagRead n s hs ha ?_⟩
    · exact bagRead_tag hlen ((tagOk_iff _).mpr ⟨h1, h2⟩) (tagBag_of_lowest s hx ht hlow) hx
    · exact bagRead_unknown hlen ((tagOk_iff _).mpr ⟨h1, h2⟩) (tagBag_of_absent s habs)
    · refine bagRead_badTag _ hlen ?_
      rw [← Bool.not_eq_true, tagOk_iff]
      omega
  · subst h0
    exact ⟨exec_read .bagRead n s hs ha rfl, exec_read .manRead n s hs ha rfl⟩

end Sys2Proof.Machine

namespace Sys2Proof.Machine

/-! ### The authority check (R145, R146) -/

/-- What an answer leaves of the failure count and of the lockout. -/
def Answer.keepsCounts (u : State) (x : Answer) : Prop :=
  x.state.auth.failures = u.auth.failures ∧ x.state.auth.lockout = u.auth.lockout

theorem refused_keepsCounts (r : PortCode) (u : State) : (Answer.refused r u).keepsCounts u := ⟨rfl, rfl⟩

theorem taken_keepsCounts (l : List Byte) (u t : State) (h : t.auth = u.auth) : (Answer.taken l t).keepsCounts u :=
  ⟨congrArg Authority.failures h, congrArg Authority.lockout h⟩

theorem recomputeDoor_auth (k : LockCause) (s : State) : (s.recomputeDoor k).auth = s.auth := by
  rw [recomputeDoor_eq]

theorem liftHalt_auth (s : State) : s.liftHalt.auth = s.auth := by
  rw [liftHalt_eq]

/-- An override command that reaches the authority check is its check, and then what keeps the counts. -/
def checksAuthority (c : Cmd) (a : List Byte) (s : State) (code : Nat) : Prop :=
  ∃ next : State → Answer, effect c a s = withAuthority code s next ∧ ∀ u, (next u).keepsCounts u

theorem checksAuthority_varianceAccept {a : List Byte} {t : TillIx} (hlen : a.length = 4)
    (ht : tillOf (arg a 0 1) = some t) (s : State) : checksAuthority .varianceAccept a s (arg a 1 3) := by
  refine ⟨_, withTill_of hlen ht s _, fun u => ?_⟩
  split
  · exact taken_keepsCounts _ _ _ rfl
  · exact refused_keepsCounts _ _

theorem checksAuthority_recount {a : List Byte} {t : TillIx} (hlen : a.length = 4)
    (ht : tillOf (arg a 0 1) = some t) (s : State) : checksAuthority .recount a s (arg a 1 3) := by
  refine ⟨_, withTill_of hlen ht s _, fun u => ?_⟩
  dsimp only
  repeat' split
  all_goals first
    | exact refused_keepsCounts _ _
    | exact taken_keepsCounts _ _ _ rfl

theorem checksAuthority_bagBreak {a : List Byte} {b : BagIx} {x : Bag} {s : State} (hlen : a.length = 4)
    (hb : bagOf (arg a 0 1) = some b) (hx : s.bag b = some x) : checksAuthority .bagBreak a s (arg a 1 3) := by
  refine ⟨_, withBag_of hlen hb hx _, fun u => ?_⟩
  dsimp only
  repeat' split
  all_goals first
    | exact refused_keepsCounts _ _
    | exact taken_keepsCounts _ _ _ (liftHalt_auth _)

theorem checksAuthority_auditAccept {a : List Byte} (hlen : a.length = 3) (s : State) :
    checksAuthority .auditAccept a s (arg a 0 3) := by
  refine ⟨_, if_neg (not_not.mpr hlen), fun u => ?_⟩
  dsimp only
  repeat' split
  all_goals first
    | exact refused_keepsCounts _ _
    | exact taken_keepsCounts _ _ _ rfl

theorem checksAuthority_recordsClear {a : List Byte} (hlen : a.length = 3) (s : State) :
    checksAuthority .recordsClear a s (arg a 0 3) := by
  refine ⟨_, if_neg (not_not.mpr hlen), fun u => ?_⟩
  split
  · exact refused_keepsCounts _ _
  · exact taken_keepsCounts _ _ _ rfl

theorem checksAuthority_overrideSet {a : List Byte} (hlen : a.length = 6) (s : State) :
    checksAuthority .overrideSet a s (arg a 0 3) := by
  refine ⟨_, if_neg (not_not.mpr hlen), fun u => ?_⟩
  dsimp only
  split
  · exact refused_keepsCounts _ _
  · exact ⟨rfl, rfl⟩

theorem checksAuthority_doorOpen {a : List Byte} (hlen : a.length = 4) (s : State) :
    checksAuthority .doorOpen a s (arg a 0 3) := by
  refine ⟨_, if_neg (not_not.mpr hlen), fun u => ?_⟩
  dsimp only
  split
  · exact refused_keepsCounts _ _
  · exact taken_keepsCounts _ _ _ (recomputeDoor_auth _ _)

theorem checksAuthority_manResume {a : List Byte} {i : SlotIx} {m : Manifest} {s : State} (hlen : a.length = 5)
    (hi : s.findMan (arg a 0 2) = some i) (hm : s.man i = some m) : checksAuthority .manResume a s (arg a 2 3) := by
  refine ⟨_, withMan_of hlen hi hm _, fun u => ?_⟩
  dsimp only
  repeat' split
  all_goals first
    | exact refused_keepsCounts _ _
    | exact taken_keepsCounts _ _ _ (recomputeDoor_auth _ _)

theorem checksAuthority_manReopen {a : List Byte} {i : SlotIx} {m : Manifest} {s : State} (hlen : a.length = 9)
    (hi : s.findMan (arg a 0 2) = some i) (hm : s.man i = some m) : checksAuthority .manReopen a s (arg a 2 3) := by
  refine ⟨_, withMan_of hlen hi hm _, fun u => ?_⟩
  dsimp only
  repeat' split
  all_goals first
    | exact refused_keepsCounts _ _
    | exact taken_keepsCounts _ _ _ rfl

/-- The place of the code in the arguments is where the check reads it. -/
theorem checksAuthority_of_overrideCode {c : Cmd} {a : List Byte} {s : State} {code : Nat}
    (h : overrideCode c a s = some code) : checksAuthority c a s code := by
  cases c
  case varianceAccept =>
    obtain ⟨⟨hlen, ht⟩, hcode⟩ := Option.ite_none_right_eq_some.mp h
    obtain rfl := Option.some.inj hcode
    obtain ⟨t, ht⟩ := Option.isSome_iff_exists.mp ht
    exact checksAuthority_varianceAccept hlen ht s
  case recount =>
    obtain ⟨⟨hlen, ht⟩, hcode⟩ := Option.ite_none_right_eq_some.mp h
    obtain rfl := Option.some.inj hcode
    obtain ⟨t, ht⟩ := Option.isSome_iff_exists.mp ht
    exact checksAuthority_recount hlen ht s
  case bagBreak =>
    obtain ⟨⟨hlen, hx⟩, hcode⟩ := Option.ite_none_right_eq_some.mp h
    obtain rfl := Option.some.inj hcode
    obtain ⟨x, hx⟩ := Option.isSome_iff_exists.mp hx
    obtain ⟨b, hb, hx⟩ := Option.bind_eq_some_iff.mp hx
    exact checksAuthority_bagBreak hlen hb hx
  case auditAccept =>
    obtain ⟨hlen, hcode⟩ := Option.ite_none_right_eq_some.mp h
    obtain rfl := Option.some.inj hcode
    exact checksAuthority_auditAccept hlen s
  case recordsClear =>
    obtain ⟨hlen, hcode⟩ := Option.ite_none_right_eq_some.mp h
    obtain rfl := Option.some.inj hcode
    exact checksAuthority_recordsClear hlen s
  case overrideSet =>
    obtain ⟨hlen, hcode⟩ := Option.ite_none_right_eq_some.mp h
    obtain rfl := Option.some.inj hcode
    exact checksAuthority_overrideSet hlen s
  case doorOpen =>
    obtain ⟨hlen, hcode⟩ := Option.ite_none_right_eq_some.mp h
    obtain rfl := Option.some.inj hcode
    exact checksAuthority_doorOpen hlen s
  case manResume =>
    obtain ⟨⟨hlen, hm⟩, hcode⟩ := Option.ite_none_right_eq_some.mp h
    obtain rfl := Option.some.inj hcode
    obtain ⟨m, hm⟩ := Option.isSome_iff_exists.mp hm
    obtain ⟨i, hi, hm⟩ := Option.bind_eq_some_iff.mp hm
    exact checksAuthority_manResume hlen hi hm
  case manReopen =>
    obtain ⟨⟨hlen, hm⟩, hcode⟩ := Option.ite_none_right_eq_some.mp h
    obtain rfl := Option.some.inj hcode
    obtain ⟨m, hm⟩ := Option.isSome_iff_exists.mp hm
    obtain ⟨i, hi, hm⟩ := Option.bind_eq_some_iff.mp hm
    exact checksAuthority_manReopen hlen hi hm
  all_goals cases h

/-- Settles O17: the four outcomes of the check, and the counts after a matching code. -/
theorem authorityCheck : Obligations.AuthorityCheck := by
  intro c n s code hs hcode
  obtain ⟨next, heffect, hnext⟩ :=
    checksAuthority_of_overrideCode (s := s.busyWith (c.byte n)) (show overrideCode c s.port.args _ = _ from hcode)
  have hchecked (x : Answer) (e : withAuthority code (s.busyWith (c.byte n)) next = x) :
      effect c s.port.args (s.busyWith (c.byte n)) = x := heffect.trans e
  refine ⟨fun hlock => ?_, fun hlock hbig => ?_, fun hlock hle hwrong hfew => ?_, fun hlock hle hwrong hmany => ?_,
    fun hlock hle hright => ?_⟩
  · exact exec_refused c n s hs (hchecked _ (if_pos hlock))
  · refine exec_refused c n s hs (hchecked _ ?_)
    rw [withAuthority, busyWith_auth, if_neg (by omega), if_pos hbig]
  · refine exec_refused c n s hs (hchecked _ ?_)
    rw [withAuthority, busyWith_auth, if_neg (by omega), if_neg (by omega), if_pos hwrong, State.wrongOverride,
      busyWith_auth, if_neg (by omega)]
    rfl
  · refine exec_refused c n s hs (hchecked _ ?_)
    rw [withAuthority, busyWith_auth, if_neg (by omega), if_neg (by omega), if_pos hwrong, State.wrongOverride,
      busyWith_auth, if_pos (by omega)]
    rfl
  · refine ⟨_, exec_ready c n s hs, ?_⟩
    rw [hchecked _ (withAuthority_matched code (s.busyWith (c.byte n)) next hlock hright (by
      rw [busyWith_auth]; omega))]
    obtain ⟨hfail, hlockout⟩ := hnext (s.busyWith (c.byte n)).matched
    cases hx : next (s.busyWith (c.byte n)).matched with
    | taken l t =>
      rw [hx] at hfail hlockout
      exact ⟨hfail, hlockout.trans hlock⟩
    | refused r t =>
      rw [hx] at hfail hlockout
      exact ⟨hfail, hlockout.trans hlock⟩

/-! ### The door output (R148 to R151) -/

theorem recomputeDoor_of_no_lock (k : LockCause) (s : State)
    (h : ¬(s.door.unlocked = true ∧ s.shouldUnlock = false ∧ s.taken.doorOpen = true)) :
    s.recomputeDoor k = { s with door := { s.door with unlocked := s.shouldUnlock } } := by
  refine if_neg ?_
  simp only [Bool.and_eq_true, Bool.not_eq_true']
  tauto

theorem recomputeDoor_of_lock_open (k : LockCause) (s : State) (hu : s.door.unlocked = true)
    (hs : s.shouldUnlock = false) (ho : s.taken.doorOpen = true) :
    s.recomputeDoor k = State.raise .safe { s with door :=
      { unlocked := false, interval := s.door.interval, leftOpen := true
        event := some ⟨.leftOpen k, s.stamp⟩ } } :=
  if_pos (by simp [hu, hs, ho])

theorem recomputeDoor_unlocks (k : LockCause) (s : State) (h : s.shouldUnlock = true) :
    s.recomputeDoor k = { s with door := { s.door with unlocked := true } } := by
  rw [recomputeDoor_of_no_lock k s (by simp [h]), h]

theorem inBags_iff (s : State) (i : SlotIx) : inBags s i = true ↔ ∃ m, s.man i = some m ∧ m.state = .bags := by
  rw [inBags_eq]
  cases s.man i <;> simp

theorem anyBags_iff (s : State) : s.anyBags = true ↔ ∃ i m, s.man i = some m ∧ m.state = .bags := by
  rw [State.anyBags, Bool.or_eq_true, inBags_iff, inBags_iff]
  constructor
  · rintro (⟨m, h⟩ | ⟨m, h⟩)
    · exact ⟨0, m, h⟩
    · exact ⟨1, m, h⟩
  · rintro ⟨i, m, h⟩
    fin_cases i
    · exact .inl ⟨m, h⟩
    · exact .inr ⟨m, h⟩

/-- Settles O19: the output is the condition of R148, a lock with the door open is LEFT-OPEN. -/
theorem outputRecomputed : Obligations.OutputRecomputed := by
  intro k s
  refine ⟨?_, recomputeDoor_of_lock_open k s, recomputeDoor_of_no_lock k s⟩
  rw [recomputeDoor_unlocked, State.shouldUnlock, Bool.and_eq_true, Bool.or_eq_true, anyBags_iff,
    Bool.not_eq_true', Option.isSome_iff_ne_none]

theorem overrideSet_taken {a : List Byte} {s : State} (hlen : a.length = 6) (hlock : s.auth.lockout = 0)
    (hcode : arg a 0 3 = s.auth.code) (hle : s.auth.code ≤ 999999) (hnew : arg a 3 3 ≤ 999999) :
    overrideSetEffect a s =
      .taken [1, 0] { s with auth := { s.auth with failures := 0, code := arg a 3 3 } } := by
  rw [overrideSetEffect, if_neg (not_not.mpr hlen), withAuthority_matched _ _ _ hlock hcode hle,
    if_neg (Nat.not_lt.mpr hnew)]
  rfl

theorem doorOpen_taken {a : List Byte} {s : State} (hlen : a.length = 4) (hlock : s.auth.lockout = 0)
    (hcode : arg a 0 3 = s.auth.code) (hle : s.auth.code ≤ 999999) (hlatch : s.ret.latch = false) :
    doorOpenEffect a s =
      .taken (let m := max 1 (min 30 (arg a 3 1))
        [byte m, boolByte (m != arg a 3 1)] ++ le 2 (m * 60) ++ [boolByte s.door.interval.isSome])
        { s.matched with
          door := { s.door with unlocked := true, interval := some (max 1 (min 30 (arg a 3 1)) * 60) } } := by
  have hunlocks (x : Nat) : ({ s.matched with door := { s.door with interval := some x } } : State).shouldUnlock =
      true := by
    simp [State.shouldUnlock, State.matched, hlatch]
  rw [doorOpenEffect, if_neg (not_not.mpr hlen), withAuthority_matched _ _ _ hlock hcode hle,
    if_neg (by simp [State.matched, hlatch])]
  exact congrArg (Answer.taken _) (recomputeDoor_unlocks .interval _ (hunlocks _))

theorem doorOpen_latched {a : List Byte} {s : State} (hlen : a.length = 4) (hlock : s.auth.lockout = 0)
    (hcode : arg a 0 3 = s.auth.code) (hle : s.auth.code ≤ 999999) (hlatch : s.ret.latch = true) :
    doorOpenEffect a s = .refused .state s.matched := by
  rw [doorOpenEffect, if_neg (not_not.mpr hlen), withAuthority_matched _ _ _ hlock hcode hle,
    if_pos (by simp [State.matched, hlatch])]

theorem doorLock_taken (s : State) : doorLockEffect [] s =
    .taken ([boolByte s.door.interval.isSome] ++ le 2 (s.door.interval.getD 0) ++
      [boolByte (!s.ret.latch && s.anyBags)])
      ({ s with door := { s.door with interval := none } }.recomputeDoor .interval) := by
  have hout : (s.dropInterval .interval).door.unlocked = (!s.ret.latch && s.anyBags) := by
    rw [State.dropInterval, recomputeDoor_unlocked]
    exact congrArg (!s.ret.latch && ·) (Bool.or_false _)
  rw [doorLockEffect, noArgs_nil]
  dsimp only
  rw [hout]
  rfl

/-- Settles O18: each door command is its effect on the authority unit and on the door. -/
theorem doorCommands : Obligations.DoorCommands := by
  intro n s a hs ha
  refine ⟨fun hlen hlock hcode hle hnew => ?_, fun hlen hlock hcode hle hlatch => ?_,
    fun hlen hlock hcode hle hlatch => ?_, fun h0 => ?_⟩
  · exact exec_takes .overrideSet n s hs ha (overrideSet_taken hlen hlock hcode hle hnew)
  · exact exec_takes .doorOpen n s hs ha (doorOpen_taken hlen hlock hcode hle hlatch)
  · exact exec_refuses .doorOpen n s hs ha (doorOpen_latched hlen hlock hcode hle hlatch)
  · subst h0
    refine exec_takes .doorLock n s hs ha ((doorLock_taken _).trans ?_)
    exact congrArg (Answer.taken _)
      (recomputeDoor_busyWith _ .interval { s with door := { s.door with interval := none } })

end Sys2Proof.Machine

namespace Sys2Proof.Machine

/-! ### Money and its settings (R7, R19, R23, R26) -/

theorem codes_any_iff (p : Code → Bool) : codes.any p = true ↔ ∃ c, p c = true := by
  rw [List.any_eq_true]
  exact ⟨fun ⟨c, _, h⟩ => ⟨c, h⟩, fun ⟨c, h⟩ => ⟨c, mem_codes c, h⟩⟩

theorem codes_any_eq_false (p : Code → Bool) : codes.any p = false ↔ ∀ c, p c = false := by
  rw [← Bool.not_eq_true, codes_any_iff]
  simp

theorem denomSet_taken {a : List Byte} {s : State} {c : Code} {k : DenomKind} {e : Bool} (hlen : a.length = 7)
    (hc : codeOf (arg a 0 1) = some c) (hk : denomKindOf (arg a 1 1) = some k)
    (he : boolOf (arg a 6 1) = some e) (hu : k ≠ .unused) (hlow : 1 ≤ arg a 2 4) (hhigh : arg a 2 4 ≤ 1000000)
    (hface : faceTaken s c (arg a 2 4) = false) (href : s.referenced c = false) :
    denomSetEffect a s = .taken ([byte c.val, byte k.value] ++ le 4 (arg a 2 4) ++ [boolByte e])
      { s with denoms := s.denoms.set c ⟨k, arg a 2 4, e⟩ } := by
  have hrange : ¬(k ≠ .unused ∧ (arg a 2 4 < 1 ∨ 1000000 < arg a 2 4)) := by omega
  have htaken : ¬(k ≠ .unused ∧ faceTaken s c (arg a 2 4) = true) := by simp [hface]
  simp only [denomSetEffect, hlen, ne_eq, not_true_eq_false, if_false, hc, hk, he]
  rw [if_neg hrange, if_neg htaken, if_neg (by simp [href]), if_neg hu]
  rfl

theorem denomSet_inUse {a : List Byte} {s : State} {c : Code} {k : DenomKind} {e : Bool} (hlen : a.length = 7)
    (hc : codeOf (arg a 0 1) = some c) (hk : denomKindOf (arg a 1 1) = some k)
    (he : boolOf (arg a 6 1) = some e) (hlow : 1 ≤ arg a 2 4) (hhigh : arg a 2 4 ≤ 1000000)
    (hface : faceTaken s c (arg a 2 4) = false) (href : s.referenced c = true) :
    denomSetEffect a s = .refused .inUse s := by
  have hrange : ¬(k ≠ .unused ∧ (arg a 2 4 < 1 ∨ 1000000 < arg a 2 4)) := by omega
  have htaken : ¬(k ≠ .unused ∧ faceTaken s c (arg a 2 4) = true) := by simp [hface]
  simp only [denomSetEffect, hlen, ne_eq, not_true_eq_false, if_false, hc, hk, he]
  rw [if_neg hrange, if_neg htaken, if_pos href]

theorem boolOf_of_le {n : Nat} (h : n ≤ 1) : ∃ e, boolOf n = some e := by
  obtain rfl | rfl : n = 0 ∨ n = 1 := by omega
  · exact ⟨false, rfl⟩
  · exact ⟨true, rfl⟩

theorem denomSet_unused {a : List Byte} {s : State} {c : Code} (hlen : a.length = 7)
    (hc : codeOf (arg a 0 1) = some c) (hk : arg a 1 1 = 0) (he : arg a 6 1 ≤ 1)
    (href : s.referenced c = false) :
    denomSetEffect a s = .taken ([byte c.val, 0] ++ le 4 0 ++ [0])
      { s with denoms := s.denoms.set c ⟨.unused, 0, false⟩ } := by
  obtain ⟨e, he⟩ := boolOf_of_le he
  have hk' : denomKindOf (arg a 1 1) = some .unused := by rw [hk]; rfl
  simp only [denomSetEffect, hlen, ne_eq, not_true_eq_false, if_false, hc, hk', he, false_and, href,
    Bool.false_eq_true, if_true]
  rfl

theorem sum_marks_zero (p q r u v w : Bool) :
    byte (mark 1 p + mark 2 q + mark 4 r + mark 8 u + mark 16 v + mark 32 w) = 0 ↔
      p = false ∧ q = false ∧ r = false ∧ u = false ∧ v = false ∧ w = false := by
  revert p q r u v w
  decide

/-- No mark of the clamp mask is set exactly when nothing was clamped (R19). -/
theorem clampMask_zero (w c : Limits) : byte (clampMask w c) = 0 ↔ c = w := by
  rw [clampMask, sum_marks_zero]
  cases w
  cases c
  simp only [bne_eq_false_iff_eq, Limits.mk.injEq]
  constructor
  · rintro ⟨rfl, rfl, rfl, rfl, rfl, rfl⟩
    exact ⟨rfl, rfl, rfl, rfl, rfl, rfl⟩
  · rintro ⟨rfl, rfl, rfl, rfl, rfl, rfl⟩
    exact ⟨rfl, rfl, rfl, rfl, rfl, rfl⟩

/-- The clamped limits, written out (R19). -/
theorem clamped_limitsArg (a : List Byte) : (limitsArg a).clamped =
    ⟨min 500 (arg a 0 2), min 1000000 (arg a 2 4),
      max (min 1000000 (arg a 2 4)) (min 2000000000 (arg a 6 4)), max 1 (min 1000000 (arg a 10 4)),
      max 1 (min 50000000 (arg a 14 4)), max 1 (min 2000000000 (arg a 18 4))⟩ := by
  simp only [limitsArg, Limits.clamped, clamp, Nat.zero_max]

theorem limitsSet_taken {a : List Byte} (s : State) (hlen : a.length = 22) : limitsSetEffect a s =
    .taken ((limitsArg a).clamped.bytes ++ [byte (clampMask (limitsArg a) (limitsArg a).clamped)])
      { s with limits := (limitsArg a).clamped } :=
  if_neg (not_not.mpr hlen)

theorem templateSet_taken {a : List Byte} {s : State} {l : TemplateIx} (hlen : a.length = 27)
    (hl : arg a 0 1 = l.val) (hslack : arg a 25 2 ≤ 50000)
    (hcodes : ∀ c : Code, arg a (1 + 2 * c.val) 2 ≠ 0 →
      s.denoms[c].kind ≠ .unused ∧ s.denoms[c].eligible = true) :
    templateSetEffect a s =
      let t : Template := ⟨tab fun c => arg a (1 + 2 * c.val) 2, arg a 25 2⟩
      .taken ([byte l.val] ++ (codes.flatMap fun c => le 2 t.targets[c]) ++ le 2 t.slack ++
          le 5 (sumCodes fun c => t.targets[c] * s.denoms[c].face))
        { s with templates := s.templates.set l t } := by
  have hl' : asFin 4 (arg a 0 1) = some l := by rw [hl, asFin_val]
  have hok : codes.any (fun c => ((tab fun c : Code => arg a (1 + 2 * c.val) 2)[c] != 0) &&
      ((s.denoms[c].kind == .unused) || !s.denoms[c].eligible)) = false := by
    rw [codes_any_eq_false]
    intro c
    rw [tab_get]
    by_cases h0 : arg a (1 + 2 * c.val) 2 = 0
    · simp [h0]
    · obtain ⟨hused, helig⟩ := hcodes c h0
      rw [beq_eq_false_iff_ne.mpr hused, helig]
      simp
  simp only [templateSetEffect, hlen, ne_eq, not_true_eq_false, if_false, hl', hok, Bool.false_eq_true,
    if_neg (Nat.not_lt.mpr hslack)]
  rfl

theorem tillSetup_closed {a : List Byte} {s : State} {t : TillIx} {on : Bool} {l : TemplateIx}
    (hlen : a.length = 7) (ht : tillOf (arg a 0 1) = some t) (hon : boolOf (arg a 1 1) = some on)
    (hl : arg a 2 1 = l.val) (hle : arg a 3 4 ≤ 2000000000) (hst : (s.till t).state = .closed) :
    tillSetupEffect a s = .taken ([byte (t.val + 1), boolByte on, byte l.val] ++ le 4 (arg a 3 4))
      (s.setTill t { s.till t with inService := on, template := l, threshold := arg a 3 4 }) := by
  have hl' : asFin 4 (arg a 2 1) = some l := by rw [hl, asFin_val]
  rw [tillSetupEffect, withTill_of hlen ht]
  simp only [hon, hl', hst, ne_eq, not_true_eq_false, if_false]
  exact if_neg (Nat.not_lt.mpr hle)

theorem tillSetup_refused {a : List Byte} {s : State} {t : TillIx} {on : Bool} {l : TemplateIx}
    (hlen : a.length = 7) (ht : tillOf (arg a 0 1) = some t) (hon : boolOf (arg a 1 1) = some on)
    (hl : arg a 2 1 = l.val) (hle : arg a 3 4 ≤ 2000000000) (hst : (s.till t).state ≠ .closed) :
    tillSetupEffect a s = .refused .state s := by
  have hl' : asFin 4 (arg a 2 1) = some l := by rw [hl, asFin_val]
  rw [tillSetupEffect, withTill_of hlen ht]
  simp only [hon, hl']
  rw [if_neg (show ¬ maxAmount < arg a 3 4 from Nat.not_lt.mpr hle), if_pos hst]

/-- Settles O20: each setting is its entry; what is referenced, or not CLOSED, stays. -/
theorem setupCommands : Obligations.SetupCommands := by
  intro n s a hs ha
  refine ⟨fun c k e hlen hc hk he hu hlow hhigh hface => ⟨fun href => ?_, fun href => ?_⟩,
    fun c hlen hc hk he href => ?_, fun hlen => ?_, fun l hlen hl hslack hcodes => ?_,
    fun t on l hlen ht hon hl hle => ⟨fun hst => ?_, fun hst => ?_⟩⟩
  · exact exec_takes .denomSet n s hs ha (denomSet_taken hlen hc hk he hu hlow hhigh hface href)
  · exact exec_refuses .denomSet n s hs ha (denomSet_inUse hlen hc hk he hlow hhigh hface href)
  · exact exec_takes .denomSet n s hs ha (denomSet_unused hlen hc hk he href)
  · refine ⟨byte (clampMask (limitsArg a) (limitsArg a).clamped), ?_, ?_⟩
    · have hrun := exec_takes .limitsSet n s hs ha (limitsSet_taken _ hlen)
        (t := { s with limits := (limitsArg a).clamped })
      rw [clamped_limitsArg] at hrun ⊢
      exact hrun
    · rw [clampMask_zero, clamped_limitsArg]
      rfl
  · exact exec_takes .templateSet n s hs ha (templateSet_taken hlen hl hslack hcodes)
  · exact exec_takes .tillSetup n s hs ha (tillSetup_closed hlen ht hon hl hle hst)
  · exact exec_refuses .tillSetup n s hs ha (tillSetup_refused hlen ht hon hl hle hst)

end Sys2Proof.Machine

namespace Sys2Proof.Machine

/-! ### The movements of the stock (R10) -/

theorem ne_zero_iff (k : Counts) : (k != Counts.zero) = true ↔ k ≠ ⟨0, 0, 0⟩ := bne_iff_ne

theorem touchesFrozen_iff (s : State) (k : Comp) : touchesFrozen s k = true ↔
    ∃ c : Code, k[c] ≠ ⟨0, 0, 0⟩ ∧ s.stock[c].frozen = true := by
  simp only [touchesFrozen, codes_any_iff, Bool.and_eq_true, ne_zero_iff]

theorem stockLacks_iff (s : State) (k : Comp) : stockLacks s k = true ↔
    ∃ c : Code, s.stock[c].counts.fit < k[c].fit ∨ s.stock[c].counts.unfit < k[c].unfit ∨
      s.stock[c].counts.suspect < k[c].suspect := by
  simp only [stockLacks, codes_any_iff, Bool.or_eq_true, decide_eq_true_eq, or_assoc]

theorem stockPasses_iff (s : State) (k : Comp) : stockPasses s k = true ↔
    ∃ c : Code, k[c] ≠ ⟨0, 0, 0⟩ ∧ (999999 < s.stock[c].counts.fit + k[c].fit ∨
      999999 < s.stock[c].counts.unfit + k[c].unfit ∨ 999999 < s.stock[c].counts.suspect + k[c].suspect) := by
  simp only [stockPasses, codes_any_iff, Bool.and_eq_true, Bool.or_eq_true, decide_eq_true_eq, or_assoc,
    ne_zero_iff]
  rfl

theorem moveOut_stock_get (k : Comp) (s : State) (c : Code) : (s.moveOut k).stock[c] =
    ⟨⟨s.stock[c].counts.fit - k[c].fit, s.stock[c].counts.unfit - k[c].unfit,
      s.stock[c].counts.suspect - k[c].suspect⟩, s.stock[c].frozen⟩ :=
  tab_get _ c

theorem moveIn_stock_get (k : Comp) (s : State) (c : Code) : (s.moveIn k).stock[c] =
    ⟨⟨s.stock[c].counts.fit + k[c].fit, s.stock[c].counts.unfit + k[c].unfit,
      s.stock[c].counts.suspect + k[c].suspect⟩, s.stock[c].frozen⟩ :=
  tab_get _ c

theorem refusals_of_frozen {s : State} {k : Comp} (h : touchesFrozen s k = true) :
    outRefusal s k = some .inUse ∧ inRefusal s k = some .inUse :=
  ⟨if_pos h, if_pos h⟩

theorem refusals_of_unfrozen {s : State} {k : Comp} (h : ¬ touchesFrozen s k = true) :
    (stockLacks s k = true → outRefusal s k = some .stock) ∧ (¬ stockLacks s k = true → outRefusal s k = none) ∧
      (stockPasses s k = true → inRefusal s k = some .limit) ∧
      (¬ stockPasses s k = true → inRefusal s k = none) := by
  refine ⟨fun g => ?_, fun g => ?_, fun g => ?_, fun g => ?_⟩
  · rw [outRefusal, if_neg h, if_pos g]
  · rw [outRefusal, if_neg h, if_neg g]
  · rw [inRefusal, if_neg h, if_pos g]
  · rw [inRefusal, if_neg h, if_neg g]

/-! ### FLOAT-ISSUE and FLOAT-CANCEL (R31, R32) -/

section
variable {a : List Byte} {s : State} {t : TillIx}

theorem floatIssue_eq (hlen : a.length = 1) (ht : tillOf (arg a 0 1) = some t) : floatIssueEffect a s =
    let tpl := s.templates[(s.till t).template]
    let b := floatBuild s tpl
    if (s.till t).inService = false ∨ (s.till t).state ≠ .closed then .refused .state s
    else if targetValue s.denoms tpl = 0 then .refused .argument s
    else if s.limits.ceiling < targetValue s.denoms tpl then .refused .limit s
    else if tpl.slack < b.carry ∨ fitValue s.denoms b.takes = 0 then .refused .stock s
    else .taken
      ([byte (t.val + 1), byte (mark 1 (b.carry != 0) + mark 2 (frozenRead s tpl))] ++
        le 4 (fitValue s.denoms b.takes) ++ le 4 b.carry ++ codes.flatMap fun c => le 2 b.takes[c])
      ((s.moveOut (Comp.ofFit b.takes)).setTill t
        { s.till t with issue := b.takes, f := fitValue s.denoms b.takes, state := .issued }) := by
  rw [floatIssueEffect, withTill_of hlen ht]
  rfl

theorem floatCancel_notIssued (hlen : a.length = 1) (ht : tillOf (arg a 0 1) = some t)
    (h : (s.till t).state ≠ .issued) : floatCancelEffect a s = .refused .state s := by
  rw [floatCancelEffect, withTill_of hlen ht]
  exact if_pos h

theorem floatCancel_refused {r : PortCode} (hlen : a.length = 1) (ht : tillOf (arg a 0 1) = some t)
    (h : (s.till t).state = .issued) (hr : inRefusal s (Comp.ofFit (s.till t).issue) = some r) :
    floatCancelEffect a s = .refused r s := by
  rw [floatCancelEffect, withTill_of hlen ht]
  dsimp only
  rw [if_neg (not_not.mpr h), hr]

theorem floatCancel_taken (hlen : a.length = 1) (ht : tillOf (arg a 0 1) = some t)
    (h : (s.till t).state = .issued) (hr : inRefusal s (Comp.ofFit (s.till t).issue) = none) :
    floatCancelEffect a s =
      .taken ([byte (t.val + 1)] ++ codes.flatMap fun c => le 2 (s.till t).issue[c])
        ((s.moveIn (Comp.ofFit (s.till t).issue)).setTill t (s.till t).retire) := by
  rw [floatCancelEffect, withTill_of hlen ht]
  dsimp only
  rw [if_neg (not_not.mpr h), hr]
  rfl

end

/-- Settles O21: the movements, and the two float commands in the order of their checks. -/
theorem floatCommands : Obligations.FloatCommands := by
  refine ⟨fun s k => ?_, fun n s t hs hlen ht => ⟨?_, fun h => ?_, fun r h hr => ?_, fun h hr => ?_⟩⟩
  · intro frozen lacks passes
    refine ⟨fun h => refusals_of_frozen ((touchesFrozen_iff s k).mpr h), fun h => ?_,
      fun c => ⟨moveOut_stock_get k s c, moveIn_stock_get k s c⟩, rfl, rfl⟩
    have hcases := refusals_of_unfrozen (mt (touchesFrozen_iff s k).mp h)
    rwa [stockLacks_iff, stockPasses_iff] at hcases
  · intro tpl b target value free
    have hnotfree : ((s.till t).inService = false ∨ (s.till t).state ≠ .closed) ↔ ¬ free := by
      simp only [free, not_and_or, Bool.not_eq_true]
    refine ⟨fun hf h0 hle hslack hv => exec_taken .floatIssue n s hs ?_,
      fun hf => exec_refused .floatIssue n s hs ?_, fun hf h0 => exec_refused .floatIssue n s hs ?_,
      fun hf h0 hgt => exec_refused .floatIssue n s hs ?_,
      fun hf h0 hle hbad => exec_refused .floatIssue n s hs ?_⟩
    all_goals refine (floatIssue_eq hlen ht).trans ?_
    · refine (if_neg (hnotfree.not.mpr (not_not.mpr hf))).trans ((if_neg h0).trans
        ((if_neg (Nat.not_lt.mpr hle)).trans (if_neg ?_)))
      exact not_or.mpr ⟨Nat.not_lt.mpr hslack, hv⟩
    · exact if_pos (hnotfree.mpr hf)
    · exact (if_neg (hnotfree.not.mpr (not_not.mpr hf))).trans (if_pos h0)
    · exact (if_neg (hnotfree.not.mpr (not_not.mpr hf))).trans ((if_neg h0).trans (if_pos hgt))
    · exact (if_neg (hnotfree.not.mpr (not_not.mpr hf))).trans ((if_neg h0).trans
        ((if_neg (Nat.not_lt.mpr hle)).trans (if_pos hbad)))
  · exact exec_refused .floatCancel n s hs (floatCancel_notIssued hlen ht h)
  · exact exec_refused .floatCancel n s hs (floatCancel_refused hlen ht h hr)
  · exact exec_taken .floatCancel n s hs (floatCancel_taken hlen ht h hr)

/-! ### The float build (R30) -/

theorem insertFace_perm (d : Vector Denom 12) (c : Code) (l : List Code) : (insertFace d c l).Perm (c :: l) := by
  induction l with
  | nil => exact List.Perm.refl _
  | cons x r ih =>
    unfold insertFace
    split
    · exact List.Perm.refl _
    · exact (ih.cons x).trans (List.Perm.swap c x r)

/-- Descending order of face (R30). -/
def descends (d : Vector Denom 12) (l : List Code) : Prop := l.Pairwise fun x y => d[y].face ≤ d[x].face

theorem insertFace_descends (d : Vector Denom 12) (c : Code) (l : List Code) (h : descends d l) :
    descends d (insertFace d c l) := by
  induction l with
  | nil => exact List.pairwise_singleton _ c
  | cons x r ih =>
    obtain ⟨hx, hr⟩ := List.pairwise_cons.mp h
    unfold insertFace
    split
    · next hlt =>
      refine List.pairwise_cons.mpr ⟨fun y hy => ?_, h⟩
      obtain rfl | hy := List.mem_cons.mp hy
      · exact Nat.le_of_lt hlt
      · exact Nat.le_trans (hx y hy) (Nat.le_of_lt hlt)
    · next hge =>
      refine List.pairwise_cons.mpr ⟨fun y hy => ?_, ih hr⟩
      obtain rfl | hy := List.mem_cons.mp ((insertFace_perm d c r).mem_iff.mp hy)
      · exact Nat.not_lt.mp hge
      · exact hx y hy

theorem insertFaces_spec (d : Vector Denom 12) (l : List Code) :
    (l.foldr (insertFace d) []).Perm l ∧ descends d (l.foldr (insertFace d) []) := by
  induction l with
  | nil => exact ⟨List.Perm.refl _, List.Pairwise.nil⟩
  | cons x r ih =>
    obtain ⟨hperm, hdesc⟩ := ih
    exact ⟨(insertFace_perm d x _).trans (hperm.cons x), insertFace_descends d x _ hdesc⟩

theorem codes_nodup : codes.Nodup := by decide

/-- The walk of a build: the codes with a target, each once, in descending order of face (R30). -/
theorem walkOrder_spec (d : Vector Denom 12) (t : Template) :
    (walkOrder d t).Nodup ∧ (∀ c : Code, c ∈ walkOrder d t ↔ t.targets[c] ≠ 0) ∧ descends d (walkOrder d t) := by
  obtain ⟨hperm, hdesc⟩ := insertFaces_spec d (codes.filter fun c => t.targets[c] != 0)
  refine ⟨hperm.nodup_iff.mpr (codes_nodup.filter _), fun c => ?_, hdesc⟩
  rw [walkOrder, hperm.mem_iff, List.mem_filter, bne_iff_ne]
  exact and_iff_right (mem_codes c)

theorem set_get_self {α : Type} (v : Vector α 12) (c : Code) (x : α) : (v.set c x)[c] = x := by
  simp

theorem set_get_of_ne {α : Type} (v : Vector α 12) {c d : Code} (x : α) (h : d ≠ c) : (v.set c x)[d] = v[d] := by
  have hne : c.val ≠ d.val := fun e => h (Fin.ext e.symm)
  simp [hne]

/-- The arithmetic of one take: whole units, as many as the limits allow (R30). -/
theorem take_spec (want face top : Nat) (hface : 0 < face) :
    let take := min (min 65535 (want / face)) top
    take * face + (want - take * face) = want ∧
      (take = 65535 ∨ take = top ∨ want - take * face < face) := by
  intro take
  have hunits : take ≤ want / face := (min_le_left _ _).trans (min_le_right _ _)
  have hle : take * face ≤ want := (Nat.mul_le_mul_right face hunits).trans (Nat.div_mul_le_self want face)
  refine ⟨Nat.add_sub_cancel' hle, ?_⟩
  by_cases htop : take = top
  · exact .inr (.inl htop)
  by_cases hmax : take = 65535
  · exact .inl hmax
  have hexact : take = want / face := by omega
  refine .inr (.inr ?_)
  have hmod := Nat.mod_lt want hface
  have hsplit := Nat.div_add_mod' want face
  rw [hexact]
  omega

/-- Settles O22: the walk is the sorted codes with a target, and each step takes what R30 says. -/
theorem floatBuildStep : Obligations.FloatBuildStep := by
  refine ⟨fun s t => ?_, fun s t b c => ?_⟩
  · obtain ⟨hnodup, hmem, hdesc⟩ := walkOrder_spec s.denoms t
    exact ⟨walkOrder s.denoms t, hnodup, hmem, hdesc, rfl⟩
  · intro face want stock b'
    have htakes : b'.takes[c] = min (min 65535 (want / face)) stock := set_get_self _ c _
    have hcarry : b'.carry = want - min (min 65535 (want / face)) stock * face := rfl
    rw [htakes, hcarry]
    refine ⟨fun hf => (take_spec want face stock hf).1, min_le_right _ _,
      (min_le_left _ _).trans (min_le_left _ _), fun hf => (take_spec want face stock hf).2, fun d hd => ?_⟩
    exact set_get_of_ne _ _ hd

end Sys2Proof.Machine

namespace Sys2Proof.Machine

/-! ### A raise of a call, by its outcome (R43) -/

theorem raiseOutcome_of_has {s : State} {t : TillIx} {k : CallKind} (h : s.hasCall t k = true) :
    s.raiseOutcome t k = .merged := if_pos h

theorem raiseOutcome_of_room {s : State} {t : TillIx} {k : CallKind} (h : s.hasCall t k = false)
    (hroom : s.calls.length < 32) : s.raiseOutcome t k = .added := by
  rw [State.raiseOutcome, if_neg (by simp [h]), if_pos hroom]

theorem raiseOutcome_of_full {s : State} {t : TillIx} {k : CallKind} (h : s.hasCall t k = false)
    (hfull : 32 ≤ s.calls.length) : s.raiseOutcome t k = .noRoom := by
  rw [State.raiseOutcome, if_neg (by simp [h]), if_neg (Nat.not_lt.mpr hfull)]

/-- A merge of a call that carries no amount changes nothing (R43). -/
theorem mergeCall_of_not_skim {k : CallKind} (hk : k ≠ .skim) (t : TillIx) (o : Option Nat) (s : State) :
    s.mergeCall t k o = s := by
  simp only [State.mergeCall, hk, decide_false, Bool.and_false, Bool.false_eq_true, if_false, List.map_id']

theorem raiseCall_of_has {s : State} {t : TillIx} {k : CallKind} (hk : k ≠ .skim) (h : s.hasCall t k = true)
    (o : Option Nat) : s.raiseCall t k o = s := by
  rw [State.raiseCall, raiseOutcome_of_has h]
  exact mergeCall_of_not_skim hk t o s

theorem raiseCall_of_room {s : State} {t : TillIx} {k : CallKind} (h : s.hasCall t k = false)
    (hroom : s.calls.length < 32) (o : Option Nat) :
    s.raiseCall t k o = State.raise .call { s with calls := s.calls ++ [⟨t, k, o, s.stamp⟩] } := by
  rw [State.raiseCall, raiseOutcome_of_room h hroom]

theorem raiseCall_of_full {s : State} {t : TillIx} {k : CallKind} (h : s.hasCall t k = false)
    (hfull : 32 ≤ s.calls.length) (o : Option Nat) : s.raiseCall t k o = s := by
  rw [State.raiseCall, raiseOutcome_of_full h hfull]

/-! ### TILL-OPEN, TOPUP-ISSUE and TILL-CLOSE (R33, R34, R37) -/

section
variable {a : List Byte} {s : State} {t : TillIx}

theorem tillOpen_taken (hlen : a.length = 1) (ht : tillOf (arg a 0 1) = some t) (h : (s.till t).state = .issued) :
    tillOpenEffect a s = .taken ([byte (t.val + 1), 2] ++ le 4 (s.till t).f)
      (s.setTill t { s.till t with state := .trading }) := by
  rw [tillOpenEffect, withTill_of hlen ht]
  exact if_neg (not_not.mpr h)

theorem tillOpen_refused (hlen : a.length = 1) (ht : tillOf (arg a 0 1) = some t) (h : (s.till t).state ≠ .issued) :
    tillOpenEffect a s = .refused .state s := by
  rw [tillOpenEffect, withTill_of hlen ht]
  exact if_pos h

/-- The arguments of a TOPUP-ISSUE that pass its checks on the lines (R34). -/
def topupArgs (a : List Byte) (s : State) (l : List DeclLine) : Prop :=
  topupLength a = true ∧ readLines s.denoms (linePairs (a.drop 2)) = some l ∧
    l.any (fun x => !s.denoms[x.code].eligible) = false ∧ l.all (fun x => x.count == 0) = false

theorem topupArgs_of {l : List DeclLine} (h1 : 1 ≤ arg a 1 1) (h2 : arg a 1 1 ≤ 12)
    (hlen : a.length = 2 + 3 * arg a 1 1) (hl : readLines s.denoms (linePairs (a.drop 2)) = some l)
    (he : ∀ x ∈ l, s.denoms[x.code].eligible = true) (hn : ∃ x ∈ l, x.count ≠ 0) : topupArgs a s l := by
  refine ⟨?_, hl, ?_, ?_⟩
  · simp only [topupLength, Bool.and_eq_true, decide_eq_true_eq]
    omega
  · rw [List.any_eq_false]
    intro x hx
    rw [he x hx]
    decide
  · obtain ⟨x, hx, hx0⟩ := hn
    rw [List.all_eq_false]
    exact ⟨x, hx, by simpa using hx0⟩

theorem topupIssue_refused {l : List DeclLine} (ht : tillOf (arg a 0 1) = some t) (ha : topupArgs a s l)
    (h : (s.till t).state ≠ .trading) : topupIssueEffect a s = .refused .state s := by
  obtain ⟨hlen, hl, helig, hcount⟩ := ha
  simp only [topupIssueEffect, hlen, ht, hl, helig, hcount, Bool.true_eq_false, Bool.false_eq_true, if_false,
    if_pos h]

theorem topupIssue_taken {l : List DeclLine} (ht : tillOf (arg a 0 1) = some t) (ha : topupArgs a s l)
    (h : (s.till t).state = .trading) (hout : outRefusal s (Comp.ofFit (lineCounts l)) = none)
    (hcounts : ∀ c : Code, (s.till t).issue[c] + (lineCounts l)[c] ≤ 65535)
    (hceiling : (s.till t).f + fitValue s.denoms (lineCounts l) ≤ s.limits.ceiling) :
    topupIssueEffect a s =
      let v := lineCounts l
      let till := { s.till t with
        issue := tab fun c => (s.till t).issue[c] + v[c], f := (s.till t).f + fitValue s.denoms v }
      .taken (byte (t.val + 1) :: (le 4 (fitValue s.denoms v) ++ le 4 till.f ++ leInt 4 till.drawer ++
          [boolByte (s.hasCall t .topup)]))
        (((s.moveOut (Comp.ofFit v)).setTill t till).removeCall t .topup) := by
  obtain ⟨hlen, hl, helig, hcount⟩ := ha
  have hroom : codes.any (fun c => decide (maxCount < (s.till t).issue[c] + (lineCounts l)[c])) = false := by
    rw [codes_any_eq_false]
    exact fun c => decide_eq_false (Nat.not_lt.mpr (hcounts c))
  simp only [topupIssueEffect, hlen, ht, hl, helig, hcount, Bool.true_eq_false, Bool.false_eq_true, if_false,
    if_neg (not_not.mpr h), hout, hroom, if_neg (Nat.not_lt.mpr hceiling)]

/-- The queue without the SKIM and the TOPUP of a till (R37). -/
def callsAfterClose (t : TillIx) (l : List CallEntry) : List CallEntry :=
  l.filter fun e => !(decide (e.till = t) && (decide (e.kind = .skim) || decide (e.kind = .topup)))

theorem filter_closing (t : TillIx) (l : List CallEntry) :
    (l.filter fun e => !e.isFor t .skim).filter (fun e => !e.isFor t .topup) = callsAfterClose t l := by
  rw [List.filter_filter, callsAfterClose]
  congr 1
  funext e
  unfold CallEntry.isFor
  cases decide (e.till = t) <;> cases decide (e.kind = .skim) <;> cases decide (e.kind = .topup) <;> rfl

/-- A till in CLOSING with its SKIM and its TOPUP gone, before its COLLECT (R37). -/
def State.closing (t : TillIx) (s : State) : State :=
  { s.setTill t { s.till t with state := .closing } with calls := callsAfterClose t s.calls }

theorem removeCalls_closing (t : TillIx) (s : State) :
    ((s.setTill t { s.till t with state := .closing }).removeCall t .skim).removeCall t .topup = s.closing t :=
  congrArg (fun l => { s.setTill t { s.till t with state := .closing } with calls := l }) (filter_closing t s.calls)

/-- The COLLECT of a till stays when its SKIM and its TOPUP go. -/
theorem closing_hasCall (t : TillIx) (s : State) : (s.closing t).hasCall t .collect = s.hasCall t .collect := by
  rw [Bool.eq_iff_iff]
  simp only [State.hasCall, State.closing, callsAfterClose, List.any_eq_true, List.mem_filter, CallEntry.isFor,
    Bool.and_eq_true, decide_eq_true_eq]
  constructor
  · rintro ⟨e, ⟨hmem, -⟩, he⟩
    exact ⟨e, hmem, he⟩
  · rintro ⟨e, hmem, htill, hkind⟩
    exact ⟨e, ⟨hmem, by simp [hkind]⟩, htill, hkind⟩

theorem tillClose_refused (hlen : a.length = 1) (ht : tillOf (arg a 0 1) = some t)
    (h : (s.till t).state ≠ .trading) : tillCloseEffect a s = .refused .state s := by
  rw [tillCloseEffect, withTill_of hlen ht]
  exact if_pos h

theorem tillClose_eq (hlen : a.length = 1) (ht : tillOf (arg a 0 1) = some t) (h : (s.till t).state = .trading) :
    tillCloseEffect a s =
      let out := (s.closing t).raiseOutcome t .collect
      let u := (s.closing t).raiseCall t .collect none
      .taken (byte (t.val + 1) :: (leInt 4 (s.till t).drawer ++
          [byte (mark 1 (s.hasCall t .skim) + mark 2 (s.hasCall t .topup) + mark 4 (out == .added))]))
        (if out = .noRoom then u.loseCall else u) := by
  rw [tillCloseEffect, withTill_of hlen ht]
  dsimp only
  rw [if_neg (not_not.mpr h), removeCalls_closing]

/-- The reply of a TILL-CLOSE with its queued mark (R37). -/
def closeReply (s : State) (t : TillIx) (queued : Nat) : List Byte :=
  byte (t.val + 1) :: (leInt 4 (s.till t).drawer ++
    [byte (mark 1 (s.hasCall t .skim) + mark 2 (s.hasCall t .topup) + queued)])

theorem tillClose_added (hlen : a.length = 1) (ht : tillOf (arg a 0 1) = some t) (h : (s.till t).state = .trading)
    (hno : s.hasCall t .collect = false) (hroom : (callsAfterClose t s.calls).length < 32) :
    tillCloseEffect a s = .taken (closeReply s t 4) (State.raise .call
      { s.closing t with calls := callsAfterClose t s.calls ++ [⟨t, .collect, none, s.stamp⟩] }) := by
  have hno' : (s.closing t).hasCall t .collect = false := (closing_hasCall t s).trans hno
  rw [tillClose_eq hlen ht h]
  dsimp only
  rw [raiseOutcome_of_room hno' hroom, raiseCall_of_room hno' hroom]
  rfl

theorem tillClose_lost (hlen : a.length = 1) (ht : tillOf (arg a 0 1) = some t) (h : (s.till t).state = .trading)
    (hno : s.hasCall t .collect = false) (hfull : 32 ≤ (callsAfterClose t s.calls).length) :
    tillCloseEffect a s = .taken (closeReply s t 0) (s.closing t).loseCall := by
  have hno' : (s.closing t).hasCall t .collect = false := (closing_hasCall t s).trans hno
  rw [tillClose_eq hlen ht h]
  dsimp only
  rw [raiseOutcome_of_full hno' hfull, raiseCall_of_full hno' hfull]
  rfl

theorem tillClose_merged (hlen : a.length = 1) (ht : tillOf (arg a 0 1) = some t) (h : (s.till t).state = .trading)
    (hhas : s.hasCall t .collect = true) :
    tillCloseEffect a s = .taken (closeReply s t 0) (s.closing t) := by
  have hhas' : (s.closing t).hasCall t .collect = true := (closing_hasCall t s).trans hhas
  rw [tillClose_eq hlen ht h]
  dsimp only
  rw [raiseOutcome_of_has hhas', raiseCall_of_has (by decide) hhas']
  rfl

end

/-- Settles O23: the three commands by the state of the till. -/
theorem tradingCommands : Obligations.TradingCommands := by
  intro n s a t hs ha ht
  refine ⟨fun hlen h => ?_, fun hlen h => ?_, fun l h1 h2 hlen hl he hn => ⟨fun h => ?_, fun h => ?_⟩,
    fun hlen h => ⟨fun hno hroom => ?_, fun hno hfull => ?_, fun hhas => ?_⟩, fun hlen h => ?_⟩
  · exact exec_takes .tillOpen n s hs ha (tillOpen_taken hlen ht h)
  · exact exec_refuses .tillOpen n s hs ha (tillOpen_refused hlen ht h)
  · exact exec_refuses .topupIssue n s hs ha (topupIssue_refused ht (topupArgs_of h1 h2 hlen hl he hn) h)
  · intro v value hout hcounts hceiling
    exact exec_takes .topupIssue n s hs ha
      (topupIssue_taken ht (topupArgs_of h1 h2 hlen hl he hn) h hout hcounts hceiling)
  · exact exec_takes .tillClose n s hs ha (tillClose_added hlen ht h hno hroom)
  · exact exec_takes .tillClose n s hs ha (tillClose_lost hlen ht h hno hfull)
  · exact exec_takes .tillClose n s hs ha (tillClose_merged hlen ht h hhas)
  · exact exec_refuses .tillClose n s hs ha (tillClose_refused hlen ht h)

/-! ### The reconciliation (R88, R89) and POS-CASH (R35, R36, R95) -/

theorem classify_balanced_iff (v : Int) (tol : Nat) : classify v tol = .balanced ↔ -(tol : Int) ≤ v ∧ v ≤ tol := by
  unfold classify
  split
  · simp; omega
  split
  · simp; omega
  · simp; omega

theorem classify_over_iff (v : Int) (tol : Nat) : classify v tol = .over ↔ (tol : Int) < v := by
  unfold classify
  split
  · simp; omega
  split
  · simp; omega
  · simp; omega

theorem classify_short_iff (v : Int) (tol : Nat) : classify v tol = .short ↔ v < -(tol : Int) := by
  unfold classify
  split
  · simp; omega
  split
  · simp; omega
  · simp; omega

/-- Settles O24: a judgement is its five figures, and the class follows the variance. -/
theorem reconciliationArithmetic : Obligations.ReconciliationArithmetic := by
  intro r l t exact e v base raw tol q
  have hbase : base = e.toNat := by
    show (if 0 ≤ e then e.toNat else 0) = e.toNat
    split <;> omega
  have htol : q.tol = tol := by
    show min l.cap (max l.floor ((e.toNat * l.basisPoints + 5000) / 10000)) = tol
    rw [← hbase]
  have hcls : q.cls = classify v tol := by
    rw [← htol]
    rfl
  refine ⟨rfl, rfl, htol, decide_eq_true_iff, ?_, ?_, ?_, rfl, fun hle => ?_⟩
  · rw [hcls, classify_balanced_iff]
  · rw [hcls, classify_over_iff]
  · rw [hcls, classify_short_iff]
  · rw [htol]
    exact ⟨le_min hle (le_max_left _ _), min_le_left _ _⟩

section
variable {a : List Byte} {s : State} {t : TillIx}

/-- A till after a posting of cash, before its reconciliation (R35). -/
def Till.posted (t : Till) (cashIn cashOut : Nat) : Till := { t with s := t.s + cashIn, r := t.r + cashOut }

theorem posCash_eq (hlen : a.length = 9) (ht : tillOf (arg a 0 1) = some t) (hin : arg a 1 4 ≤ 2000000000)
    (hout : arg a 5 4 ≤ 2000000000) : posCashEffect a s =
      if (s.till t).state = .closed ∨ (s.till t).state = .issued then .refused .state s
      else if maxAmount < (s.till t).s + arg a 1 4 ∨ maxAmount < (s.till t).r + arg a 5 4 then .refused .limit s
      else
        let t1 := (s.till t).posted (arg a 1 4) (arg a 5 4)
        let t2 := t1.afterPosting s.limits
        .taken ([byte (t.val + 1), byte t2.state.value] ++ le 4 t1.s ++ le 4 t1.r ++ leInt 4 t1.drawer ++
          recomputedBytes s.limits t1) (s.setTill t t2) := by
  rw [posCashEffect, withTill_of hlen ht]
  exact if_neg (not_or.mpr ⟨Nat.not_lt.mpr hin, Nat.not_lt.mpr hout⟩)

theorem afterPosting_of_not_counted (l : Limits) {x : Till} (h : x.state ≠ .counted) :
    x.afterPosting l = x ∧ recomputedBytes l x = 0 :: List.replicate 14 0 := by
  unfold Till.afterPosting recomputedBytes
  cases hst : x.state
  case counted => exact absurd hst h
  all_goals exact ⟨rfl, rfl⟩

theorem afterPosting_of_counted (l : Limits) {x : Till} {r : LastResult} (h : x.state = .counted)
    (hr : x.result = some r) :
    x.afterPosting l = (if (r.judge l x).cls = .balanced then { x with result := some (r.judge l x) }.retire
      else { x with result := some (r.judge l x) }) ∧
    recomputedBytes l x = 1 :: (r.judge l x).judgeBytes := by
  unfold Till.afterPosting recomputedBytes
  rw [h, hr]
  exact ⟨rfl, rfl⟩

end

/-- Settles O25: a posting is refused by state and by limit, and is judged again in COUNTED. -/
theorem posCashPosts : Obligations.PosCashPosts := by
  intro n s a t hs ha hlen ht hin hout
  refine ⟨fun h => exec_refuses .posCash n s hs ha ?_, fun h1 h2 hbig => exec_refuses .posCash n s hs ha ?_,
    fun hs1 hr1 => ⟨fun h => exec_takes .posCash n s hs ha ?_, fun r h hr => exec_takes .posCash n s hs ha ?_⟩⟩
  all_goals refine (posCash_eq hlen ht hin hout).trans ?_
  · exact if_pos h
  · exact (if_neg (not_or.mpr ⟨h1, h2⟩)).trans (if_pos hbig)
  · have hfree : ¬((s.till t).state = .closed ∨ (s.till t).state = .issued) := by
      obtain h | h | h := h <;> rw [h] <;> decide
    have hstate : ((s.till t).posted (arg a 1 4) (arg a 5 4)).state ≠ .counted := by
      show (s.till t).state ≠ _
      obtain h | h | h := h <;> rw [h] <;> decide
    obtain ⟨hafter, hbytes⟩ := afterPosting_of_not_counted s.limits hstate
    refine (if_neg hfree).trans ((if_neg (not_or.mpr ⟨Nat.not_lt.mpr hs1, Nat.not_lt.mpr hr1⟩)).trans ?_)
    simp only [busyWith_till, busyWith_limits]
    rw [hafter, hbytes]
    rfl
  · have hfree : ¬((s.till t).state = .closed ∨ (s.till t).state = .issued) := by
      rw [h]
      decide
    obtain ⟨hafter, hbytes⟩ := afterPosting_of_counted s.limits
      (x := (s.till t).posted (arg a 1 4) (arg a 5 4)) h hr
    refine (if_neg hfree).trans ((if_neg (not_or.mpr ⟨Nat.not_lt.mpr hs1, Nat.not_lt.mpr hr1⟩)).trans ?_)
    simp only [busyWith_till, busyWith_limits]
    rw [hafter, hbytes, LastResult.judgeBytes]
    simp only [List.append_assoc, List.cons_append, List.nil_append]
    rfl

end Sys2Proof.Machine

namespace Sys2Proof.Machine

/-! ### The state after reset -/

theorem reset_till (t : TillIx) : State.reset.till t = Till.cold := by
  simp [State.reset, State.till]

theorem reset_lane (i : LaneIx) : State.reset.lane i = Lane.unprofiled := by
  simp [State.reset, State.lane]

theorem reset_stock (c : Code) : State.reset.stock[c] = StockEntry.empty := by
  simp [State.reset]

theorem reset_denoms (c : Code) : State.reset.denoms[c] = Denom.unusedEntry := by
  simp [State.reset]

theorem reset_templates (l : TemplateIx) : State.reset.templates[l] = Template.cold := by
  simp [State.reset]

theorem reset_comps (c : CompIx) : State.reset.rack.comps[c] = [] := by
  show (Vector.replicate 4 ([] : List BagIx))[c] = []
  simp

theorem reset_balanceLaw : State.reset.balanceLaw := by
  have hstock : State.reset.stockValue = 0 := by decide +kernel
  have hfloats : State.reset.floatsOut = 0 := by decide +kernel
  have hbags : State.reset.bagValue = 0 := by decide +kernel
  unfold State.balanceLaw
  rw [hstock, hfloats, hbags]
  rfl

theorem reset_tillsOk : State.reset.tillsOk State.reset.denoms := by
  intro t
  rw [reset_till]
  exact ⟨(fitValue_zero _).symm, fun h => absurd h (by decide)⟩

theorem reset_rackLaw : State.reset.rackLaw := startBroken_rackLaw State.reset

theorem reset_officeLaw : State.reset.officeLaw := by
  obtain ⟨hf, hk⟩ := (tillsOk_iff _).mp reset_tillsOk
  refine ⟨reset_balanceLaw, hf, hk, fun b x h => ?_, boundLaw_unprofiled _ rfl, reset_rackLaw⟩
  rw [reset_bag] at h
  exact absurd h (by simp)

theorem reset_listsLaw : State.reset.listsLaw := by
  refine ⟨by decide, fun i m c h => ?_, fun i m d h => ?_, fun b x h => ?_, fun i x h => ?_⟩
  · rw [reset_man] at h
    exact absurd h (by simp)
  · rw [reset_man] at h
    exact absurd h (by simp)
  · rw [reset_bag] at h
    exact absurd h (by simp)
  · rw [reset_lane] at h
    exact absurd h (by simp [Lane.unprofiled])

/-- Settles O60: after reset every table is empty. -/
theorem lawsAtReset : Obligations.LawsAtReset := by
  have hwrongs : ∀ i m, State.reset.man i = some m → m.wrongOk := fun i m h => by
    rw [reset_man] at h
    exact absurd h (by simp)
  refine ⟨reset_balanceLaw, doorLaw_of_locked _ rfl rfl (by decide +kernel),
    ⟨Nat.zero_le _, List.Pairwise.nil⟩, ⟨Nat.zero_le _, Nat.zero_le _⟩,
    ⟨Nat.zero_le _, Nat.zero_le _, hwrongs⟩, reset_officeLaw, reset_rackLaw, reset_listsLaw, Nat.zero_le _⟩

/-- Settles O2: each field of the state after reset, and each entry of its tables. -/
theorem resetState : Obligations.ResetState := by
  have htill (t : TillIx) : (State.reset.till t).inService = false ∧ (State.reset.till t).template = 0 ∧
      (State.reset.till t).threshold = 0 ∧ (State.reset.till t).state = .closed ∧ (State.reset.till t).f = 0 ∧
      (State.reset.till t).s = 0 ∧ (State.reset.till t).r = 0 ∧ (State.reset.till t).p = 0 ∧
      (State.reset.till t).pickups = 0 ∧ (State.reset.till t).lane = none ∧ (State.reset.till t).result = none ∧
      ∀ c : Code, (State.reset.till t).issue[c] = 0 := by
    rw [reset_till]
    refine ⟨rfl, rfl, rfl, rfl, rfl, rfl, rfl, rfl, rfl, rfl, rfl, fun c => ?_⟩
    show (Vector.replicate 12 0)[c] = 0
    simp
  have htemplate (l : TemplateIx) : State.reset.templates[l].slack = 0 ∧
      ∀ c : Code, State.reset.templates[l].targets[c] = 0 := by
    rw [reset_templates]
    refine ⟨rfl, fun c => ?_⟩
    show (Vector.replicate 12 0)[c] = 0
    simp
  exact ⟨fun c => ⟨reset_denoms c, reset_stock c⟩, rfl, rfl, htemplate, htill, rfl, rfl, rfl, reset_lane, rfl,
    reset_bag, reset_comps, rfl, rfl, rfl, rfl, reset_man 0, reset_man 1, rfl, rfl, rfl, rfl, rfl, rfl, rfl, rfl,
    rfl, rfl, rfl, rfl, rfl, rfl, rfl⟩

/-! ### The law of the office balance, kept by every step -/

/-- The law with the records it rests on as they stood, the sessions and the manifests by laws of their own. -/
theorem officeLaw_of (s u : State) (h : s.officeLaw) (hb : u.boundLaw) (hL : u.rackLaw)
    (h1 : u.denoms = s.denoms) (h2 : u.stock = s.stock) (h3 : u.tills = s.tills) (h4 : u.bags = s.bags)
    (h5 : u.balance = s.balance) : u.officeLaw := by
  obtain ⟨hB, hf, hk, hF, -, -⟩ := h
  have hT : u.tillsOk u.denoms := by
    rw [h1]
    exact tillsOk_congr _ s u h3 ((tillsOk_iff s).mpr ⟨hf, hk⟩)
  obtain ⟨hf', hk'⟩ := (tillsOk_iff u).mp hT
  refine ⟨balanceLaw_congr s u h1 h2 h3 h4 h5 hB, hf', hk', ?_, hb, hL⟩
  unfold State.figuresLaw State.bag at *
  rw [h1, h4]
  exact hF

/-- A change of the lanes and the port alone needs the law of the sessions alone. -/
theorem officeLaw_of_lanesPort {s u : State} (h : s.officeLaw) (hb : u.boundLaw)
    (e : ∃ l p, u = { s with lanes := l, port := p }) : u.officeLaw := by
  obtain ⟨l, p, rfl⟩ := e
  exact officeLaw_congr s _ h hb rfl rfl rfl rfl rfl rfl rfl

theorem officeLaw_startBroken (s : State) : s.startBroken.officeLaw :=
  officeLaw_congr State.reset _ reset_officeLaw (boundLaw_unprofiled _ rfl) rfl rfl rfl rfl rfl rfl rfl

theorem officeLaw_expireSlot (i : SlotIx) (s : State) (h : s.officeLaw) : (s.expireSlot i).officeLaw := by
  have hL := rackLaw_kept.expiry i s h.2.2.2.2.2
  have hb := h.2.2.2.2.1
  obtain ⟨m, d, p, e⟩ := expireSlot_frame i s
  rw [e] at hL ⊢
  exact officeLaw_of s _ h (boundLaw_congr s _ rfl rfl hb) hL rfl rfl rfl rfl rfl

theorem State.officeLaw.bound {s : State} (h : s.officeLaw) : s.boundLaw := h.2.2.2.2.1

/-- Every effect and event keeps the law of the office balance with the laws it rests on. -/
theorem officeLaw_kept : Kept State.officeLaw where
  port _ _ _ h := h
  own _ _ _ _ _ _ _ _ h := h
  awake _ h := h
  deep _ h := h
  command b c s h := by
    have he := effect_officeLaw c s.port.args s h
    generalize effect c s.port.args s = x at he
    cases x <;> exact he
  reset := officeLaw_pinReset
  supply := officeLaw_supplyEffects
  cold b s h := by
    unfold coldPowerUp
    split
    · exact officeLaw_startIntact s h
    · exact officeLaw_startBroken s
  door o s h := by
    obtain ⟨_, _, e⟩ := judgeDoor_frame o s
    rw [e]
    exact h
  second s h := officeLaw_congr s _ h (boundLaw_second s h.bound) rfl rfl rfl rfl rfl rfl rfl
  minute _ h := h
  error e i s h := officeLaw_of_lanesPort h (boundLaw_laneError e i s h.bound) (laneError_frame e i s)
  hello i m z s h := officeLaw_of_lanesPort h (boundLaw_takeHello i m z s h.bound) (takeHello_frame i m z s)
  batch i q c k s h := officeLaw_of_lanesPort h (boundLaw_takeBatch i q c k s h.bound) (takeBatch_frame i q c k s)
  endFeed i q s h := officeLaw_of_lanesPort h (boundLaw_takeEndFeed i q s h.bound) (takeEndFeed_frame i q s)
  holdAck i s h := officeLaw_of_lanesPort h (boundLaw_takeHoldAck i s h.bound) (takeHoldAck_frame i s)
  jam i j s h := officeLaw_of_lanesPort h (boundLaw_takeJam i j s h.bound) (takeJam_frame i j s)
  receiver i r s h := officeLaw_of_lanesPort h (boundLaw_setLane i _ s h.bound (.inl rfl)) ⟨_, s.port, rfl⟩
  sent i s h := officeLaw_of_lanesPort h
    (boundLaw_setLane i _ s h.bound (.inl (congrArg _ (frameEnd_session _)))) ⟨_, s.port, rfl⟩
  interval s h := by
    obtain ⟨_, _, e⟩ := dropInterval_frame .interval s
    rw [e]
    exact h
  timer _ h := h
  round s h := by
    obtain ⟨_, _, e⟩ := startRound_frame s
    rw [e]
    exact h
  evaluation s h := by
    obtain ⟨_, _, _, e⟩ := roundEvaluate_frame s
    rw [e]
    exact h
  expiry := officeLaw_expireSlot

/-- A FLOAT-ISSUE moves its takes from the stock into a float that was not out (R16, R31). -/
theorem floatIssue_balance (a : List Byte) (s : State) (h : s.balanceLaw) :
    (floatIssueEffect a s).state.balanceLaw := by
  refine withTill_state State.balanceLaw _ _ _ _ h fun t => ?_
  dsimp only
  split
  · exact h
  next hfree =>
  rw [not_or, not_not] at hfree
  split
  · exact h
  split
  · exact h
  split
  · exact h
  generalize hb : floatBuild s s.templates[(s.till t).template] = b
  have hwithin : ∀ c : Code, b.takes[c] ≤ s.stock[c].counts.fit := hb ▸ floatBuild_within s _
  refine balance_till (v := s.moveOut (Comp.ofFit b.takes)) t _ h (b := 0)
    (stockValue_moveOut (Comp.ofFit b.takes) s (fit_within b.takes s hwithin)) rfl rfl (Int.add_zero _).symm ?_
  rw [out_of (s.till t) _ hfree.2, fitValue_ofFit]
  show (0 : Int) + ((fitValue s.denoms b.takes : Nat) : Int) - _ - (0 : Nat) = 0
  omega

/-- A FLOAT-CANCEL puts back what the float of an ISSUED till is worth (R16, R32). -/
theorem floatCancel_balance (a : List Byte) (s : State) (h : s.balanceLaw)
    (hf : ∀ u : TillIx, (s.till u).state = .issued → (s.till u).f = fitValue s.denoms (s.till u).issue) :
    (floatCancelEffect a s).state.balanceLaw := by
  refine withTill_state State.balanceLaw _ _ _ _ h fun t => ?_
  dsimp only
  split
  · exact h
  next hissued =>
  rw [not_not] at hissued
  split
  · exact h
  refine balance_till (v := s.moveIn (Comp.ofFit (s.till t).issue)) t _ h (a := 0)
    ((Nat.add_zero _).trans (stockValue_moveIn (Comp.ofFit (s.till t).issue) s)) rfl rfl (Int.add_zero _).symm ?_
  have hout : (s.till t).out = (s.till t).f := out_of (s.till t) _ hissued
  rw [hout, fitValue_ofFit, ← hf t hissued, retire_out]
  omega

/-- Settles O27: the two float commands move value between the parts of the law; every step keeps the whole. -/
theorem floatsKeepBalanceLaw : Obligations.FloatsKeepBalanceLaw := by
  refine ⟨fun c n s t hc hs h hf e => ?_, fun s t h e => officeLaw_kept.step s t h e⟩
  have hkept : (effect c s.port.args (s.busyWith (c.byte n))).state.balanceLaw := by
    obtain rfl | rfl := hc
    · exact floatIssue_balance _ _ h
    · exact floatCancel_balance _ _ h hf
  rw [exec_ready c n s hs] at e
  cases e
  generalize effect c s.port.args (s.busyWith (c.byte n)) = x at hkept
  cases x <;> exact hkept

/-! ### The decisions on a counted till (R96 to R98) -/

section
variable {a : List Byte} {s : State} {t : TillIx}

theorem matched_till (s : State) (t : TillIx) : s.matched.till t = s.till t := rfl

theorem varianceAccept_notCounted (hlen : a.length = 4) (ht : tillOf (arg a 0 1) = some t)
    (hlock : s.auth.lockout = 0) (hcode : arg a 1 3 = s.auth.code) (hle : s.auth.code ≤ 999999)
    (h : (s.till t).state ≠ .counted) : varianceAcceptEffect a s = .refused .state s.matched := by
  rw [varianceAcceptEffect, withTill_of hlen ht, withAuthority_matched _ _ _ hlock hcode hle]
  split
  · next hcounted _ => exact absurd hcounted h
  · rfl

theorem recount_notCounted (hlen : a.length = 4) (ht : tillOf (arg a 0 1) = some t)
    (hlock : s.auth.lockout = 0) (hcode : arg a 1 3 = s.auth.code) (hle : s.auth.code ≤ 999999)
    (h : (s.till t).state ≠ .counted) : recountEffect a s = .refused .state s.matched := by
  rw [recountEffect, withTill_of hlen ht, withAuthority_matched _ _ _ hlock hcode hle]
  dsimp only
  split
  · next hcounted _ => exact absurd hcounted h
  · rfl

theorem varianceAccept_counted {r : LastResult} (hlen : a.length = 4) (ht : tillOf (arg a 0 1) = some t)
    (hlock : s.auth.lockout = 0) (hcode : arg a 1 3 = s.auth.code) (hle : s.auth.code ≤ 999999)
    (h : (s.till t).state = .counted) (hr : (s.till t).result = some r) : varianceAcceptEffect a s =
      .taken ([byte (t.val + 1), byte r.cls.value] ++ leInt 4 r.v) (s.matched.setTill t (s.till t).retire) := by
  have h' : (s.matched.till t).state = .counted := h
  have hr' : (s.matched.till t).result = some r := hr
  rw [varianceAcceptEffect, withTill_of hlen ht, withAuthority_matched _ _ _ hlock hcode hle, h', hr']
  rfl

theorem postRefused_of_range {s : State} {d : Int} (htop : (s.balance : Int) + d ≤ 2000000000)
    (hlow : 0 ≤ (s.balance : Int) + d) : postRefused s d = false := by
  rw [postRefused, decide_eq_false (by omega), decide_eq_false (by omega)]
  rfl

theorem recount_counted {r : LastResult} (hlen : a.length = 4) (ht : tillOf (arg a 0 1) = some t)
    (hlock : s.auth.lockout = 0) (hcode : arg a 1 3 = s.auth.code) (hle : s.auth.code ≤ 999999)
    (h : (s.till t).state = .counted) (hr : (s.till t).result = some r) (hout : outRefusal s r.comp = none)
    (htop : (s.balance : Int) + (s.till t).f - r.c ≤ 2000000000)
    (hlow : 0 ≤ (s.balance : Int) + (s.till t).f - r.c) : recountEffect a s =
      .taken (byte (t.val + 1) :: (compBytes r.comp ++ le 4 r.c ++ le 4 (s.till t).f ++
          leInt 4 ((s.till t).f - r.c)))
        { ((s.matched.moveOut r.comp).setTill t { s.till t with state := .closing, lane := none }) with
          balance := ((s.balance : Int) + (s.till t).f - r.c).toNat } := by
  have hout' : outRefusal s.matched r.comp = none := hout
  rw [Int.add_sub_assoc] at htop hlow
  have hpost : postRefused s.matched ((s.till t).f - r.c) = false := postRefused_of_range htop hlow
  rw [recountEffect, withTill_of hlen ht, withAuthority_matched _ _ _ hlock hcode hle]
  simp only [matched_till, h, hr, hout', hpost, Bool.false_eq_true, if_false, Int.add_sub_assoc]
  rfl

end

/-- Settles O26: both decisions on a till, COUNTED or not. -/
theorem varianceDecisions : Obligations.VarianceDecisions := by
  intro n s a t r hs ha hlen ht hlock hcode hle
  refine ⟨fun h => ⟨?_, ?_⟩, fun h hr => ⟨?_, fun hout htop hlow => ?_⟩⟩
  · exact exec_refuses .varianceAccept n s hs ha (varianceAccept_notCounted hlen ht hlock hcode hle h)
  · exact exec_refuses .recount n s hs ha (recount_notCounted hlen ht hlock hcode hle h)
  · exact exec_takes .varianceAccept n s hs ha (varianceAccept_counted hlen ht hlock hcode hle h hr)
  · exact exec_takes .recount n s hs ha (recount_counted hlen ht hlock hcode hle h hr hout htop hlow)

end Sys2Proof.Machine

namespace Sys2Proof.Machine

/-! ### The call commands (R47 to R50) -/

theorem hasCall_eq (s : State) (t : TillIx) (k : CallKind) : s.hasCall t k = (s.callPos t k).isSome := by
  rw [State.hasCall, State.callPos, List.findIdx?_isSome]

theorem hasCall_of_pos {s : State} {t : TillIx} {k : CallKind} {i : Nat} (h : s.callPos t k = some i) :
    s.hasCall t k = true := by
  rw [hasCall_eq, h]
  rfl

theorem hasCall_of_no_pos {s : State} {t : TillIx} {k : CallKind} (h : s.callPos t k = none) :
    s.hasCall t k = false := by
  rw [hasCall_eq, h]
  rfl

/-- An entry added at the tail is found there (R43, log entry 17). -/
theorem callPos_added {s : State} {t : TillIx} {k : CallKind} (h : s.callPos t k = none) (o : Option Nat)
    (x : Option Stamp) :
    (s.calls ++ [(⟨t, k, o, x⟩ : CallEntry)]).findIdx? (CallEntry.isFor t k) = some s.calls.length := by
  have hself : CallEntry.isFor t k ⟨t, k, o, x⟩ = true := by simp [CallEntry.isFor]
  rw [List.findIdx?_append, show s.calls.findIdx? (CallEntry.isFor t k) = none from h]
  simp [List.findIdx?_cons, hself]

/-- The calls that CALL-POST may carry, and the state of the till that each needs (R47). -/
def postable (a : List Byte) (s : State) (t : TillIx) (k : CallKind) : Prop :=
  k = .topup ∧ arg a 1 1 = 2 ∧ (s.till t).state = .trading ∨ k = .collect ∧ arg a 1 1 = 3 ∧ (s.till t).state = .closing

section
variable {a : List Byte} {s : State} {t : TillIx} {k : CallKind}

theorem callPost_eq (hlen : a.length = 2) (ht : tillOf (arg a 0 1) = some t) (h : postable a s t k) :
    callPostEffect a s =
      if s.raiseOutcome t k = .noRoom then .refused .full s.loseCall
      else .taken [byte (t.val + 1), byte k.value, boolByte (s.raiseOutcome t k == .merged),
        byte (((s.raiseCall t k none).callPos t k).getD 0), byte (s.raiseCall t k none).calls.length]
        (s.raiseCall t k none) := by
  rw [callPostEffect, withTill_of hlen ht]
  obtain ⟨rfl, hk, hst⟩ | ⟨rfl, hk, hst⟩ := h
  all_goals
    simp only [hk, callKindOf, CallKind.needs, hst, ne_eq, not_true_eq_false, if_false]
    split
    · next hout => rw [if_pos hout]
    · next hout => rw [if_neg hout]

theorem postable_not_skim (h : postable a s t k) : k ≠ .skim := by
  obtain ⟨rfl, -⟩ | ⟨rfl, -⟩ := h <;> decide

theorem callPost_merged (hlen : a.length = 2) (ht : tillOf (arg a 0 1) = some t) (h : postable a s t k) {i : Nat}
    (hi : s.callPos t k = some i) : callPostEffect a s =
      .taken [byte (t.val + 1), byte k.value, 1, byte i, byte s.calls.length] s := by
  have hhas := hasCall_of_pos hi
  rw [callPost_eq hlen ht h, raiseOutcome_of_has hhas, if_neg (by decide),
    raiseCall_of_has (postable_not_skim h) hhas, hi]
  rfl

theorem callPost_added (hlen : a.length = 2) (ht : tillOf (arg a 0 1) = some t) (h : postable a s t k)
    (hi : s.callPos t k = none) (hroom : s.calls.length < 32) : callPostEffect a s =
      .taken [byte (t.val + 1), byte k.value, 0, byte s.calls.length, byte (s.calls.length + 1)]
        (State.raise .call { s with calls := s.calls ++ [⟨t, k, none, s.stamp⟩] }) := by
  have hno := hasCall_of_no_pos hi
  rw [callPost_eq hlen ht h, raiseOutcome_of_room hno hroom, if_neg (by decide), raiseCall_of_room hno hroom]
  have hpos : (State.raise .call { s with calls := s.calls ++ [⟨t, k, none, s.stamp⟩] }).callPos t k =
      some s.calls.length := callPos_added hi none s.stamp
  rw [hpos]
  simp only [State.raise_calls, List.length_append, List.length_singleton]
  rfl

theorem callPost_full (hlen : a.length = 2) (ht : tillOf (arg a 0 1) = some t) (h : postable a s t k)
    (hi : s.callPos t k = none) (hfull : 32 ≤ s.calls.length) :
    callPostEffect a s = .refused .full s.loseCall := by
  rw [callPost_eq hlen ht h, raiseOutcome_of_full (hasCall_of_no_pos hi) hfull, if_pos rfl]

theorem callTake_found (hlen : a.length = 1) (hle : arg a 0 1 ≤ 3) {i : Nat} {e : CallEntry}
    (hi : s.calls.findIdx? (selects (arg a 0 1)) = some i) (he : s.calls[i]? = some e) :
    callTakeEffect a s = .taken ([1] ++ e.bytes i) { s with calls := s.calls.eraseIdx i } := by
  simp only [callTakeEffect, hlen, ne_eq, not_true_eq_false, if_false, if_neg (Nat.not_lt.mpr hle), hi, he]
  rfl

theorem callTake_absent (hlen : a.length = 1) (hle : arg a 0 1 ≤ 3)
    (hi : s.calls.findIdx? (selects (arg a 0 1)) = none) : callTakeEffect a s = .taken [0] s := by
  simp only [callTakeEffect, hlen, ne_eq, not_true_eq_false, if_false, if_neg (Nat.not_lt.mpr hle), hi]

theorem callCancel_found (hlen : a.length = 2) (ht : tillOf (arg a 0 1) = some t)
    (hk : callKindOf (arg a 1 1) = some k) {i : Nat} (hi : s.callPos t k = some i) : callCancelEffect a s =
      .taken [byte (t.val + 1), byte k.value, byte i, byte (s.calls.length - 1)]
        { s with calls := s.calls.eraseIdx i } := by
  have hlt : i < s.calls.length := (List.findIdx?_eq_some_iff_getElem.mp hi).1
  rw [callCancelEffect, withTill_of hlen ht]
  simp only [hk, hi, List.length_eraseIdx_of_lt hlt]

theorem callCancel_absent (hlen : a.length = 2) (ht : tillOf (arg a 0 1) = some t)
    (hk : callKindOf (arg a 1 1) = some k) (hi : s.callPos t k = none) :
    callCancelEffect a s = .refused .unknown s := by
  rw [callCancelEffect, withTill_of hlen ht]
  simp only [hk, hi]

theorem callRead_taken (hlen : a.length = 1) (hle : arg a 0 1 ≤ 31) : callReadEffect a s =
    .taken (let l := (s.calls.drop (arg a 0 1)).take 16
      [byte s.calls.length, boolByte s.callOverflow, byte (arg a 0 1), byte l.length] ++
        entriesFrom (arg a 0 1) l) { s with callOverflow := false } := by
  simp only [callReadEffect, hlen, ne_eq, not_true_eq_false, if_false, if_neg (Nat.not_lt.mpr hle)]

end

/-- Settles O28: each call command by what the queue holds. -/
theorem callCommands : Obligations.CallCommands := by
  refine ⟨fun n s a t k hs ha hlen ht h => ⟨fun i hi => ?_, fun hi hroom => ?_, fun hi hfull => ?_⟩,
    fun n s a hs ha => ⟨fun hlen hle => ⟨fun i e hi he => ?_, fun hi => ?_⟩,
      fun t k hlen ht hk => ⟨fun i hi => ?_, fun hi => ?_⟩, fun hlen hle => ?_⟩⟩
  · exact exec_takes .callPost n s hs ha (callPost_merged (s := s.busyWith _) hlen ht h hi)
  · exact exec_takes .callPost n s hs ha (callPost_added hlen ht h hi hroom)
  · exact exec_refuses .callPost n s hs ha (callPost_full hlen ht h hi hfull)
  · exact exec_takes .callTake n s hs ha (callTake_found hlen hle hi he)
  · exact exec_takes .callTake n s hs ha (callTake_absent hlen hle hi)
  · exact exec_takes .callCancel n s hs ha (callCancel_found hlen ht hk hi)
  · exact exec_refuses .callCancel n s hs ha (callCancel_absent hlen ht hk hi)
  · exact exec_takes .callRead n s hs ha (callRead_taken hlen hle)

/-! ### The round commands (R51, R52, R54) -/

theorem startRound_of_room {s : State} (h : s.round.resume < s.round.list.length) :
    s.startRound = { s with round := { s.round with run := some ⟨s.round.resume, s.round.resume, 0, 0⟩ } } :=
  if_pos h

theorem startRound_of_end {s : State} (h : s.round.list.length ≤ s.round.resume) :
    s.startRound = State.raise .round { s with round := { s.round with
      run := none, resume := 0
      summary := some ⟨.complete, s.round.resume, 0, 0, 0, s.stamp⟩ } } :=
  if_neg (Nat.not_lt.mpr h)

section
variable {a : List Byte} {s : State}

theorem roundSet_eq {l : List TillIx} (h2 : arg a 0 1 ≤ 96) (hlen : a.length = 1 + arg a 0 1)
    (hl : readTills (a.drop 1) = some l) : roundSetEffect a s =
      if s.round.run.isSome then .refused .engaged s
      else .taken [byte l.length] { s with round := { s.round with list := l, resume := 0 } } := by
  have hok : ¬(a.length = 0 ∨ 96 < arg a 0 1 ∨ a.length ≠ 1 + arg a 0 1) := by omega
  rw [roundSetEffect, if_neg hok, hl]

theorem roundTimer_taken {on trig : Bool} (hlen : a.length = 3) (hon : boolOf (arg a 0 1) = some on)
    (htrig : boolOf (arg a 2 1) = some trig) : roundTimerEffect a s =
      let m := max 5 (min 240 (arg a 1 1))
      .taken [boolByte on, byte m, boolByte trig, boolByte (m != arg a 1 1)]
        { s with round := { s.round with timerOn := on, interval := m, trigOn := trig
                                         countdown := if on then some m else none } } := by
  simp only [roundTimerEffect, hlen, ne_eq, not_true_eq_false, if_false, hon, htrig]
  rfl

theorem roundNow_eq : roundNowEffect [] s =
    if s.round.run.isSome then .refused .engaged s
    else .taken [byte s.round.resume, byte s.round.list.length] s.startRound := rfl

end

/-- Settles O29: the settings of the round engine, and a round started at once. -/
theorem roundCommands : Obligations.RoundCommands := by
  intro n s a hs ha
  refine ⟨fun l _ h2 hlen hl => ⟨fun hrun => ?_, fun hrun => ?_⟩, fun on trig hlen hon htrig => ?_, fun h0 => ?_⟩
  · exact exec_takes .roundSet n s hs ha ((roundSet_eq h2 hlen hl).trans (if_neg (by simp [hrun])))
  · exact exec_refuses .roundSet n s hs ha
      ((roundSet_eq h2 hlen hl).trans (if_pos (by simpa [Option.isSome_iff_ne_none] using hrun)))
  · exact exec_takes .roundTimer n s hs ha (roundTimer_taken hlen hon htrig)
  · subst h0
    refine ⟨fun hrun => ?_, fun hrun hlt => ?_, fun hrun hge => ?_⟩
    · exact exec_refuses .roundNow n s hs ha
        (roundNow_eq.trans (if_pos (by simpa [Option.isSome_iff_ne_none] using hrun)))
    · refine exec_takes .roundNow n s hs ha (roundNow_eq.trans ((if_neg (by simp [hrun])).trans ?_))
      rw [startRound_of_room (show (s.busyWith _).round.resume < _ from hlt)]
      rfl
    · refine exec_takes .roundNow n s hs ha (roundNow_eq.trans ((if_neg (by simp [hrun])).trans ?_))
      rw [startRound_of_end (show (s.busyWith _).round.list.length ≤ _ from hge), ← hrun]
      rfl

/-! ### The evaluation of a running round (R55 to R57) -/

theorem exec_roundEvaluation (s : State) (h : s.live = true) : exec .roundEvaluation s = .next (roundEvaluate s) := by
  obtain ⟨hp, -, -⟩ := (live_iff s).mp h
  have e : exec .roundEvaluation s = execRoundEvaluation s := rfl
  rw [e, execRoundEvaluation, settle_live s h]
  simp [hp]

/-- What R56 step 3 asks of a till for a skim to be due. -/
def Till.raises (x : Till) (unit : Nat) : Prop :=
  x.inService = true ∧ x.state = .trading ∧ x.lane = none ∧ x.threshold ≠ 0 ∧ (x.threshold : Int) ≤ x.drawer ∧
    suggested x unit ≠ 0

theorem skimDue_of_threshold {x : Till} {unit : Nat} (h0 : x.threshold ≠ 0) (hle : (x.threshold : Int) ≤ x.drawer) :
    skimDue x unit = suggested x unit := by
  rw [skimDue, if_neg h0, if_neg (Int.not_lt.mpr hle)]

/-- A till raises exactly when the round does not skip it and an amount is due (R56). -/
theorem raises_iff (x : Till) (unit : Nat) : x.raises unit ↔ (x.skipped || (skimDue x unit == 0)) = false := by
  have hskip : x.skipped = false ↔ x.inService = true ∧ x.state = .trading ∧ x.lane = none := by
    simp [Till.skipped, and_assoc]
  have hdue : (skimDue x unit == 0) = false ↔
      x.threshold ≠ 0 ∧ (x.threshold : Int) ≤ x.drawer ∧ suggested x unit ≠ 0 := by
    rw [beq_eq_false_iff_ne, skimDue]
    split
    · simp [*]
    split
    · next hlt => simp [Int.not_le.mpr hlt]
    · next h0 hge => simp [h0, Int.not_lt.mp hge]
  rw [Bool.or_eq_false_iff, hskip, hdue]
  unfold Till.raises
  tauto

theorem roundEvaluate_of_till {s : State} {r : RoundRun} {t : TillIx} (hrun : s.round.run = some r)
    (ht : s.round.list[r.current]? = some t) : roundEvaluate s = evaluateTill r t s := by
  simp only [roundEvaluate, hrun, ht]

theorem roundAdvance_on {s : State} {r : RoundRun} (h : r.current + 1 < s.round.list.length) :
    s.roundAdvance r = { s with round := { s.round with run := some { r with current := r.current + 1 } } } :=
  if_neg (Nat.not_le.mpr h)

theorem roundAdvance_end {s : State} {r : RoundRun} (h : s.round.list.length ≤ r.current + 1) :
    s.roundAdvance r = State.raise .round { s with round := { s.round with
      run := none, resume := 0, summary := some ⟨.complete, r.start, r.raised, r.merged, 0, s.stamp⟩ } } :=
  if_pos h

/-- The move of the round past its position, on a state whose round engine and clock are those of `s` (R55). -/
def State.moved (s : State) (r r' : RoundRun) (u : State) : State :=
  if r.current + 1 < s.round.list.length then
    { u with round := { s.round with run := some { r' with current := r.current + 1 } } }
  else State.raise .round { u with round := { s.round with
    run := none, resume := 0, summary := some ⟨.complete, r.start, r'.raised, r'.merged, 0, s.stamp⟩ } }

theorem roundAdvance_moved {s u : State} {r r' : RoundRun} (hround : u.round = s.round) (hclock : u.clock = s.clock)
    (hcur : r'.current = r.current) (hstart : r'.start = r.start) : u.roundAdvance r' = s.moved r r' u := by
  have hstamp : u.stamp = s.stamp := by
    unfold State.stamp
    rw [hclock]
  by_cases hlt : r.current + 1 < s.round.list.length
  · rw [State.moved, if_pos hlt, roundAdvance_on (by rw [hround, hcur]; exact hlt), hround, hcur]
  · rw [State.moved, if_neg hlt, roundAdvance_end (by rw [hround, hcur]; omega), hround, hstart, hstamp]

section
variable {s : State} {r : RoundRun} {t : TillIx}

theorem evaluateTill_quiet (h : ¬(s.till t).raises s.limits.skimUnit) : evaluateTill r t s = s.roundAdvance r := by
  rw [raises_iff, Bool.not_eq_false] at h
  simp only [evaluateTill, h, if_true]

theorem evaluateTill_merged (h : (s.till t).raises s.limits.skimUnit) (hhas : s.hasCall t .skim = true) :
    evaluateTill r t s =
      (s.mergeCall t .skim (some (suggested (s.till t) s.limits.skimUnit))).roundAdvance
        { r with merged := r.merged + 1 } := by
  have hgo := (raises_iff _ _).mp h
  obtain ⟨-, -, -, h0, hle, -⟩ := h
  rw [skimDue_of_threshold h0 hle] at hgo
  simp only [evaluateTill, hgo, Bool.false_eq_true, if_false, raiseOutcome_of_has hhas, State.raiseCall,
    skimDue_of_threshold h0 hle]

theorem evaluateTill_added (h : (s.till t).raises s.limits.skimUnit) (hno : s.hasCall t .skim = false)
    (hroom : s.calls.length < 32) : evaluateTill r t s =
      (State.raise .call { s with calls := s.calls ++
        [⟨t, .skim, some (suggested (s.till t) s.limits.skimUnit), s.stamp⟩] }).roundAdvance
        { r with raised := r.raised + 1 } := by
  have hgo := (raises_iff _ _).mp h
  obtain ⟨-, -, -, h0, hle, -⟩ := h
  rw [skimDue_of_threshold h0 hle] at hgo
  simp only [evaluateTill, hgo, Bool.false_eq_true, if_false, raiseOutcome_of_room hno hroom, State.raiseCall,
    skimDue_of_threshold h0 hle]

theorem evaluateTill_full (h : (s.till t).raises s.limits.skimUnit) (hno : s.hasCall t .skim = false)
    (hfull : 32 ≤ s.calls.length) : evaluateTill r t s = s.endRound .queueFull r.current true r := by
  have hgo := (raises_iff _ _).mp h
  simp only [evaluateTill, hgo, Bool.false_eq_true, if_false, raiseOutcome_of_full hno hfull]

end

/-- The new amount of a SKIM entry, by its till and kind (R43). -/
theorem mergeCall_skim (t : TillIx) (o : Option Nat) (s : State) : s.mergeCall t .skim o =
    { s with calls := s.calls.map fun e => if e.till = t ∧ e.kind = .skim then { e with amount := o } else e } := by
  unfold State.mergeCall
  congr 1
  refine List.map_congr_left fun e _ => ?_
  simp [CallEntry.isFor]

/-- Settles O30: the four outcomes of an evaluation, and the move past the position. -/
theorem roundEvaluates : Obligations.RoundEvaluates := by
  intro s r t hl hrun ht till d amount raises moved
  have hrun' (u : State) (e : evaluateTill r t s = u) : exec .roundEvaluation s = .next u := by
    rw [exec_roundEvaluation s hl, roundEvaluate_of_till hrun ht, e]
  refine ⟨fun h => hrun' _ ?_, fun h hhas => hrun' _ ?_, fun h hno hroom => hrun' _ ?_,
    fun h hno hfull => hrun' _ ?_⟩
  · exact (evaluateTill_quiet h).trans (roundAdvance_moved (s := s) rfl rfl rfl rfl)
  · rw [evaluateTill_merged h hhas, mergeCall_skim]
    exact roundAdvance_moved (s := s) rfl rfl rfl rfl
  · exact (evaluateTill_added h hno hroom).trans (roundAdvance_moved (s := s) rfl rfl rfl rfl)
  · exact evaluateTill_full h hno hfull

end Sys2Proof.Machine

namespace Sys2Proof.Machine

/-! ### The link commands of a lane (R66, R68, R69) -/

/-- A release while a command is in progress (R84). -/
theorem release_busyWith (b : Byte) (p : Purpose) (s : State) :
    (s.busyWith b).release p = (s.release p).busyWith b := by
  cases p with
  | tillClose t => rfl
  | pickup t => rfl
  | audit m => rfl
  | delivery n =>
    simp only [State.release, busyWith_findMan]
    cases s.findMan n <;> rfl

theorem releaseLane_of_session {s : State} {i : LaneIx} {x : Session} (h : (s.lane i).session = some x) :
    s.releaseLane i = s.release x.purpose := by
  simp only [State.releaseLane, h]

theorem releaseLane_of_none {s : State} {i : LaneIx} (h : (s.lane i).session = none) : s.releaseLane i = s := by
  simp only [State.releaseLane, h]

section
variable {a : List Byte} {s : State} {i : LaneIx}

theorem laneProfile_eq {m : CodeSet} {sp : Fin 4} (hlen : a.length = 4) (hi : laneOf (arg a 0 1) = some i)
    (hm : maskOf (arg a 1 2) = some m) (hsp : asFin 4 (arg a 3 1) = some sp)
    (hnotes : ∀ c : Code, has m c = true → s.denoms[c].kind = .note) (hlatch : s.ret.latch = false) :
    laneProfileEffect a s =
      if (s.lane i).session.isSome then .refused .engaged s
      else .taken ([byte i.val] ++ le 2 m.toNat ++ [byte sp.val])
        (s.setLane i { s.lane i with
          state := .idle, speed := sp, mask := m, identity := none, expect := .absent, errors := 0
          jam := none, discarded := none, tx := (s.lane i).tx.issue (.profile m sp) }) := by
  have hcodes : codes.any (fun c => has m c && (s.denoms[c].kind != .note)) = false := by
    rw [codes_any_eq_false]
    intro c
    cases hc : has m c with
    | false => rfl
    | true => rw [hnotes c hc]; rfl
  rw [laneProfileEffect, withLane_of hlen hi]
  simp only [hm, hsp, hcodes, hlatch, Bool.false_eq_true, if_false]
  rfl

theorem laneClear_eq (hlen : a.length = 1) (hi : laneOf (arg a 0 1) = some i) (hp : (s.lane i).state ≠ .unprofiled)
    {st : LaneState} (hst : (if (s.lane i).state = .fault then LaneState.held else (s.lane i).state) = st) :
    laneClearEffect a s = .taken [byte i.val, (s.lane i).errors, byte st.value]
      (s.setLane i { s.lane i with errors := 0, state := st }) := by
  rw [laneClearEffect, withProfiled_of hlen hi hp, ← hst]

theorem withProfiled_refused {len : Nat} (hlen : a.length = len) (hi : laneOf (arg a 0 1) = some i)
    (hp : (s.lane i).state = .unprofiled) (next : LaneIx → Answer) :
    withProfiled len a s next = .refused .profile s := by
  rw [withProfiled, withLane_of hlen hi, if_pos hp]

theorem resetHolds_iff (k : LaneState) : k.resetHolds = true ↔ k = .opened ∨ k = .holding ∨ k = .fault := by
  cases k <;> decide

/-- The lane that a LANE-RESET leaves (R60, R69). -/
def Lane.afterReset (l : Lane) : Lane :=
  { Lane.unprofiled with
    tx := (if l.state = .opened ∨ l.state = .holding ∨ l.state = .fault then l.tx.issue .hold else l.tx).reset }

theorem laneReset_eq (hlen : a.length = 1) (hi : laneOf (arg a 0 1) = some i) : laneResetEffect a s =
    .taken [byte i.val, byte (s.lane i).state.value,
        byte (((s.lane i).session.map fun x => x.purpose.value).getD 0)]
      ((s.releaseLane i).setLane i (s.lane i).afterReset) := by
  rw [laneResetEffect, withLane_of hlen hi]
  simp only [resetHolds_iff]
  rfl

theorem laneReset_free (hlen : a.length = 1) (hi : laneOf (arg a 0 1) = some i) (h : (s.lane i).session = none) :
    laneResetEffect a s = .taken [byte i.val, byte (s.lane i).state.value, 0]
      (s.setLane i (s.lane i).afterReset) := by
  rw [laneReset_eq hlen hi, releaseLane_of_none h, h]
  rfl

theorem laneReset_session (hlen : a.length = 1) (hi : laneOf (arg a 0 1) = some i) {x : Session}
    (h : (s.lane i).session = some x) :
    laneResetEffect a s = .taken [byte i.val, byte (s.lane i).state.value, byte x.purpose.value]
      ((s.release x.purpose).setLane i (s.lane i).afterReset) := by
  rw [laneReset_eq hlen hi, releaseLane_of_session h, h]
  rfl

end

/-- Settles O31: the link commands by the state and the session of the lane. -/
theorem laneLinkCommands : Obligations.LaneLinkCommands := by
  intro n s a i hs ha hi l
  refine ⟨fun m sp hlen hm hsp hnotes hlatch => ⟨fun h => ?_, fun h => ?_⟩,
    fun hlen => ⟨fun hp hf => ?_, fun hf => ?_, fun hp => ?_, fun h => ?_, fun x h => ?_⟩⟩
  · exact exec_takes .laneProfile n s hs ha
      ((laneProfile_eq (s := s.busyWith _) hlen hi hm hsp hnotes hlatch).trans (if_neg (by simpa [l] using h)))
  · exact exec_refuses .laneProfile n s hs ha
      ((laneProfile_eq (s := s.busyWith _) hlen hi hm hsp hnotes hlatch).trans
        (if_pos (Option.isSome_iff_ne_none.mpr h)))
  · exact exec_takes .laneClear n s hs ha (laneClear_eq (s := s.busyWith _) hlen hi hp (if_neg hf))
  · exact exec_takes .laneClear n s hs ha (laneClear_eq (s := s.busyWith _) hlen hi
      (ne_of_eq_of_ne hf (by decide)) (if_pos hf))
  · exact exec_refuses .laneClear n s hs ha (withProfiled_refused (s := s.busyWith _) hlen hi hp _)
  · exact exec_takes .laneReset n s hs ha (laneReset_free (s := s.busyWith _) hlen hi h)
  · refine exec_takes .laneReset n s hs ha ((laneReset_session (s := s.busyWith _) hlen hi h).trans ?_)
    rw [release_busyWith]
    rfl

/-! ### The session commands (R77 to R79, R83, R84) -/

section
variable {a : List Byte} {s : State} {i : LaneIx}

theorem countHold_of {k : LaneState} (hlen : a.length = 1) (hi : laneOf (arg a 0 1) = some i)
    (hk : (s.lane i).state = k) (hp : k ≠ .unprofiled) : countHoldEffect a s =
      if k = .fault then .refused .lane s
      else if k = .opened then .taken [byte i.val, byte (s.lane i).depth]
        (s.setLane i { s.lane i with state := .holding, hold := some 5, tx := (s.lane i).tx.issue .hold })
      else .refused .state s := by
  rw [countHoldEffect, withProfiled_of hlen hi (ne_of_eq_of_ne hk hp)]
  dsimp only
  rw [hk]
  cases k <;> rfl

theorem countResume_of {k : LaneState} (hlen : a.length = 1) (hi : laneOf (arg a 0 1) = some i)
    (hk : (s.lane i).state = k) (hp : k ≠ .unprofiled) : countResumeEffect a s =
      if k = .fault then .refused .lane s
      else if k = .held ∨ k = .ended then .taken ([byte i.val] ++ (s.lane i).expect.bytes)
        (s.setLane i { s.lane i with state := .opened, tx := (s.lane i).tx.issue .start })
      else .refused .state s := by
  rw [countResumeEffect, withProfiled_of hlen hi (ne_of_eq_of_ne hk hp)]
  dsimp only
  rw [hk]
  cases k <;> rfl

/-- COUNT-VOID takes the top batch off in HELD, ENDED and FAULT (R77). -/
theorem countVoid_taken {x : Session} {b : Batch} {r : List Batch} (hlen : a.length = 1)
    (hi : laneOf (arg a 0 1) = some i)
    (hk : (s.lane i).state = .held ∨ (s.lane i).state = .ended ∨ (s.lane i).state = .fault)
    (hx : (s.lane i).session = some x) (hb : x.stack = b :: r) : countVoidEffect a s =
      .taken (byte i.val :: (b.bytes ++ [byte r.length]))
        (s.setLane i { s.lane i with session := some { x with stack := r } }) := by
  have hp : (s.lane i).state ≠ .unprofiled := by obtain h | h | h := hk <;> rw [h] <;> decide
  rw [countVoidEffect, withProfiled_of hlen hi hp]
  obtain h | h | h := hk <;> simp only [h, hx, hb]

theorem countVoid_empty {x : Session} (hlen : a.length = 1) (hi : laneOf (arg a 0 1) = some i)
    (hk : (s.lane i).state = .held ∨ (s.lane i).state = .ended ∨ (s.lane i).state = .fault)
    (hx : (s.lane i).session = some x) (hb : x.stack = []) : countVoidEffect a s = .refused .state s := by
  have hp : (s.lane i).state ≠ .unprofiled := by obtain h | h | h := hk <;> rw [h] <;> decide
  rw [countVoidEffect, withProfiled_of hlen hi hp]
  obtain h | h | h := hk <;> simp only [h, hx, hb]

theorem countVoid_early (hlen : a.length = 1) (hi : laneOf (arg a 0 1) = some i)
    (hk : (s.lane i).state = .idle ∨ (s.lane i).state = .opened ∨ (s.lane i).state = .holding) :
    countVoidEffect a s = .refused .state s := by
  have hp : (s.lane i).state ≠ .unprofiled := by obtain h | h | h := hk <;> rw [h] <;> decide
  rw [countVoidEffect, withProfiled_of hlen hi hp]
  obtain h | h | h := hk <;> simp only [h]

theorem usedCode_of {d : Vector Denom 12} {n : Nat} {c : Code} (hn : n = c.val) (hc : d[c].kind ≠ .unused) :
    usedCode d n = some c := by
  have hcode : codeOf n = some c := by
    rw [hn]
    exact asFin_val c
  simp only [usedCode, hcode, if_neg hc]

theorem roll_used {d : Denom} (h : d.kind = .roll) : d.kind ≠ .unused := ne_of_eq_of_ne h (by decide)

theorem allowsRoll_of {p : Purpose} {c : Code} (h : ∀ m, p = .audit m → has m c = true) : p.allowsRoll c = true := by
  cases p with
  | audit m => exact h m rfl
  | tillClose t => rfl
  | pickup t => rfl
  | delivery n => rfl

theorem countRolls_taken {x : Session} {c : Code} (hlen : a.length = 4) (hi : laneOf (arg a 0 1) = some i)
    (hp : (s.lane i).state ≠ .unprofiled) (hc : arg a 1 1 = c.val) (hroll : s.denoms[c].kind = .roll)
    (hx : (s.lane i).session = some x) (hset : ∀ m, x.purpose = .audit m → has m c = true) :
    countRollsEffect a s = .taken ([byte i.val, byte c.val] ++ le 2 x.rolls[c] ++ le 2 (arg a 2 2))
      (s.setLane i { s.lane i with session := some { x with rolls := x.rolls.set c (arg a 2 2) } }) := by
  rw [countRollsEffect, withProfiled_of hlen hi hp]
  simp only [usedCode_of hc (roll_used hroll), hroll, ne_eq, not_true_eq_false, if_false, hx, allowsRoll_of hset,
    Bool.true_eq_false]

theorem countRolls_noSession {c : Code} (hlen : a.length = 4) (hi : laneOf (arg a 0 1) = some i)
    (hp : (s.lane i).state ≠ .unprofiled) (hc : arg a 1 1 = c.val) (hroll : s.denoms[c].kind = .roll)
    (hx : (s.lane i).session = none) : countRollsEffect a s = .refused .state s := by
  rw [countRollsEffect, withProfiled_of hlen hi hp]
  simp only [usedCode_of hc (roll_used hroll), hroll, ne_eq, not_true_eq_false, if_false, hx]

/-- The lane that a COUNT-ABORT leaves (R84). -/
def Lane.afterAbort (l : Lane) : Lane :=
  { l with state := .idle, session := none, hold := none
           tx := if l.state = .opened then l.tx.issue .hold else l.tx }

theorem countAbort_taken {x : Session} (hlen : a.length = 1) (hi : laneOf (arg a 0 1) = some i)
    (hp : (s.lane i).state ≠ .unprofiled) (hx : (s.lane i).session = some x) : countAbortEffect a s =
      .taken ([byte i.val, byte x.purpose.value] ++ le 2 x.purpose.target ++ [byte x.stack.length])
        ((s.release x.purpose).setLane i (s.lane i).afterAbort) := by
  rw [countAbortEffect, withProfiled_of hlen hi hp]
  simp only [hx, releaseLane_of_session hx, Lane.afterAbort]

theorem countAbort_noSession (hlen : a.length = 1) (hi : laneOf (arg a 0 1) = some i)
    (hp : (s.lane i).state ≠ .unprofiled) (hx : (s.lane i).session = none) :
    countAbortEffect a s = .refused .state s := by
  rw [countAbortEffect, withProfiled_of hlen hi hp]
  simp only [hx]

end

/-- The taken COUNT-ABORT at a ready part, by the state its release leaves (R84). -/
theorem exec_countAbort {n : Bool} {s u : State} {a : List Byte} {i : LaneIx} {x : Session} (hs : s.ready = true)
    (ha : s.port.args = a) (hlen : a.length = 1) (hi : laneOf (arg a 0 1) = some i)
    (hp : (s.lane i).state ≠ .unprofiled) (hx : (s.lane i).session = some x) (hu : s.release x.purpose = u) :
    exec (.countAbort (whole n)) s =
      .next (completed .countAbort n
        ([byte i.val, byte x.purpose.value] ++ le 2 x.purpose.target ++ [byte x.stack.length])
        (u.setLane i (s.lane i).afterAbort)) := by
  refine exec_takes .countAbort n s hs ha ((countAbort_taken (s := s.busyWith _) hlen hi hp hx).trans ?_)
  rw [release_busyWith, hu]
  rfl

theorem depth_of_session {l : Lane} {x : Session} (h : l.session = some x) : l.depth = x.stack.length := by
  rw [Lane.depth, h]
  rfl

/-- Settles O33: the session commands by the state of the lane, and COUNT-ABORT by the purpose. -/
theorem sessionCommands : Obligations.SessionCommands := by
  refine ⟨fun n s a i x hs ha hi hx => ⟨fun hlen => ⟨fun h => ?_, fun h => ?_, fun h => ⟨?_, ?_⟩, fun h => ?_,
      fun b r h hb => ?_, fun h => ?_, fun h => ?_⟩, fun c hlen hp hc hroll hset => ?_⟩,
    fun n s a i x hs ha hlen hi hx hp => ⟨fun t hpur => ?_, fun t hpur => ?_, fun k j m d hpur hj hm hd => ?_,
      fun m hpur => ?_⟩,
    fun n s a i hs ha hi => ⟨fun hidle hnone => ⟨fun hlen => ⟨?_, ?_, ?_, ?_⟩, fun c hlen hc hroll => ?_⟩,
      fun hunp => ⟨fun hlen => ⟨?_, ?_, ?_, ?_⟩, fun hlen => ?_⟩⟩⟩
  · refine exec_takes .countHold n s hs ha ((countHold_of (s := s.busyWith _) hlen hi h (by decide)).trans ?_)
    rw [busyWith_lane, depth_of_session hx]
    rfl
  · obtain h | h | h := h <;>
      exact exec_refuses .countHold n s hs ha (countHold_of (s := s.busyWith _) hlen hi h (by decide))
  · exact exec_refuses .countHold n s hs ha (countHold_of (s := s.busyWith _) hlen hi h (by decide))
  · exact exec_refuses .countResume n s hs ha (countResume_of (s := s.busyWith _) hlen hi h (by decide))
  · obtain h | h := h <;>
      exact exec_takes .countResume n s hs ha (countResume_of (s := s.busyWith _) hlen hi h (by decide))
  · exact exec_takes .countVoid n s hs ha (countVoid_taken (s := s.busyWith _) hlen hi h hx hb)
  · obtain h | h := h <;>
      exact exec_refuses .countResume n s hs ha (countResume_of (s := s.busyWith _) hlen hi h (by decide))
  · obtain h | h | ⟨h, hb⟩ := h
    · exact exec_refuses .countVoid n s hs ha (countVoid_early (s := s.busyWith _) hlen hi (.inr (.inl h)))
    · exact exec_refuses .countVoid n s hs ha (countVoid_early (s := s.busyWith _) hlen hi (.inr (.inr h)))
    · exact exec_refuses .countVoid n s hs ha (countVoid_empty (s := s.busyWith _) hlen hi h hx hb)
  · exact exec_takes .countRolls n s hs ha (countRolls_taken (s := s.busyWith _) hlen hi hp hc hroll hx hset)
  · exact exec_countAbort hs ha hlen hi hp hx (by rw [hpur]; rfl)
  · exact exec_countAbort hs ha hlen hi hp hx (by rw [hpur]; rfl)
  · refine exec_countAbort hs ha hlen hi hp hx ?_
    rw [hpur]
    simp only [State.release, hj, hm, Option.map_some, Manifest.withLane, hd]
  · exact exec_countAbort hs ha hlen hi hp hx (by rw [hpur]; rfl)
  · exact exec_refuses .countHold n s hs ha (countHold_of (s := s.busyWith _) hlen hi hidle (by decide))
  · exact exec_refuses .countResume n s hs ha (countResume_of (s := s.busyWith _) hlen hi hidle (by decide))
  · exact exec_refuses .countVoid n s hs ha (countVoid_early (s := s.busyWith _) hlen hi (.inl hidle))
  · exact exec_refuses .countAbort n s hs ha
      (countAbort_noSession (s := s.busyWith _) hlen hi (ne_of_eq_of_ne hidle (by decide)) hnone)
  · exact exec_refuses .countRolls n s hs ha
      (countRolls_noSession (s := s.busyWith _) hlen hi (ne_of_eq_of_ne hidle (by decide)) hc hroll hnone)
  · exact exec_refuses .countHold n s hs ha (withProfiled_refused (s := s.busyWith _) hlen hi hunp _)
  · exact exec_refuses .countResume n s hs ha (withProfiled_refused (s := s.busyWith _) hlen hi hunp _)
  · exact exec_refuses .countVoid n s hs ha (withProfiled_refused (s := s.busyWith _) hlen hi hunp _)
  · exact exec_refuses .countAbort n s hs ha (withProfiled_refused (s := s.busyWith _) hlen hi hunp _)
  · exact exec_refuses .countRolls n s hs ha (withProfiled_refused (s := s.busyWith _) hlen hi hunp _)

end Sys2Proof.Machine

namespace Sys2Proof.Machine

/-! ### The arguments of COUNT-OPEN (R72 step 1) -/

/-- The purpose and its length agree, and an audit set is not empty and names used codes (R72 step 1). -/
def openSound (d : Vector Denom 12) (a : List Byte) : Prop :=
  (arg a 1 1 = 1 ∨ arg a 1 1 = 2) ∧ a.length = 3 ∨ arg a 1 1 = 3 ∧ a.length = 4 ∨
    arg a 1 1 = 4 ∧ a.length = 4 ∧ 0 < arg a 2 2 ∧ arg a 2 2 < 4096 ∧
      ∀ c : Code, (arg a 2 2).testBit c.val = true → d[c].kind ≠ .unused

theorem has_ofNat (n : Nat) (c : Code) : has (BitVec.ofNat 12 n) c = n.testBit c.val := by
  rw [has, BitVec.getLsbD_ofNat, decide_eq_true c.isLt, Bool.true_and]

theorem openTarget_tillClose {d : Vector Denom 12} {a : List Byte} (h : arg a 1 1 = 1) (hlen : a.length = 3) :
    openTarget d a = some (.tillClose (arg a 2 1)) := by
  simp only [openTarget, h, hlen, if_true]

theorem openTarget_pickup {d : Vector Denom 12} {a : List Byte} (h : arg a 1 1 = 2) (hlen : a.length = 3) :
    openTarget d a = some (.pickup (arg a 2 1)) := by
  simp only [openTarget, h, hlen, if_true]

theorem openTarget_delivery {d : Vector Denom 12} {a : List Byte} (h : arg a 1 1 = 3) (hlen : a.length = 4) :
    openTarget d a = some (.delivery (arg a 2 2)) := by
  simp only [openTarget, h, hlen, if_true]

theorem openTarget_audit {d : Vector Denom 12} {a : List Byte} {m : CodeSet} (h : arg a 1 1 = 4)
    (hlen : a.length = 4) (hm : maskOf (arg a 2 2) = some m) (h0 : m ≠ 0)
    (hused : ∀ c : Code, has m c = true → d[c].kind ≠ .unused) : openTarget d a = some (.audit m) := by
  have hcodes : codes.any (fun c => has m c && (d[c].kind == .unused)) = false := by
    rw [codes_any_eq_false]
    intro c
    cases hc : has m c with
    | false => rfl
    | true => simpa using hused c hc
  simp only [openTarget, h, hlen, if_true, hm, if_neg h0, hcodes, Bool.false_eq_true, if_false]

theorem ofNat12_ne_zero {n : Nat} (h0 : 0 < n) (hlt : n < 4096) : BitVec.ofNat 12 n ≠ 0 := by
  intro h
  have := congrArg BitVec.toNat h
  simp at this
  omega

/-- A target is read exactly from sound arguments (R72 step 1). -/
theorem openSound_of_openTarget {d : Vector Denom 12} {a : List Byte} {o : OpenTarget}
    (h : openTarget d a = some o) : openSound d a := by
  unfold openTarget at h
  split at h
  · next hp => exact .inl ⟨.inl hp, (Option.ite_none_right_eq_some.mp h).1⟩
  · next hp => exact .inl ⟨.inr hp, (Option.ite_none_right_eq_some.mp h).1⟩
  · next hp => exact .inr (.inl ⟨hp, (Option.ite_none_right_eq_some.mp h).1⟩)
  · next hp =>
    obtain ⟨hlen, h⟩ := Option.ite_none_right_eq_some.mp h
    unfold maskOf at h
    by_cases hlt : arg a 2 2 < 4096
    · rw [if_pos hlt] at h
      dsimp only at h
      obtain ⟨h0, h⟩ := Option.ite_none_left_eq_some.mp h
      obtain ⟨hused, -⟩ := Option.ite_none_left_eq_some.mp h
      rw [Bool.not_eq_true, codes_any_eq_false] at hused
      refine .inr (.inr ⟨hp, hlen, Nat.pos_of_ne_zero fun hz => h0 (by rw [hz]; rfl), hlt, fun c hc => ?_⟩)
      have hcode := hused c
      rw [has_ofNat, hc, Bool.true_and, beq_eq_false_iff_ne] at hcode
      exact hcode
    · rw [if_neg hlt] at h
      cases h
  · cases h

theorem openTarget_of_openSound {d : Vector Denom 12} {a : List Byte} (h : openSound d a) :
    ∃ o, openTarget d a = some o := by
  obtain ⟨hp | hp, hlen⟩ | ⟨hp, hlen⟩ | ⟨hp, hlen, h0, hlt, hused⟩ := h
  · exact ⟨_, openTarget_tillClose hp hlen⟩
  · exact ⟨_, openTarget_pickup hp hlen⟩
  · exact ⟨_, openTarget_delivery hp hlen⟩
  · exact ⟨_, openTarget_audit hp hlen (if_pos hlt) (ofNat12_ne_zero h0 hlt) fun c hc => hused c
      ((has_ofNat _ c).symm.trans hc)⟩

theorem two_le_length_of_sound {d : Vector Denom 12} {a : List Byte} (h : openSound d a) : 2 ≤ a.length := by
  obtain ⟨-, h⟩ | ⟨-, h⟩ | ⟨-, h, -⟩ := h <;> omega

/-! ### The checks of COUNT-OPEN in their order (R72, R73) -/

/-- What COUNT-OPEN does after its purpose checks (R72, R73). -/
def openAnswer (i : LaneIx) (s : State) : Except PortCode Purpose → Answer
  | .error r => .refused r s
  | .ok p =>
    .taken ([byte i.val, byte p.value] ++ le 2 p.target ++ (s.lane i).expect.bytes)
      ((s.setLane i { s.lane i with
        state := .opened, session := some (newSession s.denoms (s.lane i).mask p)
        tx := (s.lane i).tx.issue .start }).bindSession i p)

section
variable {a : List Byte} {s : State} {i : LaneIx} {o : OpenTarget}

theorem countOpen_unsound (h : ¬openSound s.denoms a ∨ laneOf (arg a 0 1) = none) :
    countOpenEffect a s = .refused .argument s := by
  unfold countOpenEffect
  split
  · rfl
  split
  · next ho hi =>
    obtain h | h := h
    · exact absurd (openSound_of_openTarget ho) h
    · rw [h] at hi
      cases hi
  · rfl

theorem countOpen_eq (ho : openTarget s.denoms a = some o) (hi : laneOf (arg a 0 1) = some i) :
    countOpenEffect a s =
      if s.ret.latch then .refused .state s
      else if (s.lane i).state = .unprofiled ∨ (s.lane i).identity = none then .refused .profile s
      else if auditNotEnabled s.denoms (s.lane i) o then .refused .profile s
      else if (s.lane i).session.isSome then .refused .engaged s
      else if (s.lane i).errors ≠ 0 then .refused .lane s
      else openAnswer i s (bindCheck s o) := by
  have hlen := two_le_length_of_sound (openSound_of_openTarget ho)
  rw [countOpenEffect, if_neg (by omega), ho, hi]
  dsimp only
  congr 5

theorem countOpen_latched (ho : openTarget s.denoms a = some o) (hi : laneOf (arg a 0 1) = some i)
    (h : s.ret.latch = true) : countOpenEffect a s = .refused .state s := by
  rw [countOpen_eq ho hi, if_pos h]

theorem countOpen_profile (ho : openTarget s.denoms a = some o) (hi : laneOf (arg a 0 1) = some i)
    (hlatch : s.ret.latch = false)
    (h : (s.lane i).state = .unprofiled ∨ (s.lane i).identity = none ∨
      auditNotEnabled s.denoms (s.lane i) o = true) : countOpenEffect a s = .refused .profile s := by
  rw [countOpen_eq ho hi, if_neg (by simp [hlatch])]
  by_cases hp : (s.lane i).state = .unprofiled ∨ (s.lane i).identity = none
  · rw [if_pos hp]
  · rw [if_neg hp, if_pos (by tauto)]

/-- A lane on which COUNT-OPEN passes its checks of the profile (R72 steps 2 and 3). -/
def openReady (s : State) (i : LaneIx) (o : OpenTarget) : Prop :=
  s.ret.latch = false ∧ (s.lane i).state ≠ .unprofiled ∧ (s.lane i).identity ≠ none ∧
    auditNotEnabled s.denoms (s.lane i) o = false

theorem countOpen_profiled (ho : openTarget s.denoms a = some o) (hi : laneOf (arg a 0 1) = some i)
    (h : openReady s i o) : countOpenEffect a s =
      if (s.lane i).session.isSome then .refused .engaged s
      else if (s.lane i).errors ≠ 0 then .refused .lane s
      else openAnswer i s (bindCheck s o) := by
  obtain ⟨hlatch, hp, hid, hen⟩ := h
  rw [countOpen_eq ho hi, if_neg (by simp [hlatch]), if_neg (by tauto), if_neg (by simp [hen])]

theorem countOpen_engaged (ho : openTarget s.denoms a = some o) (hi : laneOf (arg a 0 1) = some i)
    (h : openReady s i o) (hx : (s.lane i).session ≠ none) : countOpenEffect a s = .refused .engaged s := by
  rw [countOpen_profiled ho hi h, if_pos (Option.isSome_iff_ne_none.mpr hx)]

theorem countOpen_lane (ho : openTarget s.denoms a = some o) (hi : laneOf (arg a 0 1) = some i)
    (h : openReady s i o) (hx : (s.lane i).session = none) (he : (s.lane i).errors ≠ 0) :
    countOpenEffect a s = .refused .lane s := by
  rw [countOpen_profiled ho hi h, if_neg (by simp [hx]), if_pos he]

theorem countOpen_checked (ho : openTarget s.denoms a = some o) (hi : laneOf (arg a 0 1) = some i)
    (h : openReady s i o) (hx : (s.lane i).session = none) (he : (s.lane i).errors = 0) :
    countOpenEffect a s = openAnswer i s (bindCheck s o) := by
  rw [countOpen_profiled ho hi h, if_neg (by simp [hx]), if_neg (not_not.mpr he)]

end

/-! ### The purpose checks (R73) -/

section
variable {s : State}

theorem bindCheck_tillClose_unknown {n : Nat} (h : tillOf n = none) :
    bindCheck s (.tillClose n) = .error .unknown := by
  simp only [bindCheck, h]

theorem bindCheck_pickup_unknown {n : Nat} (h : tillOf n = none) : bindCheck s (.pickup n) = .error .unknown := by
  simp only [bindCheck, h]

theorem bindCheck_tillClose {n : Nat} {t : TillIx} (h : tillOf n = some t) : bindCheck s (.tillClose n) =
    if (s.till t).state ≠ .closing then .error .state
    else if (s.till t).lane.isSome then .error .engaged else .ok (.tillClose t) := by
  simp only [bindCheck, h]

theorem bindCheck_pickup {n : Nat} {t : TillIx} (h : tillOf n = some t) : bindCheck s (.pickup n) =
    if (s.till t).state ≠ .trading then .error .state
    else if (s.till t).lane.isSome then .error .engaged else .ok (.pickup t) := by
  simp only [bindCheck, h]

theorem bindCheck_delivery_unknown {n : Nat} (h : s.findMan n = none) :
    bindCheck s (.delivery n) = .error .unknown := by
  simp only [bindCheck, h, Option.bind_none]

theorem bindCheck_delivery_state {n : Nat} {j : SlotIx} {m : Manifest} (hj : s.findMan n = some j)
    (hm : s.man j = some m) (h : (∃ c, m.body = .collection c) ∨ m.state ≠ .receiving) :
    bindCheck s (.delivery n) = .error .state := by
  simp only [bindCheck, hj, Option.bind_some, hm]
  cases hb : m.body with
  | collection c => rfl
  | delivery d =>
    obtain ⟨c, hc⟩ | h := h
    · rw [hb] at hc
      cases hc
    · exact if_pos h

theorem bindCheck_delivery {n : Nat} {j : SlotIx} {m : Manifest} {d : Delivery} (hj : s.findMan n = some j)
    (hm : s.man j = some m) (hd : m.body = .delivery d) (hst : m.state = .receiving) :
    bindCheck s (.delivery n) = if d.lane.isSome then .error .engaged else .ok (.delivery n) := by
  simp only [bindCheck, hj, Option.bind_some, hm, hd, hst, ne_eq, not_true_eq_false, if_false]

theorem lanesAll_any_iff (p : LaneIx → Bool) : lanesAll.any p = true ↔ ∃ i, p i = true := by
  rw [List.any_eq_true]
  exact ⟨fun ⟨i, _, h⟩ => ⟨i, h⟩, fun ⟨i, h⟩ => ⟨i, mem_lanesAll i, h⟩⟩

theorem auditOpen_iff : s.auditOpen = true ↔ ∃ q, s.holds (.audit q) := by
  unfold State.auditOpen
  rw [lanesAll_any_iff]
  unfold State.holds
  constructor
  · rintro ⟨i, hi⟩
    cases hx : (s.lane i).session with
    | none =>
      rw [hx] at hi
      cases hi
    | some x =>
      rw [hx, Option.any_some] at hi
      split at hi
      · next q hq => exact ⟨q, i, x, hx, hq⟩
      · cases hi
  · rintro ⟨q, i, x, hx, hq⟩
    refine ⟨i, ?_⟩
    simp only [hx, Option.any_some, hq]

theorem bindCheck_audit (m : CodeSet) : bindCheck s (.audit m) =
    if s.auditOpen then .error .engaged else if s.audit.isSome then .error .state else .ok (.audit m) := rfl

end

/-! ### The audit set against the profile (R72 step 3) -/

theorem auditNotEnabled_audit (d : Vector Denom 12) (l : Lane) (m : CodeSet) :
    auditNotEnabled d l (.audit m) = false ↔
      ∀ c : Code, has m c = true → d[c].kind = .note → has l.mask c = true := by
  rw [auditNotEnabled, codes_any_eq_false]
  refine forall_congr' fun c => ?_
  cases has m c <;> cases has l.mask c <;> simp

/-- The check of the profile, in terms of the arguments. -/
theorem auditNotEnabled_iff {d : Vector Denom 12} {a : List Byte} {o : OpenTarget} (l : Lane)
    (ho : openTarget d a = some o) : auditNotEnabled d l o = false ↔
      (arg a 1 1 = 4 → ∀ c : Code, (arg a 2 2).testBit c.val = true → d[c].kind = .note → has l.mask c = true) := by
  obtain ⟨hp | hp, hlen⟩ | ⟨hp, hlen⟩ | ⟨hp, hlen, h0, hlt, hused⟩ := openSound_of_openTarget ho
  · obtain rfl := Option.some.inj ((openTarget_tillClose hp hlen).symm.trans ho)
    simp [auditNotEnabled, hp]
  · obtain rfl := Option.some.inj ((openTarget_pickup hp hlen).symm.trans ho)
    simp [auditNotEnabled, hp]
  · obtain rfl := Option.some.inj ((openTarget_delivery hp hlen).symm.trans ho)
    simp [auditNotEnabled, hp]
  · have ha := openTarget_audit (d := d) hp hlen (if_pos hlt) (ofNat12_ne_zero h0 hlt) fun c hc => hused c
      ((has_ofNat _ c).symm.trans hc)
    obtain rfl := Option.some.inj (ha.symm.trans ho)
    rw [auditNotEnabled_audit]
    simp only [has_ofNat, hp, true_implies]

/-! ### The codes an audit session accepts (R72) -/

theorem has_or (x y : CodeSet) (c : Code) : has (x ||| y) c = (has x c || has y c) := BitVec.getLsbD_or

theorem has_bit (c d : Code) : has (1#12 <<< c.val) d = decide (d = c) := by
  revert c d
  decide

theorem has_noteFold (d : Vector Denom 12) (m : CodeSet) (l : List Code) (acc : CodeSet) (c : Code) :
    has (l.foldl (fun a c => if has m c && (d[c].kind == .note) then a ||| (1#12 <<< c.val) else a) acc) c =
      (has acc c || (decide (c ∈ l) && (has m c && (d[c].kind == .note)))) := by
  induction l generalizing acc with
  | nil => simp
  | cons x r ih =>
    rw [List.foldl_cons, ih]
    by_cases hx : c = x
    · subst hx
      cases hq : has m c && (d[c].kind == .note) <;> simp [has_or, has_bit]
    · cases hq : has m x && (d[x].kind == .note) <;> simp [has_or, has_bit, hx]

theorem has_noteCodes (d : Vector Denom 12) (m : CodeSet) (c : Code) :
    has (noteCodes d m) c = (has m c && (d[c].kind == .note)) := by
  have h0 : has 0 c = false := BitVec.getLsbD_zero
  rw [noteCodes, has_noteFold, h0, decide_eq_true (mem_codes c)]
  simp

/-! ### The session that COUNT-OPEN binds (R73) -/

/-- A lane with a new session of a purpose, taken by its START (R72). -/
def Lane.opened (l : Lane) (p : Purpose) (accepted : CodeSet) : Lane :=
  { l with
    state := .opened, tx := l.tx.issue .start
    session := some ⟨p, accepted, Comp.zero, [], Vector.replicate 12 0⟩ }

theorem bindSession_delivery {s : State} {i : LaneIx} {n : Nat} {j : SlotIx} {m : Manifest} {d : Delivery}
    (hj : s.findMan n = some j) (hm : s.man j = some m) (hd : m.body = .delivery d) :
    s.bindSession i (.delivery n) = s.setMan j (some { m with body := .delivery { d with lane := some i } }) := by
  simp only [State.bindSession, hj, hm, Option.map_some, Manifest.withLane, hd]

section
variable {a : List Byte} {s : State} {i : LaneIx}

theorem countOpen_tillClose {t : TillIx} (hi : laneOf (arg a 0 1) = some i)
    (ho : openTarget s.denoms a = some (.tillClose (arg a 2 1))) (h : openReady s i (.tillClose (arg a 2 1)))
    (hx : (s.lane i).session = none) (he : (s.lane i).errors = 0) (ht : tillOf (arg a 2 1) = some t)
    (hst : (s.till t).state = .closing) (hlane : (s.till t).lane = none) :
    countOpenEffect a s = .taken ([byte i.val, 1] ++ le 2 (t.val + 1) ++ (s.lane i).expect.bytes)
      (State.setLane i ((s.lane i).opened (.tillClose t) (s.lane i).mask)
        ((s.setTill t { s.till t with lane := some i, state := .inCount }).removeCall t .collect)) := by
  rw [countOpen_checked ho hi h hx he, bindCheck_tillClose ht, if_neg (not_not.mpr hst), if_neg (by simp [hlane])]
  rfl

theorem countOpen_pickup {t : TillIx} (hi : laneOf (arg a 0 1) = some i)
    (ho : openTarget s.denoms a = some (.pickup (arg a 2 1))) (h : openReady s i (.pickup (arg a 2 1)))
    (hx : (s.lane i).session = none) (he : (s.lane i).errors = 0) (ht : tillOf (arg a 2 1) = some t)
    (hst : (s.till t).state = .trading) (hlane : (s.till t).lane = none) :
    countOpenEffect a s = .taken ([byte i.val, 2] ++ le 2 (t.val + 1) ++ (s.lane i).expect.bytes)
      (State.setLane i ((s.lane i).opened (.pickup t) (s.lane i).mask)
        (s.setTill t { s.till t with lane := some i })) := by
  rw [countOpen_checked ho hi h hx he, bindCheck_pickup ht, if_neg (not_not.mpr hst), if_neg (by simp [hlane])]
  rfl

theorem countOpen_delivery {j : SlotIx} {m : Manifest} {d : Delivery} (hi : laneOf (arg a 0 1) = some i)
    (ho : openTarget s.denoms a = some (.delivery (arg a 2 2))) (h : openReady s i (.delivery (arg a 2 2)))
    (hx : (s.lane i).session = none) (he : (s.lane i).errors = 0) (hj : s.findMan (arg a 2 2) = some j)
    (hm : s.man j = some m) (hd : m.body = .delivery d) (hst : m.state = .receiving) (hlane : d.lane = none) :
    countOpenEffect a s = .taken ([byte i.val, 3] ++ le 2 (arg a 2 2) ++ (s.lane i).expect.bytes)
      (State.setLane i ((s.lane i).opened (.delivery (arg a 2 2)) (s.lane i).mask)
        (s.setMan j (some { m with body := .delivery { d with lane := some i } }))) := by
  have hbind (l : Lane) := bindSession_delivery (s := s.setLane i l) (i := i) hj hm hd
  rw [countOpen_checked ho hi h hx he, bindCheck_delivery hj hm hd hst, if_neg (by simp [hlane]), openAnswer, hbind]
  rfl

theorem countOpen_audit {m : CodeSet} (hi : laneOf (arg a 0 1) = some i)
    (ho : openTarget s.denoms a = some (.audit m)) (h : openReady s i (.audit m))
    (hx : (s.lane i).session = none) (he : (s.lane i).errors = 0) (hfree : s.auditOpen = false)
    (hnone : s.audit = none) :
    countOpenEffect a s = .taken ([byte i.val, 4] ++ le 2 m.toNat ++ (s.lane i).expect.bytes)
      (State.setLane i ((s.lane i).opened (.audit m) (noteCodes s.denoms m)) (s.freeze m true)) := by
  rw [countOpen_checked ho hi h hx he, bindCheck_audit, if_neg (by simp [hfree]), if_neg (by simp [hnone])]
  rfl

/-- A refusal by the purpose checks is COUNT-OPEN's own (R73). -/
theorem countOpen_bindRefused {o : OpenTarget} {r : PortCode} (hi : laneOf (arg a 0 1) = some i)
    (ho : openTarget s.denoms a = some o) (h : openReady s i o) (hx : (s.lane i).session = none)
    (he : (s.lane i).errors = 0) (hb : bindCheck s o = .error r) : countOpenEffect a s = .refused r s := by
  rw [countOpen_checked ho hi h hx he, hb]
  rfl

end

/-- The refusals of COUNT-OPEN by its arguments, its lane and its purpose. -/
theorem countOpen_refusals (n : Bool) (s : State) (a : List Byte) (hs : s.ready = true) (ha : s.port.args = a) :
    let refused (r : PortCode) : Prop := exec (.countOpen (whole n)) s = .next (turnedAway .countOpen n r s)
    (¬openSound s.denoms a ∨ laneOf (arg a 0 1) = none → refused .argument) ∧
    ∀ i o, laneOf (arg a 0 1) = some i → openTarget s.denoms a = some o →
      (s.ret.latch = true → refused .state) ∧
      (s.ret.latch = false → (s.lane i).state = .unprofiled ∨ (s.lane i).identity = none ∨
        auditNotEnabled s.denoms (s.lane i) o = true → refused .profile) ∧
      (openReady s i o →
        ((s.lane i).session ≠ none → refused .engaged) ∧
        ((s.lane i).session = none → (s.lane i).errors ≠ 0 → refused .lane) ∧
        (∀ r, (s.lane i).session = none → (s.lane i).errors = 0 → bindCheck s o = .error r → refused r)) := by
  refine ⟨fun h => ?_, fun i o hi ho => ⟨fun h => ?_, fun hl h => ?_,
    fun h => ⟨fun hx => ?_, fun hx he => ?_, fun r hx he hb => ?_⟩⟩⟩
  · exact exec_refuses .countOpen n s hs ha (countOpen_unsound (s := s.busyWith _) h)
  · exact exec_refuses .countOpen n s hs ha (countOpen_latched (s := s.busyWith _) ho hi h)
  · exact exec_refuses .countOpen n s hs ha (countOpen_profile (s := s.busyWith _) ho hi hl h)
  · exact exec_refuses .countOpen n s hs ha (countOpen_engaged (s := s.busyWith _) ho hi h hx)
  · exact exec_refuses .countOpen n s hs ha (countOpen_lane (s := s.busyWith _) ho hi h hx he)
  · refine exec_refuses .countOpen n s hs ha (countOpen_bindRefused (s := s.busyWith _) hi ho h hx he ?_)
    rw [bindCheck_busyWith, hb]

theorem length_three_of_sound {d : Vector Denom 12} {a : List Byte} (h : openSound d a)
    (hp : arg a 1 1 = 1 ∨ arg a 1 1 = 2) : a.length = 3 := by
  obtain ⟨-, hlen⟩ | ⟨h3, -⟩ | ⟨h4, -⟩ := h
  · exact hlen
  · omega
  · omega

theorem length_four_of_sound {d : Vector Denom 12} {a : List Byte} (h : openSound d a)
    (hp : arg a 1 1 = 3 ∨ arg a 1 1 = 4) : a.length = 4 := by
  obtain ⟨h12, -⟩ | ⟨-, hlen⟩ | ⟨-, hlen, -⟩ := h
  · omega
  · exact hlen
  · exact hlen

/-- A till target is refused as its purpose wants: the till unknown, in another state, or on a lane (R73). -/
theorem bindCheck_till_refusals {s : State} {a : List Byte} {o : OpenTarget} (hp : arg a 1 1 = 1 ∨ arg a 1 1 = 2)
    (ho : openTarget s.denoms a = some o) :
    (tillOf (arg a 2 1) = none → bindCheck s o = .error .unknown) ∧
    ∀ t, tillOf (arg a 2 1) = some t →
      let wanted : TillState := if arg a 1 1 = 1 then .closing else .trading
      ((s.till t).state ≠ wanted → bindCheck s o = .error .state) ∧
      ((s.till t).state = wanted → (s.till t).lane ≠ none → bindCheck s o = .error .engaged) := by
  have hlen := length_three_of_sound (openSound_of_openTarget ho) hp
  obtain hp | hp := hp
  · obtain rfl := Option.some.inj ((openTarget_tillClose hp hlen).symm.trans ho)
    refine ⟨bindCheck_tillClose_unknown, fun t ht => ?_⟩
    rw [bindCheck_tillClose ht, if_pos hp]
    exact ⟨fun h => if_pos h, fun h hl => (if_neg (not_not.mpr h)).trans (if_pos (Option.isSome_iff_ne_none.mpr hl))⟩
  · obtain rfl := Option.some.inj ((openTarget_pickup hp hlen).symm.trans ho)
    refine ⟨bindCheck_pickup_unknown, fun t ht => ?_⟩
    rw [bindCheck_pickup ht, if_neg (by omega)]
    exact ⟨fun h => if_pos h, fun h hl => (if_neg (not_not.mpr h)).trans (if_pos (Option.isSome_iff_ne_none.mpr hl))⟩

/-- A delivery target is refused: no such manifest, not a delivery in RECEIVING, or on a lane (R73). -/
theorem bindCheck_delivery_refusals {s : State} {a : List Byte} {o : OpenTarget} (hp : arg a 1 1 = 3)
    (ho : openTarget s.denoms a = some o) :
    (s.findMan (arg a 2 2) = none → bindCheck s o = .error .unknown) ∧
    ∀ j m, s.findMan (arg a 2 2) = some j → s.man j = some m →
      ((∃ c, m.body = .collection c) ∨ m.state ≠ .receiving → bindCheck s o = .error .state) ∧
      (∀ d, m.body = .delivery d → m.state = .receiving → d.lane ≠ none → bindCheck s o = .error .engaged) := by
  have hlen := length_four_of_sound (openSound_of_openTarget ho) (.inl hp)
  obtain rfl := Option.some.inj ((openTarget_delivery hp hlen).symm.trans ho)
  refine ⟨bindCheck_delivery_unknown, fun j m hj hm => ⟨bindCheck_delivery_state hj hm, fun d hd hst hl => ?_⟩⟩
  rw [bindCheck_delivery hj hm hd hst, if_pos (Option.isSome_iff_ne_none.mpr hl)]

/-- An audit target is refused: another audit session is open, or an audit waits to be decided (R73). -/
theorem bindCheck_audit_refusals {s : State} {a : List Byte} {o : OpenTarget} (hp : arg a 1 1 = 4)
    (ho : openTarget s.denoms a = some o) :
    ((∃ q, s.holds (.audit q)) → bindCheck s o = .error .engaged) ∧
    ((∀ q, ¬s.holds (.audit q)) → s.audit ≠ none → bindCheck s o = .error .state) := by
  obtain ⟨h12, -⟩ | ⟨h3, -⟩ | ⟨-, hlen, h0, hlt, hused⟩ := openSound_of_openTarget ho
  · omega
  · omega
  · obtain rfl := Option.some.inj ((openTarget_audit (d := s.denoms) hp hlen (if_pos hlt) (ofNat12_ne_zero h0 hlt)
      fun c hc => hused c ((has_ofNat _ c).symm.trans hc)).symm.trans ho)
    rw [bindCheck_audit]
    refine ⟨fun h => if_pos (auditOpen_iff.mpr h), fun h haud => ?_⟩
    rw [if_neg (fun hopen => (auditOpen_iff.mp hopen).elim h), if_pos (Option.isSome_iff_ne_none.mpr haud)]

/-- Settles O32: the refusals in their order, and the binding of each purpose. -/
theorem countOpenBinds : Obligations.CountOpenBinds := by
  refine ⟨?_, ?_⟩
  · intro n s a hs ha refused names sound
    obtain ⟨hunsound, hrefusals⟩ := countOpen_refusals n s a hs ha
    refine ⟨hunsound, ?_⟩
    intro i hsound hi l enabled
    obtain ⟨o, ho⟩ := openTarget_of_openSound hsound
    obtain ⟨hlatched, hprofile, hready⟩ := hrefusals i o hi ho
    have henabled : auditNotEnabled s.denoms l o = false ↔ enabled := auditNotEnabled_iff l ho
    refine ⟨hlatched, fun hlatch => ⟨fun h => hprofile hlatch ?_, fun hp hid hen => ?_⟩⟩
    · rw [← Bool.not_eq_false, henabled]
      exact h
    · obtain ⟨hengaged, hlane, hbind⟩ := hready ⟨hlatch, hp, hid, henabled.mpr hen⟩
      refine ⟨hengaged, hlane, fun hx he => ⟨fun hpur => ?_, fun hpur => ?_, fun hpur => ?_⟩⟩
      · obtain ⟨hunknown, hrest⟩ := bindCheck_till_refusals hpur ho
        exact ⟨fun ht => hbind _ hx he (hunknown ht), fun t ht =>
          ⟨fun h => hbind _ hx he ((hrest t ht).1 h), fun h hl => hbind _ hx he ((hrest t ht).2 h hl)⟩⟩
      · obtain ⟨hunknown, hrest⟩ := bindCheck_delivery_refusals hpur ho
        exact ⟨fun hj => hbind _ hx he (hunknown hj), fun j m hj hm =>
          ⟨fun h => hbind _ hx he ((hrest j m hj hm).1 h),
            fun d hd hst hl => hbind _ hx he ((hrest j m hj hm).2 d hd hst hl)⟩⟩
      · obtain ⟨hopen, hwaits⟩ := bindCheck_audit_refusals hpur ho
        exact ⟨fun h => hbind _ hx he (hopen h), fun hno haud => hbind _ hx he (hwaits hno haud)⟩
  · intro n s a i hs ha hi hlatch l hp hid hx he opened
    refine ⟨fun t hlen ht hfree => ⟨fun hpur hst => ?_, fun hpur hst => ?_⟩,
      fun j m d hlen hpur hj hm hd hst hfree => ?_, fun m hlen hpur hm h0 hused hnotes hno haud => ?_⟩
    · exact exec_takes .countOpen n s hs ha (countOpen_tillClose (s := s.busyWith _) hi
        (openTarget_tillClose hpur hlen) ⟨hlatch, hp, hid, rfl⟩ hx he ht hst hfree)
    · exact exec_takes .countOpen n s hs ha (countOpen_pickup (s := s.busyWith _) hi
        (openTarget_pickup hpur hlen) ⟨hlatch, hp, hid, rfl⟩ hx he ht hst hfree)
    · exact exec_takes .countOpen n s hs ha (countOpen_delivery (s := s.busyWith _) hi
        (openTarget_delivery hpur hlen) ⟨hlatch, hp, hid, rfl⟩ hx he hj hm hd hst hfree)
    · have hopen : s.auditOpen = false := by
        rw [← Bool.not_eq_true, auditOpen_iff]
        rintro ⟨q, j, x, hjx, hq⟩
        exact hno j x q hjx hq
      refine ⟨noteCodes s.denoms m, has_noteCodes s.denoms m, ?_⟩
      exact exec_takes .countOpen n s hs ha (countOpen_audit (s := s.busyWith _) hi
        (openTarget_audit hpur hlen hm h0 hused)
        ⟨hlatch, hp, hid, (auditNotEnabled_audit _ _ m).mpr hnotes⟩ hx he hopen haud)

end Sys2Proof.Machine

namespace Sys2Proof.Machine

/-! ### COUNT-COMMIT by the state of its lane (R85) -/

section
variable {a : List Byte} {s : State} {i : LaneIx} {x : Session} {t : TillIx}

theorem countCommit_of_session (hlen : a.length = 1) (hi : laneOf (arg a 0 1) = some i)
    (h : (s.lane i).state = .held ∨ (s.lane i).state = .ended) (hx : (s.lane i).session = some x) :
    countCommitEffect a s = commitSession i x s := by
  obtain h | h := h
  all_goals
    rw [countCommitEffect, withProfiled_of hlen hi (by rw [h]; decide)]
    simp only [h, hx]

theorem countCommit_unprofiled (hlen : a.length = 1) (hi : laneOf (arg a 0 1) = some i)
    (h : (s.lane i).state = .unprofiled) : countCommitEffect a s = .refused .profile s :=
  withProfiled_refused hlen hi h _

theorem countCommit_fault (hlen : a.length = 1) (hi : laneOf (arg a 0 1) = some i)
    (h : (s.lane i).state = .fault) : countCommitEffect a s = .refused .lane s := by
  rw [countCommitEffect, withProfiled_of hlen hi (by rw [h]; decide)]
  simp only [h]

theorem countCommit_notHeld (hlen : a.length = 1) (hi : laneOf (arg a 0 1) = some i)
    (h : (s.lane i).state ∈ [LaneState.idle, .opened, .holding]) : countCommitEffect a s = .refused .state s := by
  simp only [List.mem_cons, List.not_mem_nil, or_false] at h
  obtain h | h | h := h
  all_goals
    rw [countCommitEffect, withProfiled_of hlen hi (by rw [h]; decide)]
    simp only [h]

/-! ### The commit of a close count (R90, R91) -/

theorem postRefused_of_outside {d : Int} (h : (s.balance : Int) + d < 0 ∨ 2000000000 < (s.balance : Int) + d) :
    postRefused s d = true := by
  rw [postRefused, Bool.or_eq_true, decide_eq_true_iff, decide_eq_true_iff]
  omega

theorem commitTillClose_stock {r : PortCode} (h : inRefusal s x.comp = some r) :
    commitTillClose i x t s = .refused r s := by
  simp only [commitTillClose, h]

theorem commitTillClose_limit (hin : inRefusal s x.comp = none)
    (h : 2000000000 < valueOf s.denoms x.comp ∨
      (s.balance : Int) + valueOf s.denoms x.comp - (s.till t).f < 0 ∨
      2000000000 < (s.balance : Int) + valueOf s.denoms x.comp - (s.till t).f) :
    commitTillClose i x t s = .refused .limit s := by
  simp only [commitTillClose, hin]
  split
  · rfl
  · next hv =>
    refine if_pos (postRefused_of_outside ?_)
    rw [← Int.add_sub_assoc]
    exact h.resolve_left hv

theorem commitTillClose_taken (hin : inRefusal s x.comp = none) (hv : valueOf s.denoms x.comp ≤ 2000000000)
    (hlow : 0 ≤ (s.balance : Int) + valueOf s.denoms x.comp - (s.till t).f)
    (htop : (s.balance : Int) + valueOf s.denoms x.comp - (s.till t).f ≤ 2000000000) :
    let r := closeResult s t x.comp
    commitTillClose i x t s = .taken
      (commitHead s i x (valueOf s.denoms x.comp) ++
        [byte (t.val + 1), byte ((s.till t).afterClose r).state.value] ++ r.judgeBytes)
      (State.endSession i { (s.moveIn x.comp).setTill t ((s.till t).afterClose r) with
        balance := ((s.balance : Int) + valueOf s.denoms x.comp - (s.till t).f).toNat }) := by
  rw [Int.add_sub_assoc] at hlow htop ⊢
  have hpost : postRefused s ((valueOf s.denoms x.comp : Int) - (s.till t).f) = false :=
    postRefused_of_range htop hlow
  have hmax : ¬maxAmount < valueOf s.denoms x.comp := Nat.not_lt.mpr hv
  simp only [commitTillClose, hin, if_neg hmax, hpost, Bool.false_eq_true, if_false]
  rfl

/-! ### The commit of a pickup (R93) -/

theorem commitPickup_stock {r : PortCode} (h : inRefusal s x.comp = some r) :
    commitPickup i x t s = .refused r s := by
  simp only [commitPickup, h]

theorem commitPickup_limit (hin : inRefusal s x.comp = none)
    (h : 2000000000 < (s.till t).p + valueOf s.denoms x.comp ∨ 65535 ≤ (s.till t).pickups ∨
      2000000000 < s.balance + valueOf s.denoms x.comp) :
    commitPickup i x t s = .refused .limit s := by
  simp only [commitPickup, hin]
  split
  · rfl
  next hp =>
  split
  · rfl
  next hn =>
  refine if_pos (postRefused_of_outside (.inr ?_))
  have := (h.resolve_left hp).resolve_left hn
  omega

/-- The till after a pickup commit (R93). -/
def Till.afterPickup (value : Nat) (y : Till) : Till :=
  { y with p := y.p + value, pickups := y.pickups + 1, lane := none }

/-- The state after a pickup commit, but for the till's SKIM entry (R93). -/
def State.afterPickup (i : LaneIx) (t : TillIx) (k : Comp) (s : State) : State :=
  State.endSession i { (s.moveIn k).setTill t ((s.till t).afterPickup (valueOf s.denoms k)) with
    balance := s.balance + valueOf s.denoms k }

theorem commitPickup_taken (hin : inRefusal s x.comp = none)
    (hb : s.balance + valueOf s.denoms x.comp ≤ 2000000000)
    (hp : (s.till t).p + valueOf s.denoms x.comp ≤ 2000000000) (hn : (s.till t).pickups < 65535) :
    let y := (s.till t).afterPickup (valueOf s.denoms x.comp)
    let s1 := s.afterPickup i t x.comp
    commitPickup i x t s = .taken
      (commitHead s i x (valueOf s.denoms x.comp) ++ [byte (t.val + 1), byte y.state.value] ++ le 4 y.p ++
        le 2 y.pickups ++ leInt 4 y.drawer ++ (s1.skimOutcome t).bytes)
      (s1.reevaluateSkim t) := by
  have hpost : postRefused s (valueOf s.denoms x.comp) = false := postRefused_of_range (by omega) (by omega)
  have hmax : ¬maxAmount < (s.till t).p + valueOf s.denoms x.comp := Nat.not_lt.mpr hp
  have hcount : ¬maxCount ≤ (s.till t).pickups := Nat.not_le.mpr hn
  simp only [commitPickup, hin, if_neg hmax, if_neg hcount, hpost, Bool.false_eq_true, if_false]
  rfl

/-- A skim is due on these figures (R40, R46). -/
def Till.skimIsDue (y : Till) (unit : Nat) : Prop :=
  y.threshold ≠ 0 ∧ (y.threshold : Int) ≤ y.drawer ∧ suggested y unit ≠ 0

theorem skimDue_of_not_due {y : Till} {unit : Nat} (h : ¬y.skimIsDue unit) : skimDue y unit = 0 := by
  by_contra hne
  refine h ?_
  unfold skimDue at hne
  split at hne
  · exact absurd rfl hne
  split at hne
  · exact absurd rfl hne
  next h0 hlt => exact ⟨h0, Int.not_lt.mp hlt, hne⟩

theorem skimOutcome_absent (h : s.hasCall t .skim = false) : s.skimOutcome t = .absent := by
  rw [State.skimOutcome, h]
  rfl

theorem skimOutcome_removed (h : s.hasCall t .skim = true) (hd : ¬(s.till t).skimIsDue s.limits.skimUnit) :
    s.skimOutcome t = .removed := by
  rw [State.skimOutcome, if_pos h, if_pos (skimDue_of_not_due hd)]

theorem skimOutcome_updated (h : s.hasCall t .skim = true) (hd : (s.till t).skimIsDue s.limits.skimUnit) :
    s.skimOutcome t = .updated (suggested (s.till t) s.limits.skimUnit) := by
  obtain ⟨h0, hle, hne⟩ := hd
  rw [State.skimOutcome, if_pos h, skimDue_of_threshold h0 hle, if_neg hne]

theorem reevaluateSkim_absent (h : s.skimOutcome t = .absent) : s.reevaluateSkim t = s := by
  rw [State.reevaluateSkim, h]

theorem reevaluateSkim_removed (h : s.skimOutcome t = .removed) :
    s.reevaluateSkim t = s.removeCall t .skim := by
  rw [State.reevaluateSkim, h]

theorem reevaluateSkim_updated {m : Nat} (h : s.skimOutcome t = .updated m) :
    s.reevaluateSkim t = { s with
      calls := s.calls.map fun e => if e.isFor t .skim then { e with amount := some m } else e } := by
  rw [State.reevaluateSkim, h]
  dsimp only
  rw [mergeCall_skim]
  congr 1
  refine List.map_congr_left fun e _ => ?_
  simp only [CallEntry.isFor, Bool.and_eq_true, decide_eq_true_iff]

theorem afterPickup_busyWith (b : Byte) (k : Comp) :
    (s.busyWith b).afterPickup i t k = (s.afterPickup i t k).busyWith b := rfl

theorem skimOutcome_busyWith (b : Byte) : (s.busyWith b).skimOutcome t = s.skimOutcome t := rfl

theorem reevaluateSkim_busyWith (b : Byte) :
    (s.busyWith b).reevaluateSkim t = (s.reevaluateSkim t).busyWith b := by
  cases ho : s.skimOutcome t <;> simp only [State.reevaluateSkim, skimOutcome_busyWith, ho] <;> rfl

theorem afterPickup_till (k : Comp) :
    (s.afterPickup i t k).till t = (s.till t).afterPickup (valueOf s.denoms k) :=
  Vector.getElem_set_self _

end

/-- Settles O34: the refusals, the close count and the pickup of COUNT-COMMIT. -/
theorem commitOfTills : Obligations.CommitOfTills := by
  refine ⟨?_, ?_⟩
  · intro n s a i hs ha hlen hi refused
    refine ⟨fun h => ?_, fun h => ?_, fun h => ?_, ?_⟩
    · exact exec_refuses .countCommit n s hs ha (countCommit_unprofiled (s := s.busyWith _) hlen hi h)
    · exact exec_refuses .countCommit n s hs ha (countCommit_fault (s := s.busyWith _) hlen hi h)
    · exact exec_refuses .countCommit n s hs ha (countCommit_notHeld (s := s.busyWith _) hlen hi h)
    · intro x t h hx hpur k value
      have hcommit (b : Byte) := countCommit_of_session (s := s.busyWith b) hlen hi h hx
      refine ⟨fun r hr => ?_, fun hin => ⟨fun hp hlim => ?_, fun hp hlim => ?_⟩⟩
      · refine exec_refuses .countCommit n s hs ha ((hcommit _).trans ?_)
        obtain hp | hp := hpur
        · rw [commitSession, hp]
          exact commitTillClose_stock hr
        · rw [commitSession, hp]
          exact commitPickup_stock hr
      · refine exec_refuses .countCommit n s hs ha ((hcommit _).trans ?_)
        rw [commitSession, hp]
        exact commitTillClose_limit hin hlim
      · refine exec_refuses .countCommit n s hs ha ((hcommit _).trans ?_)
        rw [commitSession, hp]
        exact commitPickup_limit hin hlim
  · intro n s a i x t hs ha hlen hi hx h k value suspect units head idle hin hv
    have hcommit (b : Byte) := countCommit_of_session (s := s.busyWith b) hlen hi h hx
    refine ⟨?_, ?_⟩
    · intro hp b q till hlow htop
      refine exec_takes .countCommit n s hs ha ((hcommit _).trans ?_)
      rw [commitSession, hp]
      refine (commitTillClose_taken (s := s.busyWith _) hin hv hlow htop).trans ?_
      rw [commitHead, hp, LastResult.judgeBytes]
      simp only [List.append_assoc]
      rfl
    · intro hp hb hpm hn till amount due skim reply done
      have htaken (o : SkimOutcome) (u : State) (ho : (s.afterPickup i t k).skimOutcome t = o)
          (hu : (s.afterPickup i t k).reevaluateSkim t = u) :
          exec (.countCommit (whole n)) s = .next (completed .countCommit n
            (head 2 ++ [byte (t.val + 1), byte till.state.value] ++ le 4 till.p ++ le 2 till.pickups ++
              leInt 4 till.drawer ++ o.bytes) u) := by
        refine exec_takes .countCommit n s hs ha ((hcommit _).trans ?_)
        rw [commitSession, hp]
        refine (commitPickup_taken (s := s.busyWith _) hin hb hpm hn).trans ?_
        rw [afterPickup_busyWith, skimOutcome_busyWith, reevaluateSkim_busyWith, ho, hu, commitHead, hp]
        simp only [List.append_assoc]
        rfl
      refine ⟨fun hno => ?_, fun hhas hdue => ?_, fun hhas hdue => ?_⟩
      · have ho : (s.afterPickup i t k).skimOutcome t = .absent := skimOutcome_absent hno
        exact htaken _ _ ho (reevaluateSkim_absent ho)
      · have ho : (s.afterPickup i t k).skimOutcome t = .removed :=
          skimOutcome_removed hhas (by rw [afterPickup_till]; exact hdue)
        exact htaken _ _ ho (reevaluateSkim_removed ho)
      · have ho := skimOutcome_updated (s := s.afterPickup i t k) (t := t) hhas (by rw [afterPickup_till]; exact hdue)
        rw [afterPickup_till] at ho
        exact htaken _ _ ho (reevaluateSkim_updated ho)

end Sys2Proof.Machine

namespace Sys2Proof.Machine

/-! ### The commit of a delivery (R140, R141) -/

section
variable {s : State} {i : LaneIx} {x : Session} {j : SlotIx} {m : Manifest} {d : Delivery} {k : Nat}

theorem commitDelivery_bound (hj : s.findMan k = some j) (hm : s.man j = some m) (hd : m.body = .delivery d)
    (hst : m.state = .receiving) : commitDelivery i x k s = commitDeliveryTo i x j m d s := by
  simp only [commitDelivery, hj, hm, hd, hst]

theorem commitDeliveryTo_stock {r : PortCode} (h : inRefusal s x.comp = some r) :
    commitDeliveryTo i x j m d s = .refused r s := by
  simp only [commitDeliveryTo, h]

theorem commitDeliveryTo_limit (hin : inRefusal s x.comp = none)
    (h : 2000000000 < valueOf s.denoms x.comp ∨ 2000000000 < s.balance + valueOf s.denoms x.comp) :
    commitDeliveryTo i x j m d s = .refused .limit s := by
  simp only [commitDeliveryTo, hin]
  split
  · rfl
  next hv =>
  refine if_pos (postRefused_of_outside (.inr ?_))
  have := h.resolve_left hv
  omega

theorem commitDeliveryTo_taken (hin : inRefusal s x.comp = none) (hv : valueOf s.denoms x.comp ≤ 2000000000)
    (hb : s.balance + valueOf s.denoms x.comp ≤ 2000000000) :
    let n := deliveryCount s d x.comp
    commitDeliveryTo i x j m d s = .taken
      (commitHead s i x (valueOf s.denoms x.comp) ++ le 2 m.number ++ [byte ManState.counted.value] ++
        le 4 d.declared ++ leInt 4 n.total ++ byte n.variance.length :: n.variance.flatMap VarLine.bytes)
      (State.endSession i { (s.moveIn x.comp).setMan j (some { m with
          state := .counted, body := .delivery { d with lane := none, count := some n } }) with
        balance := s.balance + valueOf s.denoms x.comp }) := by
  have hpost : postRefused s (valueOf s.denoms x.comp) = false := postRefused_of_range (by omega) (by omega)
  have hmax : ¬maxAmount < valueOf s.denoms x.comp := Nat.not_lt.mpr hv
  simp only [commitDeliveryTo, hin, if_neg hmax, hpost, Bool.false_eq_true, if_false]
  rfl

/-! ### The commit of an audit (R99, R100) -/

/-- The value difference of a code of the audit set: its counted figures against the stock (R99). -/
theorem exactDiff_within (d : Vector Denom 12) {q : CodeSet} {c : Code} (h : has q c = true) (f g : Code → Counts) :
    exactDiff d (within q f) (within q g) c =
      (((f c).fit + (f c).unfit) * d[c].face : Nat) - (((g c).fit + (g c).unfit) * d[c].face : Nat) := by
  simp only [exactDiff, within, tab_get, h, if_true]

theorem exactDiff_outside (d : Vector Denom 12) {q : CodeSet} {c : Code} (h : ¬has q c = true)
    (f g : Code → Counts) : exactDiff d (within q f) (within q g) c = 0 := by
  have hnone (f : Code → Counts) : (within q f)[c] = Counts.zero := (tab_get _ c).trans (if_neg h)
  simp only [exactDiff, hnone, Counts.zero, Nat.add_zero, Nat.zero_mul, Nat.cast_zero, Int.sub_zero]

theorem sumOver_congr {q : CodeSet} {f g : Code → Int} (h : ∀ c, has q c = true → f c = g c) :
    sumOver q f = sumOver q g := by
  unfold sumOver
  rw [List.map_congr_left fun c hc => h c (List.mem_filter.mp hc).2]

/-- The value difference of a code between a count and the stock of the state (R99). -/
def stockDiff (s : State) (k : Comp) (c : Code) : Int :=
  (((k[c].fit + k[c].unfit) * s.denoms[c].face : Nat) : Int) -
    ((s.stock[c].counts.fit + s.stock[c].counts.unfit) * s.denoms[c].face : Nat)

theorem auditOf_eq (q : CodeSet) (k : Comp) : auditOf s q k =
    ⟨q, tab fun c => if has q c then s.stock[c].counts else ⟨0, 0, 0⟩,
      tab fun c => if has q c then k[c] else ⟨0, 0, 0⟩,
      tab fun c => if has q c then saturate (stockDiff s k c) else 0,
      saturate (sumOver q (stockDiff s k))⟩ := by
  have hdiff (c : Code) : saturate (exactDiff s.denoms (within q fun c => k[c])
      (within q fun c => s.stock[c].counts) c) = if has q c then saturate (stockDiff s k c) else 0 := by
    split
    · next h =>
      rw [exactDiff_within _ h]
      rfl
    · next h =>
      rw [exactDiff_outside _ h]
      rfl
  have htotal := sumOver_congr (q := q) (f := exactDiff s.denoms (within q fun c => k[c])
    (within q fun c => s.stock[c].counts)) (g := stockDiff s k) fun c h => exactDiff_within _ h _ _
  rw [auditOf, htotal]
  simp only [hdiff]
  rfl

theorem auditOf_diff {q : CodeSet} (k : Comp) {c : Code} (h : has q c = true) :
    (auditOf s q k).diff[c] = saturate (stockDiff s k c) := by
  rw [auditOf_eq]
  exact (tab_get _ c).trans (if_pos h)

/-- The reply of an audit commit after its head (R100). -/
def auditTail (s : State) (q : CodeSet) (k : Comp) : List Byte :=
  byte (codes.filter (has q)).length :: leInt 4 (auditOf s q k).total ++
    (codes.filter (has q)).flatMap fun c => byte c.val :: leInt 4 (auditOf s q k).diff[c]

theorem commitAudit_taken (q : CodeSet) : commitAudit i x q s = .taken
    (commitHead s i x (auditHead (valueOf s.denoms x.comp)) ++ auditTail s q x.comp)
    (State.endSession i { s.freeze q false with audit := some (auditOf s q x.comp) }) :=
  congrArg (Answer.taken · _) (List.append_assoc _ _ _)

theorem auditTail_eq (q : CodeSet) (k : Comp) : auditTail s q k =
    [byte (codes.filter (has q)).length] ++ leInt 4 (saturate (sumOver q (stockDiff s k))) ++
      (codes.filter (has q)).flatMap fun c => byte c.val :: leInt 4 (saturate (stockDiff s k c)) := by
  have htotal : (auditOf s q k).total = saturate (sumOver q (stockDiff s k)) := by
    rw [auditOf_eq]
  unfold auditTail
  rw [htotal, List.flatMap_congr fun c hc =>
    congrArg (fun v => byte c.val :: leInt 4 v) (auditOf_diff k (List.mem_filter.mp hc).2)]
  rfl

end

/-! ### The decisions on an audit (R101, R102) -/

section
variable {a : List Byte} {s : State} {r : AuditResult}

theorem stale_any_iff : codes.any (r.stale s) = true ↔
    ∃ c : Code, has r.codes c = true ∧ s.stock[c].counts ≠ r.stock[c] := by
  rw [codes_any_iff]
  simp [AuditResult.stale]

theorem stale_any_eq_false (h : ∀ c : Code, has r.codes c = true → s.stock[c].counts = r.stock[c]) :
    codes.any (r.stale s) = false := by
  rw [← Bool.not_eq_true, stale_any_iff]
  rintro ⟨c, hc, hne⟩
  exact hne (h c hc)

theorem auditAccept_stale (hlen : a.length = 3) (hlock : s.auth.lockout = 0) (hcode : arg a 0 3 = s.auth.code)
    (hle : s.auth.code ≤ 999999) (hr : s.audit = some r)
    (h : ∃ c : Code, has r.codes c = true ∧ s.stock[c].counts ≠ r.stock[c]) :
    auditAcceptEffect a s = .refused .state s.matched := by
  have hr' : s.matched.audit = some r := hr
  have hstale : codes.any (r.stale s.matched) = true := stale_any_iff.mpr h
  rw [auditAcceptEffect, if_neg (not_not.mpr hlen), withAuthority_matched _ _ _ hlock hcode hle]
  simp only [hr', hstale, if_true]

theorem auditAccept_taken (hlen : a.length = 3) (hlock : s.auth.lockout = 0) (hcode : arg a 0 3 = s.auth.code)
    (hle : s.auth.code ≤ 999999) (hr : s.audit = some r)
    (h : ∀ c : Code, has r.codes c = true → s.stock[c].counts = r.stock[c])
    (hlow : 0 ≤ (s.balance : Int) + sumOver r.codes (exactDiff s.denoms r.counted r.stock))
    (htop : (s.balance : Int) + sumOver r.codes (exactDiff s.denoms r.counted r.stock) ≤ 2000000000) :
    let delta := sumOver r.codes (exactDiff s.denoms r.counted r.stock)
    auditAcceptEffect a s = .taken
      (leInt 4 delta ++ le 2 r.codes.toNat ++
        (codes.filter (has r.codes)).flatMap fun c =>
          stockBytes s.stock[c].counts ++ le 2 r.counted[c].fit ++ le 2 r.counted[c].unfit ++
            le 2 r.counted[c].suspect)
      { s.matched.setAudited r with balance := ((s.balance : Int) + delta).toNat, audit := none } := by
  have hr' : s.matched.audit = some r := hr
  have hstale : codes.any (r.stale s.matched) = false := stale_any_eq_false h
  have hpost : postRefused s.matched (sumOver r.codes (exactDiff s.matched.denoms r.counted r.stock)) = false :=
    postRefused_of_range htop hlow
  rw [auditAcceptEffect, if_neg (not_not.mpr hlen), withAuthority_matched _ _ _ hlock hcode hle]
  simp only [hr', hstale, hpost, Bool.false_eq_true, if_false]
  rfl

theorem auditDiscard_taken (hr : s.audit = some r) : auditDiscardEffect [] s =
    .taken (le 2 r.codes.toNat ++ leInt 4 r.total) { s with audit := none } := by
  simp only [auditDiscardEffect, noArgs, hr]
  rfl

theorem auditDiscard_none (hr : s.audit = none) : auditDiscardEffect [] s = .refused .state s := by
  simp only [auditDiscardEffect, noArgs, hr]
  rfl

end

/-- Settles O36: AUDIT-ACCEPT on a stale and on a current result, and AUDIT-DISCARD. -/
theorem auditDecisions : Obligations.AuditDecisions := by
  intro n s a hs ha
  refine ⟨?_, ?_⟩
  · intro r hlen hlock hcode hle hr delta
    refine ⟨fun h => ?_, fun h hlow htop => ?_⟩
    · exact exec_refuses .auditAccept n s hs ha (auditAccept_stale (s := s.busyWith _) hlen hlock hcode hle hr h)
    · refine exec_takes .auditAccept n s hs ha
        ((auditAccept_taken (s := s.busyWith _) hlen hlock hcode hle hr h hlow htop).trans ?_)
      simp only [stockBytes, List.append_assoc]
      rfl
  · rintro rfl
    exact ⟨fun r hr => exec_takes .auditDiscard n s hs ha (auditDiscard_taken (s := s.busyWith _) hr),
      fun hr => exec_refuses .auditDiscard n s hs ha (auditDiscard_none (s := s.busyWith _) hr)⟩

/-- Settles O35: the commits of a delivery and of an audit. -/
theorem commitOfDeliveryAndAudit : Obligations.CommitOfDeliveryAndAudit := by
  intro n s a i x hs ha hlen hi hx h k value suspect units idle
  have hcommit (b : Byte) := countCommit_of_session (s := s.busyWith b) hlen hi h hx
  refine ⟨fun j m d hp hj hm hd hst => ⟨fun r hr => ?_, fun hin hlim => ?_⟩, ?_, ?_⟩
  · refine exec_refuses .countCommit n s hs ha ((hcommit _).trans ?_)
    rw [commitSession, hp]
    exact (commitDelivery_bound (s := s.busyWith _) hj hm hd hst).trans (commitDeliveryTo_stock hr)
  · refine exec_refuses .countCommit n s hs ha ((hcommit _).trans ?_)
    rw [commitSession, hp]
    exact (commitDelivery_bound (s := s.busyWith _) hj hm hd hst).trans (commitDeliveryTo_limit hin hlim)
  · intro j m d hp hj hm hd hst hin hv hb line lines total
    refine exec_takes .countCommit n s hs ha ((hcommit _).trans ?_)
    rw [commitSession, hp]
    refine ((commitDelivery_bound (s := s.busyWith _) hj hm hd hst).trans
      (commitDeliveryTo_taken hin hv hb)).trans ?_
    rw [commitHead, hp]
    simp only [List.append_assoc]
    rfl
  · intro m hp diff total
    have hlen15 := commitHead_length s i x (auditHead value)
    refine ⟨commitHead s i x (auditHead value) ++ auditTail s m k,
      exec_takes .countCommit n s hs ha ((hcommit _).trans ?_), fun hv => ?_, ?_⟩
    · rw [commitSession, hp]
      refine (commitAudit_taken m).trans ?_
      rw [auditOf_eq]
      rfl
    · rw [List.take_left' hlen15, commitHead, hp, auditHead, if_pos (show value ≤ maxAmount from hv)]
      rfl
    · rw [List.drop_left' hlen15, auditTail_eq]
      rfl

end Sys2Proof.Machine

namespace Sys2Proof.Machine

/-! ### Filling a bag (R105, R108 to R110) -/

section
variable {a : List Byte} {s : State} {b : BagIx} {x : Bag} {c : Code} {k : CashClass}

theorem freeBag_of_lowest (hb : s.bag b = none) (hlow : ∀ c, c < b → s.bag c ≠ none) : s.freeBag = some b := by
  refine finRange_find?_eq_some (by rw [hb]; rfl) fun c hc => ?_
  rw [← Bool.not_eq_true, Option.isNone_iff_eq_none]
  exact hlow c hc

theorem bagOpen_taken {kind : BagKind} (hlen : a.length = 6) (hk : bagKindOf (arg a 5 1) = some kind)
    (hlow : 1 ≤ arg a 0 5) (htop : arg a 0 5 ≤ 9999999999) (htag : s.tagBag (arg a 0 5) = none)
    (hfree : s.freeBag = some b) : bagOpenEffect a s =
      .taken ([byte (b.val + 1)] ++ le 5 (arg a 0 5) ++ [byte kind.value])
        (s.setBag b (some ⟨arg a 0 5, kind, .filling, [], 0, 0, 0, none, none⟩)) := by
  have hok : tagOk (arg a 0 5) = true := (tagOk_iff _).mpr ⟨hlow, htop⟩
  simp only [bagOpenEffect, hlen, hk, hok, htag, hfree, ne_eq, not_true_eq_false, Bool.true_eq_false,
    Option.isSome_none, Bool.false_eq_true, if_false]
  rfl

/-- The arguments name a line the bag may hold, with a number of units (R109 step 1). -/
structure LineSound (a : List Byte) (s : State) (x : Bag) (c : Code) (k : CashClass) : Prop where
  code : arg a 1 1 = c.val
  cls : classOf (arg a 2 1) = some k
  used : s.denoms[c].kind ≠ .unused
  roll : s.denoms[c].kind = .roll → k = .fit
  takes : x.kind.takes k = true
  low : 1 ≤ arg a 3 2
  top : arg a 3 2 ≤ 3000

theorem usedPair_of_sound (h : LineSound a s x c k) : usedPair s.denoms (arg a 1 1) (arg a 2 1) = some (c, k) := by
  have hfit : (decide (s.denoms[c].kind = .roll) && k != .fit) = false := by
    by_cases hroll : s.denoms[c].kind = .roll
    · rw [h.roll hroll]
      exact Bool.and_false _
    · rw [decide_eq_false hroll, Bool.false_and]
  simp only [usedPair, usedCode_of h.code h.used, h.cls, hfit, Bool.false_eq_true, if_false]

theorem bagLineArg_of_sound (h : LineSound a s x c k) : bagLineArg a s x = some (c, k, arg a 3 2) := by
  simp only [bagLineArg, usedPair_of_sound h, h.takes, decide_eq_true h.low, decide_eq_true h.top, Bool.and_self,
    if_true]

theorem bagAdd_taken (hlen : a.length = 5) (hb : bagOf (arg a 0 1) = some b) (hx : s.bag b = some x)
    (h : LineSound a s x c k) (hst : x.state = .filling) (hout : outRefusal s (Comp.only c k (arg a 3 2)) = none)
    (hunits : x.units + arg a 3 2 ≤ 3000)
    (hlim : (x.withLines s.denoms (addLine c k (arg a 3 2) x.lines)).value ≤ s.limits.bagLimit) :
    let y := x.withLines s.denoms (addLine c k (arg a 3 2) x.lines)
    bagAddEffect a s =
      .taken (bagLineReply b c k y) ((s.moveOut (Comp.only c k (arg a 3 2))).setBag b (some y)) := by
  rw [bagAddEffect, withBag_of hlen hb hx]
  simp only [bagLineArg_of_sound h, hst, ne_eq, not_true_eq_false, if_false, hout, if_neg (Nat.not_lt.mpr hunits),
    if_neg (Nat.not_lt.mpr hlim)]

theorem bagReturn_taken (hlen : a.length = 5) (hb : bagOf (arg a 0 1) = some b) (hx : s.bag b = some x)
    (h : LineSound a s x c k) (hst : x.state = .filling) (hheld : arg a 3 2 ≤ lineHeld x.lines c k)
    (hin : inRefusal s (Comp.only c k (arg a 3 2)) = none) :
    let y := x.withLines s.denoms (takeLine c k (arg a 3 2) x.lines)
    bagReturnEffect a s =
      .taken (bagLineReply b c k y) ((s.moveIn (Comp.only c k (arg a 3 2))).setBag b (some y)) := by
  rw [bagReturnEffect, withBag_of hlen hb hx]
  simp only [bagLineArg_of_sound h, hst, ne_eq, not_true_eq_false, if_false, hin, if_neg (Nat.not_lt.mpr hheld)]

theorem bagReturn_short (hlen : a.length = 5) (hb : bagOf (arg a 0 1) = some b) (hx : s.bag b = some x)
    (h : LineSound a s x c k) (hst : x.state = .filling) (hheld : lineHeld x.lines c k < arg a 3 2) :
    bagReturnEffect a s = .refused .stock s := by
  rw [bagReturnEffect, withBag_of hlen hb hx]
  simp only [bagLineArg_of_sound h, hst, ne_eq, not_true_eq_false, if_false, if_pos hheld]

end

/-- Settles O37: BAG-OPEN, BAG-ADD and BAG-RETURN. -/
theorem bagFilling : Obligations.BagFilling := by
  intro n s a hs ha
  refine ⟨fun b k hlen hk hlow htop habs hfree hless => ?_, ?_⟩
  · exact exec_takes .bagOpen n s hs ha (bagOpen_taken (s := s.busyWith _) hlen hk hlow htop
      (tagBag_of_absent _ habs) (freeBag_of_lowest hfree hless))
  · intro b x c k hlen hb hx hcode hcls hused hroll htakes hlow htop hst q here filled reply
    have hsound (y : Byte) : LineSound a (s.busyWith y) x c k := ⟨hcode, hcls, hused, hroll, htakes, hlow, htop⟩
    refine ⟨fun hout hunits hlim => ?_, fun hheld hin => ?_, fun hshort => ?_⟩
    · exact exec_takes .bagAdd n s hs ha
        (bagAdd_taken (s := s.busyWith _) hlen hb hx (hsound _) hst hout hunits hlim)
    · exact exec_takes .bagReturn n s hs ha
        (bagReturn_taken (s := s.busyWith _) hlen hb hx (hsound _) hst hheld hin)
    · exact exec_refuses .bagReturn n s hs ha (bagReturn_short (s := s.busyWith _) hlen hb hx (hsound _) hst hshort)

/-! ### Placement (R115, R116) -/

theorem placeFrom_of_halt (r : List BagIx) (s : State) (h : s.rack.halt = true) :
    State.placeFrom r s = { s with rack := { s.rack with queue := r } } := by
  cases r with
  | nil => rfl
  | cons b r => exact placeFrom_halted b r s h

/-- A bag entered into a compartment leaves the next one as it was (R116). -/
theorem entered_next (b : BagIx) (s : State) :
    (s.entered b).rack.comps[s.rack.ptr + 1] = s.rack.comps[s.rack.ptr + 1] := by
  have hne : ∀ c : CompIx, c ≠ c + 1 := by decide
  exact Vector.getElem_set_ne s.rack.ptr.isLt _ fun e => hne s.rack.ptr (Fin.ext e)

/-- Settles O38: the placement of an empty queue, of a halted one, and of its head. -/
theorem placementRotates : Obligations.PlacementRotates := by
  intro b r s
  obtain ⟨hroom, hturn, hhalt⟩ := placeOne_cases b s
  rw [entered_next] at hturn hhalt
  refine ⟨rfl, placeFrom_halted b r s, fun h => ?_⟩
  have hplace : State.placeFrom (b :: r) s = State.placeFrom r (s.placeOne b) := placeFrom_free b r s (by simp [h])
  refine ⟨fun hlt => ?_, fun hle hnext => ?_, fun hle hnext => ?_⟩
  · rw [hplace, hroom hlt]
    rfl
  · rw [hplace, hturn (Nat.not_lt.mpr hle) hnext]
    rfl
  · rw [hplace, hhalt (Nat.not_lt.mpr hle) hnext, placeFrom_of_halt _ _ rfl]
    rfl

/-! ### Shutting and breaking a bag, and the rack (R111, R112, R119) -/

section
variable {a : List Byte} {s : State} {b : BagIx} {x : Bag}

/-- The reply of BAG-SHUT before the bag's place (R111). -/
def shutHead (b : BagIx) (x : Bag) : List Byte :=
  [byte (b.val + 1)] ++ le 5 x.tag ++ le 4 x.value ++ le 2 x.units ++ le 4 x.suspectSum

theorem shutHead_length : (shutHead b x).length = 16 := by
  simp only [shutHead, List.length_append, le_length, List.length_cons, List.length_nil]

theorem bagShut_taken (hlen : a.length = 1) (hb : bagOf (arg a 0 1) = some b) (hx : s.bag b = some x)
    (hst : x.state = .filling) (hl : x.lines ≠ []) : bagShutEffect a s =
      .taken (shutHead b x ++ shutReply b (s.sealBag b x).place) (s.sealBag b x).place := by
  rw [bagShutEffect, withBag_of hlen hb hx]
  simp only [hst, ne_eq, not_true_eq_false, if_false, if_neg hl, shutHead, List.append_assoc]
  rfl

theorem bagShut_refused (hlen : a.length = 1) (hb : bagOf (arg a 0 1) = some b) (hx : s.bag b = some x)
    (h : x.state ≠ .filling ∨ x.lines = []) : bagShutEffect a s = .refused .state s := by
  rw [bagShutEffect, withBag_of hlen hb hx]
  dsimp only
  split
  · rfl
  next hst => rw [if_pos (h.resolve_left hst)]

theorem bagBreak_manifested (hlen : a.length = 4) (hb : bagOf (arg a 0 1) = some b) (hx : s.bag b = some x)
    (hlock : s.auth.lockout = 0) (hcode : arg a 1 3 = s.auth.code) (hle : s.auth.code ≤ 999999)
    (hst : x.state = .manifested) : bagBreakEffect a s = .refused .state s.matched := by
  rw [bagBreakEffect, withBag_of hlen hb hx, withAuthority_matched _ _ _ hlock hcode hle]
  exact if_pos hst

/-- The state after a bag's lines are back in the stock and the bag is retired, before a lift (R112). -/
def State.broken (b : BagIx) (x : Bag) (s : State) : State :=
  (s.matched.moveIn (linesComp x.lines)).retireBag b

/-- The reply of BAG-BREAK: the bag, and the halt mark and the placements of the lift (R112). -/
def breakReply (b : BagIx) (x : Bag) (s1 s2 : State) : List Byte :=
  byte (b.val + 1) :: (le 5 x.tag ++
    [byte x.state.value, indexByte (x.comp.map Fin.val), boolByte s2.rack.halt,
      byte (s1.rack.queue.length - s2.rack.queue.length)] ++
    le 4 x.value ++ le 4 x.suspectSum ++ linesBytes x.lines)

theorem bagBreak_taken (hlen : a.length = 4) (hb : bagOf (arg a 0 1) = some b) (hx : s.bag b = some x)
    (hlock : s.auth.lockout = 0) (hcode : arg a 1 3 = s.auth.code) (hle : s.auth.code ≤ 999999)
    (hst : x.state ≠ .manifested) (hin : inRefusal s (linesComp x.lines) = none) :
    bagBreakEffect a s =
      .taken (breakReply b x (s.broken b x) (s.broken b x).liftHalt) (s.broken b x).liftHalt := by
  have hin' : inRefusal s.matched (linesComp x.lines) = none := hin
  rw [bagBreakEffect, withBag_of hlen hb hx, withAuthority_matched _ _ _ hlock hcode hle]
  simp only [if_neg hst, hin']
  rfl

theorem broken_busyWith (y : Byte) : (s.busyWith y).broken b x = (s.broken b x).busyWith y := rfl

/-- Without the last bag of the pointer's compartment of a halted rack, a break lifts nothing. -/
theorem broken_comps : (s.broken b x).rack.comps[s.rack.ptr] = s.rack.comps[s.rack.ptr].filter fun c => c != b := by
  simp [State.broken, State.retireBag, State.unplace, mapT]
  rfl

theorem rackHolds_iff (r : Rack) : r.holds = true ↔ (∃ c : CompIx, r.comps[c] ≠ []) ∨ r.queue ≠ [] := by
  simp only [Rack.holds, Bool.or_eq_true, lanesAll_any_iff, Bool.not_eq_true', List.isEmpty_eq_false_iff]

end

theorem rackSet_eq (k : Byte) {s : State} (hlow : 1 ≤ k.toNat) (htop : k.toNat ≤ 12) : rackSetEffect [k] s =
    if s.rack.holds then .refused .engaged s
    else .taken [k, 0] { s with rack := { s.rack with k := k.toNat, ptr := 0 } } := by
  have hbyte : byte k.toNat = k := (BitVec.ofNat_toNat 8 k).trans (BitVec.setWidth_eq k)
  rw [rackSetEffect, if_neg (by simp), arg_single, if_neg (by omega), hbyte]

/-- Settles O39: BAG-SHUT, BAG-BREAK and RACK-SET. -/
theorem bagsShutAndBroken : Obligations.BagsShutAndBroken := by
  intro n s a hs ha
  refine ⟨fun b x hlen hb hx => ⟨fun hst hl => ?_, fun h => ?_⟩, ?_, ?_⟩
  · refine ⟨shutHead b x ++ shutReply b (s.sealBag b x).place, ?_, List.take_left' shutHead_length⟩
    refine exec_takes .bagShut n s hs ha ((bagShut_taken (s := s.busyWith _) hlen hb hx hst hl).trans ?_)
    have hplace (y : Byte) : ((s.busyWith y).sealBag b x).place = (s.sealBag b x).place.busyWith y :=
      place_busyWith y (s.sealBag b x)
    rw [hplace]
    rfl
  · exact exec_refuses .bagShut n s hs ha (bagShut_refused (s := s.busyWith _) hlen hb hx h)
  · intro b x hlen hb hx hlock hcode hle
    refine ⟨fun hst => ?_, ?_⟩
    · exact exec_refuses .bagBreak n s hs ha
        (bagBreak_manifested (s := s.busyWith _) hlen hb hx hlock hcode hle hst)
    · intro hst hin gone u
      have htaken (y : Byte) := bagBreak_taken (s := s.busyWith y) hlen hb hx hlock hcode hle hst hin
      have hcomps : u.rack.comps[s.rack.ptr] = gone s.rack.comps[s.rack.ptr] := broken_comps (s := s) (x := x)
      refine ⟨fun h => ?_, fun hhalt hempty => ⟨breakReply b x (s.broken b x) (s.broken b x).liftHalt, ?_⟩⟩
      · refine exec_takes .bagBreak n s hs ha ((htaken _).trans ?_)
        have hstays : (s.broken b x).liftHalt = s.broken b x :=
          liftHalt_stays _ fun hhalt he => h ⟨hhalt, hcomps.symm.trans he⟩
        rw [broken_busyWith, liftHalt_busyWith, hstays]
        simp only [breakReply, busyWith_rack, Nat.sub_self, List.append_assoc]
        rfl
      · have hlifts : (s.broken b x).liftHalt = State.place { u with rack := { u.rack with halt := false } } :=
          liftHalt_lifts _ hhalt (hcomps.trans hempty)
        refine exec_takes .bagBreak n s hs ha ((htaken _).trans ?_)
        rw [broken_busyWith, liftHalt_busyWith, hlifts]
        rfl
  · rintro k rfl hlow htop
    refine ⟨fun hcomps hqueue => ?_, fun h => ?_⟩
    · refine exec_takes .rackSet n s hs ha ((rackSet_eq k (s := s.busyWith _) hlow htop).trans (if_neg ?_))
      rw [rackHolds_iff]
      rintro (⟨c, hc⟩ | hq)
      · exact hc (hcomps c)
      · exact hq hqueue
    · exact exec_refuses .rackSet n s hs ha ((rackSet_eq k (s := s.busyWith _) hlow htop).trans
        (if_pos ((rackHolds_iff _).mpr h)))

end Sys2Proof.Machine

namespace Sys2Proof.Machine

/-! ### MAN-CREATE (R126) -/

section
variable {a : List Byte} {s : State} {i : SlotIx}

theorem findMan_of_absent {k : Nat} (h : ∀ j m, s.man j = some m → m.number ≠ k) : s.findMan k = none := by
  have hno (j : SlotIx) : ¬(s.man j).any (fun m => m.number == k) = true := by
    cases hm : s.man j with
    | none => simp
    | some m =>
      rw [Option.any_some, beq_iff_eq]
      exact h j m hm
  rw [State.findMan, if_neg (hno 0), if_neg (hno 1)]

theorem freeSlot_of_lowest (hi : s.man i = none) (hlow : ∀ j, j < i → s.man j ≠ none) : s.freeSlot = some i := by
  have hcases : ∀ i : SlotIx, i = 0 ∨ i = 1 := by decide
  obtain rfl | rfl := hcases i
  · rw [State.freeSlot, hi]
    rfl
  · have h0 : ¬(s.man 0).isNone = true := fun h => hlow 0 (by decide) (Option.isNone_iff_eq_none.mp h)
    rw [State.freeSlot, if_neg h0, hi]
    rfl

/-- The common fields of MAN-CREATE are within their ranges, and its number and a slot are free (R126). -/
structure CreateSound (a : List Byte) (s : State) (i : SlotIx) : Prop where
  number : arg a 1 2 ≠ 0
  courier : arg a 3 3 ≤ 999999
  opens : arg a 8 2 ≤ 1439
  closes : arg a 12 2 ≤ 1439
  window : arg a 6 2 * 1440 + arg a 8 2 < arg a 10 2 * 1440 + arg a 12 2
  absent : s.findMan (arg a 1 2) = none
  free : s.freeSlot = some i

theorem createFieldsOk_of_sound (h : CreateSound a s i) : createFieldsOk a = true := by
  have hwindow : (windowArg a).1.position < (windowArg a).2.position := h.window
  have hopens : (windowArg a).1.minute ≤ 1439 := h.opens
  have hcloses : (windowArg a).2.minute ≤ 1439 := h.closes
  simp only [createFieldsOk, decide_eq_true h.number, decide_eq_true h.courier, decide_eq_true hopens,
    decide_eq_true hcloses, decide_eq_true hwindow, Bool.and_self]

theorem manCreate_of_sound {body : ManBody} {clamped : Bool} (h : CreateSound a s i)
    (hb : createBody s.denoms a = some (body, clamped)) : manCreateEffect a s =
      if maxAmount < body.declared then .refused .limit s
      else .taken
        (byte i.val :: (le 2 (arg a 1 2) ++ [byte body.value, byte body.startState.value,
          byte body.rescanLimit, boolByte clamped] ++ le 4 body.declared))
        (s.setMan i (some ⟨arg a 1 2, body.startState, arg a 3 3, (windowArg a).1, (windowArg a).2, 0, body⟩)) := by
  simp only [manCreateEffect, hb, createFieldsOk_of_sound h, h.absent, h.free, Bool.true_eq_false, if_false,
    Option.isSome_none, Bool.false_eq_true]

theorem createBody_collection {d : Vector Denom 12} {p : Policy} (hkind : arg a 0 1 = 1) (hlen : a.length = 16)
    (hp : policyOf (arg a 14 1) = some p) : createBody d a =
      some (.collection ⟨p, clamp 1 3 (arg a 15 1), [], none⟩, clamp 1 3 (arg a 15 1) != arg a 15 1) := by
  simp only [createBody, hkind, hlen, hp, ne_eq, not_true_eq_false, if_false]

theorem createBody_delivery {d : Vector Denom 12} {l : List DeclLine} (hkind : arg a 0 1 = 2)
    (hlow : 1 ≤ arg a 14 1) (htop : arg a 14 1 ≤ 12) (hlen : a.length = 15 + 3 * arg a 14 1)
    (hl : readLines d (linePairs (a.drop 15)) = some l) (h0 : ∀ x ∈ l, x.count ≠ 0) : createBody d a =
      some (.delivery ⟨l, sumCodes fun c => lineCount l c * d[c].face, none, none⟩, false) := by
  have hlines : l.any (fun x => x.count == 0) = false := by
    rw [List.any_eq_false]
    intro x hx h
    exact h0 x hx (beq_iff_eq.mp h)
  have hvalue : fitValue d (lineCounts l) = sumCodes fun c => lineCount l c * d[c].face := by
    simp only [fitValue, lineCounts, tab_get]
  have hsize : ¬(a.length < 15 ∨ arg a 14 1 = 0 ∨ 12 < arg a 14 1 ∨ a.length ≠ 15 + 3 * arg a 14 1) := by omega
  simp only [createBody, hkind, if_neg hsize, hl, hlines, hvalue, Bool.false_eq_true, if_false]

end

/-- Settles O40: both kinds of manifest, and the declared value that is too great. -/
theorem manifestsCreated : Obligations.ManifestsCreated := by
  intro n s a i hs ha number opens closes hnum hcour hopens hcloses hwindow habs hfree hlow
  have hsound (y : Byte) : CreateSound a (s.busyWith y) i :=
    ⟨hnum, hcour, hopens, hcloses, hwindow, findMan_of_absent habs, freeSlot_of_lowest hfree hlow⟩
  refine ⟨?_, ?_⟩
  · intro p hlen hkind hp lim
    exact exec_takes .manCreate n s hs ha
      ((manCreate_of_sound (hsound _) (createBody_collection hkind hlen hp)).trans (if_neg (Nat.not_lt_zero _)))
  · intro l hkind h1 h12 hlen hl h0 declared
    have hbody := createBody_delivery (d := s.denoms) hkind h1 h12 hlen hl h0
    refine ⟨fun hle => ?_, fun hlt => ?_⟩
    · exact exec_takes .manCreate n s hs ha
        ((manCreate_of_sound (hsound _) hbody).trans (if_neg (Nat.not_lt.mpr hle)))
    · exact exec_refuses .manCreate n s hs ha ((manCreate_of_sound (hsound _) hbody).trans (if_pos hlt))

/-! ### The list of a collection in DRAFT (R127 to R129) -/

section
variable {a : List Byte} {s : State} {i : SlotIx} {m : Manifest} {c : Collection} {b : BagIx} {x : Bag}

theorem markBag_present (k : BagState) (hx : s.bag b = some x) :
    s.markBag b k = s.setBag b (some { x with state := k }) := by
  rw [State.markBag, hx]
  rfl

theorem manAdd_eq (hlen : a.length = 3) (hi : s.findMan (arg a 0 2) = some i) (hm : s.man i = some m)
    (hc : m.body = .collection c) (hst : m.state = .draft) (hb : bagOf (arg a 2 1) = some b)
    (hx : s.bag b = some x) (hplace : x.state = .placed ∨ x.state = .heldBack) : manAddEffect a s =
      if 24 ≤ c.entries.length then .refused .full s
      else .taken
        (le 2 m.number ++ [byte c.entries.length, byte (b.val + 1)] ++ le 5 x.tag ++ le 4 x.value ++
          [indexByte (x.comp.map Fin.val), byte (c.entries.length + 1)])
        ((s.setMan i (some { m with
          body := .collection { c with entries := c.entries ++ [⟨b, x.tag, .pending, 0⟩] } })).setBag b
            (some { x with state := .manifested })) := by
  have hbad : ¬(x.state ≠ .placed ∧ x.state ≠ .heldBack) := by tauto
  have hmark (u : Option Manifest) := markBag_present (s := s.setMan i u) .manifested hx
  rw [manAddEffect, withMan_of hlen hi hm]
  simp only [hc, hst, ne_eq, not_true_eq_false, if_false, hb, hx, if_neg hbad, hmark, List.length_append,
    List.length_singleton]
  rfl

theorem manRemove_eq (hlen : a.length = 3) (hi : s.findMan (arg a 0 2) = some i) (hm : s.man i = some m)
    (hc : m.body = .collection c) (hst : m.state = .draft) (hb : bagOf (arg a 2 1) = some b)
    (hx : s.bag b = some x) {e : Entry} (he : e ∈ c.entries) (heb : e.bag = b) : manRemoveEffect a s =
      .taken (le 2 m.number ++ [byte (b.val + 1), byte (c.entries.filter fun y => y.bag != b).length])
        ((s.setMan i (some { m with
          body := .collection { c with entries := c.entries.filter fun y => y.bag != b } })).setBag b
            (some { x with state := .placed })) := by
  have hlisted : c.entries.any (fun y => y.bag == b) = true := List.any_eq_true.mpr ⟨e, he, beq_iff_eq.mpr heb⟩
  have hmark (u : Option Manifest) := markBag_present (s := s.setMan i u) .placed hx
  rw [manRemoveEffect, withMan_of hlen hi hm]
  simp only [hc, hst, ne_eq, not_true_eq_false, if_false, hb, hlisted, if_true, hmark]

theorem manClose_eq (hlen : a.length = 2) (hi : s.findMan (arg a 0 2) = some i) (hm : s.man i = some m)
    (hc : m.body = .collection c) (hst : m.state = .draft) (hne : c.entries ≠ []) : manCloseEffect a s =
      .taken (le 2 m.number ++ byte c.entries.length :: le 4 (s.valueListed c))
        (s.setMan i (some { m with state := .ready })) := by
  rw [manCloseEffect, withMan_of hlen hi hm]
  simp only [hc, hst, ne_eq, not_true_eq_false, if_false, if_neg hne]

theorem manAdd_notDraft (hlen : a.length = 3) (hi : s.findMan (arg a 0 2) = some i) (hm : s.man i = some m)
    (hc : m.body = .collection c) (hst : m.state ≠ .draft) : manAddEffect a s = .refused .state s := by
  rw [manAddEffect, withMan_of hlen hi hm]
  simp only [hc, if_pos hst]

theorem manRemove_notDraft (hlen : a.length = 3) (hi : s.findMan (arg a 0 2) = some i) (hm : s.man i = some m)
    (hc : m.body = .collection c) (hst : m.state ≠ .draft) : manRemoveEffect a s = .refused .state s := by
  rw [manRemoveEffect, withMan_of hlen hi hm]
  simp only [hc, if_pos hst]

theorem manClose_notDraft (hlen : a.length = 2) (hi : s.findMan (arg a 0 2) = some i) (hm : s.man i = some m)
    (hc : m.body = .collection c) (hst : m.state ≠ .draft) : manCloseEffect a s = .refused .state s := by
  rw [manCloseEffect, withMan_of hlen hi hm]
  simp only [hc, if_pos hst]

end

/-- Settles O41: MAN-ADD, MAN-REMOVE and MAN-CLOSE, in DRAFT and out of it. -/
theorem manifestsPrepared : Obligations.ManifestsPrepared := by
  intro n s a i m c hs ha hi hm hc
  refine ⟨fun hst => ⟨fun b x hlen hb hx hplace => ⟨fun hlt => ?_, fun hle => ?_⟩, ?_, fun hlen hne => ?_⟩,
    fun hst => ⟨fun hlen => ⟨?_, ?_⟩, fun hlen => ?_⟩⟩
  · exact exec_takes .manAdd n s hs ha ((manAdd_eq (s := s.busyWith _) hlen hi hm hc hst hb hx hplace).trans
      (if_neg (Nat.not_le.mpr hlt)))
  · exact exec_refuses .manAdd n s hs ha ((manAdd_eq (s := s.busyWith _) hlen hi hm hc hst hb hx hplace).trans
      (if_pos hle))
  · intro b x e hlen hb hx he heb l
    exact exec_takes .manRemove n s hs ha (manRemove_eq (s := s.busyWith _) hlen hi hm hc hst hb hx he heb)
  · refine exec_takes .manClose n s hs ha ((manClose_eq (s := s.busyWith _) hlen hi hm hc hst hne).trans ?_)
    rw [List.append_assoc]
    rfl
  · exact exec_refuses .manAdd n s hs ha (manAdd_notDraft (s := s.busyWith _) hlen hi hm hc hst)
  · exact exec_refuses .manRemove n s hs ha (manRemove_notDraft (s := s.busyWith _) hlen hi hm hc hst)
  · exact exec_refuses .manClose n s hs ha (manClose_notDraft (s := s.busyWith _) hlen hi hm hc hst)

/-! ### MAN-CANCEL (R130) -/

section
variable {a : List Byte} {s : State} {i : SlotIx} {m : Manifest}

theorem manCancel_refused {r : PortCode} (hlen : a.length = 2) (hi : s.findMan (arg a 0 2) = some i)
    (hm : s.man i = some m) (h : m.cancelRefusal = some r) : manCancelEffect a s = .refused r s := by
  rw [manCancelEffect, withMan_of hlen hi hm]
  simp only [h]

theorem manCancel_taken (hlen : a.length = 2) (hi : s.findMan (arg a 0 2) = some i)
    (hm : s.man i = some m) (h : m.cancelRefusal = none) : manCancelEffect a s =
      .taken (le 2 m.number ++ [byte m.body.value, byte m.state.value, byte m.body.listedBags.length])
        (m.body.listedBags.foldl (fun s b => s.markBag b .placed) (s.setMan i none)) := by
  rw [manCancelEffect, withMan_of hlen hi hm]
  simp only [h]

theorem cancelRefusal_collection {c : Collection} (hc : m.body = .collection c)
    (h : m.state ∈ [ManState.draft, .ready, .suspended, .expired, .locked]) : m.cancelRefusal = none := by
  simp only [List.mem_cons, List.not_mem_nil, or_false] at h
  obtain h | h | h | h | h := h <;> simp only [Manifest.cancelRefusal, hc, h]

theorem cancelRefusal_delivery {d : Delivery} (hd : m.body = .delivery d)
    (h : m.state ∈ [ManState.ready, .expired, .locked] ∨ m.state = .receiving ∧ d.lane = none) :
    m.cancelRefusal = none := by
  simp only [List.mem_cons, List.not_mem_nil, or_false] at h
  obtain (h | h | h) | ⟨h, hl⟩ := h
  · simp only [Manifest.cancelRefusal, hd, h]
  · simp only [Manifest.cancelRefusal, hd, h]
  · simp only [Manifest.cancelRefusal, hd, h]
  · simp only [Manifest.cancelRefusal, hd, h, hl, Option.isSome_none, Bool.false_eq_true, if_false]

theorem markBag_bag (b c : BagIx) (k : BagState) (s : State) :
    (s.markBag b k).bag c = if c = b then (s.bag c).map fun x => { x with state := k } else s.bag c := by
  split
  · next h =>
    subst h
    exact Vector.getElem_set_self _
  · next h => exact Vector.getElem_set_ne b.isLt _ fun e => h (Fin.ext e.symm)

/-- A list of bags, each marked with one state (R130). -/
theorem markBags_bag (l : List BagIx) (k : BagState) (c : BagIx) (s : State) :
    (l.foldl (fun s b => s.markBag b k) s).bag c =
      if c ∈ l then (s.bag c).map fun x => { x with state := k } else s.bag c := by
  induction l generalizing s with
  | nil => rfl
  | cons b r ih =>
    rw [List.foldl_cons, ih, markBag_bag]
    by_cases hr : c ∈ r
    · rw [if_pos hr, if_pos (List.mem_cons_of_mem b hr)]
      split
      · rw [Option.map_map]
        rfl
      · rfl
    · by_cases hb : c = b
      · rw [if_neg hr, if_pos hb, if_pos (hb ▸ List.mem_cons_self)]
      · rw [if_neg hr, if_neg hb, if_neg (by simp [hr, hb])]

theorem markBags_busyWith (l : List BagIx) (k : BagState) (y : Byte) (s : State) :
    l.foldl (fun s b => s.markBag b k) (s.busyWith y) = (l.foldl (fun s b => s.markBag b k) s).busyWith y := by
  induction l generalizing s with
  | nil => rfl
  | cons b r ih => exact ih (s.markBag b k)

end

/-- Settles O42: a manifest cancelled by its kind and its state. -/
theorem manifestsCancelled : Obligations.ManifestsCancelled := by
  intro n s a i m hs ha hlen hi hm
  have htaken (y : Byte) := manCancel_taken (s := s.busyWith y) hlen hi hm
  have hrefused {r : PortCode} (h : m.cancelRefusal = some r) :
      exec (.manCancel (whole n)) s = .next (turnedAway .manCancel n r s) :=
    exec_refuses .manCancel n s hs ha (manCancel_refused (s := s.busyWith _) hlen hi hm h)
  refine ⟨fun c hc => ⟨?_, fun hst => ?_⟩, fun d hd => ⟨fun hst => ?_, fun hst hl => ?_, fun hst => ?_⟩⟩
  · intro hst l
    refine ⟨l.foldl (fun s b => s.markBag b .placed) (s.setMan i none), ?_, markBags_eq _ _ _,
      fun b => markBags_bag l .placed b _⟩
    refine exec_takes .manCancel n s hs ha ((htaken _ (cancelRefusal_collection hc hst)).trans ?_)
    rw [hc, ← markBags_busyWith]
    rfl
  · exact hrefused (by simp only [Manifest.cancelRefusal, hc, hst])
  · refine exec_takes .manCancel n s hs ha ((htaken _ (cancelRefusal_delivery hd hst)).trans ?_)
    rw [hd]
    rfl
  · exact hrefused (by simp only [Manifest.cancelRefusal, hd, hst, Option.isSome_iff_ne_none.mpr hl, if_true])
  · exact hrefused (by simp only [Manifest.cancelRefusal, hd, hst])

end Sys2Proof.Machine

namespace Sys2Proof.Machine

/-! ### COURIER-ARRIVE (R131, R132) -/

section
variable {a : List Byte} {s : State} {i : SlotIx} {m : Manifest}

/-- The clock stands in the window of a manifest (R125). -/
def Manifest.inside (m : Manifest) (c : Clock) : Prop :=
  m.opens.day * 1440 + m.opens.minute ≤ c.day * 1440 + c.minute ∧
    c.day * 1440 + c.minute < m.closes.day * 1440 + m.closes.minute

theorem outside_iff (m : Manifest) (c : Clock) : m.outside c = true ↔ ¬m.inside c := by
  rw [Manifest.outside, Bool.or_eq_true, decide_eq_true_iff, decide_eq_true_iff]
  simp only [Manifest.inside, Stamp.position, Clock.position, position]
  omega

theorem otherSlot_iff (i : SlotIx) : ∀ j, j ≠ i ↔ j = otherSlot i := by
  revert i
  decide

theorem inBags_otherSlot_iff : inBags s (otherSlot i) = true ↔
    ∃ j m', j ≠ i ∧ s.man j = some m' ∧ m'.state = .bags := by
  simp only [inBags_iff, otherSlot_iff]
  exact ⟨fun ⟨m', h⟩ => ⟨_, m', rfl, h⟩, fun ⟨j, m', hj, h⟩ => ⟨m', hj ▸ h⟩⟩

/-- COURIER-ARRIVE up to its window: its arguments, a READY manifest, no latch, a set clock (R131). -/
structure ArriveReady (a : List Byte) (s : State) (i : SlotIx) (m : Manifest) : Prop where
  len : a.length = 5
  found : s.findMan (arg a 0 2) = some i
  man : s.man i = some m
  code : arg a 2 3 ≤ 999999
  state : m.state = .ready
  latch : s.ret.latch = false
  clock : s.clock.isSet = true

theorem courierArrive_of_ready (h : ArriveReady a s i m) : courierArriveEffect a s =
    if m.outside s.clock then .refused .window s
    else if inBags s (otherSlot i) then .refused .engaged s
    else if arg a 2 3 ≠ m.courier then .refused .code (s.wrongCourier i m)
    else .taken
      (le 2 m.number ++ [byte m.body.value, byte m.body.arrivedState.value] ++ s.listedBytes m.body)
      ((s.setMan i (some { m with wrong := 0, state := m.body.arrivedState })).recomputeDoor .handover) := by
  rw [courierArriveEffect, withMan_of h.len h.found h.man]
  simp only [if_neg (Nat.not_lt.mpr h.code), h.state, h.latch, h.clock, ne_eq, not_true_eq_false, if_false,
    Bool.false_eq_true, Bool.true_eq_false]

theorem courierArrive_window (h : ArriveReady a s i m) (hin : ¬m.inside s.clock) :
    courierArriveEffect a s = .refused .window s := by
  rw [courierArrive_of_ready h, if_pos ((outside_iff _ _).mpr hin)]

theorem courierArrive_engaged (h : ArriveReady a s i m) (hin : m.inside s.clock)
    (hother : inBags s (otherSlot i) = true) : courierArriveEffect a s = .refused .engaged s := by
  rw [courierArrive_of_ready h, if_neg (fun ho => (outside_iff _ _).mp ho hin), if_pos hother]

theorem courierArrive_code (h : ArriveReady a s i m) (hin : m.inside s.clock)
    (hother : ¬inBags s (otherSlot i) = true) (hcode : arg a 2 3 ≠ m.courier) :
    courierArriveEffect a s = .refused .code (s.wrongCourier i m) := by
  rw [courierArrive_of_ready h, if_neg (fun ho => (outside_iff _ _).mp ho hin), if_neg hother, if_pos hcode]

theorem courierArrive_taken (h : ArriveReady a s i m) (hin : m.inside s.clock)
    (hother : ¬inBags s (otherSlot i) = true) (hcode : arg a 2 3 = m.courier) :
    courierArriveEffect a s = .taken
      (le 2 m.number ++ [byte m.body.value, byte m.body.arrivedState.value] ++ s.listedBytes m.body)
      ((s.setMan i (some { m with wrong := 0, state := m.body.arrivedState })).recomputeDoor .handover) := by
  rw [courierArrive_of_ready h, if_neg (fun ho => (outside_iff _ _).mp ho hin), if_neg hother,
    if_neg (not_not.mpr hcode)]

theorem setMan_man_self (o : Option Manifest) : (s.setMan i o).man i = o := Vector.getElem_set_self _

theorem setMan_man_of_ne {j : SlotIx} (h : j ≠ i) (o : Option Manifest) : (s.setMan i o).man j = s.man j :=
  Vector.getElem_set_ne i.isLt _ fun e => h (Fin.ext e.symm)

/-- A collection in BAGS unlocks, unless retention is latched (R148). -/
theorem shouldUnlock_of_bags {m' : Manifest} (hm : s.man i = some m') (hst : m'.state = .bags)
    (hlatch : s.ret.latch = false) : s.shouldUnlock = true := by
  have hbags : s.anyBags = true := (anyBags_iff s).mpr ⟨i, m', hm, hst⟩
  simp [State.shouldUnlock, hbags, hlatch]

/-- A manifest that neither leaves nor enters BAGS does not move the output (R148). -/
theorem shouldUnlock_setMan {m' : Manifest} (hm : s.man i = some m) (h : m.state ≠ .bags) (h' : m'.state ≠ .bags) :
    (s.setMan i (some m')).shouldUnlock = s.shouldUnlock := by
  have hbags : (s.setMan i (some m')).anyBags = s.anyBags := by
    rw [Bool.eq_iff_iff, anyBags_iff, anyBags_iff]
    refine exists_congr fun j => ?_
    by_cases hj : j = i
    · subst hj
      rw [setMan_man_self, hm]
      simp [h, h']
    · rw [setMan_man_of_ne hj]
  simp only [State.shouldUnlock, hbags]
  rfl

/-- The output that follows its conditions stays as it is (R148). -/
theorem recomputeDoor_of_law (k : LockCause) (h : s.doorLaw) : s.recomputeDoor k = s := by
  have hlaw : s.door.unlocked = s.shouldUnlock := h
  rw [recomputeDoor_of_no_lock k s (by rw [hlaw]; simp_all), ← hlaw]

theorem wrongCourier_counted (h : m.wrong < 2) :
    s.wrongCourier i m = s.setMan i (some { m with wrong := m.wrong + 1 }) :=
  if_neg (by omega)

theorem wrongCourier_locked (h : 2 ≤ m.wrong) : s.wrongCourier i m =
    State.raise .courier (s.setMan i (some { m with wrong := m.wrong + 1, state := .locked })) :=
  if_pos (by omega)

end

/-- Settles O43: the window, the collection at the door, the courier code and the two arrivals. -/
theorem courierArrives : Obligations.CourierArrives := by
  intro n s a i m hs ha hlen hi hm hcode hst hlatch hclock now inside
  have hready (y : Byte) : ArriveReady a (s.busyWith y) i m := ⟨hlen, hi, hm, hcode, hst, hlatch, hclock⟩
  refine ⟨fun h => ?_, fun h hother => ?_, fun h hother => ?_⟩
  · exact exec_refuses .courierArrive n s hs ha (courierArrive_window (hready _) h)
  · exact exec_refuses .courierArrive n s hs ha
      (courierArrive_engaged (hready _) h (inBags_otherSlot_iff.mpr hother))
  · have hfree : ¬inBags s (otherSlot i) = true := by
      rw [inBags_otherSlot_iff]
      rintro ⟨j, m', hj, hm', hst'⟩
      exact hother j m' hj hm' hst'
    refine ⟨fun hwrong hlt => ?_, fun hwrong hle => ?_, fun c hright hc => ?_, fun d hright hd hlaw => ?_⟩
    · refine exec_refuses .courierArrive n s hs ha ((courierArrive_code (hready _) h hfree hwrong).trans ?_)
      rw [wrongCourier_counted hlt]
      rfl
    · refine exec_refuses .courierArrive n s hs ha ((courierArrive_code (hready _) h hfree hwrong).trans ?_)
      rw [wrongCourier_locked hle]
      rfl
    · refine exec_takes .courierArrive n s hs ha ((courierArrive_taken (hready _) h hfree hright).trans ?_)
      have hunlock : ((s.busyWith (Cmd.courierArrive.byte n)).setMan i
          (some { m with wrong := 0, state := m.body.arrivedState })).shouldUnlock = true :=
        shouldUnlock_of_bags (setMan_man_self _) (by rw [hc]; rfl) hlatch
      rw [recomputeDoor_unlocks _ _ hunlock, hc]
      simp only [State.listedBytes, List.append_assoc]
      rfl
    · let u := s.setMan i (some { m with wrong := 0, state := .receiving })
      have hlaw' : u.doorLaw := by
        refine Eq.trans hlaw (shouldUnlock_setMan hm ?_ ?_).symm
        · rw [hst]
          decide
        · exact fun h => ManState.noConfusion h
      refine ⟨le 2 m.number ++ [2, byte ManState.receiving.value] ++ (0 :: le 4 0),
        exec_takes .courierArrive n s hs ha ((courierArrive_taken (hready _) h hfree hright).trans ?_),
        List.take_left' rfl⟩
      have hkeeps : (u.busyWith (Cmd.courierArrive.byte n)).recomputeDoor .handover =
          u.busyWith (Cmd.courierArrive.byte n) := by
        rw [recomputeDoor_busyWith, recomputeDoor_of_law _ hlaw']
      have harrived : m.body.arrivedState = .receiving := by rw [hd]; rfl
      have hvalue : m.body.value = 2 := by rw [hd]; rfl
      have hlisted (v : State) : v.listedBytes m.body = 0 :: le 4 0 := by rw [hd]; rfl
      rw [harrived, hvalue, hlisted]
      exact congrArg _ hkeeps

/-! ### BAG-SCAN (R133, R134) -/

section
variable {a : List Byte} {s : State} {i : SlotIx} {m : Manifest} {c : Collection} {k : Nat} {e : Entry}

theorem bagScan_eq {bad : Bool} (hlen : a.length = 8) (hi : s.findMan (arg a 0 2) = some i) (hm : s.man i = some m)
    (hc : m.body = .collection c) (hst : m.state = .bags) (htag : tagOk (arg a 2 5) = true)
    (hk : c.entries.findIdx? (fun y => y.tag == arg a 2 5) = some k) (he : c.entries[k]? = some e)
    (hpend : e.status = .pending) (hbad : boolOf (arg a 7 1) = some bad) :
    bagScanEffect a s = scanEntry i m c k e bad s := by
  rw [bagScanEffect, withMan_of hlen hi hm]
  simp only [hbad, htag, hc, hst, hk, he, hpend, Bool.true_eq_false, ne_eq, not_true_eq_false, if_false]

theorem scanEntry_halt (h : c.policy = .halt) : scanEntry i m c k e true s =
    .taken (scanReply { m with state := .suspended, body := .collection { c with halted := some k } }
        { c with halted := some k } k e)
      (State.raise .courier ((s.setMan i (some { m with
        state := .suspended, body := .collection { c with halted := some k } })).recomputeDoor .handover)) := by
  rw [scanEntry, h]
  rfl

/-- A scan that does not halt the handover writes its entry back, and a bag set aside is HELD-BACK (R133, R134). -/
theorem scanEntry_goes {bad : Bool} {e' : Entry} (h : bad = true → c.policy ≠ .halt)
    (he : (if bad then e.damaged c else { e with status := .accepted }) = e') : scanEntry i m c k e bad s =
    .taken (scanReply { m with body := .collection { c with entries := c.entries.set k e' } }
        { c with entries := c.entries.set k e' } k e')
      (if e'.status = .setAside then
        (s.setMan i (some { m with body := .collection { c with entries := c.entries.set k e' } })).markBag
          e.bag .heldBack
      else s.setMan i (some { m with body := .collection { c with entries := c.entries.set k e' } })) := by
  have hgo : (bad && (c.policy == .halt)) = false := by
    cases bad with
    | false => rfl
    | true => exact beq_eq_false_iff_ne.mpr (h rfl)
  rw [scanEntry, hgo, ← he]
  rfl

theorem damaged_setAside (e : Entry) (h : c.policy = .setAside) :
    (if true then e.damaged c else { e with status := .accepted }) = { e with status := .setAside } := by
  rw [if_pos rfl, Entry.damaged, h]

theorem damaged_rescan (h : c.policy = .rescan) (hle : e.rescans + 1 ≤ c.rescanLimit) :
    (if true then e.damaged c else { e with status := .accepted }) = { e with rescans := e.rescans + 1 } := by
  rw [if_pos rfl, Entry.damaged, h]
  exact if_pos hle

theorem damaged_rescan_last (h : c.policy = .rescan) (hlt : c.rescanLimit < e.rescans + 1) :
    (if true then e.damaged c else { e with status := .accepted }) =
      { e with rescans := e.rescans + 1, status := .setAside } := by
  rw [if_pos rfl, Entry.damaged, h]
  exact if_neg (Nat.not_le.mpr hlt)

end

/-- Settles O44: an undamaged scan, and a damaged one by each policy. -/
theorem bagsScanned : Obligations.BagsScanned := by
  intro n s a i m c k e hs ha hlen hi hm hc hst hlow htop hk he hpend body withEntry answers
  have htag : tagOk (arg a 2 5) = true := (tagOk_iff _).mpr ⟨hlow, htop⟩
  have hscan (y : Byte) {bad : Bool} (h : boolOf (arg a 7 1) = some bad) :=
    bagScan_eq (s := s.busyWith y) hlen hi hm hc hst htag hk he hpend h
  refine ⟨fun h0 => ?_, fun h1 => ⟨fun hpol => ?_, fun hpol => ?_, fun hpol hle => ?_, fun hpol hlt => ?_⟩⟩
  · have hbad : boolOf (arg a 7 1) = some false := by rw [h0]; rfl
    exact exec_takes .bagScan n s hs ha (((hscan _ hbad).trans
      (scanEntry_goes (fun h => Bool.noConfusion h) rfl)).trans
      (congrArg _ (if_neg fun h => EntryStatus.noConfusion h)))
  all_goals have hbad : boolOf (arg a 7 1) = some true := by rw [h1]; rfl
  · refine exec_takes .bagScan n s hs ha (((hscan _ hbad).trans (scanEntry_halt hpol)).trans ?_)
    exact congrArg (fun t => Answer.taken _ (State.raise .courier t))
      (recomputeDoor_busyWith _ .handover (s.setMan i (some { m with
        state := .suspended, body := .collection { c with halted := some k } })))
  · have hgo := scanEntry_goes (s := s.busyWith (Cmd.bagScan.byte n)) (i := i) (m := m) (k := k)
      (fun _ => by rw [hpol]; decide) (damaged_setAside e hpol)
    exact exec_takes .bagScan n s hs ha ((hscan _ hbad).trans (hgo.trans (congrArg _ (if_pos rfl))))
  · have hgo := scanEntry_goes (s := s.busyWith (Cmd.bagScan.byte n)) (i := i) (m := m) (k := k)
      (fun _ => by rw [hpol]; decide) (damaged_rescan hpol hle)
    refine exec_takes .bagScan n s hs ha ((hscan _ hbad).trans (hgo.trans (congrArg _ (if_neg ?_))))
    rw [hpend]
    decide
  · have hgo := scanEntry_goes (s := s.busyWith (Cmd.bagScan.byte n)) (i := i) (m := m) (k := k)
      (fun _ => by rw [hpol]; decide) (damaged_rescan_last hpol hlt)
    exact exec_takes .bagScan n s hs ha ((hscan _ hbad).trans (hgo.trans (congrArg _ (if_pos rfl))))

end Sys2Proof.Machine

namespace Sys2Proof.Machine

/-! ### MAN-RESUME and MAN-REOPEN (R135, R138) -/

section
variable {a : List Byte} {s : State} {i : SlotIx} {m : Manifest}

theorem manResume_notSuspended (hlen : a.length = 5) (hi : s.findMan (arg a 0 2) = some i) (hm : s.man i = some m)
    (hlock : s.auth.lockout = 0) (hcode : arg a 2 3 = s.auth.code) (hle : s.auth.code ≤ 999999)
    (hst : m.state ≠ .suspended) : manResumeEffect a s = .refused .state s.matched := by
  rw [manResumeEffect, withMan_of hlen hi hm, withAuthority_matched _ _ _ hlock hcode hle]
  cases hb : m.body with
  | delivery d => rfl
  | collection c => exact if_pos hst

theorem manResume_taken {c : Collection} {k : Nat} {e : Entry} {x : Bag} (hlen : a.length = 5)
    (hi : s.findMan (arg a 0 2) = some i) (hm : s.man i = some m) (hlock : s.auth.lockout = 0)
    (hcode : arg a 2 3 = s.auth.code) (hle : s.auth.code ≤ 999999) (hst : m.state = .suspended)
    (hc : m.body = .collection c) (hk : c.halted = some k) (he : c.entries[k]? = some e)
    (hx : s.bag e.bag = some x) (hlatch : s.ret.latch = false) (hother : inBags s (otherSlot i) = false) :
    let l := c.entries.set k { e with status := .setAside }
    manResumeEffect a s = .taken
      (le 2 m.number ++ byte (e.bag.val + 1) :: tagBytes e.tag ++ [byte (countStatus .pending l)])
      { (s.matched.setMan i (some { m with
          state := .bags, body := .collection { c with entries := l, halted := none } })).setBag e.bag
            (some { x with state := .heldBack }) with
        door := { s.door with unlocked := true } } := by
  have hhalted : c.haltedEntry = some (k, e) := by
    simp only [Collection.haltedEntry, hk, he, Option.map_some]
  have hlatch' : s.matched.ret.latch = false := hlatch
  have hother' : inBags s.matched (otherSlot i) = false := hother
  have hmark (u : Option Manifest) := markBag_present (s := s.matched.setMan i u) .heldBack hx
  have hdoor (m' : Manifest) (hm' : m'.state = .bags) := recomputeDoor_unlocks .handover
    ((s.matched.setMan i (some m')).setBag e.bag (some { x with state := .heldBack }))
    (shouldUnlock_of_bags (i := i) (setMan_man_self (s := s.matched) _) hm' hlatch)
  rw [manResumeEffect, withMan_of hlen hi hm, withAuthority_matched _ _ _ hlock hcode hle]
  simp only [hc, hst, hlatch', hother', hhalted, ne_eq, not_true_eq_false, if_false, Bool.false_eq_true, hmark]
  rw [hdoor _ rfl]
  rfl

/-- MAN-REOPEN up to its window: its arguments, its authority, and the window close after the open (R138). -/
structure ReopenReady (a : List Byte) (s : State) (i : SlotIx) (m : Manifest) : Prop where
  len : a.length = 9
  found : s.findMan (arg a 0 2) = some i
  man : s.man i = some m
  lockout : s.auth.lockout = 0
  code : arg a 2 3 = s.auth.code
  codeRange : s.auth.code ≤ 999999
  minute : arg a 7 2 ≤ 1439
  window : m.opens.day * 1440 + m.opens.minute < arg a 5 2 * 1440 + arg a 7 2

theorem manReopen_of_ready (h : ReopenReady a s i m) : manReopenEffect a s =
    if m.state ≠ .expired ∧ m.state ≠ .locked then .refused .state s.matched
    else if s.clock.isSet = true ∧ arg a 5 2 * 1440 + arg a 7 2 ≤ s.clock.day * 1440 + s.clock.minute then
      .refused .window s.matched
    else .taken
      (le 2 m.number ++ byte ManState.ready.value :: (le 2 (arg a 5 2) ++ le 2 (arg a 7 2) ++ m.body.reopenBytes))
      (s.matched.setMan i (some { m with closes := ⟨arg a 5 2, arg a 7 2⟩, wrong := 0, state := .ready })) := by
  have hargs : ¬(1439 < arg a 7 2 ∨ arg a 5 2 * 1440 + arg a 7 2 ≤ m.opens.day * 1440 + m.opens.minute) :=
    not_or.mpr ⟨Nat.not_lt.mpr h.minute, Nat.not_le.mpr h.window⟩
  rw [manReopenEffect, withMan_of h.len h.found h.man, withAuthority_matched _ _ _ h.lockout h.code h.codeRange]
  exact if_neg hargs

end

/-- Settles O45: MAN-RESUME out of SUSPENDED and in it, and MAN-REOPEN by the state, the clock and the window. -/
theorem manifestsResumedAndReopened : Obligations.ManifestsResumedAndReopened := by
  intro n s a i m hs ha hi hm hlock hcode hle
  refine ⟨fun hlen => ⟨fun hst => ?_, ?_⟩, ?_⟩
  · exact exec_refuses .manResume n s hs ha
      (manResume_notSuspended (s := s.busyWith _) hlen hi hm hlock hcode hle hst)
  · intro c k e x hst hc hk he hx hlatch hother l
    have hfree : inBags s (otherSlot i) = false := by
      rw [← Bool.not_eq_true, inBags_otherSlot_iff]
      rintro ⟨j, m', hj, hm', hst'⟩
      exact hother j m' hj hm' hst'
    refine exec_takes .manResume n s hs ha
      ((manResume_taken (s := s.busyWith _) hlen hi hm hlock hcode hle hst hc hk he hx hlatch hfree).trans ?_)
    simp only [List.append_assoc]
    rfl
  · intro hlen closes at' hmin hwin
    have hready (y : Byte) : ReopenReady a (s.busyWith y) i m := ⟨hlen, hi, hm, hlock, hcode, hle, hmin, hwin⟩
    refine ⟨fun he hl => ?_, fun hst hset hpast => ?_, fun hst hclock => ?_⟩
    · exact exec_refuses .manReopen n s hs ha ((manReopen_of_ready (hready _)).trans (if_pos ⟨he, hl⟩))
    · exact exec_refuses .manReopen n s hs ha ((manReopen_of_ready (hready _)).trans
        ((if_neg fun ⟨he, hl⟩ => hst.elim he hl).trans (if_pos ⟨hset, hpast⟩)))
    · have hopen : ¬(s.clock.isSet = true ∧ at' ≤ s.clock.day * 1440 + s.clock.minute) := by
        rintro ⟨hset, hpast⟩
        obtain h | h := hclock
        · rw [hset] at h
          cases h
        · omega
      refine ⟨(le 2 m.number ++ [byte ManState.ready.value] ++ le 2 closes.day ++ le 2 closes.minute) ++
        m.body.reopenBytes, exec_takes .manReopen n s hs ha ((manReopen_of_ready (hready _)).trans
          ((if_neg fun ⟨he, hl⟩ => hst.elim he hl).trans ((if_neg hopen).trans ?_))), List.take_left' (by simp)⟩
      simp only [List.append_assoc]
      rfl

/-! ### COURIER-SIGN (R136) -/

section
variable {a : List Byte} {s : State} {i : SlotIx} {m : Manifest} {c : Collection}

/-- The entries that leave with the courier (R136). -/
def Collection.leaving (c : Collection) : List Entry := c.entries.filter fun e => e.status == .accepted

/-- The state after the ACCEPTED bags are retired, their value is posted and the manifest is gone, before the output
is recomputed (R136). -/
def State.signedOff (i : SlotIx) (c : Collection) (s : State) : State :=
  ((c.leaving.foldl State.retireEntry s).post (-(s.valueAccepted c : Int))).setMan i none

/-- The reply of COURIER-SIGN for a collection, before and after the lift (R136). -/
def signReply (m : Manifest) (c : Collection) (value : Nat) (v t : State) : List Byte :=
  le 2 m.number ++ [byte m.body.value, byte c.leaving.length] ++ (c.leaving.flatMap fun e => tagBytes e.tag) ++
    le 4 value ++ le 4 t.balance ++
    [byte (countStatus .setAside c.entries), boolByte t.rack.halt,
      byte (v.rack.queue.length - t.rack.queue.length)]

theorem courierSign_collection (hlen : a.length = 2) (hi : s.findMan (arg a 0 2) = some i) (hm : s.man i = some m)
    (hc : m.body = .collection c) : courierSignEffect a s = signCollection i m c s := by
  rw [courierSignEffect, withMan_of hlen hi hm]
  simp only [hc]

theorem courierSign_delivery {d : Delivery} (hlen : a.length = 2) (hi : s.findMan (arg a 0 2) = some i)
    (hm : s.man i = some m) (hd : m.body = .delivery d) : courierSignEffect a s = signDelivery i m d s := by
  rw [courierSignEffect, withMan_of hlen hi hm]
  simp only [hd]

theorem pending_any_iff : c.entries.any (fun e => e.status == .pending) = true ↔
    ∃ e ∈ c.entries, e.status = .pending := by
  simp only [List.any_eq_true, beq_iff_eq]

theorem signCollection_state
    (h : m.state ≠ .bags ∨ (∃ e ∈ c.entries, e.status = .pending) ∨ c.leaving = []) :
    signCollection i m c s = .refused .state s := by
  rw [← pending_any_iff] at h
  exact if_pos h

theorem signCollection_ready (hst : m.state = .bags) (hpend : ∀ e ∈ c.entries, e.status ≠ .pending)
    (hne : c.leaving ≠ []) : signCollection i m c s =
      if s.balance < s.valueAccepted c then .refused .limit s
      else .taken (signReply m c (s.valueAccepted c) ((s.signedOff i c).recomputeDoor .handover)
          ((s.signedOff i c).recomputeDoor .handover).liftHalt)
        ((s.signedOff i c).recomputeDoor .handover).liftHalt := by
  have hno : ¬(m.state ≠ .bags ∨ c.entries.any (fun e => e.status == .pending) = true ∨ c.leaving = []) := by
    rw [pending_any_iff]
    rintro (h | ⟨e, he, h⟩ | h)
    · exact h hst
    · exact hpend e he h
    · exact hne h
  exact if_neg hno

theorem signedOff_busyWith (y : Byte) : (s.busyWith y).signedOff i c = (s.signedOff i c).busyWith y := by
  unfold State.signedOff
  rw [retireEntries_busyWith]
  rfl

theorem signedOff_bag (b : BagIx) : (s.signedOff i c).bag b =
    if c.leaving.any (fun e => (e.bag == b) && s.entryPresent e) then none else s.bag b :=
  (retireEntries_spec c.leaving s).1 b

theorem signedOff_eq (hle : s.valueAccepted c ≤ s.balance) :
    let stay (x : List BagIx) : List BagIx :=
      x.filter fun b => !c.leaving.any fun e => (e.bag == b) && s.entryPresent e
    s.signedOff i c = { s with
      balance := s.balance - s.valueAccepted c
      mans := s.mans.set i none
      bags := (s.signedOff i c).bags
      rack := { s.rack with comps := mapT stay s.rack.comps, queue := stay s.rack.queue } } := by
  have hbalance : ((s.balance : Int) + -(s.valueAccepted c : Int)).toNat = s.balance - s.valueAccepted c := by omega
  have hrack := (retireEntries_spec c.leaving s).2
  dsimp only at hrack ⊢
  rw [← hrack, ← hbalance]
  unfold State.signedOff
  rw [retireEntries_eq c.leaving s]
  rfl

theorem signDelivery_counted {d : Delivery} {q : DeliveryCount} (hst : m.state = .counted) (hq : d.count = some q) :
    signDelivery i m d s =
      .taken (le 2 m.number ++ byte m.body.value :: (le 4 q.value ++ leInt 4 q.total)) (s.setMan i none) := by
  simp only [signDelivery, hst, hq]

theorem signDelivery_state {d : Delivery} (hst : m.state ≠ .counted) :
    signDelivery i m d s = .refused .state s := by
  unfold signDelivery
  split
  · next h _ => exact absurd h hst
  · rfl

theorem recomputeDoor_balance (k : LockCause) : (s.recomputeDoor k).balance = s.balance := by
  rw [recomputeDoor_eq]

theorem liftHalt_balance : s.liftHalt.balance = s.balance := by
  rw [liftHalt_eq]

end

/-- Settles O46: a collection and a delivery signed for. -/
theorem courierSigns : Obligations.CourierSigns := by
  intro n s a i m hs ha hlen hi hm
  refine ⟨?_, fun d hd => ⟨fun q hst hq => ?_, fun hst => ?_⟩⟩
  · intro c hc l value
    have hsign (y : Byte) := courierSign_collection (s := s.busyWith y) hlen hi hm hc
    refine ⟨fun h => ?_, fun hst hpend hne hlt => ?_, ?_⟩
    · exact exec_refuses .courierSign n s hs ha ((hsign _).trans (signCollection_state h))
    · exact exec_refuses .courierSign n s hs ha ((hsign _).trans
        ((signCollection_ready hst hpend hne).trans (if_pos hlt)))
    · intro hst hpend hne hle gone stay
      let v := (s.signedOff i c).recomputeDoor .handover
      refine ⟨s.signedOff i c, v.liftHalt, signedOff_bag, signedOff_eq hle,
        (recomputeDoor_interval _ _).trans (by rw [signedOff_eq hle]),
        liftHalt_lifts v, fun h => liftHalt_stays v fun hhalt => h.resolve_left
          fun hfree => Bool.noConfusion (hhalt.symm.trans hfree), ?_⟩
      refine exec_takes .courierSign n s hs ha ((hsign _).trans
        ((signCollection_ready hst hpend hne).trans ((if_neg (Nat.not_lt.mpr hle)).trans ?_)))
      have hbalance : v.liftHalt.balance = s.balance - value := by
        rw [liftHalt_balance, recomputeDoor_balance, signedOff_eq hle]
      rw [signedOff_busyWith, recomputeDoor_busyWith, liftHalt_busyWith, ← hbalance]
      have hkind : m.body.value = 1 := by
        rw [hc]
        rfl
      simp only [signReply, hkind, List.append_assoc]
      rfl
  · refine exec_takes .courierSign n s hs ha ((courierSign_delivery (s := s.busyWith _) hlen hi hm hd).trans
      ((signDelivery_counted hst hq).trans ?_))
    rw [hd]
    simp only [List.append_assoc]
    rfl
  · exact exec_refuses .courierSign n s hs ha ((courierSign_delivery (s := s.busyWith _) hlen hi hm hd).trans
      (signDelivery_state hst))

end Sys2Proof.Machine

namespace Sys2Proof.Machine

/-! ### CLOCK-SET and retention (R157 to R163) -/

section
variable {a : List Byte} {s : State}

theorem clockSet_badMinute (hlen : a.length = 4) (h : 1439 < arg a 2 2) :
    clockSetEffect a s = .refused .argument s := by
  rw [clockSetEffect, if_neg (not_not.mpr hlen), if_pos h]

theorem clockSet_eq (hlen : a.length = 4) (h : arg a 2 2 ≤ 1439) : clockSetEffect a s =
    if s.anyAtDoor then .refused .engaged s
    else .taken
      (boolByte s.clock.isSet :: (le 2 s.clock.day ++ le 2 s.clock.minute ++ le 2 (arg a 0 2) ++ le 2 (arg a 2 2)))
      { s with clock := ⟨true, arg a 0 2, arg a 2 2, s.clock.sub⟩ } := by
  rw [clockSetEffect, if_neg (not_not.mpr hlen), if_neg (Nat.not_lt.mpr h)]

theorem retKindOf_none {k : Nat} (h1 : k ≠ 1) (h2 : k ≠ 2) : retKindOf k = none := by
  unfold retKindOf
  split
  · exact absurd rfl h1
  · exact absurd rfl h2
  · rfl

theorem retain_badKind (hlen : a.length = 1) (h : retKindOf (arg a 0 1) = none) :
    retainEffect a s = .refused .argument s := by
  rw [retainEffect, if_neg (not_not.mpr hlen), h]

/-- No session, no collection at the door and no round: RETAIN is free to latch (R159). -/
def State.retainFree (s : State) : Prop := s.anySession = false ∧ s.anyAtDoor = false ∧ s.round.run = none

theorem retainFree_iff : s.retainFree ↔ ¬(s.anySession = true ∨ s.anyAtDoor = true ∨ s.round.run.isSome = true) := by
  simp only [State.retainFree, not_or, Bool.not_eq_true, Option.isSome_eq_false_iff, Option.isNone_iff_eq_none]

theorem retain_free {k : RetKind} (hlen : a.length = 1) (hk : retKindOf (arg a 0 1) = some k) (h : s.retainFree) :
    retainEffect a s = .taken [byte (kindEntered s k).value] (s.enterRetention (kindEntered s k)) := by
  rw [retainEffect, if_neg (not_not.mpr hlen), hk]
  exact if_neg (retainFree_iff.mp h)

theorem retain_engaged {k : RetKind} (hlen : a.length = 1) (hk : retKindOf (arg a 0 1) = some k)
    (h : ¬s.retainFree) : retainEffect a s = .refused .engaged s := by
  rw [retainEffect, if_neg (not_not.mpr hlen), hk]
  exact if_pos (not_not.mp (mt retainFree_iff.mpr h))

theorem enterRetention_busyWith (b : Byte) (k : RetKind) :
    (s.busyWith b).enterRetention k = (s.enterRetention k).busyWith b :=
  recomputeDoor_busyWith b .retain { s with
    ret := { s.ret with latch := true, kind := k, path := some .retain }
    lanes := Vector.replicate 4 Lane.unprofiled
    door := { s.door with interval := none } }

theorem leaveRetention_busyWith (b : Byte) : (s.busyWith b).leaveRetention = s.leaveRetention.busyWith b :=
  recomputeDoor_busyWith b .retain { s with ret := { s.ret with latch := false }, round := s.round.fresh }

theorem release_eq : releaseEffect [] s =
    if s.ret.latch = false then .refused .state s
    else .taken [byte s.ret.cause.value, byte (pathValue s.ret.path), boolByte s.clock.isSet,
      byte (s.round.fresh.countdown.getD 0)] s.leaveRetention := rfl

theorem recordsClear_eq (hlen : a.length = 3) (hlock : s.auth.lockout = 0) (hcode : arg a 0 3 = s.auth.code)
    (hle : s.auth.code ≤ 999999) : recordsClearEffect a s =
      if s.anySession = true ∨ s.anyAtDoor = true then .refused .engaged s.matched
      else .taken
        ([byte (countT (fun t => t.state != .closed) s.tills), byte (countT Option.isSome s.bags),
          byte (countT Option.isSome s.mans), byte s.calls.length] ++ le 4 s.balance) s.matched.clearRecords := by
  rw [recordsClearEffect, if_neg (not_not.mpr hlen), withAuthority_matched _ _ _ hlock hcode hle]
  rfl

end

/-- Settles O47: CLOCK-SET, RETAIN, RELEASE and RECORDS-CLEAR, taken and refused. -/
theorem clockAndRetentionCommands : Obligations.ClockAndRetentionCommands := by
  intro n s a hs ha
  refine ⟨fun hlen hmin => ?_, fun hlen h1 h2 => ?_, fun hlen hmin => ⟨fun hdoor => ?_, fun hdoor => ?_⟩, ?_, ?_, ?_⟩
  · exact exec_refuses .clockSet n s hs ha (clockSet_badMinute (s := s.busyWith _) hlen hmin)
  · exact exec_refuses .retain n s hs ha (retain_badKind (s := s.busyWith _) hlen (retKindOf_none h1 h2))
  · refine exec_takes .clockSet n s hs ha
      ((clockSet_eq (s := s.busyWith _) hlen hmin).trans ((if_neg (by simp [hdoor])).trans ?_))
    simp only [List.append_assoc]
    rfl
  · exact exec_refuses .clockSet n s hs ha ((clockSet_eq (s := s.busyWith _) hlen hmin).trans (if_pos hdoor))
  · intro k hlen hk free
    have hkind : retKindOf (arg a 0 1) = some k := by
      obtain ⟨h, rfl⟩ | ⟨h, rfl⟩ := hk
      · rw [h]
        rfl
      · rw [h]
        rfl
    refine ⟨fun hfree => ?_, fun hfree => ?_⟩
    · refine exec_takes .retain n s hs ha ((retain_free (s := s.busyWith _) hlen hkind hfree).trans ?_)
      rw [enterRetention_busyWith]
      rfl
    · exact exec_refuses .retain n s hs ha (retain_engaged (s := s.busyWith _) hlen hkind hfree)
  · rintro rfl
    refine ⟨fun hlatch => ?_, ?_⟩
    · exact exec_refuses .release n s hs ha ((release_eq (s := s.busyWith _)).trans (if_pos hlatch))
    · intro hlatch countdown
      refine exec_takes .release n s hs ha
        ((release_eq (s := s.busyWith _)).trans ((if_neg (by simp [hlatch])).trans ?_))
      rw [leaveRetention_busyWith]
      rfl
  · intro hlen hlock hcode hle
    refine ⟨fun h => ?_, fun hses hdoor => ⟨_, s.matched.clearRecords, exec_takes .recordsClear n s hs ha
      ((recordsClear_eq (s := s.busyWith _) hlen hlock hcode hle).trans (if_neg (by simp [hses, hdoor]))), ?_⟩⟩
    · exact exec_refuses .recordsClear n s hs ha
        ((recordsClear_eq (s := s.busyWith _) hlen hlock hcode hle).trans (if_pos h))
    · refine ⟨rfl, rfl, rfl, rfl, fun c => tab_get _ c, fun u => mapT_get _ _ u,
        fun b => Vector.getElem_replicate b.isLt, fun j => Vector.getElem_replicate j.isLt,
        fun c => Vector.getElem_replicate c.isLt, rfl, rfl⟩

end Sys2Proof.Machine

namespace Sys2Proof.Machine

/-! ### The rows of characters, as what the receiver makes of them (R60, R61) -/

section
variable {s : State} {i : LaneIx}

theorem live_powered (h : s.live = true) : s.powered = true := by
  simp only [State.live, Bool.and_eq_true] at h
  exact h.1.1

theorem exec_framingError (chars : List RxChar) (h : s.live = true) :
    exec (.framingError i chars) s = .next (receive i chars s) := by
  have e : exec (.framingError i chars) s = .next (receive i chars s.settle) := rfl
  rw [e, settle_live s h]

theorem exec_protocolFrame (k : Byte) (b : List Byte) (h : s.live = true) :
    exec (.protocolFrame i k b) s = .next (receive i (frameChars k b) s) := by
  have e : exec (.protocolFrame i k b) s = .next (receive i (frameChars k b) s.settle) := rfl
  rw [e, settle_live s h]

theorem exec_checkError (k : Byte) (b : List Byte) (x : Byte) (h : s.live = true) :
    exec (.checkError i k b x) s = .next (receive i (frameCharsWith k b x) s) := by
  have e : exec (.checkError i k b x) s = .next (receive i (frameCharsWith k b x) s.settle) := rfl
  rw [e, settle_live s h]

/-- A frame of another kind or length latches PROTOCOL (R62). -/
theorem takeFrame_other {k : Byte} {b : List Byte} (h : frameLen k ≠ some b.length) (s : State) :
    takeFrame i k b s = s.laneError .protocol i := by
  have kind (n : Byte) {m : Nat} (hn : frameLen n = some m) (hb : b.length = m) : k ≠ n := by
    rintro rfl
    exact h (hb ▸ hn)
  match b with
  | [] => exact if_neg (kind 0x04 rfl rfl)
  | [_] => exact (if_neg (kind 0x03 rfl rfl)).trans (if_neg (kind 0x05 rfl rfl))
  | [_, _] | [_, _, _] | [_, _, _, _] | [_, _, _, _, _, _] | [_, _, _, _, _, _, _] => rfl
  | [_, _, _, _, _] => exact if_neg (kind 0x01 rfl rfl)
  | [_, _, _, _, _, _, _, _] => exact if_neg (kind 0x02 rfl rfl)
  | _ :: _ :: _ :: _ :: _ :: _ :: _ :: _ :: _ :: _ => rfl

/-- A frame with a wrong CHECK latches CHECK (R61). -/
theorem receive_checkError {k : Byte} {b : List Byte} {x : Byte} (h : s.listens i) (hlen : b.length ≤ 12)
    (hsum : charSum ([k, BitVec.ofNat 8 b.length] ++ b ++ [x]) ≠ 0) :
    receive i (frameCharsWith k b x) s = (s.setLane i (s.lane i).heard).laneError .check i := by
  obtain ⟨hlive, hp, skip, hrx⟩ := h
  unfold receive
  rw [if_neg (by simp [live_powered hlive, hp]), hrx, run_frame _ _ _ _ hlen, if_neg hsum]
  rfl

/-! ### Frames at a lane record just written (R67, R80 to R82) -/

variable {u : Lane}

theorem takeHello_idle (m : Byte) (z : BitVec 32) (h : u.state = .idle) :
    takeHello i m z (s.setLane i u) = s.setLane i { u with identity := some ⟨m, z⟩, expect := .number 0 } := by
  simp only [takeHello, lane_setLane_self, h, setLane_setLane]

/-- The states in which a lane may hold a session (R71). -/
def LaneState.inSession (k : LaneState) : Prop := k ∈ [LaneState.opened, .holding, .held, .ended, .fault]

theorem inSession_cases {k : LaneState} (h : k.inSession) :
    k = .opened ∨ k = .holding ∨ k = .held ∨ k = .ended ∨ k = .fault := by
  simpa [LaneState.inSession] using h

theorem inSession_iff (k : LaneState) : k.inSession ↔ k ≠ .unprofiled ∧ k ≠ .idle := by
  cases k <;> simp [LaneState.inSession]

theorem takeHello_session (m : Byte) (z : BitVec 32) (h : u.state.inSession) :
    takeHello i m z (s.setLane i u) =
      State.raise .lane (s.setLane i
        ({ u with identity := some ⟨m, z⟩, expect := .number 0 }.erring .restart)) := by
  obtain ⟨hp, -⟩ := (inSession_iff _).mp h
  rw [← laneError_setLane .restart i s { u with identity := some ⟨m, z⟩, expect := .number 0 } hp]
  obtain h | h | h | h | h := inSession_cases h
  all_goals simp only [takeHello, lane_setLane_self, h, setLane_setLane]

theorem expect_accepts_iff (q : Byte) (e : Expect) : e.accepts q = true ↔ e = .any ∨ e = .number (q + 1) := by
  cases e with
  | absent => exact ⟨fun h => Bool.noConfusion h, fun h => h.elim Expect.noConfusion Expect.noConfusion⟩
  | any => exact ⟨fun _ => .inl rfl, fun _ => rfl⟩
  | number n =>
    rw [Expect.accepts, beq_iff_eq, Expect.number.injEq]
    exact ⟨fun h => .inr h.symm, fun h => (h.resolve_left Expect.noConfusion).symm⟩

theorem takeEndFeed_idle (q : Byte) (h : u.state = .idle) :
    takeEndFeed i q (s.setLane i u) = State.raise .lane (s.setLane i (u.erring .protocol)) := by
  rw [← laneError_setLane .protocol i s u (by rw [h]; decide)]
  simp only [takeEndFeed, lane_setLane_self, h]

theorem takeEndFeed_unexpected {q : Byte} (h : u.state.inSession) (hq : u.expect.accepts q = false) :
    takeEndFeed i q (s.setLane i u) = State.raise .lane (s.setLane i (u.erring .sequence)) := by
  obtain ⟨hp, -⟩ := (inSession_iff _).mp h
  rw [← laneError_setLane .sequence i s u hp]
  obtain h | h | h | h | h := inSession_cases h
  all_goals simp only [takeEndFeed, lane_setLane_self, h, hq, Bool.false_eq_true, if_false]

theorem takeEndFeed_opened {q : Byte} (h : u.state = .opened) (hq : u.expect.accepts q = true) :
    takeEndFeed i q (s.setLane i u) = State.raise .lane (s.setLane i { u with state := .ended }) := by
  simp only [takeEndFeed, lane_setLane_self, h, hq, if_true, setLane_setLane]

theorem takeEndFeed_holding {q : Byte} (h : u.state = .holding) (hq : u.expect.accepts q = true) :
    takeEndFeed i q (s.setLane i u) = State.raise .lane (s.setLane i { u with state := .held, hold := none }) := by
  simp only [takeEndFeed, lane_setLane_self, h, hq, if_true, setLane_setLane]

theorem takeEndFeed_stopped {q : Byte} (h : u.state = .held ∨ u.state = .ended ∨ u.state = .fault)
    (hq : u.expect.accepts q = true) : takeEndFeed i q (s.setLane i u) = s.setLane i u := by
  obtain h | h | h := h <;> simp only [takeEndFeed, lane_setLane_self, h, hq, if_true]

theorem takeHoldAck_holding (h : u.state = .holding) :
    takeHoldAck i (s.setLane i u) = State.raise .lane (s.setLane i { u with state := .held, hold := none }) := by
  simp only [takeHoldAck, lane_setLane_self, h, setLane_setLane]

theorem takeHoldAck_stopped (h : u.state = .idle ∨ u.state = .held ∨ u.state = .fault) :
    takeHoldAck i (s.setLane i u) = s.setLane i u := by
  obtain h | h | h := h <;> simp only [takeHoldAck, lane_setLane_self, h]

theorem takeHoldAck_unasked (h : u.state = .opened ∨ u.state = .ended) :
    takeHoldAck i (s.setLane i u) = State.raise .lane (s.setLane i (u.erring .protocol)) := by
  have hp : u.state ≠ .unprofiled := by obtain h | h := h <;> rw [h] <;> decide
  rw [← laneError_setLane .protocol i s u hp]
  obtain h | h := h <;> simp only [takeHoldAck, lane_setLane_self, h]

theorem takeJam_profiled (j : Byte) (h : u.state ≠ .unprofiled) : takeJam i j (s.setLane i u) =
    State.raise .lane (s.setLane i ({ u with jam := some j }.erring .jam)) := by
  rw [← laneError_setLane .jam i s { u with jam := some j } h]
  cases hst : u.state
  case unprofiled => exact absurd hst h
  all_goals simp only [takeJam, lane_setLane_self, hst, setLane_setLane]

end

/-- An UNPROFILED lane discards what arrives (R60). -/
theorem unprofiled_discards {i : LaneIx} {s : State} (hlive : s.live = true) (h : (s.lane i).state = .unprofiled) :
    (∀ m z, exec (.hello i m z) s = .next s) ∧ (∀ q, exec (.endFeed i q) s = .next s) ∧
    exec (.holdAck i) s = .next s ∧ (∀ j, exec (.jam i j) s = .next s) ∧
    (∀ q c f u x, exec (.batch i q c f u x) s = .next s) ∧
    (∀ k b, exec (.protocolFrame i k b) s = .next s) ∧
    (∀ k b x, exec (.checkError i k b x) s = .next s) ∧
    (∀ cs, exec (.framingError i cs) s = .next s) := by
  have hrow (l : List RxChar) : receive i l s.settle = s := by
    rw [settle_live s hlive, receive_unprofiled i l s h]
  exact ⟨fun _ _ => congrArg Host.Outcome.next (hrow _), fun _ => congrArg Host.Outcome.next (hrow _),
    congrArg Host.Outcome.next (hrow _), fun _ => congrArg Host.Outcome.next (hrow _),
    fun _ _ _ _ _ => congrArg Host.Outcome.next (hrow _), fun _ _ => congrArg Host.Outcome.next (hrow _),
    fun _ _ _ => congrArg Host.Outcome.next (hrow _), fun _ => congrArg Host.Outcome.next (hrow _)⟩

/-- Settles O48: the frames at an UNPROFILED lane and at a listening one. -/
theorem laneFramesAct : Obligations.LaneFramesAct := by
  intro i s hlive l h puts attends inSession
  refine ⟨unprofiled_discards hlive, fun hl => ⟨?_, ?_, fun hst => ?_, fun hst => ?_, fun hst => ?_, fun j => ?_,
    fun k b hlen hk => ?_, fun k b x hlen hsum => ?_⟩⟩
  · intro m z u
    rw [exec_hello i m z s hl]
    exact ⟨fun hst => congrArg Host.Outcome.next (takeHello_idle m z hst),
      fun hst => congrArg Host.Outcome.next (takeHello_session m z hst)⟩
  · intro q expected
    rw [exec_endFeed i q s hl]
    refine ⟨fun hst => congrArg Host.Outcome.next (takeEndFeed_idle q hst), fun hst hno => ?_, fun hq => ?_⟩
    · exact congrArg Host.Outcome.next (takeEndFeed_unexpected hst
        (by rw [← Bool.not_eq_true, expect_accepts_iff]; exact hno))
    · have hacc : h.expect.accepts q = true := (expect_accepts_iff q _).mpr hq
      exact ⟨fun hst => congrArg Host.Outcome.next (takeEndFeed_opened hst hacc),
        fun hst => congrArg Host.Outcome.next (takeEndFeed_holding hst hacc),
        fun hst => congrArg Host.Outcome.next (takeEndFeed_stopped hst hacc)⟩
  · rw [exec_holdAck i s hl]
    exact congrArg Host.Outcome.next (takeHoldAck_holding hst)
  · rw [exec_holdAck i s hl]
    exact congrArg Host.Outcome.next (takeHoldAck_stopped hst)
  · rw [exec_holdAck i s hl]
    exact congrArg Host.Outcome.next (takeHoldAck_unasked hst)
  · rw [exec_jam i j s hl]
    exact congrArg Host.Outcome.next (takeJam_profiled j hl.2.1)
  · rw [exec_protocolFrame k b hlive, receive_listens i k b s hlen hl, takeFrame_other hk]
    exact congrArg Host.Outcome.next (laneError_setLane .protocol i s _ hl.2.1)
  · rw [exec_checkError k b x hlive, receive_checkError hl hlen hsum]
    exact congrArg Host.Outcome.next (laneError_setLane .check i s _ hl.2.1)

/-! ### Bad characters (R61) -/

section
variable {s : State} {i : LaneIx} {c : RxChar}

theorem receive_single (hlive : s.live = true) (hp : (s.lane i).state ≠ .unprofiled) {r : Receiver}
    {e : Option RxEvent} (h : (s.lane i).rx.take c = (r, e)) :
    receive i [c] s = e.toList.foldl (laneEvent i) (s.setLane i { s.lane i with rx := r }) := by
  unfold receive
  rw [if_neg (by simp [live_powered hlive, hp])]
  simp only [Receiver.run, h, List.append_nil]

theorem receive_error (hlive : s.live = true) (hp : (s.lane i).state ≠ .unprofiled) {r : Receiver} {e : LaneError}
    (h : (s.lane i).rx.take c = (r, some (.error e))) :
    receive i [c] s = State.raise .lane (s.setLane i ({ s.lane i with rx := r }.erring e)) := by
  rw [receive_single hlive hp h]
  exact laneError_setLane e i s _ hp

theorem setLane_lane (s : State) (i : LaneIx) : s.setLane i (s.lane i) = s := by
  simp [State.setLane, State.lane]

end

/-- Settles O49: the bad character in the hunt, with and without the skip mark, and inside a frame. -/
theorem framingErrors : Obligations.FramingErrors := by
  intro i s c hlive hp l attends
  refine ⟨fun hrx hbad => ?_, fun hrx hbad => ?_, fun got hrx hstop => ?_, fun k hrx hstop hlen => ?_⟩
  all_goals rw [exec_framingError [c] hlive]
  · refine congrArg Host.Outcome.next (receive_error hlive hp ?_)
    rw [show (s.lane i).rx = _ from hrx, Receiver.take, if_neg hbad]
    rfl
  · have htake : (s.lane i).rx.take c = (.hunting true, none) := by
      rw [show (s.lane i).rx = _ from hrx, Receiver.take, if_neg hbad]
      rfl
    rw [receive_single hlive hp htake, ← show (s.lane i).rx = _ from hrx]
    exact congrArg Host.Outcome.next (setLane_lane s i)
  · refine congrArg Host.Outcome.next (receive_error hlive hp ?_)
    rw [show (s.lane i).rx = _ from hrx, Receiver.take, hstop]
    rfl
  · refine congrArg Host.Outcome.next (receive_error hlive hp ?_)
    rw [show (s.lane i).rx = _ from hrx, Receiver.take, if_pos hstop]
    exact if_pos hlen

end Sys2Proof.Machine

namespace Sys2Proof.Machine

/-! ### BATCH (R74 to R76) -/

section
variable {s : State} {i : LaneIx} {u : Lane} {x : Session} {q c : Byte} {k : Counts} {d : Code}

theorem afterIdle_of_present {e : Expect} (h : e ≠ .absent) : e.afterIdle q = .number (q + 1) := by
  cases e with
  | absent => exact absurd rfl h
  | number n => rfl
  | any => rfl

theorem takeBatch_idle (h : u.state = .idle) : takeBatch i q c k (s.setLane i u) =
    State.raise .lane (s.setLane i
      ({ u with discarded := some ⟨q, c, k, .protocol⟩, expect := u.expect.afterIdle q }.erring .protocol)) := by
  rw [← laneError_setLane .protocol i s
    { u with discarded := some ⟨q, c, k, .protocol⟩, expect := u.expect.afterIdle q } (by rw [h]; decide)]
  simp only [takeBatch, lane_setLane_self, h, setLane_setLane]

/-- A batch in a session that has a fault is discarded with it (R74). -/
theorem takeBatch_fault {e : LaneError} (h : u.state.inSession) (hx : u.session = some x)
    (hf : batchFault u x q c k = some e) : takeBatch i q c k (s.setLane i u) =
      State.raise .lane (s.setLane i ({ u with
        discarded := some ⟨q, c, k, e⟩
        expect := if e = LaneError.sequence then .any else .number (q + 1) }.erring e)) := by
  obtain ⟨hp, -⟩ := (inSession_iff _).mp h
  rw [← laneError_setLane e i s { u with
    discarded := some ⟨q, c, k, e⟩, expect := if e = LaneError.sequence then .any else .number (q + 1) } hp]
  obtain h | h | h | h | h := inSession_cases h
  all_goals simp only [takeBatch, lane_setLane_self, h, hx, hf, setLane_setLane]

theorem takeBatch_taken (h : u.state.inSession) (hx : u.session = some x)
    (hf : batchFault u x q c k = none) (hd : codeOf c.toNat = some d) : takeBatch i q c k (s.setLane i u) =
      s.setLane i { u with session := some (x.push ⟨q, d, k⟩), expect := .number (q + 1) } := by
  obtain h | h | h | h | h := inSession_cases h
  all_goals simp only [takeBatch, lane_setLane_self, h, hx, hf, hd, setLane_setLane]

/-- The number of a batch is not the one expected (R74). -/
theorem batchFault_sequence {m : Byte} (h : u.expect = .number m) (hm : m ≠ q) :
    batchFault u x q c k = some .sequence := by
  rw [batchFault, h]
  exact if_pos (bne_iff_ne.mpr hm)

theorem batchFault_noCode (h : u.expect = .any ∨ u.expect = .number q) (hc : codeOf c.toNat = none) :
    batchFault u x q c k = some .protocol := by
  obtain h | h := h <;> simp [batchFault, h, hc]

/-- The code and the counts of a batch are ones the session takes (R74). -/
def Session.fits (x : Session) (d : Code) (k : Counts) : Prop :=
  has x.accepted d = true ∧ k.fit ≤ 999 ∧ k.unfit ≤ 999 ∧ k.suspect ≤ 999

/-- The totals of the session with a batch stay within a count (R74). -/
def Session.room (x : Session) (d : Code) (k : Counts) : Prop :=
  (x.total d).fit + k.fit ≤ 65535 ∧ (x.total d).unfit + k.unfit ≤ 65535 ∧ (x.total d).suspect + k.suspect ≤ 65535

theorem fits_iff : x.fits d k ↔
    ¬(!has x.accepted d || decide (999 < k.fit) || decide (999 < k.unfit) || decide (999 < k.suspect)) = true := by
  simp [Session.fits, and_assoc]

theorem room_iff : x.room d k ↔ ¬(decide (maxCount < ((x.total d).add k).fit) ||
    decide (maxCount < ((x.total d).add k).unfit) || decide (maxCount < ((x.total d).add k).suspect)) = true := by
  simp only [Bool.or_eq_true, decide_eq_true_iff, not_or, Nat.not_lt, and_assoc]
  exact Iff.rfl

theorem batchFault_code (h : u.expect = .any ∨ u.expect = .number q) (hd : codeOf c.toNat = some d) :
    (¬x.fits d k → batchFault u x q c k = some .protocol) ∧
    (x.fits d k → ¬x.room d k → batchFault u x q c k = some .limit) ∧
    (x.fits d k → x.room d k → batchFault u x q c k = none) := by
  have hgo : batchFault u x q c k =
      if !has x.accepted d || decide (999 < k.fit) || decide (999 < k.unfit) || decide (999 < k.suspect) then
        some .protocol
      else if decide (maxCount < ((x.total d).add k).fit) || decide (maxCount < ((x.total d).add k).unfit) ||
        decide (maxCount < ((x.total d).add k).suspect) then some .limit
      else none := by
    obtain h | h := h
    · simp only [batchFault, h, hd, Bool.false_eq_true, if_false]
    · simp only [batchFault, h, hd, bne_self_eq_false, Bool.false_eq_true, if_false]
  rw [fits_iff, room_iff, hgo]
  refine ⟨fun hf => if_pos (not_not.mp hf), fun hf hr => ?_, fun hf hr => ?_⟩
  · exact (if_neg hf).trans (if_pos (not_not.mp hr))
  · exact (if_neg hf).trans (if_neg hr)

theorem push_of_room {b : Batch} (h : x.stack.length < 8) : x.push b = { x with stack := b :: x.stack } := if_pos h

/-- The oldest batch of a full stack is folded into the totals (R76). -/
theorem push_of_full {b old : Batch} {older : List Batch} (hs : x.stack = older ++ [old]) (h : x.stack.length = 8) :
    x.push b = { x with
      stack := b :: older
      folded := x.folded.set old.code (x.folded[old.code].add old.counts) } := by
  have hlast : x.stack.getLast? = some old := by rw [hs, List.getLast?_concat]
  have hdrop : x.stack.dropLast = older := by rw [hs, List.dropLast_concat]
  rw [Session.push, if_neg (by omega), hlast, hdrop]

end

/-- Settles O50: a batch in IDLE, and in a session by its number, its code and counts, its totals and the stack. -/
theorem batchesTaken : Obligations.BatchesTaken := by
  intro i q c f u z s hl l h k discards
  have hrow : exec (.batch i q c f u z) s = .next (takeBatch i q c k (s.setLane i h)) := exec_batch i q c f u z s hl
  have hdiscards {x : Session} {e : LaneError} (hst : h.state.inSession) (hx : h.session = some x)
      (hf : batchFault h x q c k = some e) :
      discards e (if e = LaneError.sequence then .any else .number (q + 1)) :=
    hrow.trans (congrArg Host.Outcome.next (takeBatch_fault hst hx hf))
  refine ⟨fun hst => ?_, fun x hst hx => ⟨fun m hm hne => ?_, fun hexp => ⟨fun hc => ?_, ?_⟩⟩⟩
  · have hidle := hrow.trans (congrArg Host.Outcome.next (takeBatch_idle (u := h) hst))
    refine ⟨fun habs => ?_, fun hpres => ?_⟩
    · rw [show h.expect.afterIdle q = .absent by rw [show h.expect = _ from habs]; rfl] at hidle
      exact hidle
    · rw [afterIdle_of_present (show h.expect ≠ _ from hpres)] at hidle
      exact hidle
  · exact hdiscards hst hx (batchFault_sequence hm hne)
  · exact hdiscards hst hx (batchFault_noCode hexp (dif_neg (Nat.not_lt.mpr hc)))
  · intro d hd fits total room
    have hcode : codeOf c.toNat = some d := by
      rw [hd]
      exact asFin_val d
    obtain ⟨hprotocol, hlimit, hnone⟩ := batchFault_code (u := h) (x := x) (k := k) hexp hcode
    have htaken (hf : fits) (hr : room) := hrow.trans
      (congrArg Host.Outcome.next (takeBatch_taken (u := h) hst hx (hnone hf hr) hcode))
    refine ⟨fun hf => hdiscards hst hx (hprotocol hf), fun hf hr => hdiscards hst hx (hlimit hf hr),
      fun hf hr hroom => ?_, ?_⟩
    · rw [htaken hf hr, push_of_room hroom]
    · intro older old hf hr hs hfull
      rw [htaken hf hr, push_of_full hs hfull]
      rfl

/-! ### The frames a lane sends (R60 to R62) -/

section
variable {f : TxFrame} {t : Transmitter}

theorem isProfile_iff (g : TxFrame) : g.isProfile = true ↔ ∃ m v, g = .profile m v := by
  cases g <;> simp [TxFrame.isProfile]

theorem sameSort_iff (f g : TxFrame) :
    ((∃ m v, g = .profile m v) ↔ ∃ m v, f = .profile m v) ↔ (g.isProfile != f.isProfile) = false := by
  rw [← isProfile_iff, ← isProfile_iff]
  cases g.isProfile <;> cases f.isProfile <;> simp

theorem otherSort_iff (f g : TxFrame) :
    ((∃ m v, g = .profile m v) ↔ ¬∃ m v, f = .profile m v) ↔ (g.isProfile != f.isProfile) = true := by
  rw [← isProfile_iff, ← isProfile_iff]
  cases g.isProfile <;> cases f.isProfile <;> simp

theorem issue_idle (h : t.sending = none) : t.issue f = { t with sending := some ⟨f, t.speed⟩ } := by
  rw [Transmitter.issue, h]

theorem issue_sending (h : t.sending ≠ none) : t.issue f =
    { t with waiting := t.waiting.filter (fun g => g.isProfile != f.isProfile) ++ [f] } := by
  obtain ⟨x, hx⟩ := Option.ne_none_iff_exists'.mp h
  rw [Transmitter.issue, hx]

theorem reset_idle (h : t.sending = none) : t.reset = ⟨none, [], 0, false⟩ := by
  rw [Transmitter.reset, h]
  rfl

theorem reset_sending (h : t.sending ≠ none) :
    t.reset = { t with waiting := t.waiting.filter (fun g => g == .hold), draining := true } := by
  obtain ⟨x, hx⟩ := Option.ne_none_iff_exists'.mp h
  rw [Transmitter.reset, hx]

theorem filter_otherSort {l : List TxFrame} (h : ∀ g ∈ l, (∃ m v, g = .profile m v) ↔ ¬∃ m v, f = .profile m v) :
    l.filter (fun g => g.isProfile != f.isProfile) = l :=
  List.filter_eq_self.mpr fun g hg => (otherSort_iff f g).mp (h g hg)

/-- The speed of the transmitter at the end of a frame: a PROFILE's is taken (R60). -/
def Transmitter.speedAfter (t : Transmitter) (x : Sending) : Fin 4 :=
  match x.frame with
  | .profile _ sp => sp
  | .start | .hold => t.speed

theorem frameEnd_none (h : t.sending = none) : t.frameEnd = t := by
  rw [Transmitter.frameEnd, h]

/-- Without a LANE-RESET the next waiting frame begins, at the speed after the frame that ends (R60). -/
theorem frameEnd_kept {x : Sending} (h : t.sending = some x) (hd : t.draining = false) : t.frameEnd =
    ⟨t.waiting.head?.map fun g => ⟨g, t.speedAfter x⟩, t.waiting.tail, t.speedAfter x, false⟩ := by
  obtain ⟨f, w⟩ := x
  cases f <;> cases hw : t.waiting <;> simp [Transmitter.frameEnd, Transmitter.speedAfter, h, hd, hw]

/-- After a LANE-RESET a waiting HOLD keeps the speed; without one the next frame has 9,600 bit/s (R60). -/
theorem frameEnd_draining {x : Sending} (h : t.sending = some x) (hd : t.draining = true) :
    (t.waiting = [] → t.frameEnd = ⟨none, [], 0, false⟩) ∧
    (∀ r, t.waiting = .hold :: r → t.frameEnd = ⟨some ⟨.hold, t.speedAfter x⟩, r, t.speedAfter x, true⟩) ∧
    (∀ f r, t.waiting = f :: r → f ≠ .hold → t.frameEnd = ⟨some ⟨f, 0⟩, r, 0, false⟩) := by
  obtain ⟨f, w⟩ := x
  cases f
  all_goals
    refine ⟨fun hw => ?_, fun r hw => ?_, fun f r hw hf => ?_⟩
    · simp [Transmitter.frameEnd, h, hd, hw]
    · simp [Transmitter.frameEnd, Transmitter.speedAfter, h, hd, hw]
    · simp [Transmitter.frameEnd, h, hd, hw, hf]

variable {l : Lane}

theorem laneFrameEnd_profile {m : CodeSet} {v w : Fin 4} (h : l.tx.sending = some ⟨.profile m v, w⟩)
    (hd : l.tx.draining = false) :
    l.frameEnd = { l with tx := l.tx.frameEnd, rxSpeed := v, rx := .hunting false } := by
  simp only [Lane.frameEnd, h, hd, Bool.false_eq_true, if_false]

theorem laneFrameEnd_plain {w : Fin 4} (h : l.tx.sending = some ⟨f, w⟩) (hf : f = .start ∨ f = .hold) :
    l.frameEnd = { l with tx := l.tx.frameEnd } := by
  obtain rfl | rfl := hf <;> simp only [Lane.frameEnd, h]

theorem laneFrameEnd_draining {x : Sending} (h : l.tx.sending = some x) (hd : l.tx.draining = true) :
    l.frameEnd = { l with tx := l.tx.frameEnd } := by
  obtain ⟨f, w⟩ := x
  cases f <;> simp only [Lane.frameEnd, h, hd, if_true]

theorem laneFrameEnd_none (h : l.tx.sending = none) : l.frameEnd = l := by
  simp only [Lane.frameEnd, h, frameEnd_none h]

end

/-- The frames the part sends, character by character (R61, R62). -/
theorem profile_chars (m : CodeSet) (v : Fin 4) : ∃ check : Byte,
    (TxFrame.profile m v).chars =
        [0xC3, 0x11, 3, byte m.toNat, byte (m.toNat / 256), byte v.val, check].map goodChar ∧
      0x11 + 3 + byte m.toNat + byte (m.toNat / 256) + byte v.val + check = 0 := by
  refine ⟨0 - charSum [0x11, 3, byte m.toNat, byte (m.toNat / 256), byte v.val], rfl, ?_⟩
  simp [charSum]

theorem exec_frameSent {i : LaneIx} {s : State} (hp : s.powered = true) (hd : s.due = []) :
    exec (.frameSent i) s = .next (s.setLane i (s.lane i).frameEnd) := by
  have e : exec (.frameSent i) s = .next (frameSent i s.settle) := rfl
  rw [e, settle_of_nothing_due s hd, frameSent, if_neg (by simp [hp])]

/-- Settles O51: the frames sent, a frame issued, and the end of a frame sent. -/
theorem frameSentBeginsNext : Obligations.FrameSentBeginsNext := by
  refine ⟨?_, ?_, ?_⟩
  · intro chars
    refine ⟨profile_chars, by decide, by decide, fun l f v h => ?_, fun l h => ?_, rfl, rfl, rfl, rfl⟩
    · rw [Lane.sends, h]
      rfl
    · rw [Lane.sends, h]
      rfl
  · intro f t profile
    refine ⟨fun h => ⟨issue_idle h, reset_idle h⟩, fun h => ⟨fun hw => ?_, fun g pre post hw hg hothers => ?_,
      reset_sending h⟩⟩
    · rw [issue_sending h, filter_otherSort hw]
    · have hsame : (g.isProfile != f.isProfile) = false := (sameSort_iff f g).mp hg
      have hpre := filter_otherSort (f := f) fun g hg => hothers g (List.mem_append_left post hg)
      have hpost := filter_otherSort (f := f) fun g hg => hothers g (List.mem_append_right pre hg)
      rw [issue_sending h, hw, List.filter_append, List.filter_cons, hsame, hpre, hpost]
      rfl
  · intro i s hp hdue l t next sends
    have hrow := exec_frameSent (i := i) hp hdue
    have hlane {u : Lane} (h : l.frameEnd = u) : exec (.frameSent i) s = .next (s.setLane i u) := h ▸ hrow
    refine ⟨fun h => ?_, fun m v w h hd => ?_, fun f w h hf hd => ?_, fun x h hd => ?_⟩
    · rw [hlane (laneFrameEnd_none h)]
      exact congrArg Host.Outcome.next (setLane_lane s i)
    · refine hlane ((laneFrameEnd_profile h hd).trans ?_)
      rw [frameEnd_kept h hd]
      rfl
    · refine hlane ((laneFrameEnd_plain h hf).trans ?_)
      rw [frameEnd_kept h hd]
      obtain rfl | rfl := hf <;> rfl
    · intro v
      have hend := laneFrameEnd_draining h hd
      obtain ⟨hnone, hhold, hother⟩ := frameEnd_draining h hd
      refine ⟨fun hw => hlane (hend.trans ?_), fun r hw => hlane (hend.trans ?_),
        fun f r hw hf => hlane (hend.trans ?_)⟩
      · rw [hnone hw]
      · rw [hhold r hw]
        rfl
      · rw [hother f r hw hf]

end Sys2Proof.Machine

namespace Sys2Proof.Machine

/-! ### What a tick brings about (R155, R156) -/

theorem mem_ite_single {α : Type} {p : Prop} [Decidable p] {a e : α} :
    e ∈ (if p then [a] else []) ↔ p ∧ e = a := by
  split
  · next h => simp [h]
  · next h => simp [h]

theorem lowered_zero_iff (o : Option Nat) : lowered o = some 0 ↔ o = some 1 ∨ o = some 0 := by
  cases o with
  | none => simp [lowered]
  | some n =>
    simp only [lowered, Option.map_some, Option.some.injEq]
    omega

section
variable {s : State}

theorem mem_holdsDue (e : TickEvent) : e ∈ holdsDue s ↔ ∃ i, (s.lane i).hold = some 0 ∧ e = .holdTimeout i := by
  simp only [holdsDue, List.mem_map, List.mem_filter, mem_lanesAll, true_and, beq_iff_eq]
  exact ⟨fun ⟨i, h, he⟩ => ⟨i, h, he.symm⟩, fun ⟨i, h, he⟩ => ⟨i, h, he.symm⟩⟩

/-- The countdowns, the interval and the sub-minute count after a second tick (R155). -/
def State.lowerSecond (s : State) : State :=
  { s with
    lanes := mapT Lane.second s.lanes
    door := { s.door with interval := lowered s.door.interval }
    clock := { s.clock with sub := if 59 ≤ s.clock.sub then 0 else s.clock.sub + 1 } }

/-- The events a second tick brings about (R155). -/
def State.secondEvents (s : State) : List TickEvent :=
  holdsDue s.lowerSecond ++ (if s.lowerSecond.door.interval == some 0 then [.intervalEnd] else []) ++
    (if 59 ≤ s.clock.sub then [.minuteTick] else [])

theorem secondNow_eq (h : s.due = []) : s.secondNow = { s.lowerSecond with due := s.secondEvents } := by
  have e : s.secondNow = { s.lowerSecond with due := s.due ++ holdsDue s.lowerSecond ++
      (if s.lowerSecond.door.interval == some 0 then [.intervalEnd] else []) ++
      (if 59 ≤ s.clock.sub then [.minuteTick] else []) } := rfl
  rw [e, h]
  rfl

theorem lowerSecond_lane (i : LaneIx) : s.lowerSecond.lane i = (s.lane i).second := mapT_get _ _ i

theorem mem_secondEvents (e : TickEvent) : e ∈ s.secondEvents ↔
    (∃ i, ((s.lane i).hold = some 1 ∨ (s.lane i).hold = some 0) ∧ e = .holdTimeout i) ∨
    ((s.door.interval = some 1 ∨ s.door.interval = some 0) ∧ e = .intervalEnd) ∨
    (59 ≤ s.clock.sub ∧ e = .minuteTick) := by
  have hhold (i : LaneIx) : (s.lowerSecond.lane i).hold = some 0 ↔
      (s.lane i).hold = some 1 ∨ (s.lane i).hold = some 0 := by
    rw [lowerSecond_lane]
    exact lowered_zero_iff _
  have hinterval : (s.lowerSecond.door.interval == some 0) = true ↔
      s.door.interval = some 1 ∨ s.door.interval = some 0 := by
    rw [beq_iff_eq]
    exact lowered_zero_iff _
  simp only [State.secondEvents, List.mem_append, mem_holdsDue, mem_ite_single, hhold, hinterval, or_assoc]

/-! ### The minute tick -/

/-- The clock, the round timer and the lockout after a minute tick (R155). -/
def State.lowerMinute (s : State) : State :=
  { s with
    clock := { s.clock with sub := 0 }.advance
    round := if s.timerRuns then { s.round with countdown := lowered s.round.countdown } else s.round
    auth := { s.auth with lockout := s.auth.lockout - 1 } }

/-- The events a minute tick brings about (R155). -/
def State.minuteEvents (s : State) : List TickEvent :=
  (if s.timerRuns && (s.lowerMinute.round.countdown == some 0) then [.timerExpiry] else []) ++
    (if s.auth.lockout == 1 then [.lockoutEnd] else []) ++ expiryDue s.lowerMinute 0 ++ expiryDue s.lowerMinute 1

theorem minuteNow_eq (h : s.due = []) : s.minuteNow = { s.lowerMinute with due := s.minuteEvents } := by
  have e : s.minuteNow = { s.lowerMinute with due := (s.due ++
      (if s.timerRuns && (s.lowerMinute.round.countdown == some 0) then [.timerExpiry] else []) ++
      (if s.auth.lockout == 1 then [.lockoutEnd] else []) ++ expiryDue s.lowerMinute 0 ++
      expiryDue s.lowerMinute 1) } := rfl
  rw [e, h]
  rfl

theorem expiring_iff (m : Manifest) (c : Clock) : m.expiring c = true ↔
    m.state ∈ [ManState.ready, .bags, .suspended, .locked] ∧
      m.closes.day * 1440 + m.closes.minute ≤ c.day * 1440 + c.minute := by
  have hexpires : m.state.expires = true ↔ m.state ∈ [ManState.ready, .bags, .suspended, .locked] := by
    cases m.state <;> simp [ManState.expires]
  rw [Manifest.expiring, Bool.and_eq_true, hexpires, decide_eq_true_iff]
  exact Iff.rfl

/-- A manifest whose window is closed at the clock of the state (R125). -/
def State.expired (s : State) (j : SlotIx) : Prop :=
  s.clock.isSet = true ∧ ∃ m, s.man j = some m ∧ m.state ∈ [ManState.ready, .bags, .suspended, .locked] ∧
    m.closes.day * 1440 + m.closes.minute ≤ s.clock.day * 1440 + s.clock.minute

theorem expired_iff (j : SlotIx) :
    (s.clock.isSet && (s.man j).any fun m => m.expiring s.clock) = true ↔ s.expired j := by
  rw [Bool.and_eq_true, State.expired]
  cases s.man j with
  | none => simp
  | some m => simp only [Option.any_some, expiring_iff, Option.some.injEq, exists_eq_left']

theorem mem_expiryDue (e : TickEvent) (j : SlotIx) : e ∈ expiryDue s j ↔ s.expired j ∧ e = .windowExpiry j := by
  rw [expiryDue, mem_ite_single, expired_iff]

theorem timerRuns_iff : s.timerRuns = true ↔ s.round.timerOn = true ∧ s.ret.latch = false ∧ s.resetLow = false := by
  simp [State.timerRuns, and_assoc]

theorem lowerMinute_countdown (h : s.timerRuns = true) :
    s.lowerMinute.round.countdown = lowered s.round.countdown := by
  simp only [State.lowerMinute, h, if_true]

theorem mem_minuteEvents (e : TickEvent) : e ∈ s.minuteEvents ↔
    (s.timerRuns = true ∧ (s.round.countdown = some 1 ∨ s.round.countdown = some 0)) ∧ e = .timerExpiry ∨
    s.auth.lockout = 1 ∧ e = .lockoutEnd ∨ ∃ j, s.lowerMinute.expired j ∧ e = .windowExpiry j := by
  have htimer : (s.timerRuns && (s.lowerMinute.round.countdown == some 0)) = true ↔
      s.timerRuns = true ∧ (s.round.countdown = some 1 ∨ s.round.countdown = some 0) := by
    rw [Bool.and_eq_true, beq_iff_eq, ← lowered_zero_iff]
    exact and_congr_right fun h => by rw [lowerMinute_countdown h]
  simp only [State.minuteEvents, List.mem_append, mem_ite_single, mem_expiryDue, htimer, beq_iff_eq, or_assoc,
    Fin.exists_fin_two]

/-- The clock after a minute tick (R156). -/
theorem advance_eq (c : Clock) : { c with sub := 0 : Clock }.advance =
    if c.isSet = false then { c with sub := 0 }
    else if c.minute < 1439 then ⟨true, c.day, c.minute + 1, 0⟩
    else if c.day < 65535 then ⟨true, c.day + 1, 0, 0⟩
    else ⟨true, 0, 0, 0⟩ := by
  obtain ⟨set, day, minute, sub⟩ := c
  cases set <;> rfl

theorem lowerMinute_isSet : s.lowerMinute.clock.isSet = s.clock.isSet := by
  have e : s.lowerMinute.clock = { s.clock with sub := 0 : Clock }.advance := rfl
  rw [e, advance_eq]
  cases h : s.clock.isSet with
  | false => rw [if_pos rfl]
  | true =>
    rw [if_neg (by decide)]
    split
    · rfl
    split <;> rfl

theorem ticking_iff : s.ticking = true ↔ s.powered = true ∧ s.ret.kind ≠ .deep := by
  simp [State.ticking]

theorem exec_secondTick (hdue : s.due = []) :
    exec .secondTick s = .next (if s.ticking then s.secondNow else s) := by
  have e : exec .secondTick s = .next (if s.settle.ticking then s.settle.secondNow else s.settle) := rfl
  rw [e, settle_of_nothing_due s hdue]

theorem exec_minuteTick (hdue : s.due = []) :
    exec .minuteTick s = .next (if s.ticking then s.minuteNow else s) := by
  have e : exec .minuteTick s = .next s.takeMinute := rfl
  rw [e, State.takeMinute, hdue, if_neg (by decide), settle_of_nothing_due s hdue]

theorem minute_eq {c : Clock} {r : RoundEngine} (hc : c = s.lowerMinute.clock) (hr : r = s.lowerMinute.round) :
    { s with clock := c, round := r, auth := { s.auth with lockout := s.auth.lockout - 1 } } = s.lowerMinute := by
  rw [hc, hr]
  rfl

end

/-- Settles O52: the two ticks with the events they bring about, and the timebase that stands. -/
theorem ticksLowerCountdowns : Obligations.TicksLowerCountdowns := by
  intro s hdue second runs minute
  have hruns : runs ↔ s.timerRuns = true := timerRuns_iff.symm
  have hminute : minute = s.lowerMinute := by
    have hround : minute.round = s.lowerMinute.round := if_congr hruns rfl rfl
    have hclock : minute.clock = s.lowerMinute.clock := (advance_eq s.clock).symm
    exact minute_eq hclock hround
  refine ⟨fun hp hk => ⟨⟨s.secondEvents, ?_, fun i => ?_, ?_, ?_⟩, ⟨s.minuteEvents, ?_, ?_, ?_, fun j => ?_⟩⟩,
    fun hstands => ?_⟩
  · rw [exec_secondTick hdue, if_pos (ticking_iff.mpr ⟨hp, hk⟩), secondNow_eq hdue]
    rfl
  · simp [mem_secondEvents]
  · simp [mem_secondEvents]
  · simp [mem_secondEvents]
  · rw [exec_minuteTick hdue, if_pos (ticking_iff.mpr ⟨hp, hk⟩), minuteNow_eq hdue, hminute]
  · simp [mem_minuteEvents, hruns]
  · simp [mem_minuteEvents]
  · rw [hminute, ← lowerMinute_isSet, mem_minuteEvents]
    refine ⟨fun h => ?_, fun h => .inr (.inr ⟨j, h, rfl⟩)⟩
    have hexp : s.lowerMinute.expired j := by simpa using h
    exact hexp
  · have hno : ¬s.ticking = true := by
      rw [ticking_iff]
      rintro ⟨hp, hk⟩
      obtain h | h := hstands
      · rw [hp] at h
        cases h
      · exact hk h
    rw [exec_secondTick hdue, exec_minuteTick hdue, if_neg hno, if_neg hno]
    exact ⟨rfl, rfl⟩

end Sys2Proof.Machine

namespace Sys2Proof.Machine

/-! ### Work in flight ended, and the output locked (R86, R144, R148, R165) -/

section
variable {s : State}

/-- The office after the end of the work in flight, as a pin reset and a cold power-up leave it (R59, R86, R144). -/
def State.workEnded (s : State) : State :=
  { s with
    tills := s.lanesDown.tills
    stock := s.lanesDown.stock
    mans := s.lanesDown.bagsToReady.mans
    lanes := s.lanesDown.lanes
    round := { s.round.cutShort s.stamp with countdown := if s.round.timerOn then some s.round.interval else none }
    callOverflow := false
    door := { s.door with interval := none } }

theorem endWork_eq_workEnded : s.endWork = s.workEnded := endWork_fields s

theorem workEnded_anyBags : s.workEnded.anyBags = false := bagsToReady_anyBags s.lanesDown

theorem undone_of_fields {t : State} (ht : t.tills = s.lanesDown.tills) (hk : t.stock = s.lanesDown.stock)
    (hm : t.mans = s.lanesDown.bagsToReady.mans) (hl : t.lanes = s.lanesDown.lanes) : s.undone t :=
  undone_congr s s _ t (undone_lanesDown s) rfl rfl rfl rfl ht hk hm hl

theorem workEnded_locked : s.workEnded.recomputeDoor .reset = { s.workEnded with
    door := s.lockedDown
    port := { s.port with attnPending := s.port.attnPending ||| (if s.leavesOpen then Source.safe.weight else 0) } } :=
  recomputeDoor_locks .reset s.workEnded workEnded_anyBags rfl

/-! ### A pin reset (R165) -/

/-- The port after a pin reset, with what a wake sets pending (R162, R165). -/
def State.resetPort (s : State) : Port :=
  { args := [], overflow := false, reply := [], readPos := 0, code := .ok, inProgress := none
    held := [], done := false, attnEnable := 0
    attnPending := if s.ret.kind = .none then 0 else Source.safe.weight
    dataOut := if .reply ∈ s.port.held then 0 else s.port.dataOut }

/-- Retention after a pin reset (R162, R165). -/
def State.resetRet (s : State) : Retention :=
  { s.ret with
    kind := .none
    latch := s.ret.latch || decide (s.ret.kind ≠ .none)
    cause := if s.ret.kind = .deep then (if s.ret.path = some .supply then .supply else .retention) else .pin }

theorem wakeCause_eq (p : Option EntryPath) :
    wakeCause p = if p = some .supply then .supply else .retention := by
  cases p with
  | none => rfl
  | some p => cases p <;> rfl

theorem pinReset_eq_after : s.pinReset = { s.workEnded with
    door := s.lockedDown, port := s.resetPort, ret := s.resetRet
    clock := if s.ret.kind = .deep then ⟨false, 0, 0, 0⟩ else s.clock } := by
  unfold State.pinReset
  dsimp only
  rw [endWork_eq_workEnded, workEnded_locked]
  unfold State.resetPort State.resetRet
  rw [← wakeCause_eq]
  cases hk : s.ret.kind
  all_goals simp [State.workEnded, State.raise, Port.pinReset, Port.cleared, Clock.unset]

theorem exec_pinReset (hp : s.powered = true) (hdue : s.due = []) (hlow : s.resetLow = false) :
    exec .pinReset s = .next { s.pinReset with resetLow := true } := by
  have e : exec .pinReset s = .next (assertReset s.settle) := rfl
  rw [e, settle_of_nothing_due s hdue, assertReset, if_neg (by simp [hp]), if_neg (by simp [hlow])]

end

/-- What undoing says of a state holds of it with RESET# at another level. -/
theorem pinReset_undone (s : State) (b : Bool) : s.undone { s.pinReset with resetLow := b } := by
  rw [pinReset_eq_after]
  exact undone_of_fields rfl rfl rfl rfl

theorem exec_resetDeassert {s : State} (hp : s.powered = true) (hdue : s.due = []) (hlow : s.resetLow = true)
    (hlines : s.lines = s.taken) : exec .resetDeassert s = .next { s with resetLow := false } := by
  have e : exec .resetDeassert s = .next (deassertReset s.settle) := rfl
  have hsame : changedLines { s with resetLow := false } = [] := by
    simp [changedLines, hlines]
  rw [e, settle_of_nothing_due s hdue, deassertReset, if_neg (by simp [hp]), if_neg (by simp [hlow])]
  simp only [lineOrder, hsame, List.foldl_nil, List.length_nil, Nat.zero_le, if_true]

/-- Settles O56: the pin reset in every retention kind, and the deassertion of RESET#. -/
theorem pinResetActs : Obligations.PinResetActs := by
  intro s hp hdue hlow
  refine ⟨{ s.pinReset with resetLow := true }, exec_pinReset hp hdue hlow, pinReset_undone s true, ?_,
    fun hlines => ?_⟩
  · rw [pinReset_eq_after]
    rfl
  · refine exec_resetDeassert ?_ ?_ rfl ?_
    all_goals
      rw [pinReset_eq_after]
      assumption

/-! ### A cold power-up (R166) -/

theorem coldPowerUp_broken {held : Bool} {s : State} (hdue : s.due = [])
    (h : s.ret.storeValid = false ∨ held = false) :
    exec (.coldPowerUp held) s = .next s.startBroken := by
  have e : exec (.coldPowerUp held) s = .next (coldPowerUp held s.settle) := rfl
  rw [e, settle_of_nothing_due s hdue, coldPowerUp]
  obtain h | h := h <;> simp [h]

theorem coldPowerUp_intact {s : State} (hdue : s.due = []) (h : s.ret.storeValid = true) :
    exec (.coldPowerUp true) s = .next s.startIntact := by
  have e : exec (.coldPowerUp true) s = .next (coldPowerUp true s.settle) := rfl
  rw [e, settle_of_nothing_due s hdue, coldPowerUp, h]
  rfl

/-- A state with the clock unset has the same work to undo. -/
theorem startIntact_eq {s : State} (hdue : s.due = []) (h : s.ret.storeValid = true) :
    let u := { s with clock := ⟨false, 0, 0, 0⟩ }
    s.startIntact = { s with
      tills := u.lanesDown.tills, stock := u.lanesDown.stock, mans := u.lanesDown.bagsToReady.mans
      lanes := u.lanesDown.lanes
      port := { State.reset.port with dataOut := s.port.dataOut }
      round := { s.round.cutShort none with
        countdown := if s.round.timerOn then some s.round.interval else none }
      callOverflow := false
      door := { unlocked := false, interval := none, leftOpen := s.door.leftOpen && s.lines.doorOpen
                event := s.door.event }
      clock := ⟨false, 0, 0, 0⟩
      ret := { s.ret with kind := .none, cause := .power }
      taken := s.lines
      powered := true } := by
  unfold State.startIntact
  dsimp only
  rw [endWork_eq_workEnded]
  have hport (d : Byte) : Port.cleared d = { State.reset.port with dataOut := d } := rfl
  simp only [State.workEnded, hport, hdue, h, Clock.unset]
  rfl

/-- Settles O57: a power-up with the store lost and with the store held. -/
theorem coldPowerUpActs : Obligations.ColdPowerUpActs := by
  intro held s hdue
  refine ⟨fun h => coldPowerUp_broken hdue h, fun h hheld => ?_⟩
  subst hheld
  refine ⟨s.startIntact, coldPowerUp_intact hdue h, ?_, ?_⟩
  · rw [startIntact_eq hdue h]
    exact undone_congr { s with clock := ⟨false, 0, 0, 0⟩ } s _ _ (undone_lanesDown _) rfl rfl rfl rfl rfl rfl rfl rfl
  · rw [startIntact_eq hdue h]

end Sys2Proof.Machine

namespace Sys2Proof.Machine

/-! ### A line taken at a level (R165, R183) -/

/-- The level of a line, at the pin and as last taken. -/
def State.atLevel (n : LineName) (b : Bool) (s : State) : State :=
  { s with lines := s.lines.set n b, taken := s.taken.set n b }

theorem lines_get_set (n : LineName) (b : Bool) (x : Lines) : (x.set n b).get n = b := by
  cases n <;> rfl

theorem lines_set_get (n : LineName) (x : Lines) : x.set n (x.get n) = x := by
  cases n <;> rfl

section
variable {s : State} {n : LineName} {b : Bool}

theorem lineLevel_eq (hlive : s.live = true) :
    lineLevel n b s = takeLevel n { s with lines := s.lines.set n b } := by
  obtain ⟨hp, hlow, -⟩ := (live_iff s).mp hlive
  exact if_neg (by simp [hp, hlow])

/-- A line already taken at its level brings nothing about (R165). -/
theorem lineLevel_same (hlive : s.live = true) (h : s.taken.get n = b) : lineLevel n b s = s.atLevel n b := by
  have hsame : s.taken.get n = (s.lines.set n b).get n := h.trans (lines_get_set n b s.lines).symm
  have htaken : s.taken.set n b = s.taken := by rw [← h, lines_set_get]
  rw [lineLevel_eq hlive, State.atLevel, htaken]
  exact if_pos hsame

theorem lineLevel_changed (hlive : s.live = true) (h : s.taken.get n ≠ b) :
    lineLevel n b s = actLine n b (s.atLevel n b) := by
  have hdiff : s.taken.get n ≠ (s.lines.set n b).get n := by rwa [lines_get_set]
  rw [lineLevel_eq hlive]
  refine (if_neg hdiff).trans ?_
  dsimp only
  rw [lines_get_set]
  rfl

/-- A change that has no effect (R53, R142, R164). -/
theorem lineLevel_quiet (hlive : s.live = true) (h : ∀ t, actLine n b t = t) : lineLevel n b s = s.atLevel n b := by
  by_cases hsame : s.taken.get n = b
  · exact lineLevel_same hlive hsame
  · rw [lineLevel_changed hlive hsame, h]

/-! ### The supply warning (R164) -/

theorem completeAll_of_idle (h : s.port.inProgress = none) : s.completeAll = s := by
  have hbusy : ¬s.port.busy = true := by simp [Port.busy, h]
  exact if_neg hbusy

/-- A running part under the supply warning, before its output is recomputed (R164). -/
def State.warned (s : State) : State :=
  { s with
    tills := s.lanesDown.tills, stock := s.lanesDown.stock, mans := s.lanesDown.bagsToReady.mans
    lanes := s.lanesDown.lanes
    round := s.round.cutShort s.stamp
    door := { s.door with interval := none }
    ret := { s.ret with latch := true, kind := .deep, path := some .supply }
    port := { s.port with attnPending := s.port.attnPending |||
      (if s.round.run = none then 0 else Source.round.weight) } }

theorem supplyEffects_eq : s.supplyEffects = { s.warned with
    door := s.lockedDown
    port := { s.port with attnPending := s.port.attnPending |||
      (if s.round.run = none then 0 else Source.round.weight) |||
      (if s.leavesOpen then Source.safe.weight else 0) } } := by
  have hbags : s.warned.anyBags = false := bagsToReady_anyBags s.lanesDown
  have hwarned : s.supplyEffects = s.warned.recomputeDoor .reset := by
    obtain ⟨_, _, _, h⟩ := lanesDown_frame s
    unfold State.supplyEffects State.warned
    rw [abortRound_cutShort, h]
    simp only [State.bagsToReady, State.stamp, Bool.true_eq_false, or_false]
    rfl
  rw [hwarned, recomputeDoor_locks .reset _ hbags rfl]
  rfl

theorem supplyAsserted_running (hidle : s.port.inProgress = none) (hk : s.ret.kind = .none) :
    supplyAsserted s = s.supplyEffects := by
  simp only [supplyAsserted, completeAll_of_idle hidle, hk]

theorem supplyAsserted_watch (hidle : s.port.inProgress = none) (hk : s.ret.kind = .watch) :
    supplyAsserted s = { s with ret := { s.ret with kind := .deep, path := some .supply } } := by
  simp only [supplyAsserted, completeAll_of_idle hidle, hk]

theorem supplyAsserted_deep (hidle : s.port.inProgress = none) (hk : s.ret.kind = .deep) :
    supplyAsserted s = s := by
  simp only [supplyAsserted, completeAll_of_idle hidle, hk]

theorem supplyEffects_undone : s.undone s.supplyEffects := by
  rw [supplyEffects_eq]
  exact undone_of_fields rfl rfl rfl rfl

end

/-- Settles O55: the supply lost, and the supply warning in every retention kind. -/
theorem supplyEventsAct : Obligations.SupplyEventsAct := by
  intro s hlive hlines high
  have hrow (b : Bool) : exec (.supplyWarning b) s = .next (lineLevel .supplyWarn b s) := by
    have e : exec (.supplyWarning b) s = .next (lineLevel .supplyWarn b s.settle) := rfl
    rw [e, settle_live s hlive]
  refine ⟨?_, ?_, fun hlow hidle => ?_⟩
  · have e : exec .supplyLost s = .next (supplyGone s.settle) := rfl
    rw [e, settle_live s hlive]
    rfl
  · rw [hrow, lineLevel_quiet hlive fun t => rfl]
    rfl
  · have hasserted : exec (.supplyWarning true) s = .next (supplyAsserted (high true)) := by
      rw [hrow, lineLevel_changed hlive (by rw [show s.taken.get .supplyWarn = _ from hlow]; decide)]
      rfl
    rw [hasserted]
    refine ⟨fun hk => ?_, fun hk => ?_, fun hk => ⟨(high true).supplyEffects, ?_, ?_, ?_⟩⟩
    · rw [supplyAsserted_watch (s := high true) hidle hk]
    · rw [supplyAsserted_deep (s := high true) hidle hk]
    · rw [supplyAsserted_running (s := high true) hidle hk]
    · exact undone_congr (high true) s _ _ supplyEffects_undone rfl rfl rfl rfl rfl rfl rfl rfl
    · rw [supplyEffects_eq]
      rfl

end Sys2Proof.Machine

namespace Sys2Proof.Machine

/-! ### Events that fall at a tick (log entry 4) -/

section
variable {s : State} {e : TickEvent}

theorem take_due (h : e ∈ s.due) : s.take e = fire e { s with due := s.due.erase e } :=
  if_pos (List.contains_iff_mem.mpr h)

theorem take_not_due (h : s.due = []) : s.take e = s := by
  rw [State.take, h, settle_of_nothing_due s h]
  rfl

theorem holdTimeoutNow_zero {i : LaneIx} (h : (s.lane i).hold = some 0) (hp : (s.lane i).state ≠ .unprofiled) :
    holdTimeoutNow i s = State.raise .lane (s.setLane i ((s.lane i).erring .timeout)) := by
  have herr := laneError_setLane .timeout i s (s.lane i) hp
  rw [setLane_lane] at herr
  exact (if_pos h).trans herr

theorem intervalEndNow_zero (h : s.door.interval = some 0) : intervalEndNow s =
    State.recomputeDoor .interval { s with door := { s.door with interval := none } } := if_pos h

/-- The round engine with a fresh interval before it (R52). -/
def RoundEngine.rewound (r : RoundEngine) : RoundEngine := { r with countdown := some r.interval }

theorem timerExpiryNow_zero (hon : s.round.timerOn = true) (hlatch : s.ret.latch = false)
    (h : s.round.countdown = some 0) : timerExpiryNow s =
      if s.round.run.isSome then { s with round := s.round.rewound }
      else State.startRound { s with round := s.round.rewound } :=
  if_pos (by simp [hon, hlatch, h])

theorem windowExpiryNow_expired {j : SlotIx} (h : s.expired j) : windowExpiryNow j s = s.expireSlot j :=
  if_pos ((expired_iff j).mpr h)

theorem expireSlot_of {j : SlotIx} {m : Manifest} (hm : s.man j = some m) (h : m.state.expires = true) :
    s.expireSlot j = State.raise .courier ((s.setMan j (some m.expire)).recomputeDoor .handover) := by
  simp only [State.expireSlot, hm, h, if_true]

theorem expires_iff (k : ManState) : k.expires = true ↔ k ∈ [ManState.ready, .bags, .suspended, .locked] := by
  cases k <;> simp [ManState.expires]

theorem expire_body_delivery {m : Manifest} {d : Delivery} (h : m.body = .delivery d) : m.expire.body = m.body := by
  simp only [Manifest.expire, h]

theorem expire_body_collection {m : Manifest} {c : Collection} (h : m.body = .collection c) :
    m.expire.body = .collection { c.revert with halted := none } := by
  simp only [Manifest.expire, h]

end

/-- Settles O53: each event that is due, and the events when none is. -/
theorem tickEventsAct : Obligations.TickEventsAct := by
  intro s without
  refine ⟨fun i hdue hhold hp => ?_, fun hdue hzero => ?_, fun hdue => ?_, ?_, ?_, fun hdue i j => ?_⟩
  · exact congrArg Host.Outcome.next ((take_due hdue).trans
      (holdTimeoutNow_zero (s := without (.holdTimeout i)) hhold hp))
  · exact congrArg Host.Outcome.next ((take_due hdue).trans
      (intervalEndNow_zero (s := without .intervalEnd) hzero))
  · exact congrArg Host.Outcome.next (take_due hdue)
  · intro hdue hon hlatch hzero fresh
    have hrow : exec .timerExpiry s = .next (timerExpiryNow (without .timerExpiry)) :=
      congrArg Host.Outcome.next (take_due hdue)
    rw [hrow, timerExpiryNow_zero (s := without .timerExpiry) hon hlatch hzero]
    refine ⟨fun hrun => ?_, fun hrun hroom => ?_⟩
    · rw [if_pos (Option.isSome_iff_ne_none.mpr hrun)]
      rfl
    · have hidle : ¬(without .timerExpiry).round.run.isSome = true := by
        rw [show (without .timerExpiry).round.run = none from hrun]
        decide
      rw [if_neg hidle]
      exact congrArg Host.Outcome.next (startRound_of_room hroom)
  · intro j m hdue hset hm hst hclosed
    have hexpired : (without (.windowExpiry j)).expired j := ⟨hset, m, hm, hst, hclosed⟩
    refine ⟨m.expire.body, ?_, fun d hd => expire_body_delivery hd, fun c hc => expire_body_collection hc⟩
    exact congrArg Host.Outcome.next ((take_due hdue).trans ((windowExpiryNow_expired hexpired).trans
      (expireSlot_of (s := without (.windowExpiry j)) hm ((expires_iff _).mpr hst))))
  · exact ⟨congrArg Host.Outcome.next (take_not_due hdue), congrArg Host.Outcome.next (take_not_due hdue),
      congrArg Host.Outcome.next (take_not_due hdue), congrArg Host.Outcome.next (take_not_due hdue),
      congrArg Host.Outcome.next (take_not_due hdue)⟩

/-! ### Line inputs (R53, R142, R152) -/

section
variable {s : State}

theorem raise_raise (x : Source) : State.raise x (State.raise x s) = State.raise x s := by
  simp [State.raise, BitVec.or_assoc]

theorem courierCall_running (h : s.ret.kind = .none) : courierCall s = State.raise .courier s := by
  simp only [courierCall, h]

theorem courierCall_watch (h : s.ret.kind = .watch) : courierCall s = (State.raise .courier s).wakeWatch := by
  simp only [courierCall, h]

theorem courierCall_deep (h : s.ret.kind = .deep) : courierCall s = s := by
  simp only [courierCall, h]

theorem doorChange_running (b : Bool) (h : s.ret.kind = .none) : doorChange b s = s.judgeDoor b := by
  simp only [doorChange, h]

theorem doorChange_watch (b : Bool) (h : s.ret.kind = .watch) : doorChange b s = (s.judgeDoor b).wakeWatch := by
  simp only [doorChange, h]

theorem doorChange_deep (b : Bool) (h : s.ret.kind = .deep) : doorChange b s = s.pinReset.judgeDoor b := by
  simp only [doorChange, h]

theorem judgeDoor_unlocked (h : s.door.unlocked = true) : s.judgeDoor true = s := by
  simp only [State.judgeDoor, h, if_true]

theorem judgeDoor_forced (h : s.door.unlocked = false) : s.judgeDoor true =
    State.raise .safe { s with door := { s.door with event := some ⟨.forced, s.stamp⟩ } } := by
  simp only [State.judgeDoor, h, if_true, Bool.false_eq_true, if_false]

theorem judgeDoor_shut : s.judgeDoor false = { s with door := { s.door with leftOpen := false } } := rfl

theorem roundPulse_starts (htrig : s.round.trigOn = true) (hk : s.ret.kind = .none) (hrun : s.round.run = none) :
    roundPulse s = s.startRound := if_pos (by simp [htrig, hk, hrun])

theorem roundPulse_nothing (h : s.round.trigOn = false ∨ s.ret.kind ≠ .none ∨ s.round.run ≠ none) :
    roundPulse s = s := by
  refine if_neg ?_
  simp only [Bool.and_eq_true, beq_iff_eq, Option.isNone_iff_eq_none]
  rintro ⟨⟨htrig, hk⟩, hrun⟩
  obtain h | h | h := h
  · rw [htrig] at h
    cases h
  · exact h hk
  · exact h hrun

end

/-- The output is locked and the clock unset after a reset that wakes the part from DEEP (R162, R165). -/
theorem pinReset_judged {u : State} (hk : u.ret.kind = .deep) (hlow : u.resetLow = false) (b : Bool) :
    let r := { u.pinReset with resetLow := true }
    u.pinReset.judgeDoor b =
      if b then State.raise .safe { r with resetLow := false, door := { r.door with event := some ⟨.forced, none⟩ } }
      else { r with resetLow := false, door := { r.door with leftOpen := false } } := by
  have hlow' : u.pinReset.resetLow = false := by
    rw [pinReset_eq_after]
    exact hlow
  have hlocked : u.pinReset.door.unlocked = false := by
    rw [pinReset_eq_after]
    rfl
  have hstamp : u.pinReset.stamp = none := by
    rw [pinReset_eq_after]
    simp only [State.stamp, hk, if_true, Bool.false_eq_true, if_false]
  intro r
  cases b with
  | true =>
    rw [judgeDoor_forced hlocked, hstamp]
    exact congrArg (fun low => State.raise .safe { u.pinReset with
      resetLow := low, door := { u.pinReset.door with event := some ⟨.forced, none⟩ } }) hlow'
  | false =>
    rw [judgeDoor_shut]
    exact congrArg (fun low => { u.pinReset with
      resetLow := low, door := { u.pinReset.door with leftOpen := false } }) hlow'

/-- A row that gives a line its level, at a live part. -/
theorem exec_line {s : State} {n : LineName} {b : Bool} {x : Instr}
    (exec_row : exec x s = .next (lineLevel n b s.settle)) (hlive : s.live = true) :
    exec x s = .next (lineLevel n b s) := by
  rw [exec_row, settle_live s hlive]

/-- Settles O54: the courier line, the round line and the door sense, in every retention kind. -/
theorem lineInputsAct : Obligations.LineInputsAct := by
  intro s hlive hlines high
  have hcourier (b : Bool) : exec (.courierCall b) s = .next (lineLevel .courierIn b s) :=
    exec_line (exec_row := rfl) hlive
  have hround (b : Bool) : exec (.roundInPulse b) s = .next (lineLevel .roundIn b s) :=
    exec_line (exec_row := rfl) hlive
  have hdoor (b : Bool) : exec (.doorSenseChange b) s = .next (lineLevel .doorSense b s) :=
    exec_line (exec_row := rfl) hlive
  have hcalled (h : s.taken.courierIn = false) :
      exec (.courierCall true) s = .next (courierCall (high .courierIn true)) :=
    (hcourier true).trans (congrArg Host.Outcome.next (lineLevel_changed hlive (ne_true_of_eq_false h)))
  have hpulsed (h : s.taken.roundIn = false) :
      exec (.roundInPulse true) s = .next (roundPulse (high .roundIn true)) :=
    (hround true).trans (congrArg Host.Outcome.next (lineLevel_changed hlive (ne_true_of_eq_false h)))
  have hchanged {b : Bool} (h : s.taken.doorOpen ≠ b) :
      exec (.doorSenseChange b) s = .next (doorChange b (high .doorSense b)) :=
    (hdoor b).trans (congrArg Host.Outcome.next (lineLevel_changed hlive h))
  have hopened (h : s.taken.doorOpen = false) := hchanged (ne_true_of_eq_false h)
  have hclosed (h : s.taken.doorOpen = true) := hchanged (ne_false_of_eq_true h)
  refine ⟨fun hlow => ⟨fun hk => ?_, fun hk => ?_, fun hk => ?_⟩, ?_,
    fun hlow => ⟨fun htrig hk hrun hroom => ?_, fun h => ?_⟩, ?_,
    fun hk => ⟨fun hshut hun => ?_, fun hshut hlocked => ?_, fun hop => ?_⟩, ?_, ?_⟩
  · rw [hcalled hlow, courierCall_running (s := high .courierIn true) hk]
  · rw [hcalled hlow, courierCall_watch (s := high .courierIn true) hk]
    rfl
  · rw [hcalled hlow, courierCall_deep (s := high .courierIn true) hk]
  · rw [hcourier, lineLevel_quiet hlive fun t => rfl]
    rfl
  · rw [hpulsed hlow, roundPulse_starts (s := high .roundIn true) htrig hk hrun]
    exact congrArg Host.Outcome.next (startRound_of_room hroom)
  · rw [hpulsed hlow, roundPulse_nothing (s := high .roundIn true) h]
  · rw [hround, lineLevel_quiet hlive fun t => rfl]
    rfl
  · rw [hopened hshut, doorChange_running (s := high .doorSense true) true hk,
      judgeDoor_unlocked (s := high .doorSense true) hun]
  · rw [hopened hshut, doorChange_running (s := high .doorSense true) true hk,
      judgeDoor_forced (s := high .doorSense true) hlocked]
    rfl
  · rw [hclosed hop, doorChange_running (s := high .doorSense false) false hk]
    rfl
  · intro hk woken
    refine ⟨fun hshut hun => ?_, fun hshut hlocked => ?_, fun hop => ?_⟩
    · rw [hopened hshut, doorChange_watch (s := high .doorSense true) true hk,
        judgeDoor_unlocked (s := high .doorSense true) hun]
      rfl
    · rw [hopened hshut, doorChange_watch (s := high .doorSense true) true hk,
        judgeDoor_forced (s := high .doorSense true) hlocked]
      exact congrArg Host.Outcome.next (raise_raise (s := { high .doorSense true with
        ret := { s.ret with kind := .none }
        door := { s.door with event := some ⟨.forced, s.stamp⟩ } }) .safe)
    · rw [hclosed hop, doorChange_watch (s := high .doorSense false) false hk]
      rfl
  · intro hk b hb
    obtain ⟨hp, hlow, hdue⟩ := (live_iff s).mp hlive
    refine ⟨_, exec_pinReset (s := high .doorSense b) hp hdue hlow, ?_⟩
    rw [hchanged hb, doorChange_deep (s := high .doorSense b) b hk]
    exact congrArg Host.Outcome.next (pinReset_judged (u := high .doorSense b) hk hlow b)

end Sys2Proof.Machine
